-- ==== Sys2Proof/Word.lean ====
section
/-!
DEFINITION. The words of the machine (01_machine.md R1 to R4): an `s` register holds 64 bits, a vector register 512, an
instruction word 32. Only the types stand here; the arithmetic on them is in Machine/Num.lean and Machine/Operands.lean.
-/
namespace Sys2Proof

/-- A 64-bit register value. -/
abbrev Word := BitVec 64
/-- One byte. -/
abbrev Byte := BitVec 8
/-- A 512-bit vector register value (R161). -/
abbrev Vec := BitVec 512
/-- A 32-bit instruction word or engine-word slot (R49). -/
abbrev W32 := BitVec 32

end Sys2Proof
end

