-- ==== Sys2Proof/Syntax.lean ====
section
/-!
DEFINITION. The instruction syntax: one constructor of `Instr` per row of spec/opcode_table.json (03_encoding.md R57 to R64;
the engine words of 08, 09 and 11; the device steps of 95_what_each_step_holds.md). Operand codes are names, not bits.
-/
namespace Sys2Proof

/-- An `s` register number. -/
abbrev SReg := BitVec 5
/-- A `v` register number. -/
abbrev VReg := BitVec 5
/-- An `m` register number (R50: bits 2:0 of its field). -/
abbrev MReg := BitVec 3
/-- A lookahead field N (R68). -/
abbrev La := BitVec 4
/-- A core's linear index (R9): die in bits 11:10, cluster row and column, core in the cluster. -/
abbrev CoreId := BitVec 12
/-- A die, 0 to 3. -/
abbrev DieId := BitVec 2
/-- A cluster of the device: die in bits 9:8. -/
abbrev ClusterId := BitVec 10
/-- A Prism: twice its west or south core's linear index, plus 1 for the Prism on that core's N link, 0 for its E link. -/
abbrev PrismId := BitVec 13
/-- A hardware context of a core. -/
abbrev CtxNum := BitVec 2
/-- A command queue (R290). -/
abbrev CmdQ := BitVec 6
/-- A dispatcher entry slot (R295). -/
abbrev SlotNum := BitVec 2
/-- A power region of a die (R302). -/
abbrev RegionNum := BitVec 4

/-- The access type code SZ of loads and stores (R53). -/
inductive MemType where | n8 | n16 | n32 | n64 | i8 | i16 | i32
  deriving DecidableEq, Repr
/-- A 32-bit or 64-bit access (R61, R62). -/
inductive MemW where | w32 | w64
  deriving DecidableEq, Repr
/-- The level of a cache maintenance instruction (R61). -/
inductive Level where | l1 | slice | home
  deriving DecidableEq, Repr
/-- The scope SC of an atomic (R61). -/
inductive AScope where | die | device
  deriving DecidableEq, Repr
/-- The scope of a fence (R63). -/
inductive FScope where | cl | di | dv | sy
  deriving DecidableEq, Repr
/-- The integer type code TY (R62). -/
inductive IntTy where | i8 | i16 | i32 | i64 | n8 | n16 | n32 | n64
  deriving DecidableEq, Repr
/-- The floating-point type code FT (R62). -/
inductive FloatTy where | f64 | f32 | f16 | bf16
  deriving DecidableEq, Repr
/-- The type code T4 (R62). -/
inductive ElemTy where
  | i8 | i16 | i32 | i64 | n8 | n16 | n32 | n64 | f64 | f32 | f16 | bf16 | e4m3 | e5m2 | e2m1 | i4
  deriving DecidableEq, Repr
/-- The quantise target QT (R62). -/
inductive QuantTy where | e4m3 | e5m2 | e2m1 | i8 | i4
  deriving DecidableEq, Repr
/-- The element size ES of a permute (R62). -/
inductive ElemSize where | e8 | e16 | e32 | e64
  deriving DecidableEq, Repr
/-- A rounding field RM: a mode of R35, or the mode in RMODE (R62). -/
inductive Rm where | rne | rz | rdn | rup | rna | csr
  deriving DecidableEq, Repr
/-- An engine queue, in the order of R56 CLASS. -/
inductive QueueId where | pn | pe | ps | pw | cp | ga | mi | kq
  deriving DecidableEq, Repr
/-- A Prism end of a core, in the order of R56 CLASS. -/
inductive End where | north | east | south | west
  deriving DecidableEq, Repr
/-- The shared engines of a cluster (R10). -/
inductive EngineId where | copy | gather | mirror
  deriving DecidableEq, Repr
/-- The role of an end in a paired Prism operation (R190). -/
inductive Role where | a | b
  deriving DecidableEq, Repr
/-- The destination kind DK of `pr.out` (R207). -/
inductive Dk where | tcm | spad | glob
  deriving DecidableEq, Repr
/-- The function OP of `ga.upd` (R230). -/
inductive GaOp where | add | max | min | rep
  deriving DecidableEq, Repr
/-- The type T of `ga.upd` (R230). -/
inductive GaTy where | i32 | n32 | f32 | i64 | n64 | f64
  deriving DecidableEq, Repr
/-- The metric MODE of `mi.qry` (R271). -/
inductive MiMode where | absmax | relmax | l1
  deriving DecidableEq, Repr
/-- A slot that takes KIND 1 or KIND 2 (R55): a field of 30 bits, or a register. -/
inductive EOp where
  | imm (v : BitVec 30)
  | reg (r : SReg)
  deriving DecidableEq, Repr
/-- Slot 3 of `kick` (R223): RCORE and TAG as fields, with the two bits above RCORE, or a register that supplies both. -/
inductive KOp where
  | imm (hi : BitVec 2) (rcore : BitVec 12) (tag : BitVec 16)
  | reg (r : SReg)
  deriving DecidableEq, Repr

/-- The control and status registers of R123. -/
inductive Csr where
  | taskid | age | tile | core | ctx | budget | rmode | qmode | fstat | vprog | fltinfo | fltaddr | upcall | upsrc | evq
  | seq (q : QueueId) | mirth | mirrun | mirhit | mirmiss | cycle | time | tvec | tepc | tcause | tscr
  deriving DecidableEq, Repr

/-- A function with a ready bit (R327, R328): bit `bit` of RDY of die `die`. -/
structure FunctionId where
  die : DieId
  bit : BitVec 6
  deriving DecidableEq, Repr

/-- Where a stored bit flips (R381, R382). -/
inductive ErrorSite where
  /-- A unit of a memory at a byte location; `unc` when the code cannot correct it. -/
  | memory (loc : Nat) (unc : Bool)
  /-- A scalar, vector or mask register of a context. -/
  | sreg (c : CoreId) (x : CtxNum) (r : SReg) (unc : Bool)
  | vreg (c : CoreId) (x : CtxNum) (r : VReg) (unc : Bool)
  | mreg (c : CoreId) (x : CtxNum) (r : MReg) (unc : Bool)
  | csr (c : CoreId) (x : CtxNum) (r : Csr) (unc : Bool)
  /-- A queued engine word. -/
  | word (c : CoreId) (q : QueueId) (i : Nat) (unc : Bool)
  /-- The `i`-th line that the L1 caches of a core hold, and the `i`-th entry of the slices' TLBs of a die. -/
  | l1 (c : CoreId) (i : Nat) (unc : Bool)
  | tlb (d : DieId) (i : Nat) (unc : Bool)
  /-- The sector of a location in slice data of a die, and the tag or directory entry of its line. -/
  | slice (d : DieId) (loc : Nat) (unc : Bool)
  | tag (d : DieId) (loc : Nat) (unc : Bool)
  /-- A hot-line array of a die. -/
  | hotLine (d : DieId) (unc : Bool)
  /-- The `i`-th sector that the scale cache of an end of a Prism holds; `second` for its second end. -/
  | scale (p : PrismId) (second : Bool) (i : Nat) (unc : Bool)
  deriving DecidableEq, Repr

/-- The function of a Wifort atomic (R389, R159). -/
inductive AtomicFn where | swap | cas | add | and | or | xor | max | min | maxn | minn
  deriving DecidableEq, Repr

/-- The cores an Iris trigger of the management port names (R308). -/
inductive Partition where
  | gang (g : BitVec 12)
  | die (d : DieId)
  | device
  deriving DecidableEq, Repr
/-- A step of an Iris signal: it reaches a core, or the management port sends it to a partition (R308, R311). -/
inductive IrisStep where
  | arrival (c : CoreId)
  | port (p : Partition)
  deriving DecidableEq, Repr

/-- What a request that arrives over Wifort asks for (R389). -/
inductive WifortAccess where
  | read (pa : BitVec 52) (bytes : BitVec 8)
  | write (pa : BitVec 52) (data : List Byte)
  | atomic (pa : BitVec 52) (fn : AtomicFn) (w : MemW) (operand compare : Word)
  deriving DecidableEq, Repr
/-- A request that arrives over Wifort for a home on this device (R389), with the node and core that sent it (R391). -/
structure WifortRequest where
  node : BitVec 12
  core : CoreId
  access : WifortAccess
  deriving DecidableEq, Repr
/-- ANY and PIPE of a `cp.pull` (R226): REL 0 leaves PIPE unused, and REL 1 ANY. -/
structure PullFrom where
  any : Bool
  pipe : BitVec 3
  deriving DecidableEq, Repr

/-- One instruction: a row of spec/opcode_table.json. -/
inductive Instr where
  /-- ADD (R113): Writes the sum of two s registers modulo 2^64. -/
  | add (d : SReg) (a : SReg) (b : SReg)
  /-- SUB (R113): Writes the difference of two s registers modulo 2^64. -/
  | sub (d : SReg) (a : SReg) (b : SReg)
  /-- MUL (R113): Writes the low 64 bits of the product. -/
  | mul (d : SReg) (a : SReg) (b : SReg)
  /-- MULH (R113): Writes the high 64 bits of the signed 128-bit product. -/
  | mulh (d : SReg) (a : SReg) (b : SReg)
  /-- MULHN (R113): Writes the high 64 bits of the unsigned 128-bit product. -/
  | mulhn (d : SReg) (a : SReg) (b : SReg)
  /-- DIV (R115): Signed division truncated toward zero, with lookahead and fixed results for the borderline cases. -/
  | div (d : SReg) (a : SReg) (b : SReg) (l : La)
  /-- DIVN (R115): Unsigned division with lookahead. -/
  | divn (d : SReg) (a : SReg) (b : SReg) (l : La)
  /-- REM (R115): Signed remainder with the sign of the dividend, with lookahead. -/
  | rem (d : SReg) (a : SReg) (b : SReg) (l : La)
  /-- REMN (R115): Unsigned remainder with lookahead. -/
  | remn (d : SReg) (a : SReg) (b : SReg) (l : La)
  /-- AND (R113): Bitwise AND of two s registers. -/
  | and (d : SReg) (a : SReg) (b : SReg)
  /-- OR (R113): Bitwise OR of two s registers. -/
  | or (d : SReg) (a : SReg) (b : SReg)
  /-- XOR (R113): Bitwise XOR of two s registers. -/
  | xor (d : SReg) (a : SReg) (b : SReg)
  /-- SLL (R113): Shifts left by the low six bits of B. -/
  | sll (d : SReg) (a : SReg) (b : SReg)
  /-- SRL (R113): Shifts right with zeros by the low six bits of B. -/
  | srl (d : SReg) (a : SReg) (b : SReg)
  /-- SRA (R113): Shifts right with copies of bit 63. -/
  | sra (d : SReg) (a : SReg) (b : SReg)
  /-- ROL (R113): Rotates left by the low six bits of B. -/
  | rol (d : SReg) (a : SReg) (b : SReg)
  /-- ROR (R113): Rotates right by the low six bits of B. -/
  | ror (d : SReg) (a : SReg) (b : SReg)
  /-- CLZ (R113): Counts leading zero bits. -/
  | clz (d : SReg) (a : SReg)
  /-- CTZ (R113): Counts trailing zero bits. -/
  | ctz (d : SReg) (a : SReg)
  /-- POP (R113): Counts one bits. -/
  | pop (d : SReg) (a : SReg)
  /-- MIN (R113): Signed minimum. -/
  | min (d : SReg) (a : SReg) (b : SReg)
  /-- MAX (R113): Signed maximum. -/
  | max (d : SReg) (a : SReg) (b : SReg)
  /-- MINN (R113): Unsigned minimum. -/
  | minn (d : SReg) (a : SReg) (b : SReg)
  /-- MAXN (R113): Unsigned maximum. -/
  | maxn (d : SReg) (a : SReg) (b : SReg)
  /-- ADDA (R116): Adds within bits 53:0 modulo 2^54 and keeps the format bits of A. -/
  | adda (d : SReg) (a : SReg) (b : SReg)
  /-- SEQ (R113): Writes 1 if the operands are equal. -/
  | seq (d : SReg) (a : SReg) (b : SReg)
  /-- SNE (R113): Writes 1 if the operands differ. -/
  | sne (d : SReg) (a : SReg) (b : SReg)
  /-- SLT (R113): Writes 1 if A is less than B, signed. -/
  | slt (d : SReg) (a : SReg) (b : SReg)
  /-- SLTN (R113): Writes 1 if A is less than B, unsigned. -/
  | sltn (d : SReg) (a : SReg) (b : SReg)
  /-- SLE (R113): Writes 1 if A is less than or equal to B, signed. -/
  | sle (d : SReg) (a : SReg) (b : SReg)
  /-- SLEN (R113): Writes 1 if A is less than or equal to B, unsigned. -/
  | slen (d : SReg) (a : SReg) (b : SReg)
  /-- SEL (R114): Writes A if C is non-zero and B otherwise. -/
  | sel (d : SReg) (a : SReg) (b : SReg) (c : SReg)
  /-- ADDI (R117): Adds a sign-extended immediate. -/
  | addi (d : SReg) (a : SReg) (i : BitVec 16)
  /-- ANDI (R117): ANDs with a zero-extended immediate. -/
  | andi (d : SReg) (a : SReg) (i : BitVec 16)
  /-- ORI (R117): ORs with a zero-extended immediate. -/
  | ori (d : SReg) (a : SReg) (i : BitVec 16)
  /-- XORI (R117): XORs with a zero-extended immediate. -/
  | xori (d : SReg) (a : SReg) (i : BitVec 16)
  /-- SLLI (R117): Shifts left by an immediate amount. -/
  | slli (d : SReg) (a : SReg) (n : BitVec 6)
  /-- SRLI (R117): Shifts right with zeros by an immediate amount. -/
  | srli (d : SReg) (a : SReg) (n : BitVec 6)
  /-- SRAI (R117): Shifts right arithmetically by an immediate amount. -/
  | srai (d : SReg) (a : SReg) (n : BitVec 6)
  /-- RORI (R117): Rotates right by an immediate amount. -/
  | rori (d : SReg) (a : SReg) (n : BitVec 6)
  /-- SLTI (R117): Signed compare with a sign-extended immediate. -/
  | slti (d : SReg) (a : SReg) (i : BitVec 16)
  /-- SLTIN (R117): Unsigned compare with a sign-extended immediate. -/
  | sltin (d : SReg) (a : SReg) (i : BitVec 16)
  /-- LI (R117): Loads a sign-extended 16-bit immediate. -/
  | li (d : SReg) (i : BitVec 16)
  /-- LIS16 (R117): Inserts the immediate at bits 31:16 of D. -/
  | lis16 (d : SReg) (i : BitVec 16)
  /-- LIS32 (R117): Inserts the immediate at bits 47:32 of D. -/
  | lis32 (d : SReg) (i : BitVec 16)
  /-- LIS48 (R117): Inserts the immediate at bits 63:48 of D. -/
  | lis48 (d : SReg) (i : BitVec 16)
  /-- ADDAI (R116): Adds a sign-extended immediate as adda does. -/
  | addai (d : SReg) (a : SReg) (i : BitVec 16)
  /-- BEQ (R118): Branches if A equals B. -/
  | beq (a : SReg) (b : SReg) (o : BitVec 16)
  /-- BNE (R118): Branches if A differs from B. -/
  | bne (a : SReg) (b : SReg) (o : BitVec 16)
  /-- BLT (R118): Branches if A is less than B, signed. -/
  | blt (a : SReg) (b : SReg) (o : BitVec 16)
  /-- BGE (R118): Branches if A is at least B, signed. -/
  | bge (a : SReg) (b : SReg) (o : BitVec 16)
  /-- BLTN (R118): Branches if A is less than B, unsigned. -/
  | bltn (a : SReg) (b : SReg) (o : BitVec 16)
  /-- BGEN (R118): Branches if A is at least B, unsigned. -/
  | bgen (a : SReg) (b : SReg) (o : BitVec 16)
  /-- B (R119): Branches always to a 25-bit relative target. -/
  | b (o : BitVec 25)
  /-- BL (R119): Branches always and writes the return address to s1. -/
  | bl (o : BitVec 25)
  /-- BR (R120): Indirect branch to the address in A with no link. -/
  | br (a : SReg)
  /-- BLR (R120): Indirect branch that writes the return address to the link register. -/
  | blr (a : SReg) (l : SReg)
  /-- RET (R120): Returns to the address in s1. -/
  | ret
  /-- LD (R155): Loads one aligned value of the SZ type, with lookahead and swizzle. -/
  | ld (d : SReg) (a : SReg) (l : La) (w : BitVec 3) (z : MemType) (o : BitVec 6)
  /-- ST (R155): Stores one aligned value into the store buffer, with swizzle. -/
  | st (d : SReg) (a : SReg) (w : BitVec 3) (z : MemType) (o : BitVec 6)
  /-- LD_HINTED (R156): Loads with a use count and dead hint that act at the slice. -/
  | ldHinted (d : SReg) (a : SReg) (l : La) (k : BitVec 4) (e : Bool) (z : MemType) (o : BitVec 4)
  /-- TCH (R149): Translates the page, pins the translation in every slice of the die, and may park on a page fault. -/
  | tch (a : SReg) (l : La) (o : BitVec 6)
  /-- PF_L1 (R157): Prefetches the L1D line of the address. -/
  | pfL1 (a : SReg) (o : BitVec 6)
  /-- PF_SL (R157): Prefetches the slice line of the address. -/
  | pfSl (a : SReg) (o : BitVec 6)
  /-- CMO_CLN (R158): Cleans a range at the chosen level. -/
  | cmoCln (a : SReg) (b : SReg) (l : La) (v : Level)
  /-- CMO_INV (R158): Invalidates a range at the chosen level. -/
  | cmoInv (a : SReg) (b : SReg) (l : La) (v : Level)
  /-- CMO_CLI (R158): Cleans and then invalidates a range at the chosen level. -/
  | cmoCli (a : SReg) (b : SReg) (l : La) (v : Level)
  /-- AMO_SWAP (R159): Atomically swaps a location with B at die or device scope. -/
  | amoSwap (d : SReg) (a : SReg) (b : SReg) (l : La) (z : MemW) (c : AScope)
  /-- AMO_CAS (R159): Atomically writes B if the old value equals D, and returns the old value. -/
  | amoCas (d : SReg) (a : SReg) (b : SReg) (l : La) (z : MemW) (c : AScope)
  /-- AMO_ADD (R159): Atomic add with wrap. -/
  | amoAdd (d : SReg) (a : SReg) (b : SReg) (l : La) (z : MemW) (c : AScope)
  /-- AMO_AND (R159): Atomic bitwise AND. -/
  | amoAnd (d : SReg) (a : SReg) (b : SReg) (l : La) (z : MemW) (c : AScope)
  /-- AMO_OR (R159): Atomic bitwise OR. -/
  | amoOr (d : SReg) (a : SReg) (b : SReg) (l : La) (z : MemW) (c : AScope)
  /-- AMO_XOR (R159): Atomic bitwise XOR. -/
  | amoXor (d : SReg) (a : SReg) (b : SReg) (l : La) (z : MemW) (c : AScope)
  /-- AMO_MAX (R159): Atomic signed maximum. -/
  | amoMax (d : SReg) (a : SReg) (b : SReg) (l : La) (z : MemW) (c : AScope)
  /-- AMO_MIN (R159): Atomic signed minimum. -/
  | amoMin (d : SReg) (a : SReg) (b : SReg) (l : La) (z : MemW) (c : AScope)
  /-- AMO_MAXN (R159): Atomic unsigned maximum. -/
  | amoMaxn (d : SReg) (a : SReg) (b : SReg) (l : La) (z : MemW) (c : AScope)
  /-- AMO_MINN (R159): Atomic unsigned minimum. -/
  | amoMinn (d : SReg) (a : SReg) (b : SReg) (l : La) (z : MemW) (c : AScope)
  /-- RED_ADD (R160): Sends a wrapping add reduction to a global element. -/
  | redAdd (a : SReg) (b : SReg) (z : MemW)
  /-- RED_AND (R160): Sends an AND reduction. -/
  | redAnd (a : SReg) (b : SReg) (z : MemW)
  /-- RED_OR (R160): Sends an OR reduction. -/
  | redOr (a : SReg) (b : SReg) (z : MemW)
  /-- RED_XOR (R160): Sends an XOR reduction. -/
  | redXor (a : SReg) (b : SReg) (z : MemW)
  /-- RED_MAX (R160): Sends a signed maximum reduction. -/
  | redMax (a : SReg) (b : SReg) (z : MemW)
  /-- RED_MIN (R160): Sends a signed minimum reduction. -/
  | redMin (a : SReg) (b : SReg) (z : MemW)
  /-- RED_MAXN (R160): Sends an unsigned maximum reduction. -/
  | redMaxn (a : SReg) (b : SReg) (z : MemW)
  /-- RED_MINN (R160): Sends an unsigned minimum reduction. -/
  | redMinn (a : SReg) (b : SReg) (z : MemW)
  /-- RED_FADD (R160): Sends a floating-point add reduction, rounded to nearest even. -/
  | redFadd (a : SReg) (b : SReg) (z : MemW)
  /-- RED_FMAX (R160): Sends a floating-point maximum reduction. -/
  | redFmax (a : SReg) (b : SReg) (z : MemW)
  /-- RED_FMIN (R160): Sends a floating-point minimum reduction. -/
  | redFmin (a : SReg) (b : SReg) (z : MemW)
  /-- VADD (R166): Vector integer add. -/
  | vadd (d : VReg) (a : VReg) (b : VReg) (k : MReg) (t : IntTy)
  /-- VSUB (R166): Vector integer subtract. -/
  | vsub (d : VReg) (a : VReg) (b : VReg) (k : MReg) (t : IntTy)
  /-- VMUL (R166): Vector integer multiply, low bits. -/
  | vmul (d : VReg) (a : VReg) (b : VReg) (k : MReg) (t : IntTy)
  /-- VMULH (R166): Vector integer multiply, high bits. -/
  | vmulh (d : VReg) (a : VReg) (b : VReg) (k : MReg) (t : IntTy)
  /-- VMIN (R166): Vector integer minimum. -/
  | vmin (d : VReg) (a : VReg) (b : VReg) (k : MReg) (t : IntTy)
  /-- VMAX (R166): Vector integer maximum. -/
  | vmax (d : VReg) (a : VReg) (b : VReg) (k : MReg) (t : IntTy)
  /-- VAND (R166): Vector bitwise AND. -/
  | vand (d : VReg) (a : VReg) (b : VReg) (k : MReg) (t : IntTy)
  /-- VOR (R166): Vector bitwise OR. -/
  | vor (d : VReg) (a : VReg) (b : VReg) (k : MReg) (t : IntTy)
  /-- VXOR (R166): Vector bitwise XOR. -/
  | vxor (d : VReg) (a : VReg) (b : VReg) (k : MReg) (t : IntTy)
  /-- VSLL (R166): Vector shift left. -/
  | vsll (d : VReg) (a : VReg) (b : VReg) (k : MReg) (t : IntTy)
  /-- VSRL (R166): Vector logical shift right. -/
  | vsrl (d : VReg) (a : VReg) (b : VReg) (k : MReg) (t : IntTy)
  /-- VSRA (R166): Vector arithmetic shift right. -/
  | vsra (d : VReg) (a : VReg) (b : VReg) (k : MReg) (t : IntTy)
  /-- VABS (R166): Vector absolute value. -/
  | vabs (d : VReg) (a : VReg) (k : MReg) (t : IntTy)
  /-- VNEG (R166): Vector negate. -/
  | vneg (d : VReg) (a : VReg) (k : MReg) (t : IntTy)
  /-- VADDS (R166): Vector saturating add. -/
  | vadds (d : VReg) (a : VReg) (b : VReg) (k : MReg) (t : IntTy)
  /-- VSUBS (R166): Vector saturating subtract. -/
  | vsubs (d : VReg) (a : VReg) (b : VReg) (k : MReg) (t : IntTy)
  /-- VCLZ (R166): Vector count of leading zeros. -/
  | vclz (d : VReg) (a : VReg) (k : MReg) (t : IntTy)
  /-- VPOP (R166): Vector population count. -/
  | vpop (d : VReg) (a : VReg) (k : MReg) (t : IntTy)
  /-- VFADD (R167): Vector floating-point add with one rounding. -/
  | vfadd (d : VReg) (a : VReg) (b : VReg) (k : MReg) (t : FloatTy) (r : Rm)
  /-- VFSUB (R167): Vector floating-point subtract. -/
  | vfsub (d : VReg) (a : VReg) (b : VReg) (k : MReg) (t : FloatTy) (r : Rm)
  /-- VFMUL (R167): Vector floating-point multiply. -/
  | vfmul (d : VReg) (a : VReg) (b : VReg) (k : MReg) (t : FloatTy) (r : Rm)
  /-- VFDIV (R167): Vector floating-point divide. -/
  | vfdiv (d : VReg) (a : VReg) (b : VReg) (k : MReg) (t : FloatTy) (r : Rm)
  /-- VFMIN (R167): Vector floating-point minimum by R27. -/
  | vfmin (d : VReg) (a : VReg) (b : VReg) (k : MReg) (t : FloatTy) (r : Rm)
  /-- VFMAX (R167): Vector floating-point maximum by R27. -/
  | vfmax (d : VReg) (a : VReg) (b : VReg) (k : MReg) (t : FloatTy) (r : Rm)
  /-- VFMA (R168): Fused a × b + d. -/
  | vfma (d : VReg) (a : VReg) (b : VReg) (k : MReg) (t : FloatTy) (r : Rm)
  /-- VFMS (R168): Fused a × b − d. -/
  | vfms (d : VReg) (a : VReg) (b : VReg) (k : MReg) (t : FloatTy) (r : Rm)
  /-- VFNMA (R168): Fused −(a × b) − d. -/
  | vfnma (d : VReg) (a : VReg) (b : VReg) (k : MReg) (t : FloatTy) (r : Rm)
  /-- VFNMS (R168): Fused −(a × b) + d. -/
  | vfnms (d : VReg) (a : VReg) (b : VReg) (k : MReg) (t : FloatTy) (r : Rm)
  /-- VFSQRT (R168): Vector square root. -/
  | vfsqrt (d : VReg) (a : VReg) (k : MReg) (t : FloatTy) (r : Rm)
  /-- VFABS (R168): Clears the sign of each element. -/
  | vfabs (d : VReg) (a : VReg) (k : MReg) (t : FloatTy) (r : Rm)
  /-- VFNEG (R168): Inverts the sign of each element. -/
  | vfneg (d : VReg) (a : VReg) (k : MReg) (t : FloatTy) (r : Rm)
  /-- VCEQ (R169): Compares for equality into a mask. -/
  | vceq (d : MReg) (a : VReg) (b : VReg) (k : MReg) (t : ElemTy)
  /-- VCNE (R169): Compares for inequality into a mask. -/
  | vcne (d : MReg) (a : VReg) (b : VReg) (k : MReg) (t : ElemTy)
  /-- VCLT (R169): Compares less than into a mask. -/
  | vclt (d : MReg) (a : VReg) (b : VReg) (k : MReg) (t : ElemTy)
  /-- VCLE (R169): Compares less or equal into a mask. -/
  | vcle (d : MReg) (a : VReg) (b : VReg) (k : MReg) (t : ElemTy)
  /-- VCGT (R169): Compares greater than into a mask. -/
  | vcgt (d : MReg) (a : VReg) (b : VReg) (k : MReg) (t : ElemTy)
  /-- VCGE (R169): Compares greater or equal into a mask. -/
  | vcge (d : MReg) (a : VReg) (b : VReg) (k : MReg) (t : ElemTy)
  /-- VCVT (R170): Converts each lane from source to target type with one rounding. -/
  | vcvt (d : VReg) (a : VReg) (x : Bool) (u : ElemTy) (k : MReg) (t : ElemTy) (r : Rm)
  /-- VQ (R173): Quantises 16 f32 lanes with a scale code. -/
  | vq (d : VReg) (a : VReg) (b : SReg) (k : MReg) (q : QuantTy) (r : Rm)
  /-- VQS (R172): Updates an amax word and its scale code from the active lanes. -/
  | vqs (d : SReg) (a : VReg) (b : SReg) (k : MReg) (q : QuantTy) (r : Rm)
  /-- VSX (R174): Converts e8m0 codes to f32 scales. -/
  | vsx (d : VReg) (a : VReg) (k : MReg)
  /-- VRSUM (R175): Sums the active lanes in ascending order into an s register. -/
  | vrsum (d : SReg) (a : VReg) (k : MReg) (t : ElemTy)
  /-- VRMIN (R175): Minimum of the active lanes. -/
  | vrmin (d : SReg) (a : VReg) (k : MReg) (t : ElemTy)
  /-- VRMAX (R175): Maximum of the active lanes. -/
  | vrmax (d : SReg) (a : VReg) (k : MReg) (t : ElemTy)
  /-- VRAND (R175): Bitwise AND of the active lanes. -/
  | vrand (d : SReg) (a : VReg) (k : MReg) (t : ElemTy)
  /-- VROR (R175): Bitwise OR of the active lanes. -/
  | vror (d : SReg) (a : VReg) (k : MReg) (t : ElemTy)
  /-- VRXOR (R175): Bitwise XOR of the active lanes. -/
  | vrxor (d : SReg) (a : VReg) (k : MReg) (t : ElemTy)
  /-- VPERM (R176): Permutes lanes of A by the indices in B. -/
  | vperm (d : VReg) (a : VReg) (b : VReg) (k : MReg) (e : ElemSize)
  /-- VBCAST (R176): Broadcasts an s register into the lanes. -/
  | vbcast (d : VReg) (a : SReg) (k : MReg) (e : ElemSize)
  /-- VSLUP (R176): Slides lanes up by an s register count. -/
  | vslup (d : VReg) (a : VReg) (b : SReg) (k : MReg) (e : ElemSize)
  /-- VSLDN (R176): Slides lanes down by an s register count. -/
  | vsldn (d : VReg) (a : VReg) (b : SReg) (k : MReg) (e : ElemSize)
  /-- VZIP (R176): Interleaves lanes of A and B. -/
  | vzip (d : VReg) (a : VReg) (b : VReg) (k : MReg) (e : ElemSize)
  /-- VUNZIP (R176): Takes the even lanes of A joined with B. -/
  | vunzip (d : VReg) (a : VReg) (b : VReg) (k : MReg) (e : ElemSize)
  /-- VCOMPR (R176): Packs the active lanes downward. -/
  | vcompr (d : VReg) (a : VReg) (k : MReg) (e : ElemSize)
  /-- VEXPAND (R176): Spreads lanes of A to the active positions. -/
  | vexpand (d : VReg) (a : VReg) (k : MReg) (e : ElemSize)
  /-- MAND (R177): Mask AND. -/
  | mand (d : MReg) (a : MReg) (b : MReg)
  /-- MOR (R177): Mask OR. -/
  | mor (d : MReg) (a : MReg) (b : MReg)
  /-- MXOR (R177): Mask XOR. -/
  | mxor (d : MReg) (a : MReg) (b : MReg)
  /-- MANDN (R177): Mask AND NOT. -/
  | mandn (d : MReg) (a : MReg) (b : MReg)
  /-- MNOT (R177): Mask NOT. -/
  | mnot (d : MReg) (a : MReg)
  /-- MPOP (R177): Counts the one bits of a mask into an s register. -/
  | mpop (d : SReg) (a : MReg)
  /-- MFIRST (R177): Writes the index of the lowest set mask bit. -/
  | mfirst (d : SReg) (a : MReg)
  /-- MFROM (R177): Copies an s register into a mask. -/
  | mfrom (d : MReg) (a : SReg)
  /-- MTO (R177): Copies a mask into an s register. -/
  | mto (d : SReg) (a : MReg)
  /-- VLD (R179): Typed strided vector load from a fat pointer, lane by lane from VPROG. -/
  | vld (d : VReg) (a : SReg) (b : SReg) (k : MReg) (l : La) (t : ElemTy)
  /-- VST (R180): Typed strided vector store of the active lanes into the store buffer. -/
  | vst (d : VReg) (a : SReg) (b : SReg) (k : MReg) (t : ElemTy)
  /-- VGATH (R181): Gathers lanes from local windows by index. -/
  | vgath (d : VReg) (a : SReg) (b : VReg) (k : MReg) (l : La) (e : MemW)
  /-- VSCAT (R181): Scatters lanes to local windows by index. -/
  | vscat (d : VReg) (a : SReg) (b : VReg) (k : MReg) (l : La) (e : MemW)
  /-- VAMO_ADD32 (R182): Per-lane atomic 32-bit add. -/
  | vamoAdd32 (d : VReg) (a : SReg) (b : VReg) (k : MReg) (l : La)
  /-- VAMO_ADD64 (R182): Per-lane atomic 64-bit add. -/
  | vamoAdd64 (d : VReg) (a : SReg) (b : VReg) (k : MReg) (l : La)
  /-- VAMO_MAX32 (R182): Per-lane atomic signed maximum. -/
  | vamoMax32 (d : VReg) (a : SReg) (b : VReg) (k : MReg) (l : La)
  /-- VAMO_MIN32 (R182): Per-lane atomic signed minimum. -/
  | vamoMin32 (d : VReg) (a : SReg) (b : VReg) (k : MReg) (l : La)
  /-- VAMO_MAXN32 (R182): Per-lane atomic unsigned maximum. -/
  | vamoMaxn32 (d : VReg) (a : SReg) (b : VReg) (k : MReg) (l : La)
  /-- VAMO_MINN32 (R182): Per-lane atomic unsigned minimum. -/
  | vamoMinn32 (d : VReg) (a : SReg) (b : VReg) (k : MReg) (l : La)
  /-- VAMO_FADD32 (R182): Per-lane atomic f32 add. -/
  | vamoFadd32 (d : VReg) (a : SReg) (b : VReg) (k : MReg) (l : La)
  /-- VAMO_FMAX32 (R182): Per-lane atomic f32 maximum. -/
  | vamoFmax32 (d : VReg) (a : SReg) (b : VReg) (k : MReg) (l : La)
  /-- VAMO_FMIN32 (R182): Per-lane atomic f32 minimum. -/
  | vamoFmin32 (d : VReg) (a : SReg) (b : VReg) (k : MReg) (l : La)
  /-- VAMO_SWAP32 (R182): Per-lane atomic 32-bit swap. -/
  | vamoSwap32 (d : VReg) (a : SReg) (b : VReg) (k : MReg) (l : La)
  /-- VAMO_SWAP64 (R182): Per-lane atomic 64-bit swap. -/
  | vamoSwap64 (d : VReg) (a : SReg) (b : VReg) (k : MReg) (l : La)
  /-- SPAWN (R255): Pushes a spawned task onto the core's deque, or onto the task queue when the deque is full. -/
  | spawn (a : SReg)
  /-- POPD (R256): Takes back the youngest spawned task into a TCM buffer and absorbs its decrements. -/
  | popd (d : SReg)
  /-- TENQ (R258): Creates an ordered task with a timestamp in the cluster's commit queue. -/
  | tenq (a : SReg) (b : SReg)
  /-- TEND (R261): Ends the activation after its engine words and stores drain, then retires, commits or goes DONE. -/
  | tend
  /-- JOIN (R257): Hands over a continuation TCB in global memory. -/
  | join (a : SReg)
  /-- ASET (R260): Declares atomic set i of a guarded task. -/
  | aset (a : SReg) (b : SReg) (i : BitVec 3)
  /-- MSG (R259): Sends an active message to a handler core. -/
  | msg (a : SReg) (b : SReg)
  /-- EVR (R214): Waits for and reads the oldest event-queue record into D and D + 1. -/
  | evr (d : SReg)
  /-- EWT (R215): Waits for an engine queue to reach a sequence number or to finish the context's words. -/
  | ewt (a : SReg) (q : QueueId)
  /-- BAR_ARV (R234): Arrives at a barrier after the store buffer drains, blocking while the lead is 3. -/
  | barArv (g : Bool) (n : BitVec 4)
  /-- BAR_WT (R235): Waits until every member has reached the core's last arrival phase. -/
  | barWt (g : Bool) (n : BitVec 4)
  /-- BAR_MAX (R237): Arrives with a contribution, waits, and returns the unsigned maximum of the phase. -/
  | barMax (d : SReg) (a : SReg) (g : Bool) (n : BitVec 4)
  /-- FENCE (R239): Full fence at the given scope. -/
  | fence (c : FScope)
  /-- FENCE_ACQ (R239): Acquire fence at the given scope. -/
  | fenceAcq (c : FScope)
  /-- FENCE_REL (R239): Release fence at the given scope. -/
  | fenceRel (c : FScope)
  /-- TRAP (R125): Enters system mode at TVEC with a trap number. -/
  | trap (n : BitVec 10)
  /-- RETT (R126): Returns from a trap to TEPC in the mode TCAUSE.PSYS gives, resuming delivered held words. -/
  | rett
  /-- WFE (R127): Stalls until an event record, a WAKE context or an Iris halt. -/
  | wfe
  /-- FRET (R128): Ends upcall code and lets the core select its next work. -/
  | fret
  /-- FRES (R129): Ends upcall code and hands the core to a WAKE context. -/
  | fres (a : SReg)
  /-- HREQ (R321): Sends an Iris halt, resume or snapshot signal to a partition. -/
  | hreq (a : SReg)
  /-- TMARK (R323): Appends a mark record to the die's trace ring. -/
  | tmark (a : SReg)
  /-- TLBI (R130): Drains as a device release and invalidates TLB entries in every slice of the device. -/
  | tlbi (a : SReg) (b : SReg)
  /-- WPA_STOP (R322): Arms a watchpoint of kind stop. -/
  | wpaStop (a : SReg) (b : SReg) (i : BitVec 2)
  /-- WPA_GANG (R322): Arms a watchpoint of kind gang. -/
  | wpaGang (a : SReg) (b : SReg) (i : BitVec 2)
  /-- WPA_REC (R322): Arms a watchpoint of kind rec. -/
  | wpaRec (a : SReg) (b : SReg) (i : BitVec 2)
  /-- WPA_OFF (R322): Disarms a watchpoint. -/
  | wpaOff (i : BitVec 2)
  /-- CSRR (R121): Reads a CSR after all open windows close. -/
  | csrr (d : SReg) (c : Csr)
  /-- CSRW (R121): Writes a CSR, checking reserved fields and codes. -/
  | csrw (a : SReg) (c : Csr)
  /-- CSRS (R121): Sets CSR bits and returns the old value. -/
  | csrs (d : SReg) (a : SReg) (c : Csr)
  /-- CSRC (R121): Clears CSR bits and returns the old value. -/
  | csrc (d : SReg) (a : SReg) (c : Csr)
  /-- PR_MMA (R204): Pushes a dense multiply-accumulate word to a Prism end. -/
  | prMma (e : End) (la : La) (role : Role) (bank : Bool) (evn : Bool) (sw : BitVec 3) (p : SReg) (str : EOp) (m : BitVec 4) (n : BitVec 4) (k : BitVec 16) (fa : BitVec 6) (fb : BitVec 6)
  /-- PR_SMA (R204): Pushes a sparse multiply-accumulate word to a Prism end. -/
  | prSma (e : End) (la : La) (role : Role) (bank : Bool) (evn : Bool) (spa : Bool) (spb : Bool) (sw : BitVec 3) (p : SReg) (str : EOp) (m : BitVec 4) (n : BitVec 4) (k : BitVec 16) (fa : BitVec 6) (fb : BitVec 6) (moff : BitVec 12)
  /-- PR_MDL (R205): Pushes a word that loads sparse metadata into the end's side-memory half. -/
  | prMdl (e : End) (la : La) (evn : Bool) (src : SReg) (len : BitVec 13) (moff : BitVec 12)
  /-- PR_ACZ (R206): Pushes a word that zeroes one or both accumulator banks. -/
  | prAcz (e : End) (la : La) (bank : Bool) (evn : Bool) (both : Bool)
  /-- PR_OUT (R207): Pushes a word that delivers a bank's region to a destination with one rounding. -/
  | prOut (e : End) (la : La) (bank : Bool) (evn : Bool) (add : Bool) (clr : Bool) (sat : Bool) (rm : Rm) (dk : Dk) (d : SReg) (dstr : EOp) (ofmt : BitVec 6) (m : BitVec 4) (n : BitVec 4) (osc : BitVec 8) (ncore : EOp)
  /-- PR_SCB (R208): Pushes a word that sets the end's scale registers and empties its scale cache. -/
  | prScb (e : End) (la : La) (evn : Bool) (sb : SReg) (db : SReg) (shift : BitVec 5)
  /-- CP_ND (R221): Pushes a tensor copy described by a descriptor. -/
  | cpNd (la : La) (evn : Bool) (desc : SReg)
  /-- CP_PULL_TAKE (R226): Pushes a word that takes a manual notice and pulls its data to DST. -/
  | cpPullTake (la : La) (evn : Bool) (src : PullFrom) (dst : SReg) (tag : BitVec 16)
  /-- CP_PULL_RELEASE (R226): Pushes a word that returns units to a pipe's receive ring. -/
  | cpPullRelease (la : La) (evn : Bool) (src : PullFrom) (units : BitVec 13)
  /-- KICK_PIPE (R223): Sends a pipe transfer notice to the bound receiving tile. -/
  | kickPipe (la : La) (pipe : BitVec 3) (src : SReg) (len : EOp) (kt : KOp)
  /-- KICK_MANUAL (R223): Sends a manual transfer notice to any core. -/
  | kickManual (la : La) (pipe : BitVec 3) (src : SReg) (len : EOp) (kt : KOp)
  /-- GA_GAT (R229): Pushes a gather of table elements by index through the slice agents. -/
  | gaGat (la : La) (evn : Bool) (esz : BitVec 3) (idx : SReg) (base : SReg) (dst : SReg) (count : EOp)
  /-- GA_UPD (R230): Pushes indexed read-modify-write updates at the slice agents. -/
  | gaUpd (la : La) (evn : Bool) (op : GaOp) (t : GaTy) (idx : SReg) (base : SReg) (vals : SReg) (count : EOp)
  /-- GA_PRB (R231): Pushes hash-table probes for a list of keys. -/
  | gaPrb (la : La) (evn : Bool) (tl : BitVec 5) (keys : SReg) (table : SReg) (dst : SReg) (count : EOp)
  /-- MI_CFG (R270): Configures the cluster's Mirror store and zeroes counters and headers. -/
  | miCfg (la : La) (evn : Bool) (base : SReg) (osz : BitVec 6) (isz : BitVec 6) (nslot : BitVec 16)
  /-- MI_QRY (R271): Queries a Mirror slot, replaying the output on a hit or re-anchoring on a miss. -/
  | miQry (la : La) (mode : MiMode) (evn : Bool) (rd : SReg) (key : SReg) (step : EOp) (inp : SReg) (count : EOp) (out : SReg)
  /-- MI_PUT (R272): Stores the output for the anchor stored at a step. -/
  | miPut (la : La) (evn : Bool) (key : SReg) (step : EOp) (src : SReg) (len : EOp)
  /-- MI_CLR_KEY (R273): Invalidates the slot of one key. -/
  | miClrKey (la : La) (evn : Bool) (key : SReg)
  /-- MI_CLR_ALL (R273): Invalidates every slot header. -/
  | miClrAll (la : La) (evn : Bool)
  /-- REGISTER_WRITE (R325): A system-mode or management-port store to a control-window register without behaviour of its own. -/
  | registerWrite (src : Option CoreId) (a : Nat) (v : Word)
  /-- LONG_LATENCY_COMPLETION (R69): A load, divide, atomic, touch or engine push completes and writes its destination unless discarded. -/
  | longLatencyCompletion (c : CoreId) (i : Nat)
  /-- STORE_BUFFER_LEAVE (R138): The oldest store-buffer entry performs at its TCM or scratchpad bank or is accepted by its slice. -/
  | storeBufferLeave (c : CoreId)
  /-- WRITE_THROUGH_ARRIVAL (R280): A write-through reaches the home point, performs and is acknowledged. -/
  | writeThroughArrival (i : Nat)
  /-- REDUCTION_APPLY (R160): Pending reductions to a line are applied at the home die's memory port. -/
  | reductionApply (i : Nat)
  /-- PIN_WINDOW_EXPIRY (R149): A touch's 256-cycle pin window ends and the pinned translation may be replaced. -/
  | pinWindowExpiry (d : DieId) (i : Nat)
  /-- SLICE_RETRY (R385): A refused request is sent again after its backoff. -/
  | sliceRetry (i : Nat)
  /-- HELD_WRITE_RESEND (R386): A write-through, reduction or decrement held for an unavailable home is sent again when the home is ready. -/
  | heldWriteResend (i : Nat)
  /-- PAGE_FAULT_RECORD_WRITE (R152): A waiting page-fault record enters the page-service core's ring once room exists. -/
  | pageFaultRecordWrite (d : DieId)
  /-- PRN_WRITE (R153): A page-ready notice moves a PARK context to WAKE or sets a SAVED context's arrived flag. -/
  | prnWrite (c : CoreId) (v : Word)
  /-- SELECT_NEXT_WORK (R301): At a task end or when idle, the core takes pre-emption, a waking context, its queue, an ordered task or its deque. -/
  | selectNextWork (c : CoreId)
  /-- CONTEXT_SAVE_SLOT_WAIT (R95): A pre-emption save waiting for a context-store slot takes the first slot that frees. -/
  | contextSaveSlotWait (c : CoreId)
  /-- STEAL (R101): An idle core tries a victim's deque with a compare-and-swap of TOP. -/
  | steal (c : CoreId)
  /-- PRED_DECREMENT (R97): A retirement decrement is applied atomically to a join target or successor at device scope. -/
  | predDecrement (i : Nat)
  /-- MESSAGE_ARRIVAL (R259): An active message enters its handler core's task queue. -/
  | messageArrival (i : Nat)
  /-- LOCK_REQUEST (R243): A slice serves a lock request of a guarded or ordered task, taking, waiting or wounding by age. -/
  | lockRequest (c : CoreId)
  /-- COMMIT_FRONTIER_SAMPLE (R252): Every 64 cycles the die min-reduces the head keys of its commit queues. -/
  | commitFrontierSample (d : DieId)
  /-- ORDERED_COMMIT (R252): An eligible DONE ordered task commits and frees its context. -/
  | orderedCommit (c : CoreId) (x : CtxNum)
  /-- ORDERED_CONTEXT_WOUND (R253): With no FREE context for the oldest ready ordered task, the youngest ordered task on an eligible core is wounded. -/
  | orderedContextWound (k : ClusterId)
  /-- BUDGET_EXPIRY (R349): BUDGET reaches zero and a budget-expired exception is raised at the next boundary. -/
  | budgetExpiry (c : CoreId)
  /-- ENGINE_WORD_START (R209): A cluster engine starts the head word of a queue in rotating order. -/
  | engineWordStart (k : ClusterId) (e : EngineId)
  /-- PRISM_PAIRING (R188): Two agreeing paired words in the rendezvous slots are paired and their operation starts. -/
  | prismPairing (p : PrismId)
  /-- PRISM_SINGLE_END_START (R189): A single-end Prism word starts once the earlier words of its queue have completed. -/
  | prismSingleEndStart (c : CoreId) (e : End)
  /-- PRISM_STEP (R194): The Prism performs a K-step once both ends' beats are present. -/
  | prismStep (p : PrismId)
  /-- ENGINE_WORD_COMPLETION (R187): An engine word completes, advancing SEQ and writing its record if EVN is set. -/
  | engineWordCompletion (c : CoreId) (q : QueueId)
  /-- EVENT_RECORD_WRITE (R211): A record is written into a core's event ring once room exists and TAIL increments. -/
  | eventRecordWrite (c : CoreId)
  /-- HELD_WORD_REPORT (R361): A held engine word is reported to its pushing context at an instruction boundary. -/
  | heldWordReport (c : CoreId)
  /-- EFR_ABORT (R365): A write of ABORT to an engine fault record abandons the held word or an unpaired head word. -/
  | efrAbort (c : CoreId) (q : QueueId)
  /-- SLICE_AGENT_MESSAGE (R227): A slice agent performs one active message against an element of its slice. -/
  | sliceAgentMessage (k : ClusterId)
  /-- KICK_NOTICE_ARRIVAL (R222): A transfer notice arrives at a cluster's kick register or is refused when full. -/
  | kickNoticeArrival (c : CoreId)
  /-- KICK_NOTICE_RESEND (R222): A refused notice is sent again after the backoff. -/
  | kickNoticeResend (c : CoreId)
  /-- PIPE_PULL (R224): Once FREE covers a pipe notice, the copy engine pulls its data, writes the arrival record and acknowledges. -/
  | pipePull (k : ClusterId)
  /-- PULL_ACK_ARRIVAL (R223): The receiver's acknowledgement reaches the sender, completing the kick and writing its record. -/
  | pullAckArrival (i : Nat)
  /-- WCNT_WRITE (R291): The host publishes new command-queue entries, or laps RCNT and halts the queue. -/
  | wcntWrite (q : CmdQ) (v : Word)
  /-- QUEUE_ENABLE_WRITE (R290): Setting or clearing a queue's EN; clearing discards unstarted entries and clears HALT. -/
  | queueEnableWrite (q : CmdQ) (v : Word)
  /-- HISTOGRAM_CLEAR (R290): Writing HCLR clears a queue's latency histogram and LMAX. -/
  | histogramClear (q : CmdQ)
  /-- QUEUE_AGEING (R294): A waiting ready queue rises one priority level after its ageing interval. -/
  | queueAgeing (q : CmdQ)
  /-- QUEUE_ENTRY_START (R294): A free dispatcher slot starts the head of the ready queue with the highest EPRI. -/
  | queueEntryStart (d : DieId)
  /-- CQ_NOP (R293): A NOP entry completes at start. -/
  | cqNop (d : DieId) (j : SlotNum)
  /-- CQ_LAUNCH (R296): A LAUNCH entry reads and checks its launch record and assigns the launch tag and gang ids. -/
  | cqLaunch (d : DieId) (j : SlotNum)
  /-- CQ_COPY (R293): A COPY entry runs a cp.nd descriptor on the serving die's cluster (0,0) copy engine. -/
  | cqCopy (d : DieId) (j : SlotNum)
  /-- CQ_SIGNAL_WRITE (R293): A SIGNAL entry writes a value as a system-scope release after earlier entries complete. -/
  | cqSignalWrite (d : DieId) (j : SlotNum)
  /-- CQ_SIGNAL_ADD (R293): A SIGNAL entry adds a value at the home as a system-scope release. -/
  | cqSignalAdd (d : DieId) (j : SlotNum)
  /-- CQ_WAIT (R293): A WAIT entry completes when an acquire read finds the value at least the given one. -/
  | cqWait (d : DieId) (j : SlotNum)
  /-- CQ_QBARRIER (R293): A QBARRIER entry completes when every earlier entry has completed. -/
  | cqQbarrier (d : DieId) (j : SlotNum)
  /-- QUEUE_ENTRY_COMPLETION (R306): An entry completes, frees its slot and is counted in the latency histogram. -/
  | queueEntryCompletion (d : DieId) (j : SlotNum)
  /-- GANG_CLAIM (R297): A waiting launch claims all its clusters at once and places or restores its gangs. -/
  | gangClaim (l : Nat)
  /-- GANG_UNPLACE (R297): A gang whose activations have all retired returns its clusters and power units. -/
  | gangUnplace (g : Nat)
  /-- PREEMPTION_REQUEST (R298): A launch requests pre-emption of every core of lower-priority gangs holding its clusters. -/
  | preemptionRequest (l : Nat)
  /-- POWER_WINDOW (R303): At a window end with MEAS above PLIM, the region requests pre-emption of its lowest-priority gang. -/
  | powerWindow (d : DieId) (r : RegionNum)
  /-- FOCUS_BALANCE (R304): Every 1024 cycles Focus pairs deep and shallow cores and issues migration commands. -/
  | focusBalance (d : DieId)
  /-- IRIS_HALT (R308): A halt signal reaches a core, latches its snapshot and sets it STOPPING. -/
  | irisHalt (g : IrisStep)
  /-- IRIS_RESUME (R311): A resume signal returns a core to running and drains its store buffer. -/
  | irisResume (g : IrisStep)
  /-- IRIS_SNAPSHOT (R321): A snapshot signal latches a core's snapshot without changing its state. -/
  | irisSnapshot (g : IrisStep)
  /-- FCFG_WRITE (R316): Writing a Facet event configuration resets its counter and histogram. -/
  | fcfgWrite (k : ClusterId) (n : BitVec 4) (v : Word)
  /-- FACET_WINDOW_END (R316): An OP 3 Facet window ends and its count is updated. -/
  | facetWindowEnd (k : ClusterId) (n : BitVec 4)
  /-- LENS_CLEAR (R314): Writing LNCTL.CLR resets every Lens entry. -/
  | lensClear (c : CoreId)
  /-- WARM_RESET (R393): A GO write to WRST resets one die while the others keep running. -/
  | warmReset (d : DieId)
  /-- LINK_RETRAIN (R387): A UCIe link retrains and replays its flits. -/
  | linkRetrain (d : DieId) (b : BitVec 2)
  /-- WIFORT_REPLAY (R389): Unacknowledged Wifort packets are replayed after 4096 cycles. -/
  | wifortReplay (d : DieId)
  /-- WIFORT_LANE_FAIL (R389): A Wifort lane fails training and is removed from service. -/
  | wifortLaneFail (d : DieId) (j : BitVec 4)
  /-- SCRUB_TICK (R384): The patrol scrubber reads the next line, correcting or poisoning it. -/
  | scrubTick (d : DieId)
  /-- THERMAL_WINDOW (R395): A region's window above TWARN or TCRIT triggers pre-emption or half-rate issue. -/
  | thermalWindow (d : DieId) (r : RegionNum)
  /-- THERMAL_SHUTDOWN (R395): At 115 degrees C or coolant loss, power is removed from the compute dies. -/
  | thermalShutdown
  /-- POWER_ON_BOOT (R329): The management die verifies the signed boot image, configures and releases the compute dies. -/
  | powerOnBoot
  /-- FUNCTION_READY (R328): A function finishes self-test or training and sets its ready bit. -/
  | functionReady (f : FunctionId)
  /-- ATTESTATION_REQUEST (R332): The management die answers a nonce with a signed attestation report. -/
  | attestationRequest (nonce : BitVec 256)
  /-- SOFT_ERROR (R382): A stored bit in an SRAM, register file or queued engine word flips, leaving a correctable or uncorrectable error that later reads or the scrubber find. -/
  | softError (site : ErrorSite)
  /-- FUNCTION_FAIL (R328): A function such as a near SRAM bank group or a GDDR-7 channel fails, and its ready bit clears so that its homes answer home-unavailable. -/
  | functionFail (f : FunctionId)
  /-- WIFORT_REQUEST (R389): A read, write or atomic arrives over Wifort from another node or the host for a home on this device and is served or answered home-unavailable. -/
  | wifortRequest (rq : WifortRequest)
  deriving DecidableEq, Repr

end Sys2Proof
end

