-- ==== Sys2Proof/Decode.lean ====
section
/-!
DEFINITION. From bits to instructions and back (03_encoding.md R49 to R67; the engine words of R204 to R208, R221, R223,
R226, R229 to R231, R270 to R273). Decoding is total: every word is an instruction or is refused by name, and every
refusal is a reserved instruction of R65. The encoder is written from the same layouts.
-/
namespace Sys2Proof

/-- Why an encoding is a reserved instruction (R65). -/
inductive Why where
  /-- a reserved major opcode -/
  | major
  /-- a reserved FN, OP, CLASS or selector -/
  | fn
  /-- a reserved field that is not zero -/
  | field
  /-- a reserved type, rounding, format or range code -/
  | code
  /-- a CSR that does not exist or cannot be written (R121) -/
  | csr
  /-- an operand slot whose KIND is not accepted -/
  | kind
  /-- major opcode 0x3F off a 32-byte boundary -/
  | align
  deriving DecidableEq, Repr

/-- The refusals of the decoder; each raises the reserved-instruction exception (R65, R348). -/
inductive DecodeError where
  /-- a reserved instruction word, or slot 0 of an engine word -/
  | reserved (why : Why)
  /-- a reserved operand slot of an engine word, 1 to 7 -/
  | slot (j : Nat) (why : Why)
  /-- fewer bytes than the instruction has -/
  | truncated
  deriving DecidableEq, Repr

/-- What the decoder answers. -/
abbrev Dec := Except DecodeError Instr

/-- A reserved field is not zero. -/
def badField : Dec := .error (.reserved .field)
/-- A reserved code. -/
def badCode : Dec := .error (.reserved .code)

/-! ### Codes of operand names -/

/-- SZ (R53). -/
def MemType.code : MemType → BitVec 3
  | .n8 => 0 | .n16 => 1 | .n32 => 2 | .n64 => 3 | .i8 => 4 | .i16 => 5 | .i32 => 6
@[inherit_doc MemType.code] def MemType.ofCode (c : BitVec 3) : Option MemType :=
  match c.toNat with
  | 0 => some .n8 | 1 => some .n16 | 2 => some .n32 | 3 => some .n64 | 4 => some .i8 | 5 => some .i16 | 6 => some .i32
  | _ => none
/-- SZ of the register layout (R61). -/
def MemW.bit : MemW → Bool
  | .w32 => false | .w64 => true
@[inherit_doc MemW.bit] def MemW.ofBit (b : BitVec 1) : MemW := if b = 1 then .w64 else .w32
/-- SC (R61). -/
def AScope.bit : AScope → Bool
  | .die => false | .device => true
@[inherit_doc AScope.bit] def AScope.ofBit (b : BitVec 1) : AScope := if b = 1 then .device else .die
/-- The level, bits 2:1 of the register layout (R61). -/
def Level.code : Level → Bool × Bool
  | .l1 => (false, false) | .slice => (false, true) | .home => (true, false)
@[inherit_doc Level.code] def Level.ofCode (c : BitVec 2) : Option Level :=
  match c.toNat with
  | 0 => some .l1 | 1 => some .slice | 2 => some .home | _ => none
/-- The scope of a fence (R63). -/
def FScope.code : FScope → BitVec 2
  | .cl => 0 | .di => 1 | .dv => 2 | .sy => 3
@[inherit_doc FScope.code] def FScope.ofCode (c : BitVec 2) : FScope :=
  match c.toNat with
  | 0 => .cl | 1 => .di | 2 => .dv | _ => .sy
/-- TY (R62). -/
def IntTy.code : IntTy → BitVec 3
  | .i8 => 0 | .i16 => 1 | .i32 => 2 | .i64 => 3 | .n8 => 4 | .n16 => 5 | .n32 => 6 | .n64 => 7
@[inherit_doc IntTy.code] def IntTy.ofCode (c : BitVec 3) : IntTy :=
  match c.toNat with
  | 0 => .i8 | 1 => .i16 | 2 => .i32 | 3 => .i64 | 4 => .n8 | 5 => .n16 | 6 => .n32 | _ => .n64
/-- FT (R62). -/
def FloatTy.code : FloatTy → BitVec 2
  | .f64 => 0 | .f32 => 1 | .f16 => 2 | .bf16 => 3
@[inherit_doc FloatTy.code] def FloatTy.ofCode (c : BitVec 2) : FloatTy :=
  match c.toNat with
  | 0 => .f64 | 1 => .f32 | 2 => .f16 | _ => .bf16
/-- T4 (R62). -/
def ElemTy.code : ElemTy → BitVec 4
  | .i8 => 0 | .i16 => 1 | .i32 => 2 | .i64 => 3 | .n8 => 4 | .n16 => 5 | .n32 => 6 | .n64 => 7
  | .f64 => 8 | .f32 => 9 | .f16 => 10 | .bf16 => 11 | .e4m3 => 12 | .e5m2 => 13 | .e2m1 => 14 | .i4 => 15
@[inherit_doc ElemTy.code] def ElemTy.ofCode (c : BitVec 4) : ElemTy :=
  match c.toNat with
  | 0 => .i8 | 1 => .i16 | 2 => .i32 | 3 => .i64 | 4 => .n8 | 5 => .n16 | 6 => .n32 | 7 => .n64
  | 8 => .f64 | 9 => .f32 | 10 => .f16 | 11 => .bf16 | 12 => .e4m3 | 13 => .e5m2 | 14 => .e2m1 | _ => .i4
/-- T4 codes 12 to 15: types that only conversions, permutes, loads and stores take (R161). -/
def ElemTy.storageOnly : ElemTy → Bool
  | .e4m3 | .e5m2 | .e2m1 | .i4 => true
  | _ => false
/-- T4 codes 8 to 11, for which SAT is reserved (R170). -/
def ElemTy.isWideFloat : ElemTy → Bool
  | .f64 | .f32 | .f16 | .bf16 => true
  | _ => false
/-- QT (R62). -/
def QuantTy.code : QuantTy → BitVec 3
  | .e4m3 => 0 | .e5m2 => 1 | .e2m1 => 2 | .i8 => 3 | .i4 => 4
@[inherit_doc QuantTy.code] def QuantTy.ofCode (c : BitVec 3) : Option QuantTy :=
  match c.toNat with
  | 0 => some .e4m3 | 1 => some .e5m2 | 2 => some .e2m1 | 3 => some .i8 | 4 => some .i4 | _ => none
/-- ES (R62). -/
def ElemSize.code : ElemSize → BitVec 3
  | .e8 => 0 | .e16 => 1 | .e32 => 2 | .e64 => 3
@[inherit_doc ElemSize.code] def ElemSize.ofCode (c : BitVec 3) : Option ElemSize :=
  match c.toNat with
  | 0 => some .e8 | 1 => some .e16 | 2 => some .e32 | 3 => some .e64 | _ => none
/-- RM (R35, R62): codes 5 and 6 are reserved. -/
def Rm.code : Rm → BitVec 3
  | .rne => 0 | .rz => 1 | .rdn => 2 | .rup => 3 | .rna => 4 | .csr => 7
@[inherit_doc Rm.code] def Rm.ofCode (c : BitVec 3) : Option Rm :=
  match c.toNat with
  | 0 => some .rne | 1 => some .rz | 2 => some .rdn | 3 => some .rup | 4 => some .rna | 7 => some .csr | _ => none
/-- CLASS (R56). -/
def QueueId.code4 : QueueId → BitVec 4
  | .pn => 0 | .pe => 1 | .ps => 2 | .pw => 3 | .cp => 4 | .ga => 5 | .mi => 6 | .kq => 7
@[inherit_doc QueueId.code4] def QueueId.ofCode (c : BitVec 4) : Option QueueId :=
  match c.toNat with
  | 0 => some .pn | 1 => some .pe | 2 => some .ps | 3 => some .pw | 4 => some .cp | 5 => some .ga | 6 => some .mi
  | 7 => some .kq | _ => none
/-- END (R203): CLASS 0 to 3. -/
def End.code4 : End → BitVec 4
  | .north => 0 | .east => 1 | .south => 2 | .west => 3
/-- The CSR numbers of R123. -/
def Csr.num : Csr → BitVec 12
  | .taskid => 0x000 | .age => 0x001 | .tile => 0x002 | .core => 0x003 | .ctx => 0x004 | .budget => 0x005
  | .rmode => 0x010 | .qmode => 0x011 | .fstat => 0x012 | .vprog => 0x013
  | .fltinfo => 0x020 | .fltaddr => 0x021 | .upcall => 0x022 | .upsrc => 0x023 | .evq => 0x030
  | .seq q => 0x04#8 ++ q.code4
  | .mirth => 0x050 | .mirrun => 0x051 | .mirhit => 0x052 | .mirmiss => 0x053 | .cycle => 0x060 | .time => 0x061
  | .tvec => 0x100 | .tepc => 0x101 | .tcause => 0x102 | .tscr => 0x103
@[inherit_doc Csr.num] def Csr.ofNum (c : BitVec 12) : Option Csr :=
  match c.toNat with
  | 0x000 => some .taskid | 0x001 => some .age | 0x002 => some .tile | 0x003 => some .core | 0x004 => some .ctx
  | 0x005 => some .budget | 0x010 => some .rmode | 0x011 => some .qmode | 0x012 => some .fstat | 0x013 => some .vprog
  | 0x020 => some .fltinfo | 0x021 => some .fltaddr | 0x022 => some .upcall | 0x023 => some .upsrc | 0x030 => some .evq
  | 0x040 => some (.seq .pn) | 0x041 => some (.seq .pe) | 0x042 => some (.seq .ps) | 0x043 => some (.seq .pw)
  | 0x044 => some (.seq .cp) | 0x045 => some (.seq .ga) | 0x046 => some (.seq .mi) | 0x047 => some (.seq .kq)
  | 0x050 => some .mirth | 0x051 => some .mirrun | 0x052 => some .mirhit | 0x053 => some .mirmiss
  | 0x060 => some .cycle | 0x061 => some .time
  | 0x100 => some .tvec | 0x101 => some .tepc | 0x102 => some .tcause | 0x103 => some .tscr
  | _ => none
/-- The RO registers of R123. -/
def Csr.readOnly : Csr → Bool
  | .taskid | .age | .tile | .core | .ctx | .budget | .fltinfo | .fltaddr | .upsrc | .seq _ | .cycle | .time => true
  | _ => false
/-- The registers that only system mode reaches (R112). -/
def Csr.system : Csr → Bool
  | .tvec | .tepc | .tcause | .tscr => true
  | _ => false

/-! ### Fields of a word -/

/-- Major opcode, bits 31:26 (R50). -/
def wMaj (w : W32) : BitVec 6 := w.extractLsb' 26 6
/-- D, bits 25:21. -/
def wD (w : W32) : BitVec 5 := w.extractLsb' 21 5
/-- A, bits 20:16. -/
def wA (w : W32) : BitVec 5 := w.extractLsb' 16 5
/-- B, bits 15:11. -/
def wB (w : W32) : BitVec 5 := w.extractLsb' 11 5
/-- AUX, bits 10:6. -/
def wX (w : W32) : BitVec 5 := w.extractLsb' 6 5
/-- FN, OFF6 or a shift amount, bits 5:0. -/
def wFn (w : W32) : BitVec 6 := w.extractLsb' 0 6
/-- IMM16 or OFF16, bits 15:0 (R51, R52). -/
def wImm (w : W32) : BitVec 16 := w.extractLsb' 0 16
/-- OFF25, bits 24:0 (R52). -/
def wOff25 (w : W32) : BitVec 25 := w.extractLsb' 0 25
/-- L of the long branch, bit 25 (R52). -/
def wL (w : W32) : Bool := w.getLsbD 25
/-- Bit 10, reserved beside a lookahead in AUX (R58). -/
def wBit10 (w : W32) : BitVec 1 := w.extractLsb' 10 1
/-- The lookahead in AUX, bits 9:6 (R58); also the queue of `ewt` (R63). -/
def wLaR (w : W32) : BitVec 4 := w.extractLsb' 6 4
/-- IMM16 bits 15:8 and 7:6 of the immediate shifts (R59). -/
def wShHi (w : W32) : BitVec 8 := w.extractLsb' 8 8
@[inherit_doc wShHi] def wShSel (w : W32) : BitVec 2 := w.extractLsb' 6 2
/-- LA of the offset and hinted layouts, bits 15:12 (R53). -/
def wLaM (w : W32) : BitVec 4 := w.extractLsb' 12 4
/-- SW, bits 11:9. -/
def wSw (w : W32) : BitVec 3 := w.extractLsb' 9 3
/-- SZ, bits 8:6. -/
def wSz (w : W32) : BitVec 3 := w.extractLsb' 6 3
/-- K, DEAD, SZ and OFF4 of the hinted layout (R53). -/
def wK (w : W32) : BitVec 4 := w.extractLsb' 8 4
@[inherit_doc wK] def wDead (w : W32) : Bool := w.getLsbD 7
@[inherit_doc wK] def wSzH (w : W32) : BitVec 3 := w.extractLsb' 4 3
@[inherit_doc wK] def wOff4 (w : W32) : BitVec 4 := w.extractLsb' 0 4
/-- LA and FN of the register layout (R53). -/
def wLaG (w : W32) : BitVec 4 := w.extractLsb' 7 4
@[inherit_doc wLaG] def wG63 (w : W32) : BitVec 4 := w.extractLsb' 3 4
/-- Bits 2:1, the level of cache maintenance (R61). -/
def wG21 (w : W32) : BitVec 2 := w.extractLsb' 1 2
/-- Single low bits. -/
def wBit0 (w : W32) : BitVec 1 := w.extractLsb' 0 1
@[inherit_doc wBit0] def wBit1 (w : W32) : BitVec 1 := w.extractLsb' 1 1
@[inherit_doc wBit0] def wBit2 (w : W32) : BitVec 1 := w.extractLsb' 2 1
@[inherit_doc wBit0] def wBit3 (w : W32) : BitVec 1 := w.extractLsb' 3 1
/-- MK, bits 10:8 (R54). -/
def wMk (w : W32) : BitVec 3 := w.extractLsb' 8 3
/-- TAIL sub-fields (R62), by their instruction bits. -/
def wT3 (w : W32) : BitVec 3 := w.extractLsb' 5 3
@[inherit_doc wT3] def wFn5 (w : W32) : BitVec 5 := w.extractLsb' 0 5
@[inherit_doc wT3] def wFt (w : W32) : BitVec 2 := w.extractLsb' 6 2
@[inherit_doc wT3] def wRm (w : W32) : BitVec 3 := w.extractLsb' 3 3
@[inherit_doc wT3] def wFn3 (w : W32) : BitVec 3 := w.extractLsb' 0 3
@[inherit_doc wT3] def wT4 (w : W32) : BitVec 4 := w.extractLsb' 4 4
@[inherit_doc wT3] def wFn4 (w : W32) : BitVec 4 := w.extractLsb' 0 4
@[inherit_doc wT3] def wG31 (w : W32) : BitVec 3 := w.extractLsb' 1 3
@[inherit_doc wT3] def wG42 (w : W32) : BitVec 3 := w.extractLsb' 2 3
@[inherit_doc wT3] def wQf (w : W32) : BitVec 2 := w.extractLsb' 0 2
/-- B bit 4: SAT of `vcvt` (R62), gang scope of a barrier (R63). -/
def wSat (w : W32) : Bool := w.getLsbD 15
/-- B bits 3:0: the target type of `vcvt`, the id of a barrier. -/
def wT14 (w : W32) : BitVec 4 := w.extractLsb' 11 4
/-- Mask registers in D, A and B, and the upper bits of those fields (R50). -/
def wD3 (w : W32) : BitVec 3 := w.extractLsb' 21 3
@[inherit_doc wD3] def wDHi (w : W32) : BitVec 2 := w.extractLsb' 24 2
@[inherit_doc wD3] def wA3 (w : W32) : BitVec 3 := w.extractLsb' 16 3
@[inherit_doc wD3] def wAHi (w : W32) : BitVec 2 := w.extractLsb' 19 2
@[inherit_doc wD3] def wB3 (w : W32) : BitVec 3 := w.extractLsb' 11 3
@[inherit_doc wD3] def wBHi (w : W32) : BitVec 2 := w.extractLsb' 14 2
/-- Sub-ranges of AUX, in instruction bit numbers (R50, R63, R64). -/
def wX109 (w : W32) : BitVec 2 := w.extractLsb' 9 2
@[inherit_doc wX109] def wX86 (w : W32) : BitVec 3 := w.extractLsb' 6 3
@[inherit_doc wX109] def wX108 (w : W32) : BitVec 3 := w.extractLsb' 8 3
@[inherit_doc wX109] def wX76 (w : W32) : BitVec 2 := w.extractLsb' 6 2
/-- The trap number: B and AUX (R64). -/
def wTrap (w : W32) : BitVec 10 := w.extractLsb' 6 10
/-- The CSR number and its selector, IMM16 bits 11:0 and 15:12 (R64). -/
def wCsr (w : W32) : BitVec 12 := w.extractLsb' 0 12
@[inherit_doc wCsr] def wCsrOp (w : W32) : BitVec 4 := w.extractLsb' 12 4

/-! ### Word layouts -/

/-- R-form (R50). -/
def rWord (m : BitVec 6) (d a b x : BitVec 5) (fn : BitVec 6) : W32 := m ++ d ++ a ++ b ++ x ++ fn
/-- I-form and compare layout (R51, R52). -/
def iWord (m : BitVec 6) (d a : BitVec 5) (i : BitVec 16) : W32 := m ++ d ++ a ++ i
/-- Long branch layout (R52). -/
def bWord (l : Bool) (o : BitVec 25) : W32 := 0x16#6 ++ BitVec.ofBool l ++ o
/-- M offset layout (R53). -/
def mWord (m : BitVec 6) (d a : BitVec 5) (la : BitVec 4) (sw sz : BitVec 3) (o : BitVec 6) : W32 :=
  m ++ d ++ a ++ la ++ sw ++ sz ++ o
/-- M hinted layout (R53). -/
def hWord (m : BitVec 6) (d a : BitVec 5) (la k : BitVec 4) (dead : Bool) (sz : BitVec 3) (o : BitVec 4) : W32 :=
  m ++ d ++ a ++ la ++ k ++ BitVec.ofBool dead ++ sz ++ o
/-- M register layout (R53), bit 0 reserved. -/
def gWord (m : BitVec 6) (d a b : BitVec 5) (la fn : BitVec 4) (sz sc : Bool) : W32 :=
  m ++ d ++ a ++ b ++ la ++ fn ++ BitVec.ofBool sz ++ BitVec.ofBool sc ++ 0#1
/-- V-form (R54), one function per layout of TAIL in R62. -/
def vWord35 (m : BitVec 6) (d a b : BitVec 5) (k t : BitVec 3) (fn : BitVec 5) : W32 := m ++ d ++ a ++ b ++ k ++ t ++ fn
@[inherit_doc vWord35]
def vWord233 (m : BitVec 6) (d a b : BitVec 5) (k : BitVec 3) (t : BitVec 2) (r fn : BitVec 3) : W32 :=
  m ++ d ++ a ++ b ++ k ++ t ++ r ++ fn
@[inherit_doc vWord35]
def vWord44 (m : BitVec 6) (d a b : BitVec 5) (k : BitVec 3) (t fn : BitVec 4) : W32 := m ++ d ++ a ++ b ++ k ++ t ++ fn
@[inherit_doc vWord35]
def vWord431 (m : BitVec 6) (d a b : BitVec 5) (k : BitVec 3) (t : BitVec 4) (r : BitVec 3) : W32 :=
  m ++ d ++ a ++ b ++ k ++ t ++ r ++ 0#1
@[inherit_doc vWord35]
def vWord332 (m : BitVec 6) (d a b : BitVec 5) (k q r : BitVec 3) (f : BitVec 2) : W32 :=
  m ++ d ++ a ++ b ++ k ++ q ++ r ++ f
@[inherit_doc vWord35]
def vWord422 (m : BitVec 6) (d a b : BitVec 5) (k : BitVec 3) (la : BitVec 4) (e f : BitVec 2) : W32 :=
  m ++ d ++ a ++ b ++ k ++ la ++ e ++ f

/-- A mask register in a 5-bit field (R50). -/
def encM (r : MReg) : BitVec 5 := 0#2 ++ r
/-- A lookahead, or the queue of `ewt`, in AUX (R58, R63). -/
def encLaR (l : BitVec 4) : BitVec 5 := 0#1 ++ l
/-- The immediate of a shift (R59). -/
def encShift (sel : BitVec 2) (n : BitVec 6) : BitVec 16 := 0#8 ++ sel ++ n
/-- SAT and the target type in B (R62). -/
def encSatT (s : Bool) (u : ElemTy) : BitVec 5 := BitVec.ofBool s ++ u.code
/-- Gang scope and barrier id in B (R63). -/
def encBar (g : Bool) (n : BitVec 4) : BitVec 5 := BitVec.ofBool g ++ n
/-- ES of a local gather (R62). -/
def encW (e : MemW) : BitVec 2 := 1#1 ++ BitVec.ofBool e.bit
/-- The set index of `aset` (R63). -/
def encX86 (i : BitVec 3) : BitVec 5 := 0#2 ++ i
/-- AUX split as bits 10:8 and 7:6 (R63, R64). -/
def encX (hi : BitVec 3) (lo : BitVec 2) : BitVec 5 := hi ++ lo
/-- The two halves of a trap number (R64). -/
def encTrapHi (n : BitVec 10) : BitVec 5 := n.extractLsb' 5 5
@[inherit_doc encTrapHi] def encTrapLo (n : BitVec 10) : BitVec 5 := n.extractLsb' 0 5
/-- IMM16 of a CSR instruction (R64). -/
def encCsr (op : BitVec 4) (c : Csr) : BitVec 16 := op ++ c.num

/-! ### Decoding 32-bit words -/

/-- Major opcode 0x00 (R58). -/
def decAlu (w : W32) : Dec :=
  match (wFn w).toNat with
  | 0x00 => if wX w = 0 then .ok (.add (wD w) (wA w) (wB w)) else badField
  | 0x01 => if wX w = 0 then .ok (.sub (wD w) (wA w) (wB w)) else badField
  | 0x02 => if wX w = 0 then .ok (.mul (wD w) (wA w) (wB w)) else badField
  | 0x03 => if wX w = 0 then .ok (.mulh (wD w) (wA w) (wB w)) else badField
  | 0x04 => if wX w = 0 then .ok (.mulhn (wD w) (wA w) (wB w)) else badField
  | 0x05 => if wBit10 w = 0 then .ok (.div (wD w) (wA w) (wB w) (wLaR w)) else badField
  | 0x06 => if wBit10 w = 0 then .ok (.divn (wD w) (wA w) (wB w) (wLaR w)) else badField
  | 0x07 => if wBit10 w = 0 then .ok (.rem (wD w) (wA w) (wB w) (wLaR w)) else badField
  | 0x08 => if wBit10 w = 0 then .ok (.remn (wD w) (wA w) (wB w) (wLaR w)) else badField
  | 0x09 => if wX w = 0 then .ok (.and (wD w) (wA w) (wB w)) else badField
  | 0x0A => if wX w = 0 then .ok (.or (wD w) (wA w) (wB w)) else badField
  | 0x0B => if wX w = 0 then .ok (.xor (wD w) (wA w) (wB w)) else badField
  | 0x0C => if wX w = 0 then .ok (.sll (wD w) (wA w) (wB w)) else badField
  | 0x0D => if wX w = 0 then .ok (.srl (wD w) (wA w) (wB w)) else badField
  | 0x0E => if wX w = 0 then .ok (.sra (wD w) (wA w) (wB w)) else badField
  | 0x0F => if wX w = 0 then .ok (.rol (wD w) (wA w) (wB w)) else badField
  | 0x10 => if wX w = 0 then .ok (.ror (wD w) (wA w) (wB w)) else badField
  | 0x11 => if wB w = 0 ∧ wX w = 0 then .ok (.clz (wD w) (wA w)) else badField
  | 0x12 => if wB w = 0 ∧ wX w = 0 then .ok (.ctz (wD w) (wA w)) else badField
  | 0x13 => if wB w = 0 ∧ wX w = 0 then .ok (.pop (wD w) (wA w)) else badField
  | 0x14 => if wX w = 0 then .ok (.min (wD w) (wA w) (wB w)) else badField
  | 0x15 => if wX w = 0 then .ok (.max (wD w) (wA w) (wB w)) else badField
  | 0x16 => if wX w = 0 then .ok (.minn (wD w) (wA w) (wB w)) else badField
  | 0x17 => if wX w = 0 then .ok (.maxn (wD w) (wA w) (wB w)) else badField
  | 0x18 => if wX w = 0 then .ok (.adda (wD w) (wA w) (wB w)) else badField
  | 0x19 => if wX w = 0 then .ok (.seq (wD w) (wA w) (wB w)) else badField
  | 0x1A => if wX w = 0 then .ok (.sne (wD w) (wA w) (wB w)) else badField
  | 0x1B => if wX w = 0 then .ok (.slt (wD w) (wA w) (wB w)) else badField
  | 0x1C => if wX w = 0 then .ok (.sltn (wD w) (wA w) (wB w)) else badField
  | 0x1D => if wX w = 0 then .ok (.sle (wD w) (wA w) (wB w)) else badField
  | 0x1E => if wX w = 0 then .ok (.slen (wD w) (wA w) (wB w)) else badField
  | 0x1F => .ok (.sel (wD w) (wA w) (wB w) (wX w))
  | _ => .error (.reserved .fn)

/-- Major opcode 0x06, the immediate shifts (R59). -/
def decShift (w : W32) : Dec :=
  if wShHi w ≠ 0 then badField else
  match (wShSel w).toNat with
  | 0 => .ok (.slli (wD w) (wA w) (wFn w))
  | 1 => .ok (.srli (wD w) (wA w) (wFn w))
  | 2 => .ok (.srai (wD w) (wA w) (wFn w))
  | _ => .ok (.rori (wD w) (wA w) (wFn w))

/-- Major opcode 0x17, the indirect branches (R60); `ret` is `br s1`. -/
def decBranchReg (w : W32) : Dec :=
  if wImm w ≠ 0 then badField
  else if wA w ≠ 0 then .ok (.blr (wD w) (wA w))
  else if wD w = 1 then .ok .ret
  else .ok (.br (wD w))

/-- Major opcodes 0x18 and 0x19 (R53, R61). -/
def decLd (w : W32) : Dec :=
  match MemType.ofCode (wSz w) with
  | some z => .ok (.ld (wD w) (wA w) (wLaM w) (wSw w) z (wFn w))
  | none => badCode
@[inherit_doc decLd] def decSt (w : W32) : Dec :=
  if wLaM w ≠ 0 then badField else
  match MemType.ofCode (wSz w) with
  | some z => .ok (.st (wD w) (wA w) (wSw w) z (wFn w))
  | none => badCode

/-- Major opcode 0x1A, the hinted load (R53). -/
def decLdHinted (w : W32) : Dec :=
  match MemType.ofCode (wSzH w) with
  | some z => .ok (.ldHinted (wD w) (wA w) (wLaM w) (wK w) (wDead w) z (wOff4 w))
  | none => badCode

/-- Major opcode 0x1B (R61): SZ selects `tch`, `pf.l1` or `pf.sl`. -/
def decTch (w : W32) : Dec :=
  if wD w ≠ 0 ∨ wSw w ≠ 0 then badField else
  match (wSz w).toNat with
  | 0 => .ok (.tch (wA w) (wLaM w) (wFn w))
  | 1 => if wLaM w = 0 then .ok (.pfL1 (wA w) (wFn w)) else badField
  | 2 => if wLaM w = 0 then .ok (.pfSl (wA w) (wFn w)) else badField
  | _ => badCode

/-- Major opcode 0x1C (R61): bits 2:1 give the level. -/
def decCmo (w : W32) : Dec :=
  if wD w ≠ 0 ∨ wBit0 w ≠ 0 then badField else
  match Level.ofCode (wG21 w) with
  | none => badCode
  | some v =>
    match (wG63 w).toNat with
    | 0 => .ok (.cmoCln (wA w) (wB w) (wLaG w) v)
    | 1 => .ok (.cmoInv (wA w) (wB w) (wLaG w) v)
    | 2 => .ok (.cmoCli (wA w) (wB w) (wLaG w) v)
    | _ => .error (.reserved .fn)

/-- Major opcode 0x1D, the atomics (R61). -/
def decAmo (w : W32) : Dec :=
  if wBit0 w ≠ 0 then badField else
  match (wG63 w).toNat with
  | 0 => .ok (.amoSwap (wD w) (wA w) (wB w) (wLaG w) (MemW.ofBit (wBit2 w)) (AScope.ofBit (wBit1 w)))
  | 1 => .ok (.amoCas (wD w) (wA w) (wB w) (wLaG w) (MemW.ofBit (wBit2 w)) (AScope.ofBit (wBit1 w)))
  | 2 => .ok (.amoAdd (wD w) (wA w) (wB w) (wLaG w) (MemW.ofBit (wBit2 w)) (AScope.ofBit (wBit1 w)))
  | 3 => .ok (.amoAnd (wD w) (wA w) (wB w) (wLaG w) (MemW.ofBit (wBit2 w)) (AScope.ofBit (wBit1 w)))
  | 4 => .ok (.amoOr (wD w) (wA w) (wB w) (wLaG w) (MemW.ofBit (wBit2 w)) (AScope.ofBit (wBit1 w)))
  | 5 => .ok (.amoXor (wD w) (wA w) (wB w) (wLaG w) (MemW.ofBit (wBit2 w)) (AScope.ofBit (wBit1 w)))
  | 6 => .ok (.amoMax (wD w) (wA w) (wB w) (wLaG w) (MemW.ofBit (wBit2 w)) (AScope.ofBit (wBit1 w)))
  | 7 => .ok (.amoMin (wD w) (wA w) (wB w) (wLaG w) (MemW.ofBit (wBit2 w)) (AScope.ofBit (wBit1 w)))
  | 8 => .ok (.amoMaxn (wD w) (wA w) (wB w) (wLaG w) (MemW.ofBit (wBit2 w)) (AScope.ofBit (wBit1 w)))
  | 9 => .ok (.amoMinn (wD w) (wA w) (wB w) (wLaG w) (MemW.ofBit (wBit2 w)) (AScope.ofBit (wBit1 w)))
  | _ => .error (.reserved .fn)

/-- Major opcode 0x1E, the memory reductions (R61). -/
def decRed (w : W32) : Dec :=
  if wD w ≠ 0 ∨ wLaG w ≠ 0 ∨ wBit1 w ≠ 0 ∨ wBit0 w ≠ 0 then badField else
  match (wG63 w).toNat with
  | 0 => .ok (.redAdd (wA w) (wB w) (MemW.ofBit (wBit2 w)))
  | 1 => .ok (.redAnd (wA w) (wB w) (MemW.ofBit (wBit2 w)))
  | 2 => .ok (.redOr (wA w) (wB w) (MemW.ofBit (wBit2 w)))
  | 3 => .ok (.redXor (wA w) (wB w) (MemW.ofBit (wBit2 w)))
  | 4 => .ok (.redMax (wA w) (wB w) (MemW.ofBit (wBit2 w)))
  | 5 => .ok (.redMin (wA w) (wB w) (MemW.ofBit (wBit2 w)))
  | 6 => .ok (.redMaxn (wA w) (wB w) (MemW.ofBit (wBit2 w)))
  | 7 => .ok (.redMinn (wA w) (wB w) (MemW.ofBit (wBit2 w)))
  | 8 => .ok (.redFadd (wA w) (wB w) (MemW.ofBit (wBit2 w)))
  | 9 => .ok (.redFmax (wA w) (wB w) (MemW.ofBit (wBit2 w)))
  | 10 => .ok (.redFmin (wA w) (wB w) (MemW.ofBit (wBit2 w)))
  | _ => .error (.reserved .fn)

/-- Major opcode 0x20 (R62, R166). -/
def decVInt (w : W32) : Dec :=
  match (wFn5 w).toNat with
  | 0x00 => .ok (.vadd (wD w) (wA w) (wB w) (wMk w) (IntTy.ofCode (wT3 w)))
  | 0x01 => .ok (.vsub (wD w) (wA w) (wB w) (wMk w) (IntTy.ofCode (wT3 w)))
  | 0x02 => .ok (.vmul (wD w) (wA w) (wB w) (wMk w) (IntTy.ofCode (wT3 w)))
  | 0x03 => .ok (.vmulh (wD w) (wA w) (wB w) (wMk w) (IntTy.ofCode (wT3 w)))
  | 0x04 => .ok (.vmin (wD w) (wA w) (wB w) (wMk w) (IntTy.ofCode (wT3 w)))
  | 0x05 => .ok (.vmax (wD w) (wA w) (wB w) (wMk w) (IntTy.ofCode (wT3 w)))
  | 0x06 => .ok (.vand (wD w) (wA w) (wB w) (wMk w) (IntTy.ofCode (wT3 w)))
  | 0x07 => .ok (.vor (wD w) (wA w) (wB w) (wMk w) (IntTy.ofCode (wT3 w)))
  | 0x08 => .ok (.vxor (wD w) (wA w) (wB w) (wMk w) (IntTy.ofCode (wT3 w)))
  | 0x09 => .ok (.vsll (wD w) (wA w) (wB w) (wMk w) (IntTy.ofCode (wT3 w)))
  | 0x0A => .ok (.vsrl (wD w) (wA w) (wB w) (wMk w) (IntTy.ofCode (wT3 w)))
  | 0x0B => .ok (.vsra (wD w) (wA w) (wB w) (wMk w) (IntTy.ofCode (wT3 w)))
  | 0x0C => if wB w = 0 then .ok (.vabs (wD w) (wA w) (wMk w) (IntTy.ofCode (wT3 w))) else badField
  | 0x0D => if wB w = 0 then .ok (.vneg (wD w) (wA w) (wMk w) (IntTy.ofCode (wT3 w))) else badField
  | 0x0E => .ok (.vadds (wD w) (wA w) (wB w) (wMk w) (IntTy.ofCode (wT3 w)))
  | 0x0F => .ok (.vsubs (wD w) (wA w) (wB w) (wMk w) (IntTy.ofCode (wT3 w)))
  | 0x10 => if wB w = 0 then .ok (.vclz (wD w) (wA w) (wMk w) (IntTy.ofCode (wT3 w))) else badField
  | 0x11 => if wB w = 0 then .ok (.vpop (wD w) (wA w) (wMk w) (IntTy.ofCode (wT3 w))) else badField
  | _ => .error (.reserved .fn)

/-- Major opcode 0x21 (R62, R167). -/
def decVFp (w : W32) : Dec :=
  match Rm.ofCode (wRm w) with
  | none => badCode
  | some .rna => badCode
  | some r =>
    match (wFn3 w).toNat with
    | 0 => .ok (.vfadd (wD w) (wA w) (wB w) (wMk w) (FloatTy.ofCode (wFt w)) r)
    | 1 => .ok (.vfsub (wD w) (wA w) (wB w) (wMk w) (FloatTy.ofCode (wFt w)) r)
    | 2 => .ok (.vfmul (wD w) (wA w) (wB w) (wMk w) (FloatTy.ofCode (wFt w)) r)
    | 3 => .ok (.vfdiv (wD w) (wA w) (wB w) (wMk w) (FloatTy.ofCode (wFt w)) r)
    | 4 => .ok (.vfmin (wD w) (wA w) (wB w) (wMk w) (FloatTy.ofCode (wFt w)) r)
    | 5 => .ok (.vfmax (wD w) (wA w) (wB w) (wMk w) (FloatTy.ofCode (wFt w)) r)
    | _ => .error (.reserved .fn)

/-- Major opcode 0x22 (R62, R168). -/
def decVFma (w : W32) : Dec :=
  match Rm.ofCode (wRm w) with
  | none => badCode
  | some .rna => badCode
  | some r =>
    match (wFn3 w).toNat with
    | 0 => .ok (.vfma (wD w) (wA w) (wB w) (wMk w) (FloatTy.ofCode (wFt w)) r)
    | 1 => .ok (.vfms (wD w) (wA w) (wB w) (wMk w) (FloatTy.ofCode (wFt w)) r)
    | 2 => .ok (.vfnma (wD w) (wA w) (wB w) (wMk w) (FloatTy.ofCode (wFt w)) r)
    | 3 => .ok (.vfnms (wD w) (wA w) (wB w) (wMk w) (FloatTy.ofCode (wFt w)) r)
    | 4 => if wB w = 0 then .ok (.vfsqrt (wD w) (wA w) (wMk w) (FloatTy.ofCode (wFt w)) r) else badField
    | 5 => if wB w = 0 then .ok (.vfabs (wD w) (wA w) (wMk w) (FloatTy.ofCode (wFt w)) r) else badField
    | 6 => if wB w = 0 then .ok (.vfneg (wD w) (wA w) (wMk w) (FloatTy.ofCode (wFt w)) r) else badField
    | _ => .error (.reserved .fn)

/-- Major opcode 0x23, compares into a mask (R62, R169). -/
def decVCmp (w : W32) : Dec :=
  if wDHi w ≠ 0 then badField else
  if (ElemTy.ofCode (wT4 w)).storageOnly then badCode else
  match (wFn4 w).toNat with
  | 0 => .ok (.vceq (wD3 w) (wA w) (wB w) (wMk w) (ElemTy.ofCode (wT4 w)))
  | 1 => .ok (.vcne (wD3 w) (wA w) (wB w) (wMk w) (ElemTy.ofCode (wT4 w)))
  | 2 => .ok (.vclt (wD3 w) (wA w) (wB w) (wMk w) (ElemTy.ofCode (wT4 w)))
  | 3 => .ok (.vcle (wD3 w) (wA w) (wB w) (wMk w) (ElemTy.ofCode (wT4 w)))
  | 4 => .ok (.vcgt (wD3 w) (wA w) (wB w) (wMk w) (ElemTy.ofCode (wT4 w)))
  | 5 => .ok (.vcge (wD3 w) (wA w) (wB w) (wMk w) (ElemTy.ofCode (wT4 w)))
  | _ => .error (.reserved .fn)

/-- Major opcode 0x24, conversion (R62, R170): B holds SAT and the target type. -/
def decVcvt (w : W32) : Dec :=
  if wBit0 w ≠ 0 then badField else
  match Rm.ofCode (wG31 w) with
  | none => badCode
  | some .rna => badCode
  | some r =>
    if wSat w ∧ (ElemTy.ofCode (wT14 w)).isWideFloat then badCode else
    .ok (.vcvt (wD w) (wA w) (wSat w) (ElemTy.ofCode (wT14 w)) (wMk w) (ElemTy.ofCode (wT4 w)) r)

/-- Major opcode 0x25, quantise (R62, R172 to R174). -/
def decVq (w : W32) : Dec :=
  match (wQf w).toNat with
  | 0 => match QuantTy.ofCode (wT3 w), Rm.ofCode (wG42 w) with
    | some q, some r => .ok (.vq (wD w) (wA w) (wB w) (wMk w) q r)
    | _, _ => badCode
  | 1 => match QuantTy.ofCode (wT3 w), Rm.ofCode (wG42 w) with
    | some q, some r => .ok (.vqs (wD w) (wA w) (wB w) (wMk w) q r)
    | _, _ => badCode
  | 2 => if wB w = 0 ∧ wT3 w = 0 ∧ wG42 w = 0 then .ok (.vsx (wD w) (wA w) (wMk w)) else badField
  | _ => badCode

/-- Major opcode 0x26, reductions (R62, R175). -/
def decVRed (w : W32) : Dec :=
  if wB w ≠ 0 then badField else
  if (ElemTy.ofCode (wT4 w)).storageOnly then badCode else
  match (wFn4 w).toNat with
  | 0 => .ok (.vrsum (wD w) (wA w) (wMk w) (ElemTy.ofCode (wT4 w)))
  | 1 => .ok (.vrmin (wD w) (wA w) (wMk w) (ElemTy.ofCode (wT4 w)))
  | 2 => .ok (.vrmax (wD w) (wA w) (wMk w) (ElemTy.ofCode (wT4 w)))
  | 3 => .ok (.vrand (wD w) (wA w) (wMk w) (ElemTy.ofCode (wT4 w)))
  | 4 => .ok (.vror (wD w) (wA w) (wMk w) (ElemTy.ofCode (wT4 w)))
  | 5 => .ok (.vrxor (wD w) (wA w) (wMk w) (ElemTy.ofCode (wT4 w)))
  | _ => .error (.reserved .fn)

/-- Major opcode 0x27, permutes (R62, R176). -/
def decVPerm (w : W32) : Dec :=
  match ElemSize.ofCode (wT3 w) with
  | none => badCode
  | some e =>
    match (wFn5 w).toNat with
    | 0 => .ok (.vperm (wD w) (wA w) (wB w) (wMk w) e)
    | 1 => if wB w = 0 then .ok (.vbcast (wD w) (wA w) (wMk w) e) else badField
    | 2 => .ok (.vslup (wD w) (wA w) (wB w) (wMk w) e)
    | 3 => .ok (.vsldn (wD w) (wA w) (wB w) (wMk w) e)
    | 4 => .ok (.vzip (wD w) (wA w) (wB w) (wMk w) e)
    | 5 => .ok (.vunzip (wD w) (wA w) (wB w) (wMk w) e)
    | 6 => if wB w = 0 then .ok (.vcompr (wD w) (wA w) (wMk w) e) else badField
    | 7 => if wB w = 0 then .ok (.vexpand (wD w) (wA w) (wMk w) e) else badField
    | _ => .error (.reserved .fn)

/-- Major opcode 0x28, mask logic (R62, R177). -/
def decMask (w : W32) : Dec :=
  if wMk w ≠ 0 ∨ wT4 w ≠ 0 then badField else
  match (wFn4 w).toNat with
  | 0 => if wDHi w = 0 ∧ wAHi w = 0 ∧ wBHi w = 0 then .ok (.mand (wD3 w) (wA3 w) (wB3 w)) else badField
  | 1 => if wDHi w = 0 ∧ wAHi w = 0 ∧ wBHi w = 0 then .ok (.mor (wD3 w) (wA3 w) (wB3 w)) else badField
  | 2 => if wDHi w = 0 ∧ wAHi w = 0 ∧ wBHi w = 0 then .ok (.mxor (wD3 w) (wA3 w) (wB3 w)) else badField
  | 3 => if wDHi w = 0 ∧ wAHi w = 0 ∧ wBHi w = 0 then .ok (.mandn (wD3 w) (wA3 w) (wB3 w)) else badField
  | 4 => if wDHi w = 0 ∧ wAHi w = 0 ∧ wB w = 0 then .ok (.mnot (wD3 w) (wA3 w)) else badField
  | 5 => if wAHi w = 0 ∧ wB w = 0 then .ok (.mpop (wD w) (wA3 w)) else badField
  | 6 => if wAHi w = 0 ∧ wB w = 0 then .ok (.mfirst (wD w) (wA3 w)) else badField
  | 7 => if wDHi w = 0 ∧ wB w = 0 then .ok (.mfrom (wD3 w) (wA w)) else badField
  | 8 => if wAHi w = 0 ∧ wB w = 0 then .ok (.mto (wD w) (wA3 w)) else badField
  | _ => .error (.reserved .fn)

/-- Major opcodes 0x29 and 0x2A, typed load and store (R62). -/
def decVld (w : W32) : Dec := .ok (.vld (wD w) (wA w) (wB w) (wMk w) (wT4 w) (ElemTy.ofCode (wFn4 w)))
@[inherit_doc decVld] def decVst (w : W32) : Dec :=
  if wT4 w ≠ 0 then badField else .ok (.vst (wD w) (wA w) (wB w) (wMk w) (ElemTy.ofCode (wFn4 w)))

/-- Major opcode 0x2B, local gather and scatter (R62, R181). -/
def decVgath (w : W32) : Dec :=
  if wBit3 w ≠ 1 then badCode else
  match (wQf w).toNat with
  | 0 => .ok (.vgath (wD w) (wA w) (wB w) (wMk w) (wT4 w) (MemW.ofBit (wBit2 w)))
  | 1 => .ok (.vscat (wD w) (wA w) (wB w) (wMk w) (wT4 w) (MemW.ofBit (wBit2 w)))
  | _ => .error (.reserved .fn)

/-- Major opcode 0x2C, vector atomics (R62, R182). -/
def decVamo (w : W32) : Dec :=
  match (wFn4 w).toNat with
  | 0x00 => .ok (.vamoAdd32 (wD w) (wA w) (wB w) (wMk w) (wT4 w))
  | 0x01 => .ok (.vamoAdd64 (wD w) (wA w) (wB w) (wMk w) (wT4 w))
  | 0x02 => .ok (.vamoMax32 (wD w) (wA w) (wB w) (wMk w) (wT4 w))
  | 0x03 => .ok (.vamoMin32 (wD w) (wA w) (wB w) (wMk w) (wT4 w))
  | 0x04 => .ok (.vamoMaxn32 (wD w) (wA w) (wB w) (wMk w) (wT4 w))
  | 0x05 => .ok (.vamoMinn32 (wD w) (wA w) (wB w) (wMk w) (wT4 w))
  | 0x06 => .ok (.vamoFadd32 (wD w) (wA w) (wB w) (wMk w) (wT4 w))
  | 0x07 => .ok (.vamoFmax32 (wD w) (wA w) (wB w) (wMk w) (wT4 w))
  | 0x08 => .ok (.vamoFmin32 (wD w) (wA w) (wB w) (wMk w) (wT4 w))
  | 0x09 => .ok (.vamoSwap32 (wD w) (wA w) (wB w) (wMk w) (wT4 w))
  | 0x0A => .ok (.vamoSwap64 (wD w) (wA w) (wB w) (wMk w) (wT4 w))
  | _ => .error (.reserved .fn)

/-- Major opcode 0x30, task control (R63). -/
def decTask (w : W32) : Dec :=
  match (wFn w).toNat with
  | 0 => if wD w = 0 ∧ wB w = 0 ∧ wX w = 0 then .ok (.spawn (wA w)) else badField
  | 1 => if wA w = 0 ∧ wB w = 0 ∧ wX w = 0 then .ok (.popd (wD w)) else badField
  | 2 => if wD w = 0 ∧ wX w = 0 then .ok (.tenq (wA w) (wB w)) else badField
  | 3 => if wD w = 0 ∧ wA w = 0 ∧ wB w = 0 ∧ wX w = 0 then .ok .tend else badField
  | 4 => if wD w = 0 ∧ wB w = 0 ∧ wX w = 0 then .ok (.join (wA w)) else badField
  | 5 => if wD w = 0 ∧ wX109 w = 0 then .ok (.aset (wA w) (wB w) (wX86 w)) else badField
  | 6 => if wD w = 0 ∧ wX w = 0 then .ok (.msg (wA w) (wB w)) else badField
  | 7 => if wD w = 31 then badCode
         else if wA w = 0 ∧ wB w = 0 ∧ wX w = 0 then .ok (.evr (wD w)) else badField
  | 8 => if wD w = 0 ∧ wB w = 0 ∧ wBit10 w = 0 then
           match QueueId.ofCode (wLaR w) with
           | some q => .ok (.ewt (wA w) q)
           | none => badCode
         else badField
  | _ => .error (.reserved .fn)

/-- Major opcode 0x31, barriers (R63). -/
def decBar (w : W32) : Dec :=
  if wX w ≠ 0 then badField else
  match (wFn w).toNat with
  | 0 => if wD w = 0 ∧ wA w = 0 then .ok (.barArv (wSat w) (wT14 w)) else badField
  | 1 => if wD w = 0 ∧ wA w = 0 then .ok (.barWt (wSat w) (wT14 w)) else badField
  | 2 => .ok (.barMax (wD w) (wA w) (wSat w) (wT14 w))
  | _ => .error (.reserved .fn)

/-- Major opcode 0x32, fences (R63). -/
def decFence (w : W32) : Dec :=
  if wD w ≠ 0 ∨ wA w ≠ 0 ∨ wB w ≠ 0 ∨ wX108 w ≠ 0 then badField else
  match (wFn w).toNat with
  | 0 => .ok (.fence (FScope.ofCode (wX76 w)))
  | 1 => .ok (.fenceAcq (FScope.ofCode (wX76 w)))
  | 2 => .ok (.fenceRel (FScope.ofCode (wX76 w)))
  | _ => .error (.reserved .fn)

/-- Major opcode 0x38, system (R64). -/
def decSys (w : W32) : Dec :=
  match (wFn w).toNat with
  | 0 => if wD w = 0 ∧ wA w = 0 then .ok (.trap (wTrap w)) else badField
  | 1 => if wD w = 0 ∧ wA w = 0 ∧ wTrap w = 0 then .ok .rett else badField
  | 2 => if wD w = 0 ∧ wA w = 0 ∧ wTrap w = 0 then .ok .wfe else badField
  | 3 => if wD w = 0 ∧ wA w = 0 ∧ wTrap w = 0 then .ok .fret else badField
  | 4 => if wD w = 0 ∧ wTrap w = 0 then .ok (.fres (wA w)) else badField
  | 5 => if wD w = 0 ∧ wTrap w = 0 then .ok (.hreq (wA w)) else badField
  | 6 => if wD w = 0 ∧ wTrap w = 0 then .ok (.tmark (wA w)) else badField
  | 7 => if wD w = 0 ∧ wX w = 0 then .ok (.tlbi (wA w) (wB w)) else badField
  | 8 => if wD w ≠ 0 then badField else
    match (wX108 w).toNat with
    | 0 => if wA w = 0 ∧ wB w = 0 then .ok (.wpaOff (wX76 w)) else badField
    | 1 => .ok (.wpaStop (wA w) (wB w) (wX76 w))
    | 2 => .ok (.wpaGang (wA w) (wB w) (wX76 w))
    | 3 => .ok (.wpaRec (wA w) (wB w) (wX76 w))
    | _ => badCode
  | _ => .error (.reserved .fn)

/-- Major opcode 0x39, CSR access (R64, R121). -/
def decCsr (w : W32) : Dec :=
  match Csr.ofNum (wCsr w) with
  | none => .error (.reserved .csr)
  | some c =>
    match (wCsrOp w).toNat with
    | 0 => if wA w = 0 then .ok (.csrr (wD w) c) else badField
    | 1 => if wD w ≠ 0 then badField else if c.readOnly then .error (.reserved .csr) else .ok (.csrw (wA w) c)
    | 2 => if c.readOnly ∧ wA w ≠ 0 then .error (.reserved .csr) else .ok (.csrs (wD w) (wA w) c)
    | 3 => if c.readOnly ∧ wA w ≠ 0 then .error (.reserved .csr) else .ok (.csrc (wD w) (wA w) c)
    | _ => .error (.reserved .fn)

/-- A 32-bit instruction word (R57). -/
def decodeWord (w : W32) : Dec :=
  match (wMaj w).toNat with
  | 0x00 => decAlu w
  | 0x02 => .ok (.addi (wD w) (wA w) (wImm w))
  | 0x03 => .ok (.andi (wD w) (wA w) (wImm w))
  | 0x04 => .ok (.ori (wD w) (wA w) (wImm w))
  | 0x05 => .ok (.xori (wD w) (wA w) (wImm w))
  | 0x06 => decShift w
  | 0x07 => .ok (.slti (wD w) (wA w) (wImm w))
  | 0x08 => .ok (.sltin (wD w) (wA w) (wImm w))
  | 0x09 => if wA w = 0 then .ok (.li (wD w) (wImm w)) else badField
  | 0x0A => if wA w = 0 then .ok (.lis16 (wD w) (wImm w)) else badField
  | 0x0B => if wA w = 0 then .ok (.lis32 (wD w) (wImm w)) else badField
  | 0x0C => if wA w = 0 then .ok (.lis48 (wD w) (wImm w)) else badField
  | 0x0D => .ok (.addai (wD w) (wA w) (wImm w))
  | 0x10 => .ok (.beq (wD w) (wA w) (wImm w))
  | 0x11 => .ok (.bne (wD w) (wA w) (wImm w))
  | 0x12 => .ok (.blt (wD w) (wA w) (wImm w))
  | 0x13 => .ok (.bge (wD w) (wA w) (wImm w))
  | 0x14 => .ok (.bltn (wD w) (wA w) (wImm w))
  | 0x15 => .ok (.bgen (wD w) (wA w) (wImm w))
  | 0x16 => if wL w then .ok (.bl (wOff25 w)) else .ok (.b (wOff25 w))
  | 0x17 => decBranchReg w
  | 0x18 => decLd w
  | 0x19 => decSt w
  | 0x1A => decLdHinted w
  | 0x1B => decTch w
  | 0x1C => decCmo w
  | 0x1D => decAmo w
  | 0x1E => decRed w
  | 0x20 => decVInt w
  | 0x21 => decVFp w
  | 0x22 => decVFma w
  | 0x23 => decVCmp w
  | 0x24 => decVcvt w
  | 0x25 => decVq w
  | 0x26 => decVRed w
  | 0x27 => decVPerm w
  | 0x28 => decMask w
  | 0x29 => decVld w
  | 0x2A => decVst w
  | 0x2B => decVgath w
  | 0x2C => decVamo w
  | 0x30 => decTask w
  | 0x31 => decBar w
  | 0x32 => decFence w
  | 0x38 => decSys w
  | 0x39 => decCsr w
  | _ => .error (.reserved .major)

/-! ### Decoding engine words (R55, R56) -/

/-- CLASS, OP and LA of slot 0. -/
def eClass (w : W32) : BitVec 4 := w.extractLsb' 22 4
@[inherit_doc eClass] def eOp (w : W32) : BitVec 6 := w.extractLsb' 16 6
@[inherit_doc eClass] def eLa (w : W32) : BitVec 4 := w.extractLsb' 12 4
/-- One SPEC bit, in instruction bit numbers. -/
def eBit (w : W32) (i : Nat) : Bool := w.getLsbD i
/-- KIND of an operand slot. -/
def sKind (w : W32) : BitVec 2 := w.extractLsb' 30 2
/-- BODY of an operand slot. -/
def sBody (w : W32) : BitVec 30 := w.extractLsb' 0 30
/-- The register number of a KIND 2 slot, and its reserved bits. -/
def sReg (w : W32) : SReg := w.extractLsb' 0 5
@[inherit_doc sReg] def sRegHi (w : W32) : BitVec 25 := w.extractLsb' 5 25

/-- A slot that must be unused (KIND 0). -/
def slotNone (j : Nat) (w : W32) : Except DecodeError Unit :=
  if w = 0 then .ok () else if sKind w = 0 then .error (.slot j .field) else .error (.slot j .kind)
/-- A slot that takes a register (KIND 2). -/
def slotReg (j : Nat) (w : W32) : Except DecodeError SReg :=
  if sKind w = 2 then if sRegHi w = 0 then .ok (sReg w) else .error (.slot j .field) else .error (.slot j .kind)
/-- A slot that takes packed fields (KIND 1). -/
def slotImm (j : Nat) (w : W32) : Except DecodeError (BitVec 30) :=
  if sKind w = 1 then .ok (sBody w) else .error (.slot j .kind)
/-- A slot that takes either. -/
def slotOp (j : Nat) (w : W32) : Except DecodeError EOp :=
  if sKind w = 1 then .ok (.imm (sBody w)) else (slotReg j w).map .reg
/-- Slot 3 of `kick` (R223), whose bits above RCORE no field reserves: their value meets R359 at issue, as a register's does (log 62). -/
def slotKick (w : W32) : Except DecodeError KOp :=
  if sKind w = 1 then .ok (.imm (w.extractLsb' 28 2) (w.extractLsb' 16 12) (w.extractLsb' 0 16))
  else (slotReg 3 w).map .reg
/-- Refuse slot `j` unless `p`. -/
def need (j : Nat) (why : Why) (p : Bool) : Except DecodeError Unit :=
  if p then .ok () else if j = 0 then .error (.reserved why) else .error (.slot j why)

/-- The format codes that R33 defines. -/
def formatDefined (c : BitVec 6) : Bool :=
  c.toNat ≤ 0x09 || (0x10 ≤ c.toNat && c.toNat ≤ 0x1E) || (0x20 ≤ c.toNat && c.toNat ≤ 0x24)
/-- The output formats of `pr.out` (R199). -/
def outFormat (c : BitVec 6) : Bool :=
  (0x11 ≤ c.toNat && c.toNat ≤ 0x16) || c.toNat = 0x01 || c.toNat = 0x05
/-- Output formats for which SAT is reserved (R207): `f32`, `f16`, `bf16`. -/
def outFloat (c : BitVec 6) : Bool := 0x11 ≤ c.toNat && c.toNat ≤ 0x13

/-- END from CLASS 0 to 3. -/
def endOfClass (c : BitVec 4) : End :=
  match c.toNat with
  | 0 => .north | 1 => .east | 2 => .south | _ => .west
/-- ROLE (R204). -/
def Role.ofBit (b : Bool) : Role := if b then .b else .a
@[inherit_doc Role.ofBit] def Role.bit : Role → Bool
  | .a => false | .b => true
/-- DK (R207); codes 3 to 7 are reserved. -/
def Dk.ofCode (c : BitVec 3) : Option Dk :=
  match c.toNat with
  | 0 => some .tcm | 1 => some .spad | 2 => some .glob | _ => none
@[inherit_doc Dk.ofCode] def Dk.code : Dk → BitVec 3
  | .tcm => 0 | .spad => 1 | .glob => 2
/-- OP of `ga.upd` (R230). -/
def GaOp.ofCode (c : BitVec 2) : GaOp :=
  match c.toNat with
  | 0 => .add | 1 => .max | 2 => .min | _ => .rep
@[inherit_doc GaOp.ofCode] def GaOp.code : GaOp → BitVec 2
  | .add => 0 | .max => 1 | .min => 2 | .rep => 3
/-- T of `ga.upd` (R230); codes 6 and 7 are reserved. -/
def GaTy.ofCode (c : BitVec 3) : Option GaTy :=
  match c.toNat with
  | 0 => some .i32 | 1 => some .n32 | 2 => some .f32 | 3 => some .i64 | 4 => some .n64 | 5 => some .f64 | _ => none
@[inherit_doc GaTy.ofCode] def GaTy.code : GaTy → BitVec 3
  | .i32 => 0 | .n32 => 1 | .f32 => 2 | .i64 => 3 | .n64 => 4 | .f64 => 5
/-- MODE of `mi.qry` (R271); 3 is reserved. -/
def MiMode.ofCode (c : BitVec 2) : Option MiMode :=
  match c.toNat with
  | 0 => some .absmax | 1 => some .relmax | 2 => some .l1 | _ => none
@[inherit_doc MiMode.ofCode] def MiMode.code : MiMode → BitVec 2
  | .absmax => 0 | .relmax => 1 | .l1 => 2

/-- A code that must be one of a table, else slot `j` is refused. -/
def needSome {α : Type} (j : Nat) : Option α → Except DecodeError α
  | some x => .ok x
  | none => if j = 0 then .error (.reserved .code) else .error (.slot j .code)

/-- The Prism words, CLASS 0 to 3 (R204 to R208). -/
def decPrism (s0 s1 s2 s3 s4 s5 s6 s7 : W32) : Dec :=
  let e := endOfClass (eClass s0)
  let la := eLa s0
  match (eOp s0).toNat with
  | 0 => do
    need 0 .field ((s0.extractLsb' 7 2 : BitVec 2) = 0 ∧ (s0.extractLsb' 0 4 : BitVec 4) = 0)
    let p ← slotReg 1 s1
    let str ← slotOp 2 s2
    let _ ← slotImm 3 s3
    need 3 .field ((s3.extractLsb' 16 6 : BitVec 6) = 0)
    let _ ← slotImm 4 s4
    need 4 .field ((s4.extractLsb' 0 18 : BitVec 18) = 0)
    need 4 .code (formatDefined (s4.extractLsb' 24 6) && formatDefined (s4.extractLsb' 18 6))
    slotNone 5 s5; slotNone 6 s6; slotNone 7 s7
    .ok (.prMma e la (Role.ofBit (eBit s0 11)) (eBit s0 10) (eBit s0 9) (s0.extractLsb' 4 3) p str
      (s3.extractLsb' 26 4) (s3.extractLsb' 22 4) (s3.extractLsb' 0 16) (s4.extractLsb' 24 6) (s4.extractLsb' 18 6))
  | 1 => do
    need 0 .field ((s0.extractLsb' 0 4 : BitVec 4) = 0)
    let p ← slotReg 1 s1
    let str ← slotOp 2 s2
    let _ ← slotImm 3 s3
    need 3 .field ((s3.extractLsb' 16 6 : BitVec 6) = 0)
    let _ ← slotImm 4 s4
    need 4 .field ((s4.extractLsb' 12 6 : BitVec 6) = 0)
    need 4 .code (formatDefined (s4.extractLsb' 24 6) && formatDefined (s4.extractLsb' 18 6))
    slotNone 5 s5; slotNone 6 s6; slotNone 7 s7
    .ok (.prSma e la (Role.ofBit (eBit s0 11)) (eBit s0 10) (eBit s0 9) (eBit s0 8) (eBit s0 7) (s0.extractLsb' 4 3)
      p str (s3.extractLsb' 26 4) (s3.extractLsb' 22 4) (s3.extractLsb' 0 16) (s4.extractLsb' 24 6)
      (s4.extractLsb' 18 6) (s4.extractLsb' 0 12))
  | 2 => do
    need 0 .field ((s0.extractLsb' 10 2 : BitVec 2) = 0 ∧ (s0.extractLsb' 0 9 : BitVec 9) = 0)
    let src ← slotReg 1 s1
    let _ ← slotImm 2 s2
    need 2 .field ((s2.extractLsb' 25 5 : BitVec 5) = 0)
    slotNone 3 s3; slotNone 4 s4; slotNone 5 s5; slotNone 6 s6; slotNone 7 s7
    .ok (.prMdl e la (eBit s0 9) src (s2.extractLsb' 12 13) (s2.extractLsb' 0 12))
  | 3 => do
    need 0 .field ((s0.extractLsb' 11 1 : BitVec 1) = 0 ∧ (s0.extractLsb' 0 8 : BitVec 8) = 0)
    slotNone 1 s1; slotNone 2 s2; slotNone 3 s3; slotNone 4 s4; slotNone 5 s5; slotNone 6 s6; slotNone 7 s7
    .ok (.prAcz e la (eBit s0 10) (eBit s0 9) (eBit s0 8))
  | 4 => do
    need 0 .field ((s0.extractLsb' 11 1 : BitVec 1) = 0)
    let dk ← needSome 0 (Dk.ofCode (s0.extractLsb' 0 3))
    let rm ← needSome 0 (Rm.ofCode (s0.extractLsb' 3 3))
    need 0 .code (rm ≠ .rna)
    let d ← slotReg 1 s1
    let dstr ← slotOp 2 s2
    let _ ← slotImm 3 s3
    need 3 .field ((s3.extractLsb' 0 8 : BitVec 8) = 0)
    need 3 .code (outFormat (s3.extractLsb' 24 6) && !(eBit s0 6 && outFloat (s3.extractLsb' 24 6)))
    let nc ← slotOp 4 s4
    slotNone 5 s5; slotNone 6 s6; slotNone 7 s7
    .ok (.prOut e la (eBit s0 10) (eBit s0 9) (eBit s0 8) (eBit s0 7) (eBit s0 6) rm dk d dstr
      (s3.extractLsb' 24 6) (s3.extractLsb' 20 4) (s3.extractLsb' 16 4) (s3.extractLsb' 8 8) nc)
  | 5 => do
    need 0 .field ((s0.extractLsb' 10 2 : BitVec 2) = 0 ∧ (s0.extractLsb' 0 9 : BitVec 9) = 0)
    let sb ← slotReg 1 s1
    let db ← slotReg 2 s2
    let _ ← slotImm 3 s3
    need 3 .field ((s3.extractLsb' 5 25 : BitVec 25) = 0)
    need 3 .code ((s3.extractLsb' 0 5 : BitVec 5).toNat < 25)
    slotNone 4 s4; slotNone 5 s5; slotNone 6 s6; slotNone 7 s7
    .ok (.prScb e la (eBit s0 9) sb db (s3.extractLsb' 0 5))
  | _ => .error (.reserved .fn)

/-- The copy-engine words, CLASS 4 (R221, R226). -/
def decCopy (s0 s1 s2 s3 s4 s5 s6 s7 : W32) : Dec :=
  let la := eLa s0
  match (eOp s0).toNat with
  | 0 => do
    need 0 .field ((s0.extractLsb' 10 2 : BitVec 2) = 0 ∧ (s0.extractLsb' 0 9 : BitVec 9) = 0)
    let desc ← slotReg 1 s1
    slotNone 2 s2; slotNone 3 s3; slotNone 4 s4; slotNone 5 s5; slotNone 6 s6; slotNone 7 s7
    .ok (.cpNd la (eBit s0 9) desc)
  | 1 => do
    need 0 .field ((s0.extractLsb' 10 2 : BitVec 2) = 0 ∧ (s0.extractLsb' 3 4 : BitVec 4) = 0)
    if eBit s0 8 then do
      slotNone 1 s1
      let _ ← slotImm 2 s2
      need 2 .field ((s2.extractLsb' 13 17 : BitVec 17) = 0)
      slotNone 3 s3; slotNone 4 s4; slotNone 5 s5; slotNone 6 s6; slotNone 7 s7
      .ok (.cpPullRelease la (eBit s0 9) ⟨eBit s0 7, s0.extractLsb' 0 3⟩ (s2.extractLsb' 0 13))
    else do
      let dst ← slotReg 1 s1
      let _ ← slotImm 2 s2
      need 2 .field ((s2.extractLsb' 16 14 : BitVec 14) = 0)
      slotNone 3 s3; slotNone 4 s4; slotNone 5 s5; slotNone 6 s6; slotNone 7 s7
      .ok (.cpPullTake la (eBit s0 9) ⟨eBit s0 7, s0.extractLsb' 0 3⟩ dst (s2.extractLsb' 0 16))
  | _ => .error (.reserved .fn)

/-- The gather words, CLASS 5 (R229 to R231). -/
def decGather (s0 s1 s2 s3 s4 s5 s6 s7 : W32) : Dec :=
  let la := eLa s0
  match (eOp s0).toNat with
  | 0 => do
    need 0 .field ((s0.extractLsb' 10 2 : BitVec 2) = 0 ∧ (s0.extractLsb' 0 6 : BitVec 6) = 0)
    need 0 .code ((s0.extractLsb' 6 3 : BitVec 3).toNat < 6)
    let idx ← slotReg 1 s1
    let base ← slotReg 2 s2
    let dst ← slotReg 3 s3
    let count ← slotOp 4 s4
    slotNone 5 s5; slotNone 6 s6; slotNone 7 s7
    .ok (.gaGat la (eBit s0 9) (s0.extractLsb' 6 3) idx base dst count)
  | 1 => do
    need 0 .field ((s0.extractLsb' 10 2 : BitVec 2) = 0 ∧ (s0.extractLsb' 0 4 : BitVec 4) = 0)
    let t ← needSome 0 (GaTy.ofCode (s0.extractLsb' 4 3))
    let idx ← slotReg 1 s1
    let base ← slotReg 2 s2
    let vals ← slotReg 3 s3
    let count ← slotOp 4 s4
    slotNone 5 s5; slotNone 6 s6; slotNone 7 s7
    .ok (.gaUpd la (eBit s0 9) (GaOp.ofCode (s0.extractLsb' 7 2)) t idx base vals count)
  | 2 => do
    need 0 .field ((s0.extractLsb' 10 2 : BitVec 2) = 0 ∧ (s0.extractLsb' 0 4 : BitVec 4) = 0)
    need 0 .code (decide (4 ≤ (s0.extractLsb' 4 5 : BitVec 5).toNat) && (s0.extractLsb' 4 5 : BitVec 5).toNat ≠ 31)
    let keys ← slotReg 1 s1
    let table ← slotReg 2 s2
    let dst ← slotReg 3 s3
    let count ← slotOp 4 s4
    slotNone 5 s5; slotNone 6 s6; slotNone 7 s7
    .ok (.gaPrb la (eBit s0 9) (s0.extractLsb' 4 5) keys table dst count)
  | _ => .error (.reserved .fn)

/-- The Mirror words, CLASS 6 (R270 to R273). -/
def decMirror (s0 s1 s2 s3 s4 s5 s6 s7 : W32) : Dec :=
  let la := eLa s0
  match (eOp s0).toNat with
  | 0 => do
    need 0 .field ((s0.extractLsb' 10 2 : BitVec 2) = 0 ∧ (s0.extractLsb' 0 9 : BitVec 9) = 0)
    let base ← slotReg 1 s1
    let _ ← slotImm 2 s2
    need 2 .field ((s2.extractLsb' 28 2 : BitVec 2) = 0)
    slotNone 3 s3; slotNone 4 s4; slotNone 5 s5; slotNone 6 s6; slotNone 7 s7
    .ok (.miCfg la (eBit s0 9) base (s2.extractLsb' 22 6) (s2.extractLsb' 16 6) (s2.extractLsb' 0 16))
  | 1 => do
    let mode ← needSome 0 (MiMode.ofCode (s0.extractLsb' 10 2))
    need 0 .field ((s0.extractLsb' 0 4 : BitVec 4) = 0)
    let key ← slotReg 1 s1
    let step ← slotOp 2 s2
    let inp ← slotReg 3 s3
    let count ← slotOp 4 s4
    let out ← slotReg 5 s5
    slotNone 6 s6; slotNone 7 s7
    .ok (.miQry la mode (eBit s0 9) (s0.extractLsb' 4 5) key step inp count out)
  | 2 => do
    need 0 .field ((s0.extractLsb' 10 2 : BitVec 2) = 0 ∧ (s0.extractLsb' 0 9 : BitVec 9) = 0)
    let key ← slotReg 1 s1
    let step ← slotOp 2 s2
    let src ← slotReg 3 s3
    let len ← slotOp 4 s4
    slotNone 5 s5; slotNone 6 s6; slotNone 7 s7
    .ok (.miPut la (eBit s0 9) key step src len)
  | 3 => do
    need 0 .field ((s0.extractLsb' 10 2 : BitVec 2) = 0 ∧ (s0.extractLsb' 0 8 : BitVec 8) = 0)
    if eBit s0 8 then do
      slotNone 1 s1; slotNone 2 s2; slotNone 3 s3; slotNone 4 s4; slotNone 5 s5; slotNone 6 s6; slotNone 7 s7
      .ok (.miClrAll la (eBit s0 9))
    else do
      let key ← slotReg 1 s1
      slotNone 2 s2; slotNone 3 s3; slotNone 4 s4; slotNone 5 s5; slotNone 6 s6; slotNone 7 s7
      .ok (.miClrKey la (eBit s0 9) key)
  | _ => .error (.reserved .fn)

/-- The kick word, CLASS 7 (R223). -/
def decKick (s0 s1 s2 s3 s4 s5 s6 s7 : W32) : Dec :=
  match (eOp s0).toNat with
  | 0 => do
    need 0 .field ((s0.extractLsb' 9 3 : BitVec 3) = 0 ∧ (s0.extractLsb' 3 5 : BitVec 5) = 0)
    let src ← slotReg 1 s1
    let len ← slotOp 2 s2
    let kt ← slotKick s3
    slotNone 4 s4; slotNone 5 s5; slotNone 6 s6; slotNone 7 s7
    .ok (if eBit s0 8 then .kickManual (eLa s0) (s0.extractLsb' 0 3) src len kt
         else .kickPipe (eLa s0) (s0.extractLsb' 0 3) src len kt)
  | _ => .error (.reserved .fn)

/-- An engine word (R55, R56). DESIGN CHOICE: where slot 0 and operand slots, or several, break R65, the error names slot 0, else the
lowest slot (log 91). -/
def decodeEngine (s0 s1 s2 s3 s4 s5 s6 s7 : W32) : Dec :=
  match (eClass s0).toNat with
  | 0 | 1 | 2 | 3 => decPrism s0 s1 s2 s3 s4 s5 s6 s7
  | 4 => decCopy s0 s1 s2 s3 s4 s5 s6 s7
  | 5 => decGather s0 s1 s2 s3 s4 s5 s6 s7
  | 6 => decMirror s0 s1 s2 s3 s4 s5 s6 s7
  | 7 => decKick s0 s1 s2 s3 s4 s5 s6 s7
  | _ => .error (.reserved .fn)

/-! ### Encoding engine words -/

/-- Slot 0 (R55). -/
def e0 (cls : BitVec 4) (op : BitVec 6) (la : BitVec 4) (spec : BitVec 12) : W32 := 0x3F#6 ++ cls ++ op ++ la ++ spec
/-- A KIND 2 slot. -/
def encReg (r : SReg) : W32 := 2#2 ++ 0#25 ++ r
/-- A KIND 1 slot. -/
def encImm (v : BitVec 30) : W32 := 1#2 ++ v
/-- A slot of either KIND. -/
def encOp : EOp → W32
  | .imm v => encImm v
  | .reg r => encReg r
/-- Slot 3 of `kick`. -/
def encKick : KOp → W32
  | .imm hi rc tag => 1#2 ++ hi ++ rc ++ tag
  | .reg r => encReg r
/-- EVN in SPEC bit 9. -/
def specEvn (evn : Bool) : BitVec 12 := 0#2 ++ BitVec.ofBool evn ++ 0#9

def encPrMma (e : End) (la : La) (role : Role) (bank evn : Bool) (sw : BitVec 3) (p : SReg) (str : EOp)
    (m n : BitVec 4) (k : BitVec 16) (fa fb : BitVec 6) : List W32 :=
  [e0 e.code4 0 la (BitVec.ofBool role.bit ++ BitVec.ofBool bank ++ BitVec.ofBool evn ++ 0#2 ++ sw ++ 0#4),
   encReg p, encOp str, 1#2 ++ m ++ n ++ 0#6 ++ k, 1#2 ++ fa ++ fb ++ 0#18, 0, 0, 0]
def encPrSma (e : End) (la : La) (role : Role) (bank evn spa spb : Bool) (sw : BitVec 3) (p : SReg) (str : EOp)
    (m n : BitVec 4) (k : BitVec 16) (fa fb : BitVec 6) (moff : BitVec 12) : List W32 :=
  [e0 e.code4 1 la (BitVec.ofBool role.bit ++ BitVec.ofBool bank ++ BitVec.ofBool evn ++ BitVec.ofBool spa ++
      BitVec.ofBool spb ++ sw ++ 0#4),
   encReg p, encOp str, 1#2 ++ m ++ n ++ 0#6 ++ k, 1#2 ++ fa ++ fb ++ 0#6 ++ moff, 0, 0, 0]
def encPrMdl (e : End) (la : La) (evn : Bool) (src : SReg) (len : BitVec 13) (moff : BitVec 12) : List W32 :=
  [e0 e.code4 2 la (specEvn evn), encReg src, 1#2 ++ 0#5 ++ len ++ moff, 0, 0, 0, 0, 0]
def encPrAcz (e : End) (la : La) (bank evn both : Bool) : List W32 :=
  [e0 e.code4 3 la (0#1 ++ BitVec.ofBool bank ++ BitVec.ofBool evn ++ BitVec.ofBool both ++ 0#8), 0, 0, 0, 0, 0, 0, 0]
def encPrOut (e : End) (la : La) (bank evn add clr sat : Bool) (rm : Rm) (dk : Dk) (d : SReg) (dstr : EOp)
    (ofmt : BitVec 6) (m n : BitVec 4) (osc : BitVec 8) (ncore : EOp) : List W32 :=
  [e0 e.code4 4 la (0#1 ++ BitVec.ofBool bank ++ BitVec.ofBool evn ++ BitVec.ofBool add ++ BitVec.ofBool clr ++
      BitVec.ofBool sat ++ rm.code ++ dk.code),
   encReg d, encOp dstr, 1#2 ++ ofmt ++ m ++ n ++ osc ++ 0#8, encOp ncore, 0, 0, 0]
def encPrScb (e : End) (la : La) (evn : Bool) (sb db : SReg) (shift : BitVec 5) : List W32 :=
  [e0 e.code4 5 la (specEvn evn), encReg sb, encReg db, 1#2 ++ 0#25 ++ shift, 0, 0, 0, 0]
def encCpNd (la : La) (evn : Bool) (desc : SReg) : List W32 :=
  [e0 4 0 la (specEvn evn), encReg desc, 0, 0, 0, 0, 0, 0]
def encCpPullTake (la : La) (evn any : Bool) (pipe : BitVec 3) (dst : SReg) (tag : BitVec 16) : List W32 :=
  [e0 4 1 la (0#2 ++ BitVec.ofBool evn ++ 0#1 ++ BitVec.ofBool any ++ 0#4 ++ pipe), encReg dst, 1#2 ++ 0#14 ++ tag, 0, 0, 0, 0, 0]
def encCpPullRelease (la : La) (evn any : Bool) (pipe : BitVec 3) (units : BitVec 13) : List W32 :=
  [e0 4 1 la (0#2 ++ BitVec.ofBool evn ++ 1#1 ++ BitVec.ofBool any ++ 0#4 ++ pipe), 0, 1#2 ++ 0#17 ++ units, 0, 0, 0, 0, 0]
def encKickPipe (la : La) (pipe : BitVec 3) (src : SReg) (len : EOp) (kt : KOp) : List W32 :=
  [e0 7 0 la (0#9 ++ pipe), encReg src, encOp len, encKick kt, 0, 0, 0, 0]
def encKickManual (la : La) (pipe : BitVec 3) (src : SReg) (len : EOp) (kt : KOp) : List W32 :=
  [e0 7 0 la (1#4 ++ 0#5 ++ pipe), encReg src, encOp len, encKick kt, 0, 0, 0, 0]
def encGaGat (la : La) (evn : Bool) (esz : BitVec 3) (idx base dst : SReg) (count : EOp) : List W32 :=
  [e0 5 0 la (0#2 ++ BitVec.ofBool evn ++ esz ++ 0#6), encReg idx, encReg base, encReg dst, encOp count, 0, 0, 0]
def encGaUpd (la : La) (evn : Bool) (op : GaOp) (t : GaTy) (idx base vals : SReg) (count : EOp) : List W32 :=
  [e0 5 1 la (0#2 ++ BitVec.ofBool evn ++ op.code ++ t.code ++ 0#4), encReg idx, encReg base, encReg vals,
   encOp count, 0, 0, 0]
def encGaPrb (la : La) (evn : Bool) (tl : BitVec 5) (keys table dst : SReg) (count : EOp) : List W32 :=
  [e0 5 2 la (0#2 ++ BitVec.ofBool evn ++ tl ++ 0#4), encReg keys, encReg table, encReg dst, encOp count, 0, 0, 0]
def encMiCfg (la : La) (evn : Bool) (base : SReg) (osz isz : BitVec 6) (nslot : BitVec 16) : List W32 :=
  [e0 6 0 la (specEvn evn), encReg base, 1#2 ++ 0#2 ++ osz ++ isz ++ nslot, 0, 0, 0, 0, 0]
def encMiQry (la : La) (mode : MiMode) (evn : Bool) (rd key : SReg) (step : EOp) (inp : SReg) (count : EOp)
    (out : SReg) : List W32 :=
  [e0 6 1 la (mode.code ++ BitVec.ofBool evn ++ rd ++ 0#4), encReg key, encOp step, encReg inp, encOp count,
   encReg out, 0, 0]
def encMiPut (la : La) (evn : Bool) (key : SReg) (step : EOp) (src : SReg) (len : EOp) : List W32 :=
  [e0 6 2 la (specEvn evn), encReg key, encOp step, encReg src, encOp len, 0, 0, 0]
def encMiClrKey (la : La) (evn : Bool) (key : SReg) : List W32 :=
  [e0 6 3 la (specEvn evn), encReg key, 0, 0, 0, 0, 0, 0]
def encMiClrAll (la : La) (evn : Bool) : List W32 :=
  [e0 6 3 la (0#2 ++ BitVec.ofBool evn ++ 1#1 ++ 0#8), 0, 0, 0, 0, 0, 0, 0]


/-- The words of a well-formed instruction (R49 to R64, and each engine word's entry); a device step has none. -/
def encode : Instr → List W32
  | .add d a b => [rWord 0x0 d a b 0 0x0]
  | .sub d a b => [rWord 0x0 d a b 0 0x1]
  | .mul d a b => [rWord 0x0 d a b 0 0x2]
  | .mulh d a b => [rWord 0x0 d a b 0 0x3]
  | .mulhn d a b => [rWord 0x0 d a b 0 0x4]
  | .div d a b l => [rWord 0x0 d a b (encLaR l) 0x5]
  | .divn d a b l => [rWord 0x0 d a b (encLaR l) 0x6]
  | .rem d a b l => [rWord 0x0 d a b (encLaR l) 0x7]
  | .remn d a b l => [rWord 0x0 d a b (encLaR l) 0x8]
  | .and d a b => [rWord 0x0 d a b 0 0x9]
  | .or d a b => [rWord 0x0 d a b 0 0xA]
  | .xor d a b => [rWord 0x0 d a b 0 0xB]
  | .sll d a b => [rWord 0x0 d a b 0 0xC]
  | .srl d a b => [rWord 0x0 d a b 0 0xD]
  | .sra d a b => [rWord 0x0 d a b 0 0xE]
  | .rol d a b => [rWord 0x0 d a b 0 0xF]
  | .ror d a b => [rWord 0x0 d a b 0 0x10]
  | .clz d a => [rWord 0x0 d a 0 0 0x11]
  | .ctz d a => [rWord 0x0 d a 0 0 0x12]
  | .pop d a => [rWord 0x0 d a 0 0 0x13]
  | .min d a b => [rWord 0x0 d a b 0 0x14]
  | .max d a b => [rWord 0x0 d a b 0 0x15]
  | .minn d a b => [rWord 0x0 d a b 0 0x16]
  | .maxn d a b => [rWord 0x0 d a b 0 0x17]
  | .adda d a b => [rWord 0x0 d a b 0 0x18]
  | .seq d a b => [rWord 0x0 d a b 0 0x19]
  | .sne d a b => [rWord 0x0 d a b 0 0x1A]
  | .slt d a b => [rWord 0x0 d a b 0 0x1B]
  | .sltn d a b => [rWord 0x0 d a b 0 0x1C]
  | .sle d a b => [rWord 0x0 d a b 0 0x1D]
  | .slen d a b => [rWord 0x0 d a b 0 0x1E]
  | .sel d a b c => [rWord 0x0 d a b c 0x1F]
  | .addi d a i => [iWord 0x2 d a i]
  | .andi d a i => [iWord 0x3 d a i]
  | .ori d a i => [iWord 0x4 d a i]
  | .xori d a i => [iWord 0x5 d a i]
  | .slli d a n => [iWord 0x6 d a (encShift 0 n)]
  | .srli d a n => [iWord 0x6 d a (encShift 1 n)]
  | .srai d a n => [iWord 0x6 d a (encShift 2 n)]
  | .rori d a n => [iWord 0x6 d a (encShift 3 n)]
  | .slti d a i => [iWord 0x7 d a i]
  | .sltin d a i => [iWord 0x8 d a i]
  | .li d i => [iWord 0x9 d 0 i]
  | .lis16 d i => [iWord 0xA d 0 i]
  | .lis32 d i => [iWord 0xB d 0 i]
  | .lis48 d i => [iWord 0xC d 0 i]
  | .addai d a i => [iWord 0xD d a i]
  | .beq a b o => [iWord 0x10 a b o]
  | .bne a b o => [iWord 0x11 a b o]
  | .blt a b o => [iWord 0x12 a b o]
  | .bge a b o => [iWord 0x13 a b o]
  | .bltn a b o => [iWord 0x14 a b o]
  | .bgen a b o => [iWord 0x15 a b o]
  | .b o => [bWord false o]
  | .bl o => [bWord true o]
  | .br a => [iWord 0x17 a 0 0]
  | .blr a l => [iWord 0x17 a l 0]
  | .ret => [iWord 0x17 1 0 0]
  | .ld d a l w z o => [mWord 0x18 d a l w z.code o]
  | .st d a w z o => [mWord 0x19 d a 0 w z.code o]
  | .ldHinted d a l k e z o => [hWord 0x1A d a l k e z.code o]
  | .tch a l o => [mWord 0x1B 0 a l 0 0 o]
  | .pfL1 a o => [mWord 0x1B 0 a 0 0 1 o]
  | .pfSl a o => [mWord 0x1B 0 a 0 0 2 o]
  | .cmoCln a b l v => [gWord 0x1C 0 a b l 0 v.code.1 v.code.2]
  | .cmoInv a b l v => [gWord 0x1C 0 a b l 1 v.code.1 v.code.2]
  | .cmoCli a b l v => [gWord 0x1C 0 a b l 2 v.code.1 v.code.2]
  | .amoSwap d a b l z c => [gWord 0x1D d a b l 0 z.bit c.bit]
  | .amoCas d a b l z c => [gWord 0x1D d a b l 1 z.bit c.bit]
  | .amoAdd d a b l z c => [gWord 0x1D d a b l 2 z.bit c.bit]
  | .amoAnd d a b l z c => [gWord 0x1D d a b l 3 z.bit c.bit]
  | .amoOr d a b l z c => [gWord 0x1D d a b l 4 z.bit c.bit]
  | .amoXor d a b l z c => [gWord 0x1D d a b l 5 z.bit c.bit]
  | .amoMax d a b l z c => [gWord 0x1D d a b l 6 z.bit c.bit]
  | .amoMin d a b l z c => [gWord 0x1D d a b l 7 z.bit c.bit]
  | .amoMaxn d a b l z c => [gWord 0x1D d a b l 8 z.bit c.bit]
  | .amoMinn d a b l z c => [gWord 0x1D d a b l 9 z.bit c.bit]
  | .redAdd a b z => [gWord 0x1E 0 a b 0 0 z.bit false]
  | .redAnd a b z => [gWord 0x1E 0 a b 0 1 z.bit false]
  | .redOr a b z => [gWord 0x1E 0 a b 0 2 z.bit false]
  | .redXor a b z => [gWord 0x1E 0 a b 0 3 z.bit false]
  | .redMax a b z => [gWord 0x1E 0 a b 0 4 z.bit false]
  | .redMin a b z => [gWord 0x1E 0 a b 0 5 z.bit false]
  | .redMaxn a b z => [gWord 0x1E 0 a b 0 6 z.bit false]
  | .redMinn a b z => [gWord 0x1E 0 a b 0 7 z.bit false]
  | .redFadd a b z => [gWord 0x1E 0 a b 0 8 z.bit false]
  | .redFmax a b z => [gWord 0x1E 0 a b 0 9 z.bit false]
  | .redFmin a b z => [gWord 0x1E 0 a b 0 10 z.bit false]
  | .vadd d a b k t => [vWord35 0x20 d a b k t.code 0]
  | .vsub d a b k t => [vWord35 0x20 d a b k t.code 1]
  | .vmul d a b k t => [vWord35 0x20 d a b k t.code 2]
  | .vmulh d a b k t => [vWord35 0x20 d a b k t.code 3]
  | .vmin d a b k t => [vWord35 0x20 d a b k t.code 4]
  | .vmax d a b k t => [vWord35 0x20 d a b k t.code 5]
  | .vand d a b k t => [vWord35 0x20 d a b k t.code 6]
  | .vor d a b k t => [vWord35 0x20 d a b k t.code 7]
  | .vxor d a b k t => [vWord35 0x20 d a b k t.code 8]
  | .vsll d a b k t => [vWord35 0x20 d a b k t.code 9]
  | .vsrl d a b k t => [vWord35 0x20 d a b k t.code 10]
  | .vsra d a b k t => [vWord35 0x20 d a b k t.code 11]
  | .vabs d a k t => [vWord35 0x20 d a 0 k t.code 12]
  | .vneg d a k t => [vWord35 0x20 d a 0 k t.code 13]
  | .vadds d a b k t => [vWord35 0x20 d a b k t.code 14]
  | .vsubs d a b k t => [vWord35 0x20 d a b k t.code 15]
  | .vclz d a k t => [vWord35 0x20 d a 0 k t.code 16]
  | .vpop d a k t => [vWord35 0x20 d a 0 k t.code 17]
  | .vfadd d a b k t r => [vWord233 0x21 d a b k t.code r.code 0]
  | .vfsub d a b k t r => [vWord233 0x21 d a b k t.code r.code 1]
  | .vfmul d a b k t r => [vWord233 0x21 d a b k t.code r.code 2]
  | .vfdiv d a b k t r => [vWord233 0x21 d a b k t.code r.code 3]
  | .vfmin d a b k t r => [vWord233 0x21 d a b k t.code r.code 4]
  | .vfmax d a b k t r => [vWord233 0x21 d a b k t.code r.code 5]
  | .vfma d a b k t r => [vWord233 0x22 d a b k t.code r.code 0]
  | .vfms d a b k t r => [vWord233 0x22 d a b k t.code r.code 1]
  | .vfnma d a b k t r => [vWord233 0x22 d a b k t.code r.code 2]
  | .vfnms d a b k t r => [vWord233 0x22 d a b k t.code r.code 3]
  | .vfsqrt d a k t r => [vWord233 0x22 d a 0 k t.code r.code 4]
  | .vfabs d a k t r => [vWord233 0x22 d a 0 k t.code r.code 5]
  | .vfneg d a k t r => [vWord233 0x22 d a 0 k t.code r.code 6]
  | .vceq d a b k t => [vWord44 0x23 (encM d) a b k t.code 0]
  | .vcne d a b k t => [vWord44 0x23 (encM d) a b k t.code 1]
  | .vclt d a b k t => [vWord44 0x23 (encM d) a b k t.code 2]
  | .vcle d a b k t => [vWord44 0x23 (encM d) a b k t.code 3]
  | .vcgt d a b k t => [vWord44 0x23 (encM d) a b k t.code 4]
  | .vcge d a b k t => [vWord44 0x23 (encM d) a b k t.code 5]
  | .vcvt d a x u k t r => [vWord431 0x24 d a (encSatT x u) k t.code r.code]
  | .vq d a b k q r => [vWord332 0x25 d a b k q.code r.code 0]
  | .vqs d a b k q r => [vWord332 0x25 d a b k q.code r.code 1]
  | .vsx d a k => [vWord332 0x25 d a 0 k 0 0 2]
  | .vrsum d a k t => [vWord44 0x26 d a 0 k t.code 0]
  | .vrmin d a k t => [vWord44 0x26 d a 0 k t.code 1]
  | .vrmax d a k t => [vWord44 0x26 d a 0 k t.code 2]
  | .vrand d a k t => [vWord44 0x26 d a 0 k t.code 3]
  | .vror d a k t => [vWord44 0x26 d a 0 k t.code 4]
  | .vrxor d a k t => [vWord44 0x26 d a 0 k t.code 5]
  | .vperm d a b k e => [vWord35 0x27 d a b k e.code 0]
  | .vbcast d a k e => [vWord35 0x27 d a 0 k e.code 1]
  | .vslup d a b k e => [vWord35 0x27 d a b k e.code 2]
  | .vsldn d a b k e => [vWord35 0x27 d a b k e.code 3]
  | .vzip d a b k e => [vWord35 0x27 d a b k e.code 4]
  | .vunzip d a b k e => [vWord35 0x27 d a b k e.code 5]
  | .vcompr d a k e => [vWord35 0x27 d a 0 k e.code 6]
  | .vexpand d a k e => [vWord35 0x27 d a 0 k e.code 7]
  | .mand d a b => [vWord44 0x28 (encM d) (encM a) (encM b) 0 0 0]
  | .mor d a b => [vWord44 0x28 (encM d) (encM a) (encM b) 0 0 1]
  | .mxor d a b => [vWord44 0x28 (encM d) (encM a) (encM b) 0 0 2]
  | .mandn d a b => [vWord44 0x28 (encM d) (encM a) (encM b) 0 0 3]
  | .mnot d a => [vWord44 0x28 (encM d) (encM a) 0 0 0 4]
  | .mpop d a => [vWord44 0x28 d (encM a) 0 0 0 5]
  | .mfirst d a => [vWord44 0x28 d (encM a) 0 0 0 6]
  | .mfrom d a => [vWord44 0x28 (encM d) a 0 0 0 7]
  | .mto d a => [vWord44 0x28 d (encM a) 0 0 0 8]
  | .vld d a b k l t => [vWord44 0x29 d a b k l t.code]
  | .vst d a b k t => [vWord44 0x2A d a b k 0 t.code]
  | .vgath d a b k l e => [vWord422 0x2B d a b k l (encW e) 0]
  | .vscat d a b k l e => [vWord422 0x2B d a b k l (encW e) 1]
  | .vamoAdd32 d a b k l => [vWord44 0x2C d a b k l 0]
  | .vamoAdd64 d a b k l => [vWord44 0x2C d a b k l 1]
  | .vamoMax32 d a b k l => [vWord44 0x2C d a b k l 2]
  | .vamoMin32 d a b k l => [vWord44 0x2C d a b k l 3]
  | .vamoMaxn32 d a b k l => [vWord44 0x2C d a b k l 4]
  | .vamoMinn32 d a b k l => [vWord44 0x2C d a b k l 5]
  | .vamoFadd32 d a b k l => [vWord44 0x2C d a b k l 6]
  | .vamoFmax32 d a b k l => [vWord44 0x2C d a b k l 7]
  | .vamoFmin32 d a b k l => [vWord44 0x2C d a b k l 8]
  | .vamoSwap32 d a b k l => [vWord44 0x2C d a b k l 9]
  | .vamoSwap64 d a b k l => [vWord44 0x2C d a b k l 10]
  | .spawn a => [rWord 0x30 0 a 0 0 0]
  | .popd d => [rWord 0x30 d 0 0 0 1]
  | .tenq a b => [rWord 0x30 0 a b 0 2]
  | .tend => [rWord 0x30 0 0 0 0 3]
  | .join a => [rWord 0x30 0 a 0 0 4]
  | .aset a b i => [rWord 0x30 0 a b (encX86 i) 5]
  | .msg a b => [rWord 0x30 0 a b 0 6]
  | .evr d => [rWord 0x30 d 0 0 0 7]
  | .ewt a q => [rWord 0x30 0 a 0 (encLaR q.code4) 8]
  | .barArv g n => [rWord 0x31 0 0 (encBar g n) 0 0]
  | .barWt g n => [rWord 0x31 0 0 (encBar g n) 0 1]
  | .barMax d a g n => [rWord 0x31 d a (encBar g n) 0 2]
  | .fence c => [rWord 0x32 0 0 0 (encX 0 c.code) 0]
  | .fenceAcq c => [rWord 0x32 0 0 0 (encX 0 c.code) 1]
  | .fenceRel c => [rWord 0x32 0 0 0 (encX 0 c.code) 2]
  | .trap n => [rWord 0x38 0 0 (encTrapHi n) (encTrapLo n) 0]
  | .rett => [rWord 0x38 0 0 0 0 1]
  | .wfe => [rWord 0x38 0 0 0 0 2]
  | .fret => [rWord 0x38 0 0 0 0 3]
  | .fres a => [rWord 0x38 0 a 0 0 4]
  | .hreq a => [rWord 0x38 0 a 0 0 5]
  | .tmark a => [rWord 0x38 0 a 0 0 6]
  | .tlbi a b => [rWord 0x38 0 a b 0 7]
  | .wpaStop a b i => [rWord 0x38 0 a b (encX 1 i) 8]
  | .wpaGang a b i => [rWord 0x38 0 a b (encX 2 i) 8]
  | .wpaRec a b i => [rWord 0x38 0 a b (encX 3 i) 8]
  | .wpaOff i => [rWord 0x38 0 0 0 (encX 0 i) 8]
  | .csrr d c => [iWord 0x39 d 0 (encCsr 0 c)]
  | .csrw a c => [iWord 0x39 0 a (encCsr 1 c)]
  | .csrs d a c => [iWord 0x39 d a (encCsr 2 c)]
  | .csrc d a c => [iWord 0x39 d a (encCsr 3 c)]
  | .prMma e la role bank evn sw p str m n k fa fb => encPrMma e la role bank evn sw p str m n k fa fb
  | .prSma e la role bank evn spa spb sw p str m n k fa fb moff => encPrSma e la role bank evn spa spb sw p str m n k fa fb moff
  | .prMdl e la evn src len moff => encPrMdl e la evn src len moff
  | .prAcz e la bank evn both => encPrAcz e la bank evn both
  | .prOut e la bank evn add clr sat rm dk d dstr ofmt m n osc ncore => encPrOut e la bank evn add clr sat rm dk d dstr ofmt m n osc ncore
  | .prScb e la evn sb db shift => encPrScb e la evn sb db shift
  | .cpNd la evn desc => encCpNd la evn desc
  | .cpPullTake la evn src dst tag => encCpPullTake la evn src.any src.pipe dst tag
  | .cpPullRelease la evn src units => encCpPullRelease la evn src.any src.pipe units
  | .kickPipe la pipe src len kt => encKickPipe la pipe src len kt
  | .kickManual la pipe src len kt => encKickManual la pipe src len kt
  | .gaGat la evn esz idx base dst count => encGaGat la evn esz idx base dst count
  | .gaUpd la evn op t idx base vals count => encGaUpd la evn op t idx base vals count
  | .gaPrb la evn tl keys table dst count => encGaPrb la evn tl keys table dst count
  | .miCfg la evn base osz isz nslot => encMiCfg la evn base osz isz nslot
  | .miQry la mode evn rd key step inp count out => encMiQry la mode evn rd key step inp count out
  | .miPut la evn key step src len => encMiPut la evn key step src len
  | .miClrKey la evn key => encMiClrKey la evn key
  | .miClrAll la evn => encMiClrAll la evn
  | .registerWrite _ _ _ => []
  | .longLatencyCompletion _ _ => []
  | .storeBufferLeave _ => []
  | .writeThroughArrival _ => []
  | .reductionApply _ => []
  | .pinWindowExpiry _ _ => []
  | .sliceRetry _ => []
  | .heldWriteResend _ => []
  | .pageFaultRecordWrite _ => []
  | .prnWrite _ _ => []
  | .selectNextWork _ => []
  | .contextSaveSlotWait _ => []
  | .steal _ => []
  | .predDecrement _ => []
  | .messageArrival _ => []
  | .lockRequest _ => []
  | .commitFrontierSample _ => []
  | .orderedCommit _ _ => []
  | .orderedContextWound _ => []
  | .budgetExpiry _ => []
  | .engineWordStart _ _ => []
  | .prismPairing _ => []
  | .prismSingleEndStart _ _ => []
  | .prismStep _ => []
  | .engineWordCompletion _ _ => []
  | .eventRecordWrite _ => []
  | .heldWordReport _ => []
  | .efrAbort _ _ => []
  | .sliceAgentMessage _ => []
  | .kickNoticeArrival _ => []
  | .kickNoticeResend _ => []
  | .pipePull _ => []
  | .pullAckArrival _ => []
  | .wcntWrite _ _ => []
  | .queueEnableWrite _ _ => []
  | .histogramClear _ => []
  | .queueAgeing _ => []
  | .queueEntryStart _ => []
  | .cqNop _ _ => []
  | .cqLaunch _ _ => []
  | .cqCopy _ _ => []
  | .cqSignalWrite _ _ => []
  | .cqSignalAdd _ _ => []
  | .cqWait _ _ => []
  | .cqQbarrier _ _ => []
  | .queueEntryCompletion _ _ => []
  | .gangClaim _ => []
  | .gangUnplace _ => []
  | .preemptionRequest _ => []
  | .powerWindow _ _ => []
  | .focusBalance _ => []
  | .irisHalt _ => []
  | .irisResume _ => []
  | .irisSnapshot _ => []
  | .fcfgWrite _ _ _ => []
  | .facetWindowEnd _ _ => []
  | .lensClear _ => []
  | .warmReset _ => []
  | .linkRetrain _ _ => []
  | .wifortReplay _ => []
  | .wifortLaneFail _ _ => []
  | .scrubTick _ => []
  | .thermalWindow _ _ => []
  | .thermalShutdown  => []
  | .powerOnBoot  => []
  | .functionReady _ => []
  | .attestationRequest _ => []
  | .softError _ => []
  | .functionFail _ => []
  | .wifortRequest _ => []

/-! ### Bytes -/

/-- A 32-bit word from four bytes, the least significant first (R4, R49). -/
def w32OfBytes (b0 b1 b2 b3 : Byte) : W32 := b3 ++ b2 ++ b1 ++ b0
/-- The bytes of a word, the least significant first. -/
def bytesOfW32 (w : W32) : List Byte :=
  [w.extractLsb' 0 8, w.extractLsb' 8 8, w.extractLsb' 16 8, w.extractLsb' 24 8]
/-- The bytes of words at rising addresses. -/
def bytesOfWords : List W32 → List Byte
  | [] => []
  | w :: ws => bytesOfW32 w ++ bytesOfWords ws
/-- The words of a byte list; a last incomplete word is dropped. -/
def wordsOfBytes : List Byte → List W32
  | b0 :: b1 :: b2 :: b3 :: bs => w32OfBytes b0 b1 b2 b3 :: wordsOfBytes bs
  | _ => []

/-- The instruction whose words begin `ws`; `aligned` says its address is a multiple of 32 (R49, R65, R67). -/
def decodeWords (aligned : Bool) : List W32 → Dec
  | [] => .error .truncated
  | s0 :: rest =>
    if wMaj s0 = 0x3F then
      if !aligned then .error (.reserved .align) else
      match rest with
      | s1 :: s2 :: s3 :: s4 :: s5 :: s6 :: s7 :: _ => decodeEngine s0 s1 s2 s3 s4 s5 s6 s7
      | _ => .error .truncated
    else decodeWord s0

/-- The instruction at the start of a byte list. -/
def decode (aligned : Bool) (bs : List Byte) : Dec := decodeWords aligned (wordsOfBytes bs)

/-- The bytes of an instruction (R49). -/
def encodeBytes (i : Instr) : List Byte := bytesOfWords (encode i)

/-- The instruction's size in bytes (R49): an engine word has 32. -/
def Instr.size (i : Instr) : Nat := 4 * (encode i).length

/-- `n` bytes of the number `w`, the least significant first. -/
def bytesOfNat : Nat → Nat → List Byte
  | 0, _ => []
  | n + 1, w => BitVec.ofNat 8 w :: bytesOfNat n (w / 256)

/-- The instruction this decoder reads from an instruction whose bits are `w` as spec/opcode_table.json numbers them;
bits above `nbits` are 0, and the longest instruction has 32 bytes. -/
def decodeTableWord (nbits w : Nat) : Option Instr :=
  match decode true (bytesOfNat 32 (w % 2 ^ nbits)) with
  | .ok i => some i
  | .error _ => none

end Sys2Proof
end

