-- ==== Sys2Proof/Machine/Num.lean ====
section
/-!
DEFINITION. Number formats, the single rounding, conversions and quantisation (02_numbers.md R24 to R48). Values are exact
(dyadic rationals on unbounded integers) until the one rounding of R40.
-/
namespace Sys2Proof.Machine

/-- The rounding modes of R35. -/
inductive RMode where | rne | rz | rdn | rup | rna
  deriving DecidableEq, Repr

/-- The FSTAT flags in FSTAT's bit order (R124): NV 4, DZ 3, OF 2, UF 1, NX 0. -/
abbrev Flags := BitVec 5
/-- Invalid, division by zero, overflow with inexact, underflow, inexact. -/
def flagNV : Flags := 0x10
@[inherit_doc flagNV] def flagDZ : Flags := 0x08
@[inherit_doc flagNV] def flagOF : Flags := 0x04
@[inherit_doc flagNV] def flagUF : Flags := 0x02
@[inherit_doc flagNV] def flagNX : Flags := 0x01

/-- What a format has beyond finite values (R24): infinities and NaNs, the one NaN of `e4m3`, or nothing. -/
inductive Special where | ieee | nanOnly | none
  deriving DecidableEq, Repr

/-- A floating-point format of R24. `maxMant` is the integer significand of the largest finite value. -/
structure Fmt where
  width : Nat
  ebits : Nat
  mbits : Nat
  bias : Nat
  special : Special
  deriving DecidableEq, Repr

/-- The seven formats of R24. -/
def fmtF64 : Fmt := ⟨64, 11, 52, 1023, .ieee⟩
@[inherit_doc fmtF64] def fmtF32 : Fmt := ⟨32, 8, 23, 127, .ieee⟩
@[inherit_doc fmtF64] def fmtF16 : Fmt := ⟨16, 5, 10, 15, .ieee⟩
@[inherit_doc fmtF64] def fmtBf16 : Fmt := ⟨16, 8, 7, 127, .ieee⟩
@[inherit_doc fmtF64] def fmtE4m3 : Fmt := ⟨8, 4, 3, 7, .nanOnly⟩
@[inherit_doc fmtF64] def fmtE5m2 : Fmt := ⟨8, 5, 2, 15, .ieee⟩
@[inherit_doc fmtF64] def fmtE2m1 : Fmt := ⟨4, 2, 1, 1, .none⟩

/-- An exact value, with the sign of a zero kept (R24, R27). -/
inductive Val where
  | nan
  | inf (neg : Bool)
  /-- (−1)^neg × mag × 2^exp -/
  | fin (neg : Bool) (mag : Nat) (exp : Int)
  deriving DecidableEq, Repr

/-- The largest biased exponent of a finite value. -/
def Fmt.maxE (f : Fmt) : Nat := match f.special with | .ieee => 2 ^ f.ebits - 2 | _ => 2 ^ f.ebits - 1
/-- The significand of the largest finite value, with its leading one. -/
def Fmt.maxMant (f : Fmt) : Nat := match f.special with | .nanOnly => 2 ^ (f.mbits + 1) - 2 | _ => 2 ^ (f.mbits + 1) - 1
/-- The exponent of the last place of the largest finite value. -/
def Fmt.maxQ (f : Fmt) : Int := (f.maxE : Int) - f.bias - f.mbits
/-- The sign bit. -/
def Fmt.signBit (f : Fmt) (neg : Bool) : Nat := if neg then 2 ^ (f.width - 1) else 0
/-- The encoding of the largest finite value. -/
def Fmt.maxFinite (f : Fmt) (neg : Bool) : Nat := f.signBit neg + f.maxE * 2 ^ f.mbits + (f.maxMant - 2 ^ f.mbits)
/-- The encoding of an infinity, in a format that has one. -/
def Fmt.infinity (f : Fmt) (neg : Bool) : Nat := f.signBit neg + (2 ^ f.ebits - 1) * 2 ^ f.mbits
/-- The canonical NaN (R24); `e2m1` has none and gives +0 (R38). -/
def Fmt.nan (f : Fmt) : Nat :=
  match f.special with
  | .ieee => (2 ^ f.ebits - 1) * 2 ^ f.mbits + 2 ^ (f.mbits - 1)
  | .nanOnly => 2 ^ (f.width - 1) - 1
  | .none => 0

/-- The value of an encoding (R24). -/
def Fmt.val (f : Fmt) (x : Nat) : Val :=
  let neg := decide (x / 2 ^ (f.width - 1) % 2 = 1)
  let e := x / 2 ^ f.mbits % 2 ^ f.ebits
  let m := x % 2 ^ f.mbits
  if f.special = .ieee ∧ e = 2 ^ f.ebits - 1 then (if m = 0 then .inf neg else .nan)
  else if f.special = .nanOnly ∧ e = 2 ^ f.ebits - 1 ∧ m = 2 ^ f.mbits - 1 then .nan
  else if e = 0 then .fin neg m (1 - (f.bias : Int) - f.mbits)
  else .fin neg (2 ^ f.mbits + m) ((e : Int) - f.bias - f.mbits)

/-- Whether the discarded part `rem` of `2 ^ s` (with `sticky` for a further part below) rounds `n` up in magnitude. -/
def roundsUp (mode : RMode) (neg odd : Bool) (rem half : Nat) (sticky : Bool) : Bool :=
  match mode with
  | .rne => decide (rem > half) || (decide (rem = half) && decide (half ≠ 0) && (sticky || odd))
  | .rna => decide (rem ≥ half) && decide (half ≠ 0)
  | .rz => false
  | .rdn => neg && (decide (rem ≠ 0) || sticky)
  | .rup => !neg && (decide (rem ≠ 0) || sticky)

/-- `mag × 2^exp` (and a part below, when `sticky`) in units of 2^q, rounded to an integer, and whether that was inexact. -/
def roundAt (mode : RMode) (neg : Bool) (mag : Nat) (exp : Int) (sticky : Bool) (q : Int) : Nat × Bool :=
  if exp ≥ q then (mag * 2 ^ (exp - q).toNat, sticky)
  else
    let s := (q - exp).toNat
    let n := mag / 2 ^ s
    let rem := mag % 2 ^ s
    let half := 2 ^ (s - 1)
    (if roundsUp mode neg (decide (n % 2 = 1)) rem half sticky then n + 1 else n, decide (rem ≠ 0) || sticky)

/-- The result of an overflow (R37). -/
def Fmt.overflow (f : Fmt) (mode : RMode) (sat neg : Bool) : Nat :=
  if sat then f.maxFinite neg else
  match f.special with
  | .none => f.maxFinite neg
  | .ieee =>
    match mode with
    | .rne | .rna => f.infinity neg
    | .rz => f.maxFinite neg
    | .rdn => if neg then f.infinity neg else f.maxFinite neg
    | .rup => if neg then f.maxFinite neg else f.infinity neg
  | .nanOnly =>
    -- R26: the NaN of an overflow keeps the sign of the value
    match mode with
    | .rne | .rna => f.signBit neg + f.nan
    | .rz => f.maxFinite neg
    | .rdn => if neg then f.signBit neg + f.nan else f.maxFinite neg
    | .rup => if neg then f.maxFinite neg else f.signBit neg + f.nan

/-- Round once to a format (R37), with underflow detected after rounding (R25, R36). -/
def Fmt.round (f : Fmt) (mode : RMode) (sat neg : Bool) (mag : Nat) (exp : Int) (sticky : Bool) : Nat × Flags :=
  if mag = 0 then (f.signBit neg, if sticky then flagNX ||| flagUF else 0) else
  let emin : Int := 1 - f.bias
  let e : Int := (mag.log2 : Int) + exp
  let q : Int := max e emin - f.mbits
  let (n, inexact) := roundAt mode neg mag exp sticky q
  let (n, q) := if n = 2 ^ (f.mbits + 1) then (2 ^ f.mbits, q + 1) else (n, q)
  if q > f.maxQ ∨ (q = f.maxQ ∧ n > f.maxMant) then (f.overflow mode sat neg, flagOF ||| flagNX)
  else
    -- tiny when the value rounded with an unbounded exponent lies below the smallest normal
    let tiny := decide (e < emin - 1) ||
      (decide (e = emin - 1) && decide ((roundAt mode neg mag exp sticky (e - f.mbits)).1 < 2 ^ (f.mbits + 1)))
    let fl : Flags := (if inexact then flagNX else 0) ||| (if inexact && tiny then flagUF else 0)
    let code := if n < 2 ^ f.mbits then n else (q + f.mbits + f.bias).toNat * 2 ^ f.mbits + (n - 2 ^ f.mbits)
    (f.signBit neg + code, fl)

/-! ### Exact arithmetic -/

/-- A dyadic rational `m × 2^e`. -/
structure Dy where
  m : Int
  e : Int
  deriving DecidableEq, Repr

/-- Zero. -/
def Dy.zero : Dy := ⟨0, 0⟩
/-- Sum. -/
def Dy.add (a b : Dy) : Dy :=
  let e := min a.e b.e
  ⟨a.m * 2 ^ (a.e - e).toNat + b.m * 2 ^ (b.e - e).toNat, e⟩
/-- Negation. -/
def Dy.neg (a : Dy) : Dy := ⟨-a.m, a.e⟩
/-- Product. -/
def Dy.mul (a b : Dy) : Dy := ⟨a.m * b.m, a.e + b.e⟩
/-- Scaling by a power of two. -/
def Dy.scale (a : Dy) (k : Int) : Dy := ⟨a.m, a.e + k⟩
/-- Magnitude. -/
def Dy.abs (a : Dy) : Dy := ⟨a.m.natAbs, a.e⟩
/-- Exact comparison. -/
def Dy.cmp (a b : Dy) : Ordering := compare ((a.add b.neg).m) 0
/-- Less, exactly. -/
def Dy.lt (a b : Dy) : Bool := a.cmp b == .lt
/-- Less or equal, exactly. -/
def Dy.le (a b : Dy) : Bool := a.cmp b != .gt
/-- The value of a finite number. -/
def Dy.ofFin (neg : Bool) (mag : Nat) (exp : Int) : Dy := ⟨if neg then -(mag : Int) else mag, exp⟩
/-- `floor (log2 a)` of a positive value. -/
def Dy.log2 (a : Dy) : Int := (a.m.natAbs.log2 : Int) + a.e

/-- An exact sum rounded once; an exact zero has the sign `zneg` (R41). -/
def Fmt.roundDy (f : Fmt) (mode : RMode) (sat : Bool) (d : Dy) (zneg : Bool) : Nat × Flags :=
  if d.m = 0 then (f.signBit zneg, 0) else f.round mode sat (decide (d.m < 0)) d.m.natAbs d.e false

/-- A value that needs no exact finite arithmetic: an infinity or a NaN as a result of format `f`. -/
def Fmt.ofSpecial (f : Fmt) : Val → Nat
  | .nan => f.nan
  | .inf neg => f.infinity neg
  | .fin neg _ _ => f.signBit neg

/-- `a + b` (R167), the sign of an exact zero by R41. -/
def fpAdd (f : Fmt) (mode : RMode) (a b : Val) : Nat × Flags :=
  match a, b with
  | .nan, _ | _, .nan => (f.nan, 0)
  | .inf s, .inf t => if s = t then (f.infinity s, 0) else (f.nan, flagNV)
  | .inf s, _ => (f.infinity s, 0)
  | _, .inf t => (f.infinity t, 0)
  | .fin s m e, .fin t n g =>
    f.roundDy mode false ((Dy.ofFin s m e).add (Dy.ofFin t n g))
      (if m = 0 ∧ n = 0 ∧ s = t then s else decide (mode = .rdn))

/-- The negated value. -/
def Val.neg : Val → Val
  | .nan => .nan
  | .inf s => .inf !s
  | .fin s m e => .fin (!s) m e

/-- The exact product; `none` for 0 × ∞. -/
def Val.mul (a b : Val) : Option Val :=
  match a, b with
  | .nan, .nan => some .nan
  | .nan, .inf _ | .nan, .fin .. | .inf _, .nan | .fin .., .nan => some .nan
  | .inf s, .inf t => some (.inf (s ^^ t))
  | .inf s, .fin t n _ => if n = 0 then none else some (.inf (s ^^ t))
  | .fin s m _, .inf t => if m = 0 then none else some (.inf (s ^^ t))
  | .fin s m e, .fin t n g => some (.fin (s ^^ t) (m * n) (e + g))

/-- `a × b` (R167). -/
def fpMul (f : Fmt) (mode : RMode) (a b : Val) : Nat × Flags :=
  match a.mul b with
  | none => (f.nan, flagNV)
  | some (.fin s m e) => f.round mode false s m e false
  | some v => (f.ofSpecial v, 0)

/-- `a × b + d` with one rounding; 0 × ∞ is invalid whatever `d` is (R168). -/
def fpFma (f : Fmt) (mode : RMode) (a b d : Val) : Nat × Flags :=
  match a.mul b with
  | none => (f.nan, flagNV)
  | some p => fpAdd f mode p d

/-- `a / b` (R167). -/
def fpDiv (f : Fmt) (mode : RMode) (a b : Val) : Nat × Flags :=
  match a, b with
  | .nan, _ | _, .nan => (f.nan, 0)
  | .inf _, .inf _ => (f.nan, flagNV)
  | .inf s, .fin t _ _ => (f.infinity (s ^^ t), 0)
  | .fin s _ _, .inf t => (f.signBit (s ^^ t), 0)
  | .fin s m e, .fin t n g =>
    if n = 0 then (if m = 0 then (f.nan, flagNV) else (f.infinity (s ^^ t), flagDZ))
    else if m = 0 then (f.signBit (s ^^ t), 0)
    else
      -- enough quotient bits for one rounding; the rest is sticky
      let k := f.mbits + 4 + n.log2 - m.log2
      f.round mode false (s ^^ t) (m * 2 ^ k / n) (e - g - k) (decide (m * 2 ^ k % n ≠ 0))

/-- `floor (sqrt n)` from its bits `i` down to 0, over the part `r` found so far. -/
def isqrtFrom (n : Nat) : Nat → Nat → Nat
  | 0, r => if (r + 1) * (r + 1) ≤ n then r + 1 else r
  | i + 1, r => isqrtFrom n i (if (r + 2 ^ (i + 1)) * (r + 2 ^ (i + 1)) ≤ n then r + 2 ^ (i + 1) else r)

/-- `floor (sqrt n)`. -/
def isqrt (n : Nat) : Nat := isqrtFrom n (n.log2 / 2) 0

/-- `√a` (R168). -/
def fpSqrt (f : Fmt) (mode : RMode) (a : Val) : Nat × Flags :=
  match a with
  | .nan => (f.nan, 0)
  | .inf s => if s then (f.nan, flagNV) else (f.infinity false, 0)
  | .fin s m e =>
    if m = 0 then (f.signBit s, 0)
    else if s then (f.nan, flagNV)
    else
      let k0 := 2 * (f.mbits + 4)
      let k := if (e - k0) % 2 = 0 then k0 else k0 + 1
      let n := m * 2 ^ k
      let r := isqrt n
      f.round mode false false r ((e - k) / 2) (decide (r * r ≠ n))

/-- The order of two values, −0 equal to +0 (R27); `none` when one is a NaN. -/
def Val.cmp (a b : Val) : Option Ordering :=
  match a, b with
  | .nan, _ | _, .nan => none
  | .inf s, .inf t => some (if s = t then .eq else if s then .lt else .gt)
  | .inf s, .fin .. => some (if s then .lt else .gt)
  | .fin .., .inf t => some (if t then .gt else .lt)
  | .fin s m e, .fin t n g => some ((Dy.ofFin s m e).cmp (Dy.ofFin t n g))

/-- The sign of an encoding. -/
def Fmt.isNeg (f : Fmt) (x : Nat) : Bool := decide (x / 2 ^ (f.width - 1) % 2 = 1)

/-- The lesser (`wantMax = false`) or greater of two encodings (R27). -/
def fpMinMax (f : Fmt) (wantMax : Bool) (x y : Nat) : Nat :=
  match f.val x, f.val y with
  | .nan, .nan => f.nan
  | .nan, _ => y
  | _, .nan => x
  | a, b =>
    match a.cmp b with
    | some .lt => if wantMax then y else x
    | some .gt => if wantMax then x else y
    | _ => if f.isNeg x = wantMax then y else x

/-! ### Element types -/

/-- The bits of an element (R161). -/
def elemWidth : ElemTy → Nat
  | .i8 | .n8 | .e4m3 | .e5m2 => 8
  | .i16 | .n16 | .f16 | .bf16 => 16
  | .i32 | .n32 | .f32 => 32
  | .i64 | .n64 | .f64 => 64
  | .e2m1 | .i4 => 4

/-- The format of a floating-point element type. -/
def elemFmt : ElemTy → Option Fmt
  | .f64 => some fmtF64 | .f32 => some fmtF32 | .f16 => some fmtF16 | .bf16 => some fmtBf16
  | .e4m3 => some fmtE4m3 | .e5m2 => some fmtE5m2 | .e2m1 => some fmtE2m1
  | _ => none

/-- Whether an integer element type is signed (R28). -/
def elemSigned : ElemTy → Bool
  | .i8 | .i16 | .i32 | .i64 | .i4 => true
  | _ => false

/-- The integer that a bit pattern of `w` bits stands for. -/
def intOf (signed : Bool) (w x : Nat) : Int :=
  if signed ∧ x / 2 ^ (w - 1) % 2 = 1 then (x % 2 ^ w : Nat) - (2 ^ w : Nat) else (x % 2 ^ w : Nat)
/-- An integer modulo 2^w. -/
def wrapInt (w : Nat) (i : Int) : Nat := (i % (2 ^ w : Nat)).toNat
/-- The least and greatest integers of a type. -/
def intMin (signed : Bool) (w : Nat) : Int := if signed then -(2 ^ (w - 1) : Nat) else 0
@[inherit_doc intMin] def intMax (signed : Bool) (w : Nat) : Int := if signed then (2 ^ (w - 1) : Nat) - 1 else (2 ^ w : Nat) - 1
/-- An integer brought into the range of a type. -/
def clampInt (signed : Bool) (w : Nat) (i : Int) : Int := max (intMin signed w) (min (intMax signed w) i)

/-- The exact value of an element (R73, Exact). -/
def elemVal (t : ElemTy) (x : Nat) : Val :=
  match elemFmt t with
  | some f => f.val x
  | none => let i := intOf (elemSigned t) (elemWidth t) x; .fin (decide (i < 0)) i.natAbs 0

/-- A conversion to a floating-point format, special inputs by R38. DESIGN CHOICE: an infinity that `e4m3` turns into NaN sets no flag
(log 87). -/
def convertFloat (f : Fmt) (mode : RMode) (sat : Bool) (v : Val) : Nat × Flags :=
  match v with
  | .nan => (f.nan, if f.special = .none then flagNV else 0)
  | .inf s =>
    match f.special with
    | .ieee => (if sat ∧ f.width ≤ 8 then f.maxFinite s else f.infinity s, 0)
    | .nanOnly => (if sat then f.maxFinite s else f.signBit s + f.nan, 0)
    | .none => (f.maxFinite s, flagNV)
  | .fin s m e => f.round mode sat s m e false

/-- A conversion of a floating-point value to an integer type: it always saturates (R39). -/
def convertInt (signed : Bool) (w : Nat) (mode : RMode) (v : Val) : Nat × Flags :=
  match v with
  | .nan => (0, flagNV)
  | .inf s => (wrapInt w (if s then intMin signed w else intMax signed w), flagNV)
  | .fin s m e =>
    let (n, inexact) := roundAt mode s m e false 0
    let i : Int := if s then -(n : Int) else n
    if i < intMin signed w ∨ i > intMax signed w then (wrapInt w (clampInt signed w i), flagNV)
    else (wrapInt w i, if inexact then flagNX else 0)

/-- Convert(Exact(x), T, mode, sat) from the type S (R38 to R40, R170). -/
def convertElem (s t : ElemTy) (mode : RMode) (sat : Bool) (x : Nat) : Nat × Flags :=
  match elemFmt t with
  | some f =>
    -- R170: with S = T the result is the value itself, and a NaN becomes the canonical NaN
    if s = t then (if elemVal s x = .nan then (f.nan, 0) else (x, 0)) else convertFloat f mode sat (elemVal s x)
  | none =>
    match elemFmt s with
    | some _ => convertInt (elemSigned t) (elemWidth t) mode (elemVal s x)
    | none =>
      let i := intOf (elemSigned s) (elemWidth s) x
      (wrapInt (elemWidth t) (if sat then clampInt (elemSigned t) (elemWidth t) i else i), 0)

/-! ### Block scales and quantisation (R29, R45 to R48) -/

/-- The scale an `e8m0` code stands for (R29). -/
def e8m0Val (c : Nat) : Val := if c = 0xFF then .nan else .fin false 1 ((c : Int) - 127)
/-- A floating-point value as an `e8m0` code (R29). -/
def e8m0Of : Val → Nat
  | .nan => 0xFF
  | .inf s => if s then 0xFF else 254
  | .fin s m e => if s ∨ m = 0 then 0xFF else (max 0 (min 254 ((Dy.ofFin s m e).log2 + 127))).toNat

/-- The element type of a quantise target. -/
def quantElem : QuantTy → ElemTy
  | .e4m3 => .e4m3 | .e5m2 => .e5m2 | .e2m1 => .e2m1 | .i8 => .i8 | .i4 => .i4
/-- `floor (log2 maxfinite)` (R45). -/
def quantLog : QuantTy → Int
  | .e4m3 => 8 | .e5m2 => 15 | .e2m1 => 2 | .i8 => 6 | .i4 => 2

/-- The scale exponent X of R45 for a largest magnitude `am` > 0. -/
def scaleExp (am : Dy) (q : QuantTy) : Int := am.log2 - quantLog q
/-- X + 127 clamped to 0 to 254. -/
def clampCode (x : Int) : Nat := (max 0 (min 254 (x + 127))).toNat
/-- CodeOf (R74): the scale code for NF and AMAX. -/
def codeOf (nf : Bool) (am : Dy) (q : QuantTy) : Nat :=
  if nf then 0xFF else if am.m = 0 then 127 else clampCode (scaleExp am q)

/-- An element quantised with scale code `c` (R45, R46, R173), always saturating. -/
def quantOne (v : Val) (c : Nat) (q : QuantTy) (mode : RMode) : Nat × Flags :=
  if c = 0xFF then (0, 0) else
  let w := match v with | .fin s m e => Val.fin s m (e - ((c : Int) - 127)) | v => v
  match elemFmt (quantElem q) with
  | some f => convertFloat f mode true w
  | none => convertInt true (elemWidth (quantElem q)) mode w

/-- The exact value of a finite value, 0 otherwise. -/
def Val.dy : Val → Dy
  | .fin s m e => Dy.ofFin s m e
  | _ => Dy.zero

/-- The squared error of a block under scale code `c` (R48). -/
def quantError (xs : List Val) (c : Nat) (q : QuantTy) (mode : RMode) : Dy :=
  xs.foldl (fun acc v =>
    let d := v.dy.add ((elemVal (quantElem q) (quantOne v c q mode).1).dy.scale ((c : Int) - 127)).neg
    acc.add (d.mul d)) Dy.zero

/-- The largest magnitude of the finite values of a block. -/
def amaxOf (xs : List Val) : Dy := xs.foldl (fun am v => if am.lt v.dy.abs then v.dy.abs else am) Dy.zero

/-- Search (R48, R74): X, then X + 1, then X − 1, the first least squared error. -/
def searchCode (xs : List Val) (q : QuantTy) (mode : RMode) : Nat :=
  let x := scaleExp (amaxOf xs) q
  let cands := [x, x + 1, x - 1].filter (fun c => decide (0 ≤ c + 127) && decide (c + 127 ≤ 254))
  match cands with
  | [] => clampCode x
  | c :: cs =>
    (cs.foldl (fun (best : Nat × Dy) c' =>
      let n := (c' + 127).toNat
      let e := quantError xs n q mode
      if e.lt best.2 then (n, e) else best) ((c + 127).toNat, quantError xs (c + 127).toNat q mode)).1

/-! ### Elements of 512-bit values (R161) -/

/-- Element `i` of width `w`. -/
def lane (v : Vec) (w i : Nat) : Nat := v.toNat / 2 ^ (w * i) % 2 ^ w
/-- Elements in ascending order, packed from bit 0; missing ones are zero. -/
def packNat (w : Nat) : List Nat → Nat
  | [] => 0
  | x :: xs => x % 2 ^ w + 2 ^ w * packNat w xs
/-- A vector from its elements. -/
def packLanes (w : Nat) (xs : List Nat) : Vec := BitVec.ofNat 512 (packNat w xs)
/-- All elements of width `w`. -/
def lanes (v : Vec) (w : Nat) : List Nat := (List.range (512 / w)).map (lane v w)

/-- Bytes of a little-endian number (R4). -/
def natOfBytes : List Byte → Nat
  | [] => 0
  | b :: bs => b.toNat + 256 * natOfBytes bs

end Sys2Proof.Machine
end

