-- ==== Sys2Proof/Config.lean ====
section
/-!
DEFINITION. What an implementation fixes and what the spec leaves open. A constant without a body is a free value: nothing
in Lean can evaluate it, so a theorem about it holds whatever it is (NOTES.md, '## Assumptions', names each log entry).
Most are applied to `State.fv`, a counter that each use advances.
-/
namespace Sys2Proof.Config

/-- R90, R96: the cycles that pass with a step; cycle counts are not modelled (log 3). -/
opaque cycles : Nat → Nat
/-- R139, R148: whether a slice still holds its copy of a line homed on another die (log 4). -/
opaque copyKept : Nat → Bool
/-- R140, R150: whether a slice's TLB still holds an unpinned entry (log 4). -/
opaque tlbKept : Nat → Bool
/-- R137: whether a fetch still returns the old word of code that changed (log 6). -/
opaque fetchOld : Nat → Bool
/-- R158, R145: whether a dirty byte had been written back before its line was discarded (log 7). -/
opaque wroteBack : Nat → Bool
/-- R136, R137: whether a core's L1 still holds a line it was given (log 8). -/
opaque l1Kept : Nat → Bool
/-- R385: whether a request from a core that misses its slice finds the miss table full (log 49). -/
opaque missFull : Nat → Bool
/-- R144, R389: a byte read from another node over Wifort (log 9). -/
opaque remoteByte : Nat → Byte
/-- R389: whether another node acknowledges a request before its last replay (log 9). -/
opaque nodeAnswers : Nat → Bool
/-- R14, R328: the GDDR-7 channel, 0 to 7, that holds a location of a die (log 19). -/
opaque gddrChannel : Nat → Nat
/-- R303, R395: the measured power and temperature of a region in a window (log 20). -/
opaque measuredPower : Nat → Nat
@[inherit_doc measuredPower] opaque measuredTemp : Nat → Nat
/-- R316: a raw Facet event signal in a cycle (log 21). -/
opaque facetSignal : Nat → Nat → Bool
/-- R329 to R332: byte `i` of the SHAKE256 output over a byte string (log 22). -/
opaque shakeByte : List Byte → Nat → Byte
/-- R329: SLH-DSA-SHAKE-256s verification: key, message, context string and signature (log 22). -/
opaque slhVerify : List Byte → List Byte → List Byte → List Byte → Bool
/-- R331, R332: byte `i` of the SLH-DSA-SHAKE-256f public key of 96 bytes of seeds, and of a signature: seeds, message, context string
(log 22). -/
opaque slhKeyByte : List Byte → Nat → Byte
@[inherit_doc slhKeyByte] opaque slhSignByte : List Byte → List Byte → List Byte → Nat → Byte
/-- R329: the digest held in ROM, and whether the flash answers a read of an image (log 22, log 38). -/
opaque romDigest : List Byte
@[inherit_doc romDigest] opaque flashReads : Nat → Bool
/-- R331: the SRAM PUF response as corrected with the helper data of an image body (log 22). -/
opaque pufCorrected : Nat → List Byte → List Byte
/-- R330: whether the configuration record of an image body is valid, and its values, whose layout the spec does not give (log 38). -/
opaque bootValid : List Byte → Bool
@[inherit_doc bootValid] opaque bootWord : List Byte → Nat → Word
/-- R394: BSTAT's status of an image the boot did not try (log 38). -/
opaque untried : Nat → Nat
/-- R389: whether a Wifort lane passes its training (log 23). -/
opaque laneTrains : Nat → Bool
/-- R387: whether a retraining of a UCIe link succeeds within its attempts, and the flits it replays (log 23). -/
opaque linkTrains : Nat → Bool
@[inherit_doc linkTrains] opaque replayed : Nat → Nat
/-- R14, R327: whether a GDDR-7 channel, 8 × die + number, has devices (log 19). -/
opaque gddrPresent : Nat → Bool

/-- R30, R32: an element a decoder takes from an `e4m3x` block that breaks their layout (log 30). -/
opaque brokenElement : Nat → Nat
/-- R30, R220: the BASE field of a block the copy engine writes with raw exponents (log 30). -/
opaque rawBase : Nat → Nat
/-- R193: whether a scale cache still holds a sector (log 31). -/
opaque scaleKept : Nat → Bool
/-- R209, R240: how many elements or bytes an engine copies before other agents act, 0 for all that are left (log 32). -/
opaque engineUnits : Nat → Nat
/-- R251, R379: how many queued ordered tasks of a cluster the overflow area of its commit queue holds (log 70). -/
opaque commitOverflow : Nat
/-- R313: the cycles a kick notice took on its way (log 79). -/
opaque transit : Nat → Nat
/-- R228: an entry of a list that the gather engine reads next, ahead of the one it needs, or none (log 32). -/
opaque listAhead : Nat → Option Nat

/-- R335: whether FLTADDR holds the operand or 0 after an illegal operand of `fres` or `hreq` (log 46). -/
opaque operandShown : Nat → Bool
/-- R333, R403: where the `.data` section of a code object of these bytes begins, which the object does not say (log 37). -/
opaque dataStart : List Byte → Nat

end Sys2Proof.Config
end

