-- ==== Sys2Proof/Machine/State.lean ====
section
/-!
DEFINITION. The state of the device, as plain data: contexts, cores, clusters, Prisms, dies and the device (INVENTORY.md
lists each field with its rule and its reset value), the reasons a step can stop, and the state after reset.
-/
namespace Sys2Proof.Machine

/-- Why the machine stops. -/
inductive Fault where
  /-- An access to a physical address whose LOC the spec reserves (R144); raised by the physical access of
  Machine/Mem.lean. Safe: the spec gives no effect, and the model does not go on. -/
  | reservedPhysical
  deriving DecidableEq, Repr

/-- Why a step refuses. -/
inductive Refusal where
  /-- An instruction without a meaning; raised only by Machine/Dispatch.lean. Safe: the model does not go on. -/
  | notModelled (mnemonic : String)
  deriving DecidableEq, Repr

/-- The modes of R112. -/
inductive Mode where | task | system
  deriving DecidableEq, Repr

/-- The states of a resident context (R92). -/
inductive CtxState where | free | run | park | wake | done
  deriving DecidableEq, Repr

/-- A memory as a list of (location, byte), locations strictly rising. -/
abbrev Cells := List Host.Cell

/-- The destination of a long-latency instruction (R69). -/
inductive Dest where
  | none
  | s (r : SReg) (x : Word)
  | v (r : VReg) (x : Vec)
  /-- RD of a `mi.qry`, known when the word numbered `seq` of the Mirror queue completes (R271) -/
  | mirror (r : SReg) (seq : Nat)
  deriving DecidableEq, Repr

/-- An open lookahead window (R69): `left` instructions of it are still to issue. -/
structure Window where
  left : Nat
  dest : Dest
  /-- a later write of the destination discards the result -/
  dropped : Bool
  /-- the instruction has completed -/
  done : Bool
  deriving DecidableEq, Repr

/-- A register with an uncorrectable error (R381). -/
inductive RegName where
  | s (r : SReg) | v (r : VReg) | m (r : MReg) | csr (c : Csr)
  deriving DecidableEq, Repr

/-- An atomic set (R242). -/
structure AtomicSet where
  idx : Nat
  base : Word
  len : Nat
  acquired : Bool
  deriving DecidableEq, Repr

/-- A sector logged by a guarded or ordered task (R247): its virtual and physical address; OLD lies in the log area. -/
structure LogEntry where
  va : Word
  pa : Nat
  deriving DecidableEq, Repr

/-- How a TCB in the outbox was handed over (R248). -/
inductive Handover where | spawn | join | tenq | msg
  deriving DecidableEq, Repr

/-- A task control block (R82). -/
abbrev Tcb := Vector Word 16

/-- An outbox entry (R248): the image, its address, and the second operand of `tenq` or `msg`. -/
structure OutEntry where
  kind : Handover
  tcb : Tcb
  addr : Word
  arg : Word
  deriving DecidableEq, Repr

/-- How a message reached its receiver (R313): its sender and the times of sending, arrival and start. -/
structure LensTag where
  sender : Nat
  sent : Nat
  arrive : Nat
  start : Nat
  deriving DecidableEq, Repr

/-- A TCB in a task queue (R300), with the Lens tag of the message that brought it, the cycle it came in, its place in the order of that
cycle (4096 × class + core), and, in the overflow area, the physical address of its slot. -/
structure QTask where
  tcb : Tcb
  lens : Option LensTag
  since : Nat
  rank : Nat
  slot : Option Nat
  deriving DecidableEq, Repr

/-- Who makes a write (R318): WTYPE, the core that made it or pushed the word, and WNODE. `task` is the activation of WTYPE 0
(its serial number, 0 for none), or for WTYPE 5 to 7 the slice's router core. `slice` is the slice at which it performs (R391), and `aid` the
activation identifier of the instruction that made it (R307), empty for a write that no instruction of a core made. -/
structure Writer where
  kind : Nat
  core : Nat
  task : Nat
  node : Nat
  slice : Nat
  aid : List Word
  deriving DecidableEq, Repr

/-- The task whose children and successors a retirement serves: words 3, 12 and 13 of a TCB (R97, R256). -/
structure Retire where
  word3 : Word
  word12 : Word
  word13 : Word
  deriving DecidableEq, Repr

/-- A hardware context (R90, R123). -/
structure Ctx where
  num : CtxNum
  st : CtxState
  s : Vector Word 32
  v : Vector Vec 32
  m : Vector Word 8
  pc : Word
  mode : Mode
  taskid : Word
  age : Word
  tile : Word
  budget : Word
  rmode : Word
  qmode : Word
  fstat : Word
  vprog : Word
  fltinfo : Word
  fltaddr : Word
  /-- D as a vector memory instruction that is still under way found it (R69, R178) -/
  vecOld : Option Vec
  upsrc : Word
  mirth : Word
  mirrun : Word
  tvec : Word
  tepc : Word
  tcause : Word
  tscr : Word
  /-- the private TCB copy (R82, R89) -/
  tcb : Tcb
  /-- serial number of the activation; a restart keeps it -/
  task : Nat
  /-- Lens tag of the message that brought the activation (R313) -/
  lens : Option LensTag
  win : List Window
  /-- retirements absorbed by `popd` (R256) -/
  absorb : List Retire
  sets : List AtomicSet
  log : List LogEntry
  outbox : List OutEntry
  /-- restarts of the activation (R378) -/
  restarts : Nat
  /-- the grace allowance has been given (R349) -/
  grace : Bool
  /-- to be restarted when next selected (R93) -/
  restartMark : Bool
  /-- the order in which contexts parked (R93) -/
  parkSeq : Nat
  /-- the page-ready notice said FAIL (R153) -/
  failNotice : Bool
  /-- its notice came before its page-fault record was written (R152) -/
  noted : Bool
  /-- in system mode after an exception delivered as a trap (R345) -/
  excMode : Bool
  /-- the cycle of the last trap for an exception, and TEPC and TCAUSE before it: a wound in the same cycle wins (R346) -/
  excPrev : Option (Nat × Word × Word)
  /-- a held word's report is being served (R361) -/
  reporting : Bool
  bad : List RegName
  /-- a context of the core entered WAKE since `wfe` issued (R127) -/
  woke : Bool
  /-- a `wfe` has issued and waits (R127) -/
  wfeOn : Bool
  /-- slices and lines whose locks the stalled access waits for (R243) -/
  lockWait : List (Nat × Nat)
  /-- the instruction word being executed, for FLTINFO.IWORD (R337) -/
  ir : W32
  deriving DecidableEq, Repr

/-- A byte of a store-buffer entry: its location, the value, and the bits it writes (R180: a nibble mask). -/
structure SbByte where
  loc : Nat
  val : Byte
  mask : Byte
  deriving DecidableEq, Repr

/-- The functions of `red` (R160). -/
inductive RedFn where | add | and | or | xor | max | min | maxn | minn | fadd | fmax | fmin
  deriving DecidableEq, Repr

/-- What a store-buffer entry does when it leaves (R138). -/
inductive SbKind where
  | store
  | red (fn : RedFn) (w : MemW) (operand : Word)
  /-- an aligned 8-byte store to a control-window register (R144, R325) -/
  | control (sys : Bool) (x : Word)
  deriving DecidableEq, Repr

/-- A store-buffer entry (R138): its kind, virtual address, bytes and the task that made it. -/
structure SbEntry where
  kind : SbKind
  va : Word
  /-- location of the element of a reduction or control store -/
  loc : Nat
  bytes : List SbByte
  /-- context and activation that made it -/
  ctxn : CtxNum
  task : Nat
  /-- made by the `vst` in progress, whose further lanes may join it (R138, R180) -/
  grp : Bool
  /-- the lanes of a `vst` it holds, each a write of its own (R282, R318); empty otherwise -/
  lanes : List (List SbByte)
  /-- its number in the buffer's order -/
  num : Nat
  /-- the activation identifier of the context that made it (R307, R318) -/
  aid : List Word
  deriving DecidableEq, Repr

/-- A resident kernel image (R91): the launch record it came from, its kernel's index and gang, the virtual address of
its code object, its header (R103) and its address context. -/
structure Image where
  launch : Nat
  kernel : Nat
  gang : Nat
  code : Word
  hdr : Vector Word 16
  actx : Nat
  deriving DecidableEq, Repr

/-- The state of a core on the Iris tree (R309, R310). -/
inductive IrisState where | running | stopping | halted
  deriving DecidableEq, Repr

/-- A TLB entry of a slice (R140): the leaf of R143 for a page. -/
structure Leaf where
  pa : Nat
  /-- log2 of the page size -/
  size : Nat
  x : Bool
  w : Bool
  sr : Bool
  sys : Bool
  glob : Bool
  deriving DecidableEq, Repr
@[inherit_doc Leaf] structure TlbEntry where
  slice : Nat
  actx : Nat
  /-- virtual address of the page -/
  va : Nat
  leaf : Leaf
  deriving DecidableEq, Repr

/-- A line of a core's L1D, or of its L1I when `code` holds (R136, R137): the 32-byte line of virtual memory and the address context
it is tagged by, and the physical address and leaf it was filled through. Its data are those of the die's slices (log 8). -/
structure L1Line where
  core : Nat
  code : Bool
  actx : Nat
  line : Nat
  pa : Nat
  leaf : Leaf
  deriving DecidableEq, Repr

/-- A pin made by `tch` (R149): one copy per slice of the die. -/
structure Pin where
  actx : Nat
  va : Nat
  leaf : Leaf
  /-- the last cycle of its window -/
  until_ : Nat
  /-- slices at which a `tlbi` removes it when the window ends (R130) -/
  doomed : Bool
  deriving DecidableEq, Repr

/-- Where a pushed engine word stands (R187, R209, R360). -/
inductive WordState where
  | queued
  /-- a `kick` whose notice waits in the kick register or is acknowledged (R223), or a `pr.out` whose record is written (R200) -/
  | sent
  /-- a gather word whose messages are under way, a Prism word started, or a `kick` whose notice was refused (R222) -/
  | started
  /-- held with an exception (R360): code, ACC, DETAIL, address, and whether it has been reported (R361) -/
  | held (code acc detail : Nat) (addr : Word) (reported : Bool)
  /-- its operation is complete: RES of its record (R209) -/
  | finished (res : Word)
  deriving DecidableEq, Repr

/-- What a Mirror word has decided (R265, R272) and has still to write (R360): whether it hits, the bytes of the output or of the input
area, and the header. -/
structure MirrorPlan where
  hit : Bool
  bytes : List Byte
  hdr : List Word
  deriving DecidableEq, Repr

/-- A pushed engine word (R55): the word, its register operands as read at issue, and what the issuing context and core
held then. -/
structure EWord where
  word : Instr
  /-- slot 0, for reports (R337) -/
  slot0 : W32
  /-- the values of the register operands, in the order of the constructor -/
  ops : List Word
  rmode : Word
  qmode : Word
  mirth : Word
  mirrun : Word
  ctxn : CtxNum
  task : Nat
  mode : Mode
  actx : Nat
  gang : Nat
  /-- sequence number (R187) -/
  seq : BitVec 32
  /-- entries of the store buffer from this number on were made after the word issued (R192, R218, R228) -/
  after : Nat
  /-- the point reached (R360), RES so far, and list entries read in advance (R228) -/
  pos : Nat
  res : Word
  read : List (Nat × Word)
  /-- buckets already probed for the key in progress (R231) -/
  probe : Nat
  /-- the descriptor of a `cp.nd` as its start read it (R217); the notice a `cp.pull` took, its sender and SEQ (R226) -/
  desc : List Word
  taken : Option (CoreId × BitVec 32)
  /-- results of a `ga.gat` or `ga.prb`, and how many are written (R229, R231) -/
  out : List (List Byte)
  wrote : Nat
  plan : Option MirrorPlan
  /-- its engine has started it -/
  begun : Bool
  st : WordState
  deriving DecidableEq, Repr

/-- A receive ring of a tile (R224). -/
structure Ring where
  wp : Nat
  free : Nat
  deriving DecidableEq, Repr

/-- A transfer notice (R222). -/
structure Notice where
  src : Word
  snd : CoreId
  rcv : CoreId
  tag : BitVec 16
  len : Nat
  seq : BitVec 32
  /-- the receiving pipe entry, or none for a manual notice (NP) -/
  pipe : Option Nat
  /-- the write unit reserved for a pipe pull in progress (R224, R371) -/
  unit : Option Nat
  /-- times of sending, of arrival and of the pull's start (R313) -/
  sent : Nat
  arrive : Nat
  start : Option Nat
  deriving DecidableEq, Repr

/-- An event record (R211): its two words. -/
structure EvRec where
  lo : Word
  hi : Word
  /-- its sender and time of sending (R313) -/
  sender : Nat
  sent : Nat
  deriving DecidableEq, Repr

/-- A Lens entry (R314): its sender (bit 12: another node) and sums. -/
structure LensEntry where
  sender : Nat
  count : Nat
  transit : Nat
  qwait : Nat
  run : Nat
  deriving DecidableEq, Repr

/-- A watchpoint (R318, R322): kind 0 disarmed, 1 stop, 2 gang, 3 rec; physical and virtual start, and length. -/
structure Watch where
  kind : Nat
  pa : Nat
  va : Nat
  len : Nat
  deriving DecidableEq, Repr

/-- A contribution of a `bar.max` (R237): its barrier (16 to 31 for gang scope), phase and value, and the context and pc of the instruction,
by which an execution that issues again finds its phase. -/
structure Contrib where
  key : Nat
  phase : Nat
  val : Word
  ctxn : CtxNum
  pc : Word
  deriving DecidableEq, Repr

/-- A core (R9). `ctx` is the context in focus, `rest` the other three. -/
structure Core where
  ctx : Ctx
  rest : List Ctx
  upcall : Word
  evq : Word
  /-- SEQ and the count of pushed words of each queue, by CLASS (R187) -/
  seq : Vector (BitVec 32) 8
  pushed : Vector (BitVec 32) 8
  queues : Vector (List EWord) 8
  mirhit : Word
  mirmiss : Word
  cseq : BitVec 16
  sb : List SbEntry
  /-- store-buffer entries made so far -/
  sbCount : Nat
  image : Option Image
  /-- the gang of the last image its TCM held (R201) -/
  held : Option Nat
  /-- hardware task queue of 64 TCBs and, behind them, those in the overflow area (R300) -/
  taskq : List QTask
  rings : List (Nat × Ring)
  /-- arrival counts A of the cluster and gang barriers (R233) -/
  arrC : Vector Nat 16
  arrG : Vector Nat 16
  /-- contributions of `bar.max` (R237) -/
  contrib : List Contrib
  /-- the last victim tried in each domain (R101) -/
  victims : Vector (Option Nat) 3
  iris : IrisState
  snap : Vector Word 12
  /-- TCORE and TSRC of the latched trigger, and TTIME (R310, words 0x060 and 0x068) -/
  trig : Word
  ttime : Word
  msgs : BitVec 32
  msgr : BitVec 32
  /-- the cycle in which a halt last reached it (R312) -/
  haltAt : Option Nat
  /-- messages and page-ready notices held in the input buffers while the core is not running (R309) -/
  inbox : List QTask
  notices : List Word
  lnctl : Word
  lens : List LensEntry
  lensOver : LensEntry
  /-- Lens tags of the records in the event ring, oldest first (R313) -/
  ringTags : List (Option LensTag)
  watch : Vector Watch 4
  wprec : Vector Word 32
  /-- the slice whose write filled each record (R391) -/
  wslice : Vector Nat 4
  preempt : Bool
  /-- records waiting for room (R211) -/
  recq : List EvRec
  /-- the issuing context is stalled in its instruction (R349) -/
  waiting : Bool
  /-- a wait of its instruction now is none that R349 lists -/
  firm : Bool
  /-- contexts parked so far (R93) -/
  parks : Nat
  /-- an upcall that a halt keeps from starting: the parked context and its address (R151, R309) -/
  pendUp : Option (CtxNum × Word)
  deriving DecidableEq, Repr

/-- The Mirror's configuration (R264). -/
structure MirrorCfg where
  base : Word
  nslot : Nat
  isz : Nat
  osz : Nat
  actx : Nat
  mode : Mode
  deriving DecidableEq, Repr

/-- A Facet event counter (R316). -/
structure Facet where
  cfg : Word
  bnd : Vector Word 2
  cnt : Word
  snap : Word
  hist : Vector Word 8
  run : Nat
  left : Nat
  deriving DecidableEq, Repr

/-- A cluster (R10). -/
structure Cluster where
  kick : List Notice
  mirror : Option MirrorCfg
  /-- rotation points of the copy engine, the gather engine and the Mirror (R209) -/
  rot : Vector Nat 3
  /-- the gang that holds the cluster (R297) -/
  claim : Option Nat
  facet : Vector Facet 16
  /-- TSRC, TCORE and TTIME of the trigger that last copied the counters to FSNAP (R308) -/
  latchedBy : Option (Nat × Nat × Word)
  /-- raw signals of R315 that have been high in the cycle that has not ended -/
  pulse : BitVec 128
  deriving DecidableEq, Repr

/-- A Prism (R12, R185). Index 0 of the end vectors is the west or south core's end. -/
structure Prism where
  acc0 : Vector W32 256
  acc1 : Vector W32 256
  sbase : Vector Word 2
  dbase : Vector Word 2
  shift : Vector (BitVec 5) 2
  /-- sectors of each end's scale cache: virtual address and bytes (R193) -/
  scale : Vector (List (Nat × List Byte)) 2
  /-- the gang of the last operation; none when the Prism is marked fresh (R186) -/
  gang : Option Nat
  deriving DecidableEq, Repr

/-- A write-through under way to a home on another die (R280), or held for it (R386). -/
structure WriteThrough where
  die : Nat
  bytes : List SbByte
  va : Word
  writer : Writer
  /-- further cores whose release waits for it: an acquire brought it into their order (R279) -/
  seen : List Nat
  /-- lines whose locks a commit has released after it: their next access comes after it (R279) -/
  freed : List Nat
  held : Bool
  /-- when it was last sent, and its replays over Wifort (R389) -/
  sent : Nat
  tries : Nat
  deriving DecidableEq, Repr

/-- What the home's memory port does to an element: a `red` (R160), or the elements of a `pr.out` with ADD that lie in one byte or one wider
element, with OFMT, the mode, SAT, OSC and their accumulators (R199). -/
inductive PortOp where
  | red (fn : RedFn) (w : MemW) (operand : Word)
  | deliver (ofmt : Nat) (rm : Rm) (rmode : Word) (sat : Bool) (osc : Int) (accs : List W32)
  deriving DecidableEq, Repr

/-- A reduction accepted at a slice and not yet applied at the home's memory port (R160). -/
structure PendingRed where
  die : Nat
  loc : Nat
  op : PortOp
  writer : Writer
  held : Bool
  /-- when it was last sent, and its replays over Wifort (R389) -/
  sent : Nat
  tries : Nat
  deriving DecidableEq, Repr

/-- A use count and dead flag of a slice line (R145). -/
structure UseCount where
  line : Nat
  u : Nat
  dead : Bool
  deriving DecidableEq, Repr

/-- A lock entry (R241): a line, the slice that keeps it, and the activation that holds it. -/
structure Lock where
  line : Nat
  slice : Nat
  task : Nat
  deriving DecidableEq, Repr

/-- A kernel of a launch record (R296, R103): its code object and the data in it (R333), header, bound cores with their tiles
(x, y), the values for each bound core and tile task, and its gang. -/
structure Kernel where
  code : Word
  data : List Byte
  hdr : Vector Word 16
  place : List (Nat × Nat × Nat)
  evqv : Word
  upcv : Word
  args : Vector Word 8
  tbud : Word
  gang : Nat
  deriving DecidableEq, Repr

/-- A pipe bound by a launch (R108): NAME, sending and receiving kernel. -/
structure PipeBind where
  name : Nat
  sk : Nat
  rk : Nat
  deriving DecidableEq, Repr

/-- A launch record as it was read when its entry started (R296): its address context, kernels, pipes, and the lowest kernel index of
each kernel's gang. -/
structure LaunchRecord where
  actx : Nat
  kernels : List Kernel
  pipes : List PipeBind
  roots : List Nat
  deriving DecidableEq, Repr

/-- A command-queue entry in a dispatcher slot (R292, R294). -/
structure CqEntry where
  queue : Nat
  idx : BitVec 32
  words : Vector Word 8
  /-- enqueue time (R291) -/
  enq : Nat
  /-- EPRI at its start (R297) and BPRI then (R298) -/
  epri : Nat
  bpri : Nat
  /-- the cycle of its start (R297) -/
  began : Nat
  /-- what its start read: a launch record (R296), or the descriptor of a COPY (R217) -/
  record : Option LaunchRecord
  desc : List Word
  /-- the launch it started (R297) -/
  launch : Option Nat
  /-- the copy engine has taken the lines of a COPY (R240) -/
  begun : Bool
  /-- elements a COPY has copied -/
  pos : Nat
  /-- what it does has been done -/
  finished : Bool
  /-- an earlier entry ended without completing (R390) -/
  stuck : Bool
  deriving DecidableEq, Repr

/-- A saved context (R94): its slot of the context store, and what the slot does not hold. -/
structure Saved where
  core : Nat
  slot : Nat
  ctx : Ctx
  arrived : Bool
  gang : Nat
  deriving DecidableEq, Repr

/-- An ordered task in a commit queue (R251): its cluster, the launch of the kernel that created it, and its restarts (R378). -/
structure OrdTask where
  cluster : Nat
  launch : Nat
  tcb : Tcb
  restarts : Nat
  deriving DecidableEq, Repr

/-- A compute die (R7). -/
structure Die where
  -- die control block (R326)
  actb : Word
  pscore : Word
  hcsb : Word
  hcsn : Word
  savb : Word
  ovfb : Word
  ovfn : Word
  csavb : Word
  fctl : Word
  trctl : Word
  trcnt : Word
  rslim : Word
  cfront : Word
  cfhold : Word
  errc : Word
  erra : Word
  scrub : Word
  lnkst : Vector Word 4
  therm : Vector Word 16
  wrst : Word
  wrlog : Word
  -- power block (R302)
  rbud : Vector Word 16
  used : Vector Word 16
  meas : Vector Word 16
  plim : Vector Word 16
  ecost : Vector Word 16
  -- slices
  copies : Cells
  copyPoison : List Nat
  l1 : List L1Line
  uses : List UseCount
  tlb : List TlbEntry
  pins : List Pin
  /-- expired pins, for DETAIL of R352: address context, page and log2 of its size -/
  expired : List (Nat × Nat × Nat)
  locks : List Lock
  /-- lines owned by an engine word (R240): line, pushing core, CLASS -/
  eo : List (Nat × Nat × Nat)
  -- paths and stores
  pfq : List EvRec
  saved : List Saved
  /-- queued ordered tasks of the die (R251) -/
  ordered : List OrdTask
  slots : Vector (Option CqEntry) 4
  lastQueue : Nat
  /-- the next line of the scrubber, and the cycle of its last read (R384) -/
  scrubAt : Nat
  scrubTime : Nat
  rdy : Word
  /-- TIME div 64 of the last frontier sample (R252), TIME div 1024 of the last Focus round (R304), and the number of the power and
  of the thermal window each region has ended (R303, R395) -/
  frontAt : Nat
  focusAt : Nat
  powAt : Vector Nat 16
  thermAt : Vector Nat 16
  /-- regions that issue in alternate cycles only (R395) -/
  hot : Vector Bool 16
  /-- the step of a warm reset in progress, R393: the die that asked for it, its core, none for the management port, and the gangs
  it ends -/
  resetting : Option Nat
  resetBy : Nat × Option CoreId
  resetGangs : List Nat
  /-- the cycle of the last die reset (CYCLE, R123) -/
  resetTime : Nat
  deriving DecidableEq, Repr

/-- An earlier value of a word of memory, the dies on whose cores a fetch may still return it, and the cores that have executed a
`cmo` over it since (R137). -/
structure StaleCode where
  loc : Nat
  old : W32
  dies : List Nat
  fresh : List Nat
  deriving DecidableEq, Repr

/-- A request of a core refused by a slice whose miss table was full: refusals so far, when it may be sent again, and whether its
backoff is over, so that the core sends it again (R385). -/
structure Refused where
  core : Nat
  slice : Nat
  count : Nat
  again : Nat
  sent : Bool
  deriving DecidableEq, Repr

/-- An Iris signal on its way to a core (R308, R311): OP 0 halt, 1 resume, 2 snapshot; TSRC, TCORE and TTIME of R310. -/
structure Signal where
  core : Nat
  op : Nat
  tsrc : Nat
  tcore : Nat
  ttime : Word
  deriving DecidableEq, Repr

/-- A started launch (R297). -/
structure Launch where
  tag : BitVec 16
  die : Nat
  queue : Nat
  epri : Nat
  bpri : Nat
  start : Nat
  actx : Nat
  kernels : List Kernel
  pipes : List PipeBind
  deriving DecidableEq, Repr

/-- Where a gang stands (R297, R298). -/
inductive GangPhase where | waiting | placed | suspended | ended
  deriving DecidableEq, Repr

/-- A gang: its launch, its phase, and the power units it holds, by die, region and number (R302). -/
structure Gang where
  launch : Nat
  phase : GangPhase
  units : List (Nat × Nat × Nat)
  deriving DecidableEq, Repr

/-- What a retirement still has to decrement (R97): a target, or the rest of a successor list. -/
inductive DecItem where
  | target (addr : Word)
  | succs (addr : Word) (n : Nat)
  deriving DecidableEq, Repr

/-- The decrements of one retirement, in order, with the retiring task's context (R97, R344). -/
structure Decs where
  core : Nat
  ctxn : CtxNum
  /-- the activation that retired -/
  task : Nat
  gang : Nat
  actx : Nat
  items : List DecItem
  held : Bool
  deriving DecidableEq, Repr

/-- An active message under way (R259). -/
structure Msg where
  src : Nat
  ctxn : CtxNum
  dst : Nat
  /-- the gang whose image the receiver held (R259) -/
  gang : Nat
  sent : Nat
  tcb : Tcb
  deriving DecidableEq, Repr

/-- An acknowledgement of a pull on its way to the sender of the notice (R223). -/
structure Ack where
  snd : Nat
  seq : BitVec 32
  tag : BitVec 16
  /-- bytes transferred; 0xFFFFFFFF when the kick was abandoned (R365) -/
  len : Nat
  sender : Nat
  sent : Nat
  deriving DecidableEq, Repr

/-- What the save area of a suspended gang's core does not hold (R299): its image, Lens tags and the contributions of `bar.max`. -/
structure SavedCore where
  core : Nat
  gang : Nat
  image : Image
  lens : List (Option LensTag)
  /-- TCBs it left in the overflow area -/
  overflow : List QTask
  ringTags : List (Option LensTag)
  recq : List EvRec
  contrib : List Contrib
  deriving DecidableEq, Repr

/-- The notices of a suspended gang's cluster (R299), with their times, and the mode that configured its Mirror. -/
structure SavedCluster where
  cluster : Nat
  gang : Nat
  kick : List Notice
  mode : Mode
  deriving DecidableEq, Repr

/-- A command queue (R290, R390). -/
structure CmdQueue where
  ring : Word
  en : Bool
  bpri : Nat
  logn : Nat
  hdie : Nat
  wcnt : BitVec 32
  rcnt : BitVec 32
  epri : Nat
  lsh : Nat
  lmax : Nat
  hist : Vector W32 16
  ovr : Bool
  halt : Bool
  code : Nat
  idx : BitVec 32
  /-- enqueue times of the entries that writes of WCNT made visible: first index, and TIME (R291) -/
  enq : List (BitVec 32 × Nat)
  /-- the cycle from which the queue waits at its level (R294) -/
  since : Option Nat
  /-- the cycle of its last start (R294) -/
  startAt : Option Nat
  deriving DecidableEq, Repr

/-- What moves next: a core's next instruction, or a device step. -/
inductive Move where
  | issue (c : CoreId)
  | event (i : Instr)
  deriving DecidableEq, Repr

/-- The device. `core` is the core in focus, whose linear index is `me`; `others` holds the other cores that differ from
a core after reset. -/
structure State where
  me : CoreId
  core : Core
  others : List (Nat × Core)
  clusters : List (Nat × Cluster)
  prisms : List (Nat × Prism)
  dies : Vector Die 4
  agenda : List Move
  /-- counter of free values used (Config) -/
  fv : Nat
  time : Nat
  /-- near SRAM and GDDR-7 by physical address, then TCMs, scratchpads and Prism side memories -/
  mem : Cells
  /-- bytes held dirty in the home die's slices (R139, R148) -/
  dirty : Cells
  /-- poisoned units (R383), by their first location -/
  poison : List Nat
  /-- earlier words of code that a core's fetch may still return (R137) -/
  stale : List StaleCode
  wts : List WriteThrough
  reds : List PendingRed
  signals : List Signal
  /-- units of memory with an error that no read has met yet, and whether it is uncorrectable (R382) -/
  flips : List (Nat × Bool)
  refused : List Refused
  /-- activations started, for their serial numbers -/
  starts : Nat
  launches : List (Nat × Launch)
  /-- launches accepted (R81) -/
  accepted : Nat
  gangs : List (Nat × Gang)
  susp : List SavedCore
  suspClusters : List SavedCluster
  decs : List Decs
  /-- physical addresses of TCBs that `join` handed over (R98) -/
  joined : List Nat
  net : List Msg
  acks : List Ack
  cqs : Vector CmdQueue 64
  agei : Vector Word 7
  -- device information block (R22, R327, R331)
  gcmap : Vector Word 64
  gsqmap : Word
  mgmt : Word
  idpk : Vector Word 8
  boothash : Vector Word 8
  bstat : Word
  /-- node number of the device (R144) -/
  node : Nat
  -- management die (R329 to R332, R394, R395)
  /-- the boot flash, by address -/
  flash : Cells
  /-- the management die has run its boot, and where the image it accepted lies in the flash (R329, R394) -/
  booted : Bool
  image : Option Nat
  /-- the compute dies are released from reset and have power -/
  released : Bool
  /-- attestation requests that wait for ATT, and the reports given, oldest first (R332) -/
  attq : List (BitVec 256)
  reports : List (List Byte)
  deriving DecidableEq, Repr

/-! ### The state after reset -/

/-- A context after reset: no rule states its registers, so they are zero (log 10). -/
def Ctx.reset (n : CtxNum) : Ctx where
  num := n
  st := .free
  s := Vector.replicate 32 0
  v := Vector.replicate 32 0
  m := Vector.replicate 8 0
  pc := 0
  mode := .task
  taskid := 0
  age := 0
  tile := 0
  budget := 0
  rmode := 0
  qmode := 0
  fstat := 0
  vprog := 0
  fltinfo := 0
  fltaddr := 0
  vecOld := none
  upsrc := 0
  mirth := 0
  mirrun := 0
  tvec := 0
  tepc := 0
  tcause := 0
  tscr := 0
  tcb := Vector.replicate 16 0
  task := 0
  lens := none
  win := []
  absorb := []
  sets := []
  log := []
  outbox := []
  restarts := 0
  grace := false
  restartMark := false
  parkSeq := 0
  failNotice := false
  noted := false
  excMode := false
  excPrev := none
  reporting := false
  bad := []
  woke := false
  wfeOn := false
  lockWait := []
  ir := 0

/-- A core after die reset (R123, R393). -/
def Core.reset : Core where
  ctx := Ctx.reset 0
  rest := [Ctx.reset 1, Ctx.reset 2, Ctx.reset 3]
  upcall := 0
  evq := 0
  seq := Vector.replicate 8 0
  pushed := Vector.replicate 8 0
  queues := Vector.replicate 8 []
  mirhit := 0
  mirmiss := 0
  cseq := 0
  sb := []
  sbCount := 0
  image := none
  held := none
  taskq := []
  rings := []
  arrC := Vector.replicate 16 0
  arrG := Vector.replicate 16 0
  contrib := []
  victims := Vector.replicate 3 none
  iris := .running
  snap := Vector.replicate 12 0
  trig := 0
  ttime := 0
  msgs := 0
  msgr := 0
  haltAt := none
  inbox := []
  notices := []
  lnctl := 0
  lens := []
  lensOver := ⟨0, 0, 0, 0, 0⟩
  ringTags := []
  watch := Vector.replicate 4 ⟨0, 0, 0, 0⟩
  wprec := Vector.replicate 32 0
  wslice := Vector.replicate 4 0
  preempt := false
  recq := []
  waiting := false
  firm := false
  parks := 0
  pendUp := none

/-- A cluster after die reset. -/
def Cluster.reset : Cluster where
  kick := []
  mirror := none
  rot := #v[4, 3, 3]
  claim := none
  facet := Vector.replicate 16 ⟨0, #v[0, 0], 0, 0, Vector.replicate 8 0, 0, 0⟩
  latchedBy := none
  pulse := 0

/-- A Prism after die reset (R185). -/
def Prism.reset : Prism where
  acc0 := Vector.replicate 256 0
  acc1 := Vector.replicate 256 0
  sbase := Vector.replicate 2 0
  dbase := Vector.replicate 2 0
  shift := Vector.replicate 2 0
  scale := #v[[], []]
  gang := none

/-- A die after reset (R302, R326, R378, R379, R382, R384, R387, R393, R395); registers from the boot image are zero until
the boot writes them (log 11). -/
def Die.reset : Die where
  actb := 0
  pscore := 0
  hcsb := 0
  hcsn := 0
  savb := 0
  ovfb := 0
  ovfn := 0
  csavb := 0
  fctl := 0
  trctl := 0
  trcnt := 0
  rslim := 0
  cfront := BitVec.allOnes 64
  cfhold := 0
  errc := 0
  erra := 0
  scrub := 0x8000000000004000
  lnkst := Vector.replicate 4 0
  therm := Vector.replicate 16 0x5F6900
  wrst := 0
  wrlog := 0
  rbud := Vector.replicate 16 0xFFFF
  used := Vector.replicate 16 0
  meas := Vector.replicate 16 0
  plim := Vector.replicate 16 0xFFFFFFFF
  ecost := Vector.ofFn fun i => BitVec.ofNat 64 i.val
  copies := []
  copyPoison := []
  l1 := []
  uses := []
  tlb := []
  pins := []
  expired := []
  locks := []
  eo := []
  pfq := []
  saved := []
  ordered := []
  slots := Vector.replicate 4 none
  lastQueue := 63
  scrubAt := 0
  scrubTime := 0
  rdy := 0
  frontAt := 0
  focusAt := 0
  powAt := Vector.replicate 16 0
  thermAt := Vector.replicate 16 0
  hot := Vector.replicate 16 false
  resetting := none
  resetBy := (0, none)
  resetGangs := []
  resetTime := 0

/-- A command queue after reset (R290, R390). -/
def CmdQueue.reset : CmdQueue where
  ring := 0
  en := false
  bpri := 0
  logn := 0
  hdie := 0
  wcnt := 0
  rcnt := 0
  epri := 0
  lsh := 0
  lmax := 0
  hist := Vector.replicate 16 0
  ovr := false
  halt := false
  code := 0
  idx := 0
  enq := []
  since := none
  startAt := none

/-- The device after power-on reset: the compute dies are in reset, nothing is loaded and the management die is about to boot
(R329). -/
def State.reset : State where
  me := 0
  core := Core.reset
  others := []
  clusters := []
  prisms := []
  dies := Vector.replicate 4 Die.reset
  agenda := []
  fv := 0
  time := 0
  mem := []
  dirty := []
  poison := []
  stale := []
  wts := []
  reds := []
  signals := []
  flips := []
  refused := []
  starts := 0
  launches := []
  accepted := 0
  gangs := []
  susp := []
  suspClusters := []
  decs := []
  joined := []
  net := []
  acks := []
  cqs := Vector.replicate 64 CmdQueue.reset
  agei := Vector.replicate 7 0
  gcmap := Vector.replicate 64 0
  gsqmap := 0
  mgmt := 0
  idpk := Vector.replicate 8 0
  boothash := Vector.replicate 8 0
  bstat := 0
  node := 0
  flash := []
  booted := false
  image := none
  released := false
  attq := []
  reports := []

end Sys2Proof.Machine
end

