-- ==== Sys2Proof/Machine/Ops.lean ====
section
/-!
DEFINITION. The named operations over the state: geometry (R9 to R13), registers (R74), the program counter, lookahead
windows (R69, R70), what an instruction can end in, taking an exception (R337 to R343) and returning from one (R126).
-/
namespace Sys2Proof.Machine

/-- A 64-bit register value of a number. -/
def w64 (n : Nat) : Word := BitVec.ofNat 64 n

/-! ### Geometry -/

/-- The die, column and row of a core (R9). -/
def dieOf (c : Nat) : Nat := c / 1024 % 4
@[inherit_doc dieOf] def colOf (c : Nat) : Nat := c % 32
@[inherit_doc dieOf] def rowOf (c : Nat) : Nat := c / 32 % 32
/-- The peer index of a core in its cluster (R10). -/
def peerOf (c : Nat) : Nat := colOf c % 2 + 2 * (rowOf c % 2)
/-- The cluster of a core, 256 × die + cluster index (R10). -/
def clusterOf (c : Nat) : Nat := 256 * dieOf c + 16 * (rowOf c / 2) + colOf c / 2
/-- The core of peer index `p` in cluster `k`. -/
def clusterCore (k p : Nat) : Nat :=
  1024 * (k / 256) + 32 * (2 * (k / 16 % 16) + p / 2 % 2) + 2 * (k % 16) + p % 2
/-- The four cores of a cluster, in ascending peer index. -/
def clusterCores (k : Nat) : List Nat := (List.range 4).map (clusterCore k)
/-- The core across an end's link, on the same die (R12). -/
def neighbour (c : Nat) : End → Option Nat
  | .north => if rowOf c < 31 then some (c + 32) else none
  | .east => if colOf c < 31 then some (c + 1) else none
  | .south => if rowOf c > 0 then some (c - 32) else none
  | .west => if colOf c > 0 then some (c - 1) else none
/-- The opposite end. -/
def oppositeEnd : End → End
  | .north => .south | .east => .west | .south => .north | .west => .east
/-- The Prism of an end, named by its west or south core: 2 × core + 0 for an east link, + 1 for a north link. -/
def prismOf (c : Nat) : End → Nat
  | .north => 2 * c + 1
  | .east => 2 * c
  | .south => 2 * (c - 32) + 1
  | .west => 2 * (c - 1)
/-- The slice that serves a virtual address (R139). -/
def sliceOf (va : Word) : Nat :=
  ((va.extractLsb' 7 16 ^^^ va.extractLsb' 23 16 ^^^ (va.extractLsb' 39 15).setWidth 16 : BitVec 16)).toNat % 96

/-- The core whose router a slice of a die is attached to (R13). -/
def sliceRouter (d n : Nat) : Nat :=
  let q := n / 6
  let (x, y) := match n % 6 with
    | 0 => (1, 1) | 1 => (5, 1) | 2 => (3, 4) | 3 => (7, 4) | 4 => (1, 6) | _ => (5, 6)
  1024 * d + 32 * (8 * (q / 4) + y) + 8 * (q % 4) + x

/-! ### Tables of cores, clusters and Prisms that differ from reset -/

/-- The entry of a key, or `d`. -/
def findD {α : Type} (d : α) (k : Nat) : List (Nat × α) → α
  | [] => d
  | (k', x) :: l => if k' = k then x else findD d k l
/-- Put an entry, keys rising. -/
def putKey {α : Type} (k : Nat) (x : α) : List (Nat × α) → List (Nat × α)
  | [] => [(k, x)]
  | (k', x') :: l => if k' = k then (k, x) :: l else if k < k' then (k, x) :: (k', x') :: l else (k', x') :: putKey k x l

/-- A core. -/
def State.coreAt (s : State) (c : Nat) : Core := if s.me.toNat = c then s.core else findD Core.reset c s.others
/-- Change a core. -/
def State.updCore (s : State) (c : Nat) (f : Core → Core) : State :=
  if s.me.toNat = c then { s with core := f s.core }
  else { s with others := putKey c (f (findD Core.reset c s.others)) s.others }
/-- Bring a core into focus. -/
def State.focus (s : State) (c : CoreId) : State :=
  if s.me = c then s
  else { s with me := c, core := findD Core.reset c.toNat s.others, others := putKey s.me.toNat s.core s.others }
/-- A cluster. -/
def State.clusterAt (s : State) (k : Nat) : Cluster := findD Cluster.reset k s.clusters
/-- Change a cluster. -/
def State.updCluster (s : State) (k : Nat) (f : Cluster → Cluster) : State :=
  { s with clusters := putKey k (f (s.clusterAt k)) s.clusters }
/-- Some counter of a cluster is enabled. -/
def Cluster.counts (x : Cluster) : Bool := x.facet.toList.any fun f => f.cfg.getLsbD 63
/-- Raw signal `i` of cluster `k` is an event of this cycle (R315), which enabled counters see. -/
def State.noteSignal (s : State) (k i : Nat) : State :=
  if (s.clusterAt k).counts then s.updCluster k fun x => { x with pulse := x.pulse ||| (1 <<< i) } else s
/-- Signal `i` of core `c` is an event of this cycle. -/
def State.coreSignal (s : State) (c i : Nat) : State := s.noteSignal (clusterOf c) (24 * peerOf c + i)
/-- A Prism. -/
def State.prismAt (s : State) (p : Nat) : Prism := findD Prism.reset p s.prisms
/-- Change a Prism. -/
def State.updPrism (s : State) (p : Nat) (f : Prism → Prism) : State :=
  { s with prisms := putKey p (f (s.prismAt p)) s.prisms }
/-- A die. -/
def State.dieAt (s : State) (d : Nat) : Die := s.dies[d % 4]'(Nat.mod_lt _ (by decide))
/-- Change a die. -/
def State.updDie (s : State) (d : Nat) (f : Die → Die) : State := { s with dies := s.dies.set (d % 4) (f (s.dieAt d)) (Nat.mod_lt _ (by decide)) }
/-- The die of the core in focus. -/
def State.myDie (s : State) : Nat := dieOf s.me.toNat
/-- Change the context in focus. -/
def State.updCtx (s : State) (f : Ctx → Ctx) : State := { s with core := { s.core with ctx := f s.core.ctx } }
/-- A free value of Config is used. -/
def State.useFree (s : State) : State := { s with fv := s.fv + 1 }
/-- The cores that are not as after reset, and the one in focus. -/
def State.liveCores (s : State) : List Nat := s.me.toNat :: (s.others.map (·.1)).filter (· ≠ s.me.toNat)
/-- The cores of a gang: those that hold an image of one of its kernels (R91, R308). -/
def State.gangCores (s : State) (g : Nat) : List Nat :=
  s.liveCores.filter fun c => match (s.coreAt c).image with | some i => i.gang = g | none => false

/-- A context of a core. -/
def Core.getCtx (k : Core) (n : CtxNum) : Ctx :=
  if k.ctx.num = n then k.ctx else (k.rest.find? (·.num = n)).getD (Ctx.reset n)
/-- Change a context of a core. -/
def Core.updCtx (k : Core) (n : CtxNum) (f : Ctx → Ctx) : Core :=
  if k.ctx.num = n then { k with ctx := f k.ctx } else { k with rest := k.rest.map fun x => if x.num = n then f x else x }
/-- Make a context the one in focus. -/
def Core.focus (k : Core) (n : CtxNum) : Core :=
  if k.ctx.num = n then k
  else match k.rest.find? (·.num = n) with
    | none => k
    | some x => { k with ctx := x, rest := k.ctx :: k.rest.filter (·.num ≠ n) }
/-- All contexts of a core. -/
def Core.ctxs (k : Core) : List Ctx := k.ctx :: k.rest
/-- The RUN context of a core is in focus. -/
def Core.runs (k : Core) : Bool := k.ctx.st = .run && k.iris ≠ .halted

/-! ### Registers (R74) -/

/-- S(n): `s0` reads 0. -/
def Ctx.readS (x : Ctx) (r : SReg) : Word := if r = 0 then 0 else x.s[r.toNat]'r.isLt
/-- V(n). -/
def Ctx.readV (x : Ctx) (r : VReg) : Vec := x.v[r.toNat]'r.isLt
/-- M(n): `m0` reads all ones. -/
def Ctx.readM (x : Ctx) (r : MReg) : Word := if r = 0 then BitVec.allOnes 64 else x.m[r.toNat]'r.isLt

/-- A window whose destination is register `r` loses its result to a later write (R69); that of a `mi.qry` whose window has ended and
whose word still runs does not (R70, R271). -/
def Window.dropS (r : SReg) (w : Window) : Window :=
  match w.dest with
  | .s r' _ => if r' = r then { w with dropped := true } else w
  | .mirror r' _ => if r' = r ∧ w.left ≠ 0 then { w with dropped := true } else w
  | _ => w
@[inherit_doc Window.dropS] def Window.dropV (r : VReg) (w : Window) : Window :=
  match w.dest with
  | .v r' _ => if r' = r then { w with dropped := true } else w
  | _ => w

/-- Remove a register from those in error: a write replaces it (R381). -/
def Ctx.mend (x : Ctx) (r : RegName) : Ctx := { x with bad := x.bad.filter (· ≠ r) }

/-- SetS(n, x): a write to `s0` is discarded; an open window on the register loses its result (R69). -/
def Ctx.writeS (x : Ctx) (r : SReg) (val : Word) : Ctx :=
  if r = 0 then x
  else { x with s := x.s.set r.toNat val r.isLt, win := x.win.map (·.dropS r), bad := x.bad.filter (· ≠ .s r) }
/-- SetV(n, x). -/
def Ctx.writeV (x : Ctx) (r : VReg) (val : Vec) : Ctx :=
  { x with v := x.v.set r.toNat val r.isLt, win := x.win.map (·.dropV r), bad := x.bad.filter (· ≠ .v r) }
/-- SetM(n, x): a write to `m0` is discarded. -/
def Ctx.writeM (x : Ctx) (r : MReg) (val : Word) : Ctx :=
  if r = 0 then x else { x with m := x.m.set r.toNat val r.isLt, bad := x.bad.filter (· ≠ .m r) }
/-- OR flags into FSTAT (R164). -/
def Ctx.raise (x : Ctx) (f : Flags) : Ctx := { x with fstat := x.fstat ||| f.setWidth 64 }

/-- Registers of the context in focus. -/
def State.readS (s : State) (r : SReg) : Word := s.core.ctx.readS r
@[inherit_doc State.readS] def State.readV (s : State) (r : VReg) : Vec := s.core.ctx.readV r
@[inherit_doc State.readS] def State.readM (s : State) (r : MReg) : Word := s.core.ctx.readM r
@[inherit_doc State.readS] def State.writeS (s : State) (r : SReg) (x : Word) : State := s.updCtx (·.writeS r x)
@[inherit_doc State.readS] def State.writeV (s : State) (r : VReg) (x : Vec) : State := s.updCtx (·.writeV r x)
@[inherit_doc State.readS] def State.writeM (s : State) (r : MReg) (x : Word) : State := s.updCtx (·.writeM r x)

/-! ### Addresses and the program counter -/

/-- AddA (R74): bits 63:54 of `p` are kept and bits 53:0 wrap. -/
def addA (p x : Word) : Word := p.extractLsb' 54 10 ++ (p.extractLsb' 0 54 + x.extractLsb' 0 54)
/-- Bits 53:0 of an address (R131). -/
def addr54 (p : Word) : Nat := (p.extractLsb' 0 54).toNat
/-- A program counter: bits 1:0 zero, 54 bits (R49, R120). -/
def pcMask (p : Word) : Word := p &&& 0x003FFFFFFFFFFFFC
/-- A sum of the program counter, in 54 bits (log 24). -/
def pcAdd (p x : Word) : Word := (p + x) &&& 0x003FFFFFFFFFFFFF

/-- The program counter of the context in focus. -/
def State.pc (s : State) : Word := s.core.ctx.pc
/-- Set it. -/
def State.setPc (s : State) (p : Word) : State := s.updCtx fun x => { x with pc := p }
/-- PC ← PC + n. -/
def State.advance (s : State) (n : Nat) : State := s.setPc (pcAdd s.pc (BitVec.ofNat 64 n))

/-! ### Lookahead windows (R69, R70) -/

/-- The result of a completed window is written unless a later write discarded it. -/
def Ctx.settle (x : Ctx) (w : Window) : Ctx :=
  if w.dropped then x else
  match w.dest with
  | .s r val => if r = 0 then x else { x with s := x.s.set r.toNat val r.isLt, bad := x.bad.filter (· ≠ .s r) }
  | .v r val => { x with v := x.v.set r.toNat val r.isLt, bad := x.bad.filter (· ≠ .v r) }
  | _ => x
/-- A window whose end must wait: a `mi.qry` whose word has not completed (R271). -/
def Window.awaits (w : Window) : Bool := match w.dest with | .mirror _ _ => true | _ => false
/-- Windows that end now: those with no instruction left, or all of them. The window of a `mi.qry` stays until its word answers. -/
def Ctx.closeWindows (x : Ctx) (all : Bool) : Ctx :=
  let ended := fun (w : Window) => (all || decide (w.left = 0)) && !w.awaits
  let keep := (x.win.filter fun w => !ended w).map fun w => if all then { w with left := 0 } else w
  { (x.win.filter ended).foldl Ctx.settle x with win := keep }
/-- Whether a window that must end now still waits for its instruction; a word that is held has raised its fault (R70, R361). -/
def Core.blocked (k : Core) (all : Bool) : Bool := k.ctx.win.any fun w =>
  (all || decide (w.left = 0)) && match w.dest with
    | .mirror _ n => !((k.queues.toList.getD 6 []).any fun e =>
        e.seq.toNat = n && match e.st with | .held .. => true | _ => false)
    | _ => false
/-- One instruction of every open window has issued. -/
def Ctx.ageWindows (x : Ctx) : Ctx := { x with win := x.win.map fun w => { w with left := w.left - 1 } }
/-- The result of a long-latency instruction with lookahead `la` (R69): at once when `la` is 0, else in a window. -/
def State.result (s : State) (la : La) (d : Dest) : State :=
  match d with
  | .s r val =>
    if la = 0 then s.writeS r val
    else s.updCtx fun x => { x with win := x.win.map (·.dropS r) ++ [⟨la.toNat + 1, d, false, false⟩] }
  | .v r val =>
    if la = 0 then s.writeV r val
    else s.updCtx fun x => { x with win := x.win.map (·.dropV r) ++ [⟨la.toNat + 1, d, false, false⟩] }
  | .none => if la = 0 then s else s.updCtx fun x => { x with win := x.win ++ [⟨la.toNat + 1, d, false, false⟩] }
  | .mirror r _ => s.updCtx fun x => { x with win := x.win.map (·.dropS r) ++ [⟨la.toNat + 1, d, false, false⟩] }

/-! ### What an instruction ends in -/

/-- An exception (R335 to R338): code, access, DETAIL, address and lane; `stop` forces a gang stop (R341); `boundary`
reports at an activation boundary, without an instruction word. With `wait` it is none: the request waits at a bridge that is not
ready (R328). -/
structure Exc where
  code : Nat
  addr : Word := 0
  acc : Nat := 0
  detail : Nat := 0
  lane : Option Nat := none
  stop : Bool := false
  boundary : Bool := false
  wait : Bool := false
  deriving DecidableEq, Repr

/-- Why an instruction does not complete: an exception, a wait (it will issue again), or a stop of the machine. -/
inductive Stop where
  | exc (e : Exc)
  | stall
  | fault (f : Fault)
  deriving DecidableEq, Repr

/-- An instruction's effect; an early end keeps the state as it stood then (R73). -/
abbrev Act := EStateM Stop State

/-- The instruction waits: it issues again later. -/
def stall {α : Type} : Act α := throw .stall
/-- A wait that R349 lists, in which the instruction may be abandoned. -/
def softly {α : Type} (a : Act α) : Act α := fun s =>
  match a s with
  | .error .stall s => .error .stall { s with core := { s.core with firm := false } }
  | r => r
/-- Raise an exception (R74). -/
def raise {α : Type} (e : Exc) : Act α := if e.wait then stall else throw (.exc e)

/-! ### Snapshots and Iris signals (R308 to R310) -/

/-- A core takes its snapshot (R310). `c` is its index, `cyc` its CYCLE; word 0 to 4 and the activation identifier. -/
def Core.latch (k : Core) (c cyc : Nat) (time : Nat) (tsrc tcore : Nat) (ttime : Word) : Core :=
  let run := k.ctx.st = .run
  let cst := fun n => match (k.getCtx n).st with | .free => 0 | .run => 1 | .park => 2 | .wake => 3 | .done => 4
  let w0 : Nat := 2 ^ 63 + (if run then 2 ^ 60 * k.ctx.num.toNat + addr54 k.ctx.pc else 2 ^ 62)
  let w4 : Nat := 2 ^ 24 * min (k.inbox.length + k.recq.length) 255 + 2 ^ 16 * min k.sb.length 16 + cst 0 + 8 * cst 1 + 64 * cst 2 + 512 * cst 3
  let aid : Nat → Word := fun i =>
    if run then (if i = 3 then BitVec.ofNat 64 (4096 * k.ctx.num.toNat + c) else (k.ctx.tcb.toList.getD i 0)) else 0
  { k with
    snap := #v[BitVec.ofNat 64 w0, BitVec.ofNat 64 cyc, BitVec.ofNat 64 (time % 2 ^ 48), k.msgs ++ k.msgr, BitVec.ofNat 64 w4,
      0, 0, 0, aid 0, aid 1, aid 2, aid 3]
    trig := BitVec.ofNat 64 (2 ^ 52 * (tcore % 4096) + 2 ^ 50 * (tsrc % 4))
    ttime := ttime }

/-- A halt that reaches a core ends the `wfe` its RUN context waits in (R127). -/
def Core.wakeWfe (k : Core) : Core := { k with ctx := { k.ctx with woke := k.ctx.woke || k.ctx.wfeOn } }
/-- CYCLE of a core: cycles since its die's reset (R123). -/
def State.cycleOf (s : State) (c : Nat) : Nat := s.time - (s.dieAt (dieOf c)).resetTime
/-- TIME: the low 48 bits of the die-synchronous count (R86, R123). -/
def State.timeReg (s : State) : Word := BitVec.ofNat 64 (s.time % 2 ^ 48)

/-- Send Iris signals to cores (R308). -/
def State.signal (s : State) (cs : List Nat) (op tsrc tcore : Nat) : State :=
  { s with signals := s.signals ++ cs.map fun c => ⟨c, op, tsrc, tcore, s.timeReg⟩ }

/-- A latch copies the Facet counters of the core's cluster, once per cluster and trigger (R308). -/
def State.latchFacet (s : State) (c tsrc tcore : Nat) (ttime : Word) : State :=
  if (s.clusterAt (clusterOf c)).latchedBy = some (tsrc, tcore, ttime) then s
  else s.updCluster (clusterOf c) fun k =>
    { k with facet := k.facet.map fun f => { f with snap := f.cnt }, latchedBy := some (tsrc, tcore, ttime) }
/-- A precise stop of the core in focus (R319, R343): its snapshot is latched and it is HALTED, its context still RUN;
with `gang`, an Iris halt goes to the other cores of that gang. A stop that meets an earlier halt keeps its snapshot. -/
def State.haltHere (s : State) (tsrc : Nat) (gang : Option Nat) : State :=
  let c := s.me.toNat
  let s := if s.core.iris = .running then s.latchFacet c tsrc c s.timeReg else s
  let k := if s.core.iris = .running then s.core.latch c (s.cycleOf c) s.time tsrc c s.timeReg else s.core
  let s1 := { s with core := { k.wakeWfe with iris := .halted, haltAt := some s.time } }
  match gang with
  | some g => s1.signal ((s1.gangCores g).filter (· ≠ c)) 0 tsrc c
  | none => s1

/-! ### Taking an exception, and returning from one -/

/-- FLTINFO (R337). `del` is the delivery: 0 trap, 1 upcall, 2 gang stop. -/
def Exc.info (e : Exc) (del : Nat) (ir : W32) : Word :=
  BitVec.ofNat 10 e.code ++ BitVec.ofNat 2 del ++ BitVec.ofNat 4 e.acc ++ BitVec.ofBool e.lane.isSome ++
    BitVec.ofNat 7 (e.lane.getD 0) ++ BitVec.ofNat 8 e.detail ++ (if e.boundary then 0 else ir)

/-- FLTINFO and FLTADDR of the context in focus (R337, R338). -/
def State.setFault (s : State) (e : Exc) (del : Nat) : State :=
  s.updCtx fun x => { (x.mend (.csr .fltinfo)).mend (.csr .fltaddr) with
    fltinfo := e.info del x.ir, fltaddr := e.addr &&& 0x003FFFFFFFFFFFFF }

/-- TCAUSE (R124). -/
def tcauseOf (exc : Bool) (m : Mode) (code : Nat) : Word :=
  BitVec.ofBool exc ++ BitVec.ofBool (m = .system) ++ 0#52 ++ BitVec.ofNat 10 code

/-- The path of a trap (R125): TEPC and TCAUSE, system mode, PC ← TVEC. -/
def State.enterTrap (s : State) (exc : Bool) (code : Nat) (epc : Word) : State :=
  s.updCtx fun x => { (x.mend (.csr .tepc)).mend (.csr .tcause) with
    excPrev := if exc then some (s.time, x.tepc, x.tcause) else x.excPrev
    tepc := epc, tcause := tcauseOf exc x.mode code, mode := .system, pc := pcMask x.tvec, excMode := exc || x.excMode }

/-- Whether delivery is a gang stop (R341): forced, no handler, or raised at the handler's own address. -/
def State.stops (s : State) (e : Exc) : Bool :=
  e.stop || decide (pcMask s.core.ctx.tvec = 0) || decide (s.pc = pcMask s.core.ctx.tvec)

/-- Taking an exception (R341 to R343): open windows end (R70), the fault registers are written, and the exception is
delivered as a trap, or as a gang stop of the core's gang. -/
def State.takeExc (s : State) (e : Exc) : State :=
  let s := s.updCtx fun x => { x.closeWindows true with wfeOn := false, vecOld := none }
  if s.stops e then
    ((s.setFault e 2).updCtx fun x => { x with excPrev := some (s.time, x.tepc, x.tcause) }).haltHere 0 (s.core.image.map (·.gang))
  else (s.setFault e 0).enterTrap true e.code s.pc

/-- Returning from a trap (R126): PC ← TEPC, the mode of TCAUSE.PSYS; fault service of the context ends (R345). -/
def State.leaveTrap (s : State) : State :=
  s.updCtx fun x => { x with
    pc := pcMask x.tepc, mode := if x.tcause.getLsbD 62 then .system else .task, excMode := false, reporting := false }

/-- What an instruction of the core in focus answers: its effect, the exception taken, or a wait. An exception waits while
an earlier `mi.qry` of the context has not completed (R70). -/
def finish (a : Act Unit) (s : State) : Host.Outcome State Fault Refusal :=
  match a s with
  | .ok _ s' => .next s'
  | .error (.exc e) s' =>
    if s'.core.blocked true then .next { s' with core := { s'.core with waiting := true } } else .next (s'.takeExc e)
  | .error .stall s' => .next { s' with core := { s'.core with waiting := true } }
  | .error (.fault f) _ => .fault f

/-- What a device step ends in: it is not enabled, it leads to a state, or the machine stops. -/
inductive EvEnd where
  | off
  | done (s : State)
  | fault (f : Fault)
/-- A device step that is not enabled changes nothing. -/
def EvEnd.outcome (s : State) : EvEnd → Host.Outcome State Fault Refusal
  | .off => .next s
  | .done s' => .next s'
  | .fault f => .fault f
/-- The first enabled step of a list. -/
def EvEnd.first (s : State) : List (State → EvEnd) → EvEnd
  | [] => .off
  | f :: fs => match f s with | .off => EvEnd.first s fs | r => r

/-- A state change as an effect. -/
def act (f : State → State) : Act Unit := modify f

end Sys2Proof.Machine
end

