-- ==== Sys2Proof/Machine/Flags.lean ====
section
/-!
DEFINITION. The sticky flags of FSTAT (R36, R124, R164): an instruction ORs in what its active lanes raise. How each
operation raises them stands beside its arithmetic in Machine/Num.lean (R36 to R39, R167 to R170).
-/
namespace Sys2Proof.Machine

/-- OR flags into FSTAT of the context in focus (R164). -/
def State.raiseFlags (s : State) (f : Flags) : State := s.updCtx (·.raise f)
/-- The OR of the flags of the lanes (R164). -/
def orFlags (fs : List Flags) : Flags := fs.foldl (· ||| ·) 0

end Sys2Proof.Machine
end

