-- ==== Sys2Proof/Machine/Operands.lean ====
section
/-!
DEFINITION. Operand forms: sign extension, rounding fields (R35, R164), lanes and masks (R161, R162), and the slots of
engine words (R55).
-/
namespace Sys2Proof.Machine

/-- Sext of an immediate or offset field to 64 bits (R74). -/
def sext {n : Nat} (x : BitVec n) : Word := x.signExtend 64
/-- Zext of a field to 64 bits (R74). -/
def zext {n : Nat} (x : BitVec n) : Word := x.setWidth 64

/-- The mode of a code in RMODE for a rounding that is not quantising: code 4 rounds to nearest, ties to even (R35). -/
def modeOfCode (c : Word) : RMode :=
  match (c.extractLsb' 0 3).toNat with
  | 1 => .rz | 2 => .rdn | 3 => .rup | _ => .rne
/-- The mode of a code in RMODE for a quantising rounding (R35). -/
def quantModeOfCode (c : Word) : RMode := if c.extractLsb' 0 3 = 4#3 then .rna else modeOfCode c
/-- Mode(RM) of a rounding that is not quantising (R74, R164). -/
def State.modeOf (s : State) : Rm → RMode
  | .rne => .rne | .rz => .rz | .rdn => .rdn | .rup => .rup | .rna => .rne
  | .csr => modeOfCode s.core.ctx.rmode
/-- Mode(RM) of `vq` and `vqs` (R35, R173). -/
def State.quantModeOf (s : State) : Rm → RMode
  | .rne => .rne | .rz => .rz | .rdn => .rdn | .rup => .rup | .rna => .rna
  | .csr => quantModeOfCode s.core.ctx.rmode

/-- Lane `i` of `n` is active under a mask (R162). -/
def laneActive (m : Word) (n i : Nat) : Bool := if n ≤ 64 then m.getLsbD i else m.getLsbD (i / 2)
/-- The lane count of a type (R161). -/
def laneCount (t : ElemTy) : Nat := 512 / elemWidth t

/-- The element type of a TY code. -/
def intElem : IntTy → ElemTy
  | .i8 => .i8 | .i16 => .i16 | .i32 => .i32 | .i64 => .i64 | .n8 => .n8 | .n16 => .n16 | .n32 => .n32 | .n64 => .n64
/-- The element type of an FT code. -/
def floatElem : FloatTy → ElemTy
  | .f64 => .f64 | .f32 => .f32 | .f16 => .f16 | .bf16 => .bf16
/-- The format of an FT code. -/
def floatFmt : FloatTy → Fmt
  | .f64 => fmtF64 | .f32 => fmtF32 | .f16 => fmtF16 | .bf16 => fmtBf16
/-- The bits of an ES code. -/
def esBits : ElemSize → Nat
  | .e8 => 8 | .e16 => 16 | .e32 => 32 | .e64 => 64

/-- New elements for the active lanes, the old ones of D elsewhere, with the flags of the active lanes (R162, R164).
`n` elements of width `w`; `f` gives element `i`. -/
def laneMap (w n : Nat) (m : Word) (old : Vec) (f : Nat → Nat × Flags) : Vec × Flags :=
  let r := (List.range n).map fun i => if laneActive m n i then f i else (lane old w i, 0)
  (packLanes w (r.map (·.1)), orFlags (r.map (·.2)))

/-- The value of a slot that takes either KIND (R55). -/
def State.slotVal (s : State) : EOp → Word
  | .imm v => zext v
  | .reg r => s.readS r

/-! ### Elements delivered by `pr.out` (R199) -/

/-- The exact sum of two values, the sign of an exact zero by R41. -/
def valAdd (mode : RMode) (a b : Val) : Val :=
  match a, b with
  | .nan, _ | _, .nan => .nan
  | .inf s, .inf t => if s = t then .inf s else .nan
  | .inf s, _ => .inf s
  | _, .inf t => .inf t
  | .fin s m e, .fin t n g =>
    let d := (Dy.ofFin s m e).add (Dy.ofFin t n g)
    if d.m = 0 then .fin (if m = 0 ∧ n = 0 ∧ s = t then s else decide (mode = .rdn)) 0 0
    else .fin (decide (d.m < 0)) d.m.natAbs d.e
/-- The element type of an OFMT code (R199). -/
def outTy : Nat → ElemTy
  | 0x12 => .f16 | 0x13 => .bf16 | 0x14 => .e4m3 | 0x15 => .e5m2 | 0x16 => .e2m1 | 0x01 => .i8 | 0x05 => .i32 | _ => .f32
/-- Bits of an element of an OFMT code. -/
def outBits (f : Nat) : Nat := elemWidth (outTy f)
/-- The delivered element of an accumulator (R199): `old` is the destination's under ADD. -/
def deliverVal (ofmt : Nat) (mode : RMode) (sat : Bool) (osc : Int) (acc : W32) (old : Option Nat) : Nat :=
  let v := match fmtF32.val acc.toNat with | .fin s m e => Val.fin s m (e + osc) | v => v
  let t := outTy ofmt
  let v := match old with | some x => valAdd mode v (elemVal t x) | none => v
  match elemFmt t with
  | some f => (convertFloat f mode sat v).1
  | none => (convertInt (elemSigned t) (elemWidth t) mode v).1
/-- The mode of a `pr.out` (R199, R35). -/
def outMode (rm : Rm) (rmode : Word) : RMode :=
  match rm with
  | .rne | .rna => .rne | .rz => .rz | .rdn => .rdn | .rup => .rup
  | .csr => modeOfCode rmode

end Sys2Proof.Machine
end

