-- ==== Sys2Proof/Machine/Mem.lean ====
section
/-!
DEFINITION. Memory: the canonical list of bytes, physical addresses and homes (R144, R147), the slices' copies and dirty
bytes (R139, R148, R280), poison (R383), use counts (R145), translation (R140 to R143, R149) and the local windows (R131).
-/
namespace Sys2Proof.Machine

/-! ### Bytes by location -/

/-- The byte listed at a location. -/
def Cells.get? : Cells → Nat → Option Byte
  | [], _ => none
  | (a, b) :: m, k => if a = k then some b else if k < a then none else Cells.get? m k
/-- List a byte, locations rising. -/
def Cells.put : Cells → Nat → Byte → Cells
  | [], k, x => [(k, x)]
  | (a, b) :: m, k, x => if a = k then (k, x) :: m else if k < a then (k, x) :: (a, b) :: m else (a, b) :: Cells.put m k x
/-- Unlist a location. -/
def Cells.erase : Cells → Nat → Cells
  | [], _ => []
  | (a, b) :: m, k => if a = k then m else if k < a then (a, b) :: m else (a, b) :: Cells.erase m k
/-- What an unlisted location of memory reads as (log 5): zero. -/
def unlisted : Byte := 0
/-- The byte of memory at a location. -/
def Cells.read (m : Cells) (a : Nat) : Byte := (m.get? a).getD unlisted
/-- Write a byte of memory, keeping the canonical form. -/
def Cells.write (m : Cells) (a : Nat) (b : Byte) : Cells := if b = unlisted then m.erase a else m.put a b
/-- The canonical form: locations strictly rising above `lo`, no listed byte equal to what an unlisted one reads as. -/
def Cells.wfFrom : Nat → Cells → Bool
  | _, [] => true
  | lo, (a, b) :: m => decide (lo ≤ a) && decide (b ≠ unlisted) && Cells.wfFrom (a + 1) m
/-- The canonical form of memory. -/
abbrev Memory.wf (m : Cells) : Bool := Cells.wfFrom 0 m

/-- `n` consecutive locations. -/
def spanOf (a n : Nat) : List Nat := (List.range n).map (a + ·)

/-! ### Locations -/

/-- The location of a byte of a core's TCM, of a cluster's scratchpad, of a Prism's side memory. -/
def tcmLoc (c off : Nat) : Nat := 2 ^ 52 + 2 ^ 17 * c + off
@[inherit_doc tcmLoc] def spadLoc (k off : Nat) : Nat := 2 ^ 53 + 2 ^ 19 * k + off
@[inherit_doc tcmLoc] def sideLoc (p off : Nat) : Nat := 2 ^ 54 + 2 ^ 13 * p + off
/-- The location that names accumulator `i` of a bank of a Prism where its errors and its poison are kept (R382); its value is the Prism's. -/
def accLoc (p : Nat) (bank : Bool) (i : Nat) : Nat := 2 ^ 55 + 2 ^ 11 * p + (if bank then 2 ^ 10 else 0) + 4 * i
/-- A location is physical memory. -/
def isPhys (l : Nat) : Bool := decide (l < 2 ^ 52)

/-- NODE, DIE and LOC of a physical address (R144). -/
def paNode (pa : Nat) : Nat := pa / 2 ^ 40
@[inherit_doc paNode] def paDie (pa : Nat) : Nat := pa / 2 ^ 38 % 4
@[inherit_doc paNode] def paLoc (pa : Nat) : Nat := pa % 2 ^ 38
/-- What lies at a physical address of this node (R144). -/
inductive Region where | nearSram | gddr | control | reserved
  deriving DecidableEq, Repr
/-- The region of an address (R14, R144). DESIGN CHOICE: the whole range of GDDR-7 addresses is memory, whatever the board's devices hold
(log 85). -/
def regionOf (pa : Nat) : Region :=
  let l := paLoc pa
  if l < 0x80000000 then .nearSram
  else if 0x1000000000 ≤ l ∧ l < 0x2000000000 then .gddr
  else if 0x3F00000000 ≤ l ∧ l < 0x3F01000000 then .control
  else .reserved

/-- The bridges a packet leaves dies by, in order (R16): bridge 0 N, 1 E, 2 S, 3 W. `x` takes the east-west hop first. -/
def routeOf (a b : Nat) (x : Bool) : List (Nat × Nat) :=
  let m := if x then 2 * (a / 2) + b % 2 else 2 * (b / 2) + a % 2
  let ew := fun (d : Nat) => if a % 2 = b % 2 then [] else [(d, if a % 2 = 0 then 1 else 3)]
  let ns := fun (d : Nat) => if a / 2 = b / 2 then [] else [(d, if a / 2 = 0 then 2 else 0)]
  if x then ew a ++ ns m else ns a ++ ew m
/-- The route a packet takes; one of R16 through a die in warm reset takes the other order (R393). -/
def State.route (s : State) (a b : Nat) : List (Nat × Nat) :=
  let m := 2 * (a / 2) + b % 2
  routeOf a b !(decide (m ≠ a) && decide (m ≠ b) && (match (s.dieAt m).resetting with | some n => decide (4 ≤ n) | none => false))
/-- A bridge on the route has failed (R388). -/
def State.linkFailed (s : State) (a b : Nat) : Bool :=
  (s.route a b).any fun r => ((s.dieAt r.1).lnkst.toList.getD r.2 0).getLsbD 63
/-- A bridge on the route is not ready, so packets wait there (R328). -/
def State.linkWaits (s : State) (a b : Nat) : Bool :=
  (s.route a b).any fun r => !(s.dieAt r.1).rdy.getLsbD (23 - r.2)
/-- A request from die `a` to die `b`, or its reply, meets a failed bridge (R16, R388). -/
def State.tripFailed (s : State) (a b : Nat) : Bool := s.linkFailed a b || s.linkFailed b a
/-- A request from die `a` to die `b`, or its reply, waits at a bridge (R16, R328). -/
def State.tripWaits (s : State) (a b : Nat) : Bool := s.linkWaits a b || s.linkWaits b a
/-- A die in warm reset answers requests from outside it with home-unavailable replies (R393, step 4 to the end of step 7). -/
def Die.closed (x : Die) : Bool := match x.resetting with | some n => decide (4 ≤ n) | none => false
/-- Die `h` answers die `d` so. -/
def State.inReset (s : State) (d h : Nat) : Bool := decide (h ≠ d) && (s.dieAt h).closed
/-- The home of a physical address can serve die `d` (R327, R386). DESIGN CHOICE: near-SRAM bank group g of R7 holds the LOCs from 128 MiB × g
on (log 99). -/
def State.homeReady (s : State) (d pa : Nat) : Bool :=
  let h := s.dieAt (paDie pa)
  let up := match regionOf pa with
    | .nearSram => h.rdy.getLsbD (32 + paLoc pa / 2 ^ 27)
    | .gddr =>
      if h.rdy.extractLsb' 24 8 = BitVec.allOnes 8 then true
      else h.rdy.getLsbD (24 + Config.gddrChannel (paLoc pa) % 8)
    | _ => true
  up && !s.inReset d (paDie pa)

/-! ### Poison (R383) -/

/-- The unit a location belongs to: a 32-byte sector, an 8-byte word of TCM, scratchpad and side memory, or an accumulator. -/
def unitSize (l : Nat) : Nat := if isPhys l then 32 else if l < 2 ^ 55 then 8 else 4
@[inherit_doc unitSize] def unitOf (l : Nat) : Nat := l / unitSize l * unitSize l
/-- Some location of the list lies in a poisoned unit. -/
def poisonedAny (p : List Nat) (ls : List Nat) : Bool := ls.any fun l => p.contains (unitOf l)
/-- A write clears the poison of the units it covers whole. -/
def healUnits (p : List Nat) (bytes : List SbByte) : List Nat :=
  if p.isEmpty then p else
  p.filter fun u => !(spanOf u (unitSize u)).all fun l => bytes.any fun b => b.loc = l && b.mask == 0xFF
/-- SRC of R382 for a location. -/
def srcOf (l : Nat) : Nat :=
  if isPhys l then (match regionOf l with | .nearSram => 6 | .gddr => 7 | _ => 3)
  else if l < 2 ^ 53 then 0 else if l < 2 ^ 54 then 1 else 9

/-! ### Memory at its home, and as a die sees it -/

/-- The byte at the home point (R139): the home die's slice, else the array. -/
def State.homeByte (s : State) (l : Nat) : Byte :=
  if s.dirty.isEmpty then s.mem.read l else (s.dirty.get? l).getD (s.mem.read l)
/-- A merged byte (R180). -/
def SbByte.merge (b : SbByte) (old : Byte) : Byte := if b.mask == 0xFF then b.val else (old &&& ~~~b.mask) ||| (b.val &&& b.mask)

/-- A write-through of the die still holds this byte (R280). -/
def State.pendingHere (s : State) (d l : Nat) : Bool := s.wts.any fun w => w.die = d && w.bytes.any (·.loc = l)
/-- The byte of the die's copy of a line homed elsewhere. -/
def State.copyByte (s : State) (d l : Nat) : Option Byte := (s.dieAt d).copies.get? l

/-- A write performs at its home point (R139, R276): the home die's slice holds it dirty; a local one goes to its memory. -/
def State.performByte (s : State) (b : SbByte) : State :=
  if isPhys b.loc then { s with dirty := s.dirty.put b.loc (b.merge (s.homeByte b.loc)) }
  else { s with mem := s.mem.write b.loc (b.merge (s.mem.read b.loc)) }

/-! ### Watchpoints at the home point (R318, R319) -/

/-- The activation identifier of a context (R307). -/
def aidOf (c : Nat) (x : Ctx) : List Word :=
  [x.tcb.toList.getD 0 0, x.tcb.toList.getD 1 0, x.tcb.toList.getD 2 0, BitVec.ofNat 64 (4096 * x.num.toNat + c)]
/-- The writer of a write that an instruction of a context of core `c` makes to `va` (R318). -/
def State.ctxWriter (s : State) (c : Nat) (x : Ctx) (va : Word) : Writer := ⟨0, c, x.task, s.node, sliceOf va, aidOf c x⟩
/-- The writer of a write that the hardware of core `c` makes to `va`: of no activation. -/
def State.hardWriter (s : State) (c : Nat) (va : Word) : Writer := ⟨0, c, 0, s.node, sliceOf va, []⟩
/-- A halt reaches core `c` (R308, R309, R312): it latches and is STOPPING, or HALTED when no context is RUN. -/
def State.haltCore (s : State) (c tsrc tcore : Nat) (ttime : Word) : State :=
  if (s.coreAt c).iris ≠ .running then s.updCore c fun k => { k with haltAt := some s.time }
  else
    let s := s.latchFacet c tsrc tcore ttime
    s.updCore c fun k =>
      { (k.latch c (s.cycleOf c) s.time tsrc tcore ttime).wakeWfe with
        iris := if k.ctxs.any (·.st = .run) then .stopping else .halted, haltAt := some s.time }
/-- A filled record of a write at `pa` (R318, R391), with HITS. -/
def watchWords (w : Writer) (hits time pa : Nat) (data : Word) : List Word :=
  [BitVec.ofNat 64 (2 ^ 63 + 2 ^ 48 * hits + time % 2 ^ 48),
    BitVec.ofNat 64 (2 ^ 60 * w.kind + 2 ^ 48 * w.node + 2 ^ 36 * (if 5 ≤ w.kind ∧ w.kind ≤ 7 then w.task else w.core)),
    BitVec.ofNat 64 pa, data] ++ (if w.kind = 0 then (List.range 4).map fun i => w.aid.getD i 0 else [0, 0, 0, 0])
/-- One watchpoint meets a write at `pa` (R318, R391): its record, of eight words, and the slice whose write filled it. Of the writes of one
cycle, the one at the lowest slice fills the record. -/
def watchRecord (r : List Word) (at_ : Nat) (w : Writer) (time pa : Nat) (data : Word) : List Word × Nat :=
  let w0 := r.getD 0 0
  if w0.getLsbD 63 then
    let h := min 255 ((w0.extractLsb' 48 8).toNat + 1)
    if (w0.extractLsb' 0 48).toNat = time % 2 ^ 48 ∧ w.slice < at_ then (watchWords w h time pa data, w.slice)
    else (((w0 &&& ~~~((0xFF : Word) <<< 48)) ||| (BitVec.ofNat 64 h <<< 48)) :: r.drop 1, at_)
  else (watchWords w 0 time pa data, w.slice)
/-- Watchpoint `i` of core `c` meets a write: the record, and, unless an instruction of the core made it (R319), the stop. -/
def State.watchHit (s : State) (c i : Nat) (w : Writer) (pa : Nat) (data : Word) : State :=
  let k := s.coreAt c
  let p := k.watch.toList.getD i ⟨0, 0, 0, 0⟩
  let (r, n) := watchRecord ((k.wprec.toList.drop (8 * i)).take 8) (k.wslice.toList.getD i 0) w s.time pa data
  let s := s.updCore c fun k =>
    { k with
      wprec := Vector.ofFn fun j => if j.val / 8 = i then r.getD (j.val % 8) 0 else k.wprec[j]
      wslice := Vector.ofFn fun j => if j.val = i then n else k.wslice[j] }
  if p.kind = 3 ∨ (w.kind = 0 ∧ w.core = c ∧ w.aid ≠ []) then s
  else
    let s := s.haltCore c 1 c s.timeReg
    match p.kind, k.image with
    | 2, some im => s.signal ((s.gangCores im.gang).filter (· ≠ c)) 0 1 c
    | _, _ => s
/-- A write event of bytes `bs` is checked once against each armed watchpoint. One that leaves its unit poisoned records WDATA 0 (R391,
log 98). -/
def State.watch (s : State) (w : Writer) (bs : List SbByte) : State :=
  match bs with
  | [] => s
  | b :: _ =>
    if !isPhys b.loc then s else
    let cs := s.liveCores.filter fun c => (s.coreAt c).watch.any (·.kind ≠ 0)
    let data : Word := if poisonedAny s.poison (bs.map (·.loc)) then 0 else BitVec.ofNat 64 (natOfBytes ((bs.take 8).map (·.val)))
    cs.foldl (fun s c => (List.range 4).foldl (fun s i =>
      let p := (s.coreAt c).watch.toList.getD i ⟨0, 0, 0, 0⟩
      if p.kind ≠ 0 && bs.any (fun b => decide (p.pa ≤ b.loc ∧ b.loc < p.pa + p.len)) then
        s.watchHit c i w b.loc data
      else s) s) s

/-! ### Code that changed (R137) -/

/-- An earlier word is kept for fetches of cores of the dies, once. -/
def addStale (l : List StaleCode) (e : StaleCode) : List StaleCode := if l.contains e then l else l ++ [e]
/-- Before bytes of memory change, the old words stay available to fetches on the dies that no `cmo` has refreshed. `view` is what
such a fetch read until now. -/
def State.noteCode (s : State) (dies : List Nat) (view : Nat → Byte) (bs : List SbByte) : State :=
  let ws := ((bs.filter fun b => isPhys b.loc).map fun b => b.loc / 4 * 4).eraseDups
  { s with stale := ws.foldl (fun l a => addStale l ⟨a, BitVec.ofNat 32 (natOfBytes ((spanOf a 4).map view)), dies, []⟩) s.stale }

/-- Bytes change at their home; on the dies, a fetch may still return what was there (R137). -/
def State.performOn (s : State) (dies : List Nat) (bs : List SbByte) : State :=
  bs.foldl State.performByte (s.noteCode dies s.homeByte bs)
/-- One write event performs at its home: the watchpoints see it (R318), and whole units lose their poison (R383). `own` is the die
that saw its bytes before, as a write-through of its slice. -/
def State.performBytes (s : State) (w : Writer) (bs : List SbByte) (own : Option Nat := none) : State :=
  let s := s.performOn ((List.range 4).filter (some · ≠ own)) bs
  ({ s with poison := healUnits s.poison bs, flips := s.flips.filter fun f => !(healUnits [f.1] bs).isEmpty }).watch w bs

/-- The die whose SECDED logic covers a location: its own (R382). -/
def dieOfLoc (l : Nat) : Nat :=
  if isPhys l then paDie l else if l < 2 ^ 53 then (l - 2 ^ 52) / 2 ^ 27 else if l < 2 ^ 54 then (l - 2 ^ 53) / 2 ^ 27
  else if l < 2 ^ 55 then (l - 2 ^ 54) / 2 ^ 24 else (l - 2 ^ 55) / 2 ^ 22
/-- ADDR of ERRA (R382): a physical address, or the local one of a TCM, scratchpad, side memory or accumulator. -/
def errAddr (l : Nat) : Nat :=
  if isPhys l then l else if l < 2 ^ 53 then l % 2 ^ 17 else if l < 2 ^ 54 then 0x100000 + l % 2 ^ 19
  else if l < 2 ^ 55 then l % 2 ^ 13 else l % 2 ^ 11
/-- The home die's slice holds bytes of a sector, or of a line, dirty. -/
def State.dirtyIn (s : State) (size l : Nat) : Bool := s.dirty.any fun c => decide (c.1 / size = l / size)
/-- An error is recorded in ERRC and ERRA (R382). -/
def Die.count (x : Die) (unc : Bool) (src addr : Nat) : Die :=
  let top : Word := 0xFFFFFFFF
  if unc then
    { x with
      errc := if x.errc &&& top = top then x.errc else x.errc + 1
      erra := if x.erra.getLsbD 63 then x.erra else BitVec.ofNat 64 (2 ^ 63 + 2 ^ 59 * src + addr) }
  else { x with errc := if x.errc >>> 32 = top then x.errc else x.errc + (1 <<< 32) }
/-- The error of unit `u` is found (R382): it is corrected, or the unit is poisoned; either way it is counted. -/
def State.findFlip (s : State) (u : Nat) : State :=
  match s.flips.find? (·.1 = u) with
  | none => s
  | some f =>
    let s := s.updDie (dieOfLoc u) (·.count f.2 (if isPhys u && s.dirtyIn 32 u then 3 else srcOf u) (errAddr u))
    { s with flips := s.flips.filter (·.1 ≠ u), poison := if f.2 then u :: s.poison.filter (· ≠ u) else s.poison }
/-- A read finds the errors of the units it takes bytes of. -/
def State.seeErrors (s : State) (ls : List Nat) : State :=
  if s.flips.isEmpty then s else (ls.map unitOf).eraseDups.foldl State.findFlip s

/-- The errors of the units that start in `n` locations are found. -/
def State.seeRange (s : State) (lo n : Nat) : State :=
  ((s.flips.filter fun f => decide (lo ≤ f.1 ∧ f.1 < lo + n)).map (·.1)).foldl State.findFlip s
/-- `n` locations are written whole by the hardware: they lose poison and errors (R383). -/
def State.healRange (s : State) (lo n : Nat) : State :=
  { s with
    poison := s.poison.filter fun u => decide (u < lo ∨ lo + n ≤ u), flips := s.flips.filter fun f => decide (f.1 < lo ∨ lo + n ≤ f.1) }

/-- Plain bytes at consecutive locations. -/
def plainBytes (l : Nat) (bs : List Byte) : List SbByte := (spanOf l bs.length).zipWith (fun a b => ⟨a, b, 0xFF⟩) bs

/-- A byte as die `d` sees it now, without any fill: its own copy, else the home. -/
def State.view (s : State) (d a : Nat) : Byte :=
  if isPhys a && (decide (paDie a ≠ d) || decide (paNode a ≠ s.node)) then (s.copyByte d a).getD (s.homeByte a) else s.homeByte a
/-- Core `c` executes `cmo.inv` or `cmo.cli` over a range of locations: its fetches return no old word any more whose new one is visible
there; a word that its die still sees itself stays available (R137). -/
def State.refreshCode (s : State) (c lo n : Nat) : State :=
  let seen := fun (e : StaleCode) => decide (BitVec.ofNat 32 (natOfBytes ((spanOf e.loc 4).map (s.view (dieOf c)))) ≠ e.old)
  { s with stale := s.stale.map fun e => if lo ≤ e.loc ∧ e.loc < lo + n ∧ seen e then { e with fresh := c :: e.fresh } else e }
/-- The bytes of consecutive locations as die `d` sees them now, without any fill: its own copy, else the home. -/
def State.peek (s : State) (d l n : Nat) : List Byte := (spanOf l n).map (s.view d)

/-! ### Write-throughs and reductions -/

/-- A store, atomic or reduction clears the dead flag of its line. -/
def State.clearDead (s : State) (d l : Nat) : State :=
  if (s.dieAt d).uses.isEmpty then s
  else s.updDie d fun x => { x with uses := x.uses.map fun v => if v.line = l / 128 then { v with dead := false } else v }
/-- The L1D copies of a line on the die go: a recall (R240, R245), or its slice no longer holds it. -/
def Die.dropL1 (x : Die) (line : Nat) : Die := { x with l1 := x.l1.filter fun e => e.code || decide (e.pa / 128 ≠ line) }
/-- Drop the copies of a line in a die's slices; bytes of pending write-throughs stay (R280). -/
def State.dropLine (s : State) (d l : Nat) : State :=
  s.updDie d fun x => { x.dropL1 (l / 128) with
    copies := x.copies.filter fun p => decide (p.1 / 128 ≠ l / 128) || s.pendingHere d p.1
    copyPoison := x.copyPoison.filter fun u => decide (u / 128 ≠ l / 128) }
/-- Write-through `i` reaches its home and performs (R280), and is acknowledged; the die keeps the bytes as its copy. -/
def State.arrive (s : State) (i : Nat) : State :=
  match s.wts[i]? with
  | none => s
  | some w =>
    let s := { s with wts := s.wts.eraseIdx i }
    -- memory of another node lies outside the device (R144)
    if w.bytes.any fun b => paNode b.loc ≠ s.node then s
    else w.bytes.foldl (fun s b => s.clearDead (paDie b.loc) b.loc) (s.performBytes w.writer w.bytes (some w.die))
/-- The home die of a write-through. -/
def WriteThrough.home (w : WriteThrough) : Nat := (w.bytes.head?.map (paDie ·.loc)).getD 0
/-- The home of a location can serve die `d`: it is ready and no bridge on the way has failed, or for memory of another node some
Wifort lane is up (R386, R388, R389). -/
def State.reachable (s : State) (d l : Nat) : Bool :=
  if paNode l ≠ s.node then s.dies.toList.any fun x => x.rdy.extractLsb' 0 16 ≠ 0#16
  else s.homeReady d l && !s.tripFailed d (paDie l) && !s.tripWaits d (paDie l)
/-- Write-through `i` is the next of its slice for its home (R280), and no task or engine word holds its line (R240, R245). DESIGN CHOICE:
which virtual network of R15 a packet uses is open, so that packets of other kinds may overtake it (log 84). -/
def State.mayArrive (s : State) (i : Nat) : Bool :=
  match s.wts[i]? with
  | none => false
  | some w =>
    let h := w.home
    !((s.wts.take i).any fun v => v.die = w.die && sliceOf v.va = sliceOf w.va && v.home = h) &&
      w.bytes.all fun b => paNode b.loc ≠ s.node ||
        (!(s.dieAt h).locks.any (·.line = b.loc / 128) && !(s.dieAt h).eo.any (·.1 = b.loc / 128))

/-- The result of a read-modify-write function on `w`-bit integers (R159, R160). -/
def redOp (fn : RedFn) (w : MemW) (old b : Nat) : Nat :=
  let n := match w with | .w32 => 32 | .w64 => 64
  let f := match w with | .w32 => fmtF32 | .w64 => fmtF64
  match fn with
  | .add => (old + b) % 2 ^ n
  | .and => old &&& b
  | .or => old ||| b
  | .xor => old ^^^ b
  | .max => if intOf true n old < intOf true n b then b else old
  | .min => if intOf true n b < intOf true n old then b else old
  | .maxn => if old < b then b else old
  | .minn => if b < old then b else old
  | .fadd => (fpAdd f .rne (f.val old) (f.val b)).1
  | .fmax => fpMinMax f true old b
  | .fmin => fpMinMax f false old b
/-- Bytes of an access width. -/
def memBytes : MemW → Nat
  | .w32 => 4 | .w64 => 8
/-- The low bytes of a number. -/
def leBytes (n v : Nat) : List Byte := bytesOfNat n v

/-- Dirty bytes of a line go to their memory; an error in them is found on the way (R382). -/
def State.writeBack (s : State) (line : Nat) : State :=
  let s := s.seeErrors ((s.dirty.filter fun c => decide (c.1 / 128 = line)).map (·.1))
  let (now, keep) := s.dirty.partition fun c => decide (c.1 / 128 = line)
  { s with dirty := keep, mem := now.foldl (fun m c => m.write c.1 c.2) s.mem }
/-- Bytes that a reduction reads and writes (R160, R199). -/
def PortOp.size : PortOp → Nat
  | .red _ w _ => memBytes w
  | .deliver ofmt _ _ _ _ _ => max 1 (outBits ofmt / 8)
/-- The new value of an element, rounded singly (R44, R160, R199). -/
def PortOp.apply (o : PortOp) (old : Nat) : Nat :=
  match o with
  | .red fn w x => redOp fn w old (x.toNat % 2 ^ (8 * memBytes w))
  | .deliver ofmt rm rmode sat osc accs =>
    let b := outBits ofmt
    (accs.zipIdx.map fun a => deliverVal ofmt (outMode rm rmode) sat osc a.1 (some (old / 2 ^ (b * a.2) % 2 ^ b)) * 2 ^ (b * a.2)).sum
/-- The line leaves the slice of die `d` with its use count, for a reduction: its dirty data go to memory, and its L1D copies and the die's
copy of it go (R160). -/
def State.giveUp (s : State) (d l : Nat) : State :=
  let s := (s.dropLine d l).updDie d fun x => { x with uses := x.uses.filter (·.line ≠ l / 128) }
  if paNode l = s.node ∧ paDie l = d then s.writeBack (l / 128) else s
/-- The slice of die `d` accepts a reduction, or an element of a delivery under ADD (R160, R199): it gives the line up, and the operation waits
for its home's memory port. -/
def State.acceptRed (s : State) (d l : Nat) (op : PortOp) (w : Writer) : State :=
  let s := s.giveUp d l
  { s with reds := s.reds ++ [⟨d, l, op, w, false, s.time, 0⟩] }
/-- One pending reduction is applied at the home port (R44, R160); the line goes to the array. -/
def State.applyRed (s : State) (r : PendingRed) : State :=
  let n := r.op.size
  let old := natOfBytes ((spanOf r.loc n).map s.homeByte)
  ((s.giveUp (paDie r.loc) r.loc).performBytes r.writer (plainBytes r.loc (leBytes n (r.op.apply old)))).writeBack (r.loc / 128)
/-- The pending reductions of a die to a line are applied in arrival order (R44); the accesses of the die that waited for them read the line
from its home (R160). -/
def State.applyReds (s : State) (d line : Nat) : State :=
  let (now, later) := s.reds.partition fun r => r.die = d && decide (r.loc / 128 = line)
  ({ now.foldl State.applyRed s with reds := later }).dropLine d (128 * line)
/-- A die's slice has accepted a reduction to the line of a location that is not yet applied (R160). -/
def State.redHere (s : State) (d l : Nat) : Bool :=
  isPhys l && s.reds.any fun r => r.die = d && decide (r.loc / 128 = l / 128)
/-- A die's slice has a write-through of the line of a location under way (R280). -/
def State.wtHere (s : State) (d l : Nat) : Bool := s.wts.any fun w => w.die = d && w.bytes.any fun b => decide (b.loc / 128 = l / 128)

/-! ### The L1 caches (R136, R137) -/

/-- The line of core `c`'s L1D or L1I that holds an address. -/
def State.l1Find (s : State) (c : Nat) (code : Bool) (actx a : Nat) : Option L1Line :=
  (s.dieAt (dieOf c)).l1.find? fun e => e.core = c && e.code == code && e.actx = actx && e.line = a / 32
/-- A miss of core `c`'s L1 (R315): the line enters it, whose 1024 lines (R9, R19) lose the one that entered first. A line that a task or an engine
holds is kept in no L1D (R240, R245), nor in the model a line of another node. -/
def State.l1Fill (s : State) (c : Nat) (code : Bool) (actx a pa : Nat) (leaf : Leaf) : State :=
  let s := s.coreSignal c (if code then 7 else 6)
  let d := s.dieAt (dieOf c)
  if paNode pa ≠ s.node || (!code && (d.locks.any (·.line = pa / 128) || d.eo.any (·.1 = pa / 128))) then s else
  let mine := fun (e : L1Line) => decide (e.core = c) && e.code == code
  let old := d.l1.filter fun e => !(mine e && e.actx = actx && e.line = a / 32)
  let old := if (old.filter mine).length ≥ 1024 then (old.reverse.eraseP mine).reverse else old
  s.updDie (dieOf c) fun x => { x with l1 := ⟨c, code, actx, a / 32, pa / 32 * 32, leaf⟩ :: old }

/-! ### Use counts (R145) -/

/-- A line of a die's slice is freed without write-back: dirty bytes not yet written back are lost, and copies go, but for the bytes
of write-throughs under way (R280). -/
def State.freeLine (s : State) (d line : Nat) : State :=
  let s := s.updDie d fun x => { x.dropL1 line with
    uses := x.uses.filter (·.line ≠ line)
    copies := x.copies.filter (fun c => decide (c.1 / 128 ≠ line) || s.pendingHere d c.1) }
  if paDie (line * 128) = d then
    let (gone, keep) := s.dirty.partition fun c => decide (c.1 / 128 = line)
    gone.foldl (fun s c =>
      let s := if Config.wroteBack s.fv then { s with mem := s.mem.write c.1 c.2 } else s
      s.useFree) { s with dirty := keep }
  else s
/-- A read of the line that reaches the slice (R145): the count falls; a dead line whose count reaches zero is freed. -/
def State.countRead (s : State) (d l : Nat) : State :=
  match (s.dieAt d).uses.find? (·.line = l / 128) with
  | none => s
  | some e =>
    if e.u ≤ 1 then (if e.dead then s.freeLine d e.line else s.updDie d fun x => { x with uses := x.uses.filter (·.line ≠ e.line) })
    else s.updDie d fun x => { x with uses := x.uses.map fun v => if v.line = e.line then { v with u := e.u - 1 } else v }
/-- A hinted load sets the count and the dead flag of a line whose count is 0 (R145); K = 0 with DEAD frees the line. -/
def State.hint (s : State) (d l k : Nat) (dead : Bool) : State :=
  let line := l / 128
  match (s.dieAt d).uses.find? (·.line = line) with
  | some _ => s.countRead d l
  | none =>
    if k = 0 then (if dead then s.freeLine d line else s)
    else s.updDie d fun x => { x with uses := ⟨line, k, dead⟩ :: x.uses }
/-- A line homed on die `d` leaves its slice, whose dirty bytes go to memory; with it goes its use count. -/
def State.evict (s : State) (d line : Nat) : State :=
  (s.updDie d fun x => { x.dropL1 line with uses := x.uses.filter (·.line ≠ line) }).writeBack line
/-- Before a line homed on its die and given a use count is read, a free value says whether the slice still holds it (log 4). -/
def State.mayEvict (s : State) (d l : Nat) : State :=
  if paDie l = d ∧ (s.dieAt d).uses.any (·.line = l / 128) then
    (if Config.copyKept s.fv then s.useFree else s.useFree.evict d (l / 128))
  else s
/-- A clean line of the slices of die `d` is lost, with its use count, and fetched again when it is next read (R382). -/
def State.loseClean (s : State) (d l : Nat) : State :=
  if paNode l = s.node ∧ paDie l = d then (if s.dirtyIn 128 l then s else s.evict d (l / 128))
  else (s.dropLine d l).updDie d fun x => { x with uses := x.uses.filter (·.line ≠ l / 128) }
/-! ### Slices -/

/-- Bytes a slice accepts from its die (R139, R280): homed here, they perform; homed elsewhere, they go to the die's copy
and on to the home as a write-through. DESIGN CHOICE: a nibble-masked byte of a line that the die's slice does not hold keeps the home's other
nibble as it is when the write-through performs, and the die's copy shows it as it was when the slice accepted the store (log 100). -/
def State.sliceStore (s : State) (d : Nat) (w : Writer) (va : Word) (bs : List SbByte) : State :=
  match bs with
  | [] => s
  | b :: _ =>
    let s := s.clearDead d b.loc
    if paNode b.loc = s.node ∧ paDie b.loc = d then s.performBytes w bs
    else
      let far := decide (paNode b.loc ≠ s.node)
      let cells := bs.map fun b =>
        (b.loc, b.merge ((s.copyByte d b.loc).getD (if far then Config.remoteByte s.fv else s.homeByte b.loc)))
      let s := if far && bs.any (·.mask != 0xFF) then s.useFree else s
      let s := s.noteCode [d] (s.view d) bs
      let s := s.updDie d fun x => { x with
        copies := cells.foldl (fun m p => m.put p.1 p.2) x.copies, copyPoison := healUnits x.copyPoison bs }
      { s with wts := s.wts ++ [⟨d, bs, va, w, [], [], false, s.time, 0⟩] }

/-- The die's slice fetches a line homed on another die: every byte no pending write-through holds is taken from home, its use count
is 0, and L1D lines of what the slice held before are gone. -/
def State.fillLine (s : State) (d l : Nat) : State :=
  let ls := spanOf (l / 128 * 128) 128
  let new := (ls.filter fun a => !s.pendingHere d a).map fun a => (a, s.homeByte a)
  let bad := (ls.map unitOf).eraseDups.filter s.poison.contains
  s.updDie d fun x => { x.dropL1 (l / 128) with
    uses := x.uses.filter (·.line ≠ l / 128)
    copies := new.foldl (fun m p => m.put p.1 p.2) x.copies
    copyPoison := bad ++ x.copyPoison.filter fun u => decide (u / 128 ≠ l / 128) }

/-- The error a request from die `d` meets at the home of a location (R386, R388, R389), or its wait (R328), if any. -/
def State.homeError (s : State) (d l : Nat) (va : Word) (acc : Nat) : Option Exc :=
  if paNode l ≠ s.node then
    -- R389: with every Wifort lane down the request receives a link-error reply
    if s.dies.toList.all fun x => x.rdy.extractLsb' 0 16 = 0#16 then some { code := 0x082, addr := va, acc := acc, detail := 1 }
    else none
  else if s.tripFailed d (paDie l) then some { code := 0x082, addr := va, acc := acc, detail := 0 }
  else if !s.inReset d (paDie l) && s.tripWaits d (paDie l) then some { code := 0x081, addr := va, acc := acc, wait := true }
  else if !s.homeReady d l then some { code := 0x081, addr := va, acc := acc, detail := paDie l }
  else none

/-- A line is held by another activation than `t` (R245). -/
def State.heldByOther (s : State) (d line t : Nat) : Bool := (s.dieAt d).locks.any fun k => k.line = line && k.task ≠ t
/-- A line is owned by an engine word in the slices of die `d` (R240). -/
def State.engineOwned (s : State) (d l : Nat) : Bool := isPhys l && (s.dieAt d).eo.any (·.1 = l / 128)
/-- A line is held at its home die, where a guarded or ordered task of that die holds it (R110, R245). -/
def State.heldAtHome (s : State) (l t : Nat) : Bool := isPhys l && s.heldByOther (paDie l) (l / 128) t
/-- A request that reaches the home of a line waits there: a task holds it (R245), or an engine word of that die has begun it (R240, R286). -/
def State.homeBusy (s : State) (l t : Nat) : Bool := s.heldAtHome l t || s.engineOwned (paDie l) l
/-- `n` bytes of another node's memory: they come from outside the device (R144), or the request has a link-error reply after its last replay
(R389). -/
def farBytes (va : Word) (acc n : Nat) : Act (List Byte) := do
  let s ← get
  set { s with fv := s.fv + n + 1 }
  if !Config.nodeAnswers s.fv then raise { code := 0x082, addr := va, acc := acc, detail := 1 }
  return (List.range n).map fun i => Config.remoteByte (s.fv + 1 + i)

/-- Reductions that die `d`'s slice has accepted for a line are applied before it serves another access to it (R160); they follow the
die's write-throughs of the line (R280, R283), and wait with them for the home. -/
def settleReds (d l : Nat) (va : Word) (acc : Nat) : Act Unit := do
  let s ← get
  if s.redHere d l then
    if s.wtHere d l || s.homeBusy l 0 then stall
    match s.homeError d l va acc with
    | some _ => stall
    | none => if paNode l = s.node then set (s.applyReds d (l / 128))
/-- A read at the slice of die `d` (R139), before it is counted: pending reductions of the line are applied first (R160); a copy of a remote line may serve it (R148), else the line is fetched. -/
def sliceFetch (d l n : Nat) (va : Word) (acc : Nat) : Act (List Byte) := do
  modify fun s => s.seeErrors (spanOf l n)
  let s ← get
  if paNode l ≠ s.node then
    -- R144: memory of another node; its bytes come from outside this device
    match s.homeError d l va acc with
    | some e => raise e
    | none =>
      -- bytes of write-throughs under way are those of the die's slice (R280, R283)
      if (spanOf l n).all (s.pendingHere d ·) then return s.peek d l n
      let far ← farBytes va acc n
      return ((spanOf l n).zip far).map fun p => if s.pendingHere d p.1 then s.view d p.1 else p.2
  else do
    settleReds d l va acc
    modify (·.mayEvict d l)
    let s ← get
    if paDie l = d then
      match s.homeError d l va acc with
      | some e => if (spanOf l n).all (fun a => (s.dirty.get? a).isSome) then pure () else raise e
      | none => pure ()
      if poisonedAny s.poison (spanOf l n) then raise { code := 0x080, addr := va, acc := acc, detail := srcOf l }
      return (spanOf l n).map s.homeByte
    else
      let have_ := (spanOf l n).all fun a => (s.copyByte d a).isSome
      let must := (spanOf l n).all (s.pendingHere d ·)
      if have_ && (must || Config.copyKept s.fv) then do
        unless must do modify State.useFree
        if poisonedAny (s.dieAt d).copyPoison (spanOf l n) then raise { code := 0x080, addr := va, acc := acc, detail := 3 }
        return s.peek d l n
      else do
        match s.homeError d l va acc with
        | some e => raise e
        | none => pure ()
        -- a fill from another die waits while a task holds the line or an engine word has begun it (R245, R286)
        if s.homeBusy l 0 then stall
        modify fun s => (if have_ then s.useFree else s).fillLine d l
        let s ← get
        if poisonedAny (s.dieAt d).copyPoison (spanOf l n) then raise { code := 0x080, addr := va, acc := acc, detail := srcOf l }
        return s.peek d l n

/-- A read that reached the slice is counted, or its hint takes effect (R145). -/
def State.counted (s : State) (d l : Nat) : Option (Nat × Bool) → State
  | some (k, dead) => s.hint d l k dead
  | none => s.countRead d l
/-- A read at the slice of die `d`, counted after its data are read (R145). -/
def sliceRead (d l n : Nat) (va : Word) (acc : Nat) : Act (List Byte) := do
  let bs ← sliceFetch d l n va acc
  modify (·.counted d l none)
  return bs
/-- A request of the core in focus that misses its slice needs a free entry of the miss table (R385): a refused one is sent again after
its backoff, and a line homed on its die is taken to find room (log 49). -/
def missRoom (va : Word) (l n : Nat) : Act Unit := do
  let s ← get
  let d := s.myDie
  if paDie l = d ∨ paNode l ≠ s.node ∨ (spanOf l n).all (fun a => (s.copyByte d a).isSome) then pure () else do
    let mine := fun (r : Refused) => decide (r.core = s.me.toNat)
    let before := ((s.refused.find? mine).map (·.count)).getD 0
    modify State.useFree
    let rest := s.refused.filter (!mine ·)
    if Config.missFull s.fv then do
      modify fun s => { s with refused := rest ++ [⟨s.me.toNat, sliceOf va, before + 1, s.time + 32 * min (before + 1) 8, false⟩] }
      stall
    else modify fun s => { s with refused := rest }

/-! ### Translation (R140 to R143) -/

/-- The kinds of access (R337, ACC). -/
inductive Acc where | fetch | load | store | atomic | touch | cmoRead | cmoWrite | red | tcb | tcbWrite
  deriving DecidableEq, Repr
@[inherit_doc Acc] def Acc.code : Acc → Nat
  | .fetch => 1 | .load => 2 | .store => 3 | .atomic => 4 | .touch => 5 | .cmoRead | .cmoWrite => 6 | .red => 7
  | .tcb | .tcbWrite => 8

/-- How a walk ends (R142). -/
inductive WalkEnd where
  | leaf (l : Leaf)
  | absent
  | malformed
  | error (e : Exc)
  deriving DecidableEq, Repr

/-- An 8-byte read at its home by die `d` (R140), for a walk on behalf of an access to `va` by activation `t`. It waits at a line that
another activation holds (R245); memory of another node gives free bytes (R144). -/
def readHome8 (d pa : Nat) (va : Word) (acc : Acc) (t : Nat) : Act Word := do
  let s ← get
  match s.homeError d pa va acc.code with
  | some e => raise e
  | none =>
    if paNode pa ≠ s.node then return w64 (natOfBytes (← farBytes va acc.code 8))
    else if s.homeBusy pa t then stall
    else do
    set (s.seeErrors (spanOf pa 8))
    let s ← get
    if poisonedAny s.poison (spanOf pa 8) then raise { code := 0x080, addr := va, acc := acc.code, detail := srcOf pa }
    else return w64 (natOfBytes ((spanOf pa 8).map s.homeByte))

/-- A leaf entry of a page of 2^`size` bytes (R143), malformed when not aligned. -/
def leafOf (e : Word) (size : Nat) : WalkEnd :=
  let pa := (e.extractLsb' 8 44).toNat * 256
  if pa % 2 ^ size ≠ 0 then .malformed
  else .leaf ⟨pa, size, e.getLsbD 5, e.getLsbD 4, e.getLsbD 3, e.getLsbD 2, e.getLsbD 7⟩

/-- The walk from the table at `pa` through the levels `lv`: index shift and whether the level is the last (R142). -/
def walkFrom (d : Nat) (va : Word) (acc : Acc) (t a : Nat) : Nat → List (Nat × Nat × Bool) → Act WalkEnd
  | _, [] => return .malformed
  | pa, (shift, bits, last) :: lv => do
    let e ← readHome8 d (pa + 8 * (a / 2 ^ shift % 2 ^ bits)) va acc t
    if !e.getLsbD 0 then return .absent
    else if e.getLsbD 1 then return leafOf e shift
    else if last then return .malformed
    else walkFrom d va acc t a ((e.extractLsb' 8 44).toNat * 256) lv
/-- An exception met on the way is how the walk ends. -/
def walkEnd (w : Act WalkEnd) : Act WalkEnd := fun s =>
  match w s with
  | .error (.exc e) s => .ok (.error e) s
  | r => r
/-- A page walk by a slice of die `d` in address context `actx` (R141, R142), for activation `t`, 0 for none. -/
def walk (d actx : Nat) (va : Word) (acc : Acc) (t : Nat) : Act WalkEnd := walkEnd do
  let a := addr54 va
  let base := (((← get).dieAt d).actb.extractLsb' 12 40).toNat * 4096
  let w ← readHome8 d (base + 16 * (actx % 256)) va acc t
  let rsz := (w.extractLsb' 0 5).toNat
  if !w.getLsbD 63 then return .absent
  else if rsz > 24 then return .malformed
  else if a ≥ 2 ^ (30 + rsz) then return .absent
  else walkFrom d va acc t a ((w.extractLsb' 12 40).toNat * 4096) [(30, rsz, false), (21, 9, false), (16, 5, true)]

/-- An address lies in a page. -/
def inPage (a page size : Nat) : Bool := decide (a / 2 ^ size = page / 2 ^ size)
/-- The pin of an address in a context whose window is open (R149). -/
def State.pinOf (s : State) (d actx a : Nat) : Option Pin :=
  (s.dieAt d).pins.find? fun p => p.actx = actx && inPage a p.va p.leaf.size && decide (s.time ≤ p.until_)
/-- A pin of that page and context whose window has ended (R352). -/
def State.pinEnded (s : State) (d actx a : Nat) : Bool :=
  ((s.dieAt d).pins.any fun p => p.actx = actx && inPage a p.va p.leaf.size) ||
    (s.dieAt d).expired.any fun p => p.1 = actx && inPage a p.2.1 p.2.2

/-- An entry enters a slice's TLB, whose 16,384 entries (R13, R19) lose the one that entered first. -/
def Die.tlbAdd (x : Die) (e : TlbEntry) : Die :=
  let mine := fun (f : TlbEntry) => decide (f.slice = e.slice)
  { x with tlb := e :: (if (x.tlb.filter mine).length ≥ 16384 then (x.tlb.reverse.eraseP mine).reverse else x.tlb) }
/-- The translation a slice uses (R140, R149, R150): an open pin, an entry of its TLB if it is still there, else a walk,
whose leaf it keeps. `t` is the activation it serves, 0 for none. -/
def translate (d actx : Nat) (va : Word) (acc : Acc) (t : Nat) : Act WalkEnd := do
  let s ← get
  let a := addr54 va
  -- a touch after a `tlbi` walks the new table (R130)
  match (s.pinOf d actx a).filter fun p => !(p.doomed && acc = .touch) with
  | some p => return .leaf p.leaf
  | none =>
    let hit := fun (e : TlbEntry) =>
      e.slice = sliceOf va && (e.actx = actx || e.leaf.glob) && inPage a e.va e.leaf.size
    match (s.dieAt d).tlb.find? hit with
    | some e =>
      modify State.useFree
      if Config.tlbKept s.fv then return .leaf e.leaf
      else modify fun s => s.updDie d fun x => { x with tlb := x.tlb.filter (!hit ·) }
    | none => pure ()
    match ← walk d actx va acc t with
    | .leaf l =>
      modify fun s => s.updDie d (·.tlbAdd ⟨sliceOf va, actx, a / 2 ^ l.size * 2 ^ l.size, l⟩)
      return .leaf l
    | w => return w

/-- Whether a leaf grants an access (R354). -/
def Leaf.grants (l : Leaf) (m : Mode) : Acc → Bool
  | .fetch => l.x && (!l.sys || m = .system)
  | .load | .tcb | .cmoRead => l.sr && (!l.sys || m = .system)
  | .touch => (l.sr || l.x) && (!l.sys || m = .system)
  | .store | .atomic | .red | .cmoWrite | .tcbWrite => l.w && (!l.sys || m = .system)
/-- The physical address of a virtual one in a leaf's page. -/
def Leaf.at (l : Leaf) (a : Nat) : Nat := l.pa + a % 2 ^ l.size

/-- The translation of a global access other than `tch` and `cmo`, or its exception (R340: translation, then the control
window's bounds, then protection). `ctl` says the access may reach the control window, which only system mode does (R325). -/
def globalAddr (d actx : Nat) (m : Mode) (va : Word) (acc : Acc) (ctl : Bool) (t : Nat) : Act (Nat × Leaf) := do
  let a := addr54 va
  match ← translate d actx va acc t with
  | .error e => raise e
  | .absent =>
    let s ← get
    if acc = .fetch then raise { code := 0x013, addr := va, acc := 1 }
    else raise { code := 0x009, addr := va, acc := acc.code, detail := if s.pinEnded d actx a then 1 else 0 }
  | .malformed => raise { code := if acc = .fetch then 0x013 else 0x00C, addr := va, acc := acc.code }
  | .leaf l =>
    let pa := l.at a
    if regionOf pa = .control ∧ !ctl then raise { code := 0x007, addr := va, acc := acc.code }
    if !l.grants m acc ∨ (regionOf pa = .control ∧ m = .task) then raise { code := 0x00A, addr := va, acc := acc.code }
    let s ← get
    if paNode pa = s.node ∧ regionOf pa = .reserved then throw (.fault .reservedPhysical)
    return (pa, l)

/-! ### Local windows (R131, R132) -/

/-- Header fields TCMB, SPADB, LOGB and NCTX of a kernel image (R103). -/
def Image.word (i : Image) (n : Nat) : Word := i.hdr.toList.getD n 0
@[inherit_doc Image.word] def Image.tcmb (i : Image) : Nat := ((i.word 3).extractLsb' 32 32).toNat
@[inherit_doc Image.word] def Image.spadb (i : Image) : Nat := ((i.word 3).extractLsb' 0 32).toNat
@[inherit_doc Image.word] def Image.logb (i : Image) : Nat := ((i.word 4).extractLsb' 32 32).toNat
@[inherit_doc Image.word] def Image.nctx (i : Image) : Nat := ((i.word 2).extractLsb' 45 3).toNat
/-- TCMB of the image a core holds; a core without one has no window. -/
def State.tcmbOf (s : State) (c : Nat) : Nat := ((s.coreAt c).image.map Image.tcmb).getD 0
@[inherit_doc State.tcmbOf] def State.spadbOf (s : State) (c : Nat) : Nat := ((s.coreAt c).image.map Image.spadb).getD 0

/-- The location of a local access of core `c`, or none where R131 raises a bounds fault. `peer` allows the windows of the
other peers (stores). -/
def State.localLoc (s : State) (c a n : Nat) (peer : Bool) : Option Nat :=
  if a < 0x20000 then (if a + n ≤ s.tcmbOf c then some (tcmLoc c a) else none)
  else if 0x100000 ≤ a ∧ a < 0x180000 then
    (if a - 0x100000 + n ≤ s.spadbOf c then some (spadLoc (clusterOf c) (a - 0x100000)) else none)
  else if 0x200000 ≤ a ∧ a < 0x280000 then
    let p := (a - 0x200000) / 0x20000
    let off := (a - 0x200000) % 0x20000
    let t := clusterCore (clusterOf c) p
    if (t = c ∨ peer) ∧ off + n ≤ s.tcmbOf t then some (tcmLoc t off) else none
  else none
/-- An address is global (R131). -/
def isGlobal (a : Nat) : Bool := decide (0x100000000 ≤ a)

/-- The kind of an armed `stop` or `gang` range of the core that a write of `n` bytes at `va` meets. -/
def Core.watchKind (k : Core) (va : Word) (n : Nat) : Option Nat :=
  let a := addr54 va
  if !isGlobal a then none else
  let hits := k.watch.toList.filter fun w => (w.kind = 1 || w.kind = 2) && decide (w.va < a + n ∧ a < w.va + w.len)
  if hits.any (·.kind = 2) then some 2 else if hits.isEmpty then none else some 1
/-- The address context of the core in focus (R141). -/
def State.actx (s : State) : Nat := (s.core.image.map (·.actx)).getD 0

/-- A read of local memory; poison is reported (R383). -/
def readLocal (l n : Nat) (va : Word) (acc : Nat) : Act (List Byte) := do
  modify fun s => s.seeErrors (spanOf l n)
  let s ← get
  if poisonedAny s.poison (spanOf l n) then raise { code := 0x080, addr := va, acc := acc, detail := srcOf l }
  return (spanOf l n).map s.mem.read

/-! ### The store buffer (R138) -/

/-- A register write waits to be performed. -/
def Move.isRegWrite : Move → Bool
  | .event (.registerWrite ..) => true
  | _ => false
/-- What an entry of core `c` does when it leaves: it performs at its local memory, or is accepted by its slice; a control
store becomes the next move. -/
def State.leave (s : State) (c : Nat) (e : SbEntry) : State :=
  let w : Writer := ⟨0, c, e.task, s.node, sliceOf e.va, e.aid⟩
  match e.kind with
  | .store =>
    let put := fun (s : State) (bs : List SbByte) =>
      if isPhys e.loc then s.sliceStore (dieOf c) w e.va bs else s.performBytes w bs
    if e.lanes.isEmpty then put s e.bytes else e.lanes.foldl put s
  | .red fn wd b =>
    s.acceptRed (dieOf c) e.loc (.red fn wd b) { w with kind := 6, task := sliceRouter (dieOf c) (sliceOf e.va) }
  | .control _ x =>
    -- a register of another node lies outside the device (R144)
    if paNode e.loc ≠ s.node then s else
    let (now, later) := (s.agenda.takeWhile Move.isRegWrite, s.agenda.dropWhile Move.isRegWrite)
    { s with agenda := now ++ .event (.registerWrite (some (BitVec.ofNat 12 c)) e.loc x) :: later }
/-- The oldest entry of the core in focus leaves. -/
def State.sbLeave (s : State) : State :=
  match s.core.sb with
  | [] => s
  | e :: rest => ({ s with core := { s.core with sb := rest } }).leave s.me.toNat e

/-- An entry of a core of die `d` can leave: no other task or engine holds its line (R240, R245), and a store waits for the reductions
that the slice has accepted for it (R160). -/
def State.entryReady (s : State) (d : Nat) (e : SbEntry) : Bool :=
  !s.heldAtHome e.loc e.task && !s.engineOwned d e.loc && match e.kind with | .store => !s.redHere d e.loc | _ => true
/-- The oldest entry can leave: the core is running (R309), so that an instruction of a STOPPING core that drains the buffer waits for the
resume (DEDUCED, log 94). -/
def State.sbReady (s : State) : Bool :=
  match s.core.sb with
  | [] => false
  | e :: _ => s.core.iris = .running && s.entryReady s.myDie e
/-- The entries of core `c` leave in order (R138) until none of activation `t` is left; none when one must wait. DEDUCED: those of a core that
is STOPPING or HALTED wait for its resume (R309), and a rollback with them (log 41). -/
def State.flushTask (c t : Nat) : Nat → State → Option State
  | 0, s => some s
  | n + 1, s =>
    match (s.coreAt c).sb with
    | [] => some s
    | e :: rest =>
      if !(e :: rest).any (·.task = t) then some s
      else if (s.coreAt c).iris = .running ∧ s.entryReady (dieOf c) e then
        State.flushTask c t n ((s.updCore c fun k => { k with sb := rest }).leave c e)
      else none
/-- The `n` oldest entries leave; a blocked one makes the instruction wait. -/
def drain : Nat → Act Unit
  | 0 => pure ()
  | n + 1 => do
    if (← get).core.sb.isEmpty then pure ()
    else if (← get).sbReady then do
      modify State.sbLeave
      drain n
    else stall
/-- The store buffer drains. -/
def drainAll : Act Unit := do drain (← get).core.sb.length
/-- An entry enters the buffer; while it is full the oldest leaves first. -/
def sbPush (e : SbEntry) : Act Unit := do
  if (← get).core.sb.length ≥ 16 then softly (drain 1)
  modify fun s => { s with core := { s.core with sb := s.core.sb ++ [{ e with num := s.core.sbCount }], sbCount := s.core.sbCount + 1 } }

/-- An entry overlaps a range of locations. -/
def SbEntry.overlaps (e : SbEntry) (l n : Nat) : Bool := e.bytes.any fun b => decide (l ≤ b.loc ∧ b.loc < l + n)
/-- The bytes an entry forwards to a load it covers (R138): not a reduction, and none with a nibble mask (R180). -/
def SbEntry.forward (e : SbEntry) (l n : Nat) : Option (List Byte) :=
  if e.kind ≠ .store || e.bytes.any (·.mask != 0xFF) then none
  else (spanOf l n).mapM fun a => (e.bytes.find? (·.loc = a)).map (·.val)
/-- The load's view of the store buffer: forwarded bytes, or none after every overlapping entry has left. -/
def sbLookup (l n : Nat) : Act (Option (List Byte)) := do
  let s ← get
  match s.core.sb.reverse.find? (·.overlaps l n) with
  | none => return none
  | some e =>
    match e.forward l n with
    | some bs => return some bs
    | none =>
      -- wait until the youngest overlapping entry has left
      let after := (s.core.sb.reverse.takeWhile fun x => !x.overlaps l n).length
      drain (s.core.sb.length - after)
      return none

end Sys2Proof.Machine
end

