-- ==== Sys2Proof/Machine/Control.lean ====
section
/-!
DEFINITION. Reads of the control windows (15_platform.md R325 to R328): the die control block (R326, R302, R378, R379, R382,
R384, R387, R393, R395), the device information block (R22, R327, R331), the command-queue registers (R290, R390) and the
debug blocks (R307, R310, R314, R316, R318, R363, R364, R392). A reserved field or register reads zero (R5).
-/
namespace Sys2Proof.Machine

/-- CLASS of a queue (R56). -/
def queueCode : QueueId → Nat
  | .pn => 0 | .pe => 1 | .ps => 2 | .pw => 3 | .cp => 4 | .ga => 5 | .mi => 6 | .kq => 7
/-- CLASS of an end's queue. -/
def endCode : End → Nat
  | .north => 0 | .east => 1 | .south => 2 | .west => 3
/-- The end of a CLASS below 4. -/
def endOf : Nat → End
  | 0 => .north | 1 => .east | 2 => .south | _ => .west
/-- The words of a queue. -/
def Core.queue (k : Core) (q : Nat) : List EWord := k.queues.toList.getD q []
/-- A paired Prism word (R187). -/
def EWord.paired (w : EWord) : Bool := match w.word with | .prMma .. | .prSma .. => true | _ => false
/-- A held word's report (R360, R363). -/
def EWord.heldNow (w : EWord) : Bool := match w.st with | .held .. => true | _ => false
/-- The head of a queue is a paired word that has been paired (R188, R364). -/
def EWord.pairedNow (w : EWord) : Bool := w.paired && w.begun
/-- The gang whose kernel's image the TCM of a core holds; it stays there when the gang leaves the core (R201). -/
def Core.imageGang (k : Core) : Option Nat := match k.image with | some i => some i.gang | none => k.held
/-- An unpaired paired word whose partner core holds a kernel of another gang, or is HALTED (R201, R309). -/
def State.partnerAbsent (s : State) (c : Nat) (e : End) (w : EWord) : Bool :=
  w.paired && !w.pairedNow &&
    match neighbour c e with
    | none => false
    | some p =>
      (s.coreAt p).iris = .halted || (match (s.coreAt p).imageGang with | some g => decide (g ≠ w.gang) | none => false)

/-! ### Die control block -/

/-- Region words of the power block (R302). -/
def Die.power (x : Die) (o : Nat) : Word :=
  if o < 0x100 then
    let q := o / 16
    if o % 16 = 0 then w64 (2 ^ 32 * (x.used.toList.getD q 0).toNat + (x.rbud.toList.getD q 0).toNat)
    else w64 (2 ^ 32 * (x.meas.toList.getD q 0).toNat + (x.plim.toList.getD q 0).toNat)
  else
    let c := (o - 0x100) / 2
    w64 (((List.range 4).map fun j => 2 ^ (16 * j) * (x.ecost.toList.getD (c + j) 0).toNat).sum)
/-- A register of the die control block. -/
def State.dcbRead (s : State) (d o : Nat) : Word :=
  let x := s.dieAt d
  match o with
  | 0x00 => x.actb | 0x08 => x.pscore | 0x10 => x.hcsb
  | 0x18 => x.hcsn ||| (w64 x.saved.length <<< 32)
  | 0x20 => x.savb | 0x28 => x.ovfb | 0x30 => x.ovfn | 0x38 => x.fctl | 0x40 => x.trctl | 0x48 => x.trcnt
  | 0x50 => x.rslim | 0x58 => x.cfront | 0x60 => x.cfhold | 0x68 => x.csavb | 0x80 => x.errc | 0x88 => x.erra | 0x90 => x.scrub
  | 0x180 => x.wrst | 0x188 => x.wrlog
  | _ =>
    if 0xA0 ≤ o ∧ o < 0xC0 then x.lnkst.toList.getD ((o - 0xA0) / 8) 0
    else if 0x100 ≤ o ∧ o < 0x180 then x.therm.toList.getD ((o - 0x100) / 8) 0
    else if 0x1000 ≤ o ∧ o < 0x1120 then x.power (o - 0x1000)
    else 0

/-! ### Device information block -/

/-- A register of the device information block. -/
def State.dibRead (s : State) (o : Nat) : Word :=
  if o < 0x200 then s.gcmap.toList.getD (o / 8) 0
  else if o = 0x200 then s.gsqmap
  else if 0x300 ≤ o ∧ o < 0x320 then (s.dieAt ((o - 0x300) / 8)).rdy
  else if o = 0x320 then s.mgmt
  else if 0x400 ≤ o ∧ o < 0x440 then s.idpk.toList.getD ((o - 0x400) / 8) 0
  else if 0x440 ≤ o ∧ o < 0x480 then s.boothash.toList.getD ((o - 0x440) / 8) 0
  else 0
/-- A core is good (R22). -/
def State.good (s : State) (c : Nat) : Bool :=
  (s.gcmap.toList.getD (16 * dieOf c + rowOf c / 2) 0).getLsbD (32 * (rowOf c % 2) + colOf c)

/-! ### Command-queue registers -/

/-- A command queue. -/
def State.cq (s : State) (q : Nat) : CmdQueue := s.cqs.toList.getD q CmdQueue.reset
/-- A word of a queue's register block (R290). -/
def CmdQueue.read (x : CmdQueue) (w : Nat) : Word :=
  match w with
  | 0 => x.ring
  | 1 => w64 ((if x.en then 2 ^ 63 else 0) + 2 ^ 60 * x.bpri + 2 ^ 56 * x.logn + 2 ^ 54 * x.hdie)
  | 2 => w64 x.wcnt.toNat
  | 3 => w64 x.rcnt.toNat
  | 4 => w64 (2 ^ 61 * x.epri)
  | 5 => w64 x.lsh
  | 6 => w64 x.lmax
  | 7 => 0
  | w => w64 (2 ^ 32 * (x.hist.toList.getD (2 * (w - 8) + 1) 0).toNat + (x.hist.toList.getD (2 * (w - 8)) 0).toNat)
/-- A queue's status register (R390). -/
def CmdQueue.status (x : CmdQueue) : Word :=
  w64 ((if x.ovr then 2 ^ 63 else 0) + (if x.halt then 2 ^ 62 else 0) + 2 ^ 52 * x.code + x.idx.toNat)
/-- A command-queue register. -/
def State.qrbRead (s : State) (o : Nat) : Word :=
  if o < 0x2000 then (s.cq (o / 128)).read (o % 128 / 8)
  else if o < 0x2038 then s.agei.toList.getD ((o - 0x2000) / 8) 0
  else if 0x2100 ≤ o ∧ o < 0x2300 then (s.cq ((o - 0x2100) / 8)).status
  else 0

/-! ### Debug blocks -/

/-- A word of an EFR (R363). -/
def Core.efr (k : Core) (q j : Nat) : Word :=
  match (k.queue q).find? EWord.heldNow with
  | some w =>
    match w.st with
    | .held code _ _ addr _ =>
      if j = 0 then w64 (2 ^ 63 + 2 ^ 32 * (w.pos % 2 ^ 16) + w.seq.toNat) else w64 (2 ^ 54 * code + addr54 addr)
    | _ => 0
  | none => 0
/-- A queue status word (R364). -/
def State.qst (s : State) (c q : Nat) : Word :=
  let l := (s.coreAt c).queue q
  match l with
  | [] => 0
  | w :: _ =>
    let there := w.pairedNow && (match neighbour c (endOf q) with
      | some p => (((s.coreAt p).queue (endCode (oppositeEnd (endOf q)))).head?.map EWord.heldNow).getD false
      | none => false)
    w64 (2 ^ 63 + (if w.pairedNow then 2 ^ 62 else 0) + (if q < 4 && s.partnerAbsent c (endOf q) w then 2 ^ 61 else 0) +
      (if w.heldNow || there then 2 ^ 60 else 0) + 2 ^ 56 * l.length + w.seq.toNat)
/-- FN of a reduction (R160). -/
def RedFn.code : RedFn → Nat
  | .add => 0 | .and => 1 | .or => 2 | .xor => 3 | .max => 4 | .min => 5 | .maxn => 6 | .minn => 7 | .fadd => 8 | .fmax => 9
  | .fmin => 10
/-- A word of a store-buffer entry as a dump shows it (R392). -/
def SbEntry.dump (e : SbEntry) (j : Nat) : Word :=
  let lsz := fun (n : Nat) => n.log2
  match e.kind with
  | .red fn w b =>
    if j = 0 then w64 (2 ^ 63 + 2 ^ 62 + 2 ^ 60 * e.ctxn.toNat + 2 ^ 58 * lsz (memBytes w) + 2 ^ 54 * fn.code + addr54 e.va) else b
  | .control _ x => if j = 0 then w64 (2 ^ 63 + 2 ^ 60 * e.ctxn.toNat + 2 ^ 58 * 3 + addr54 e.va) else x
  | .store =>
    if j = 0 then w64 (2 ^ 63 + 2 ^ 60 * e.ctxn.toNat + 2 ^ 58 * lsz e.bytes.length + addr54 e.va)
    else w64 (natOfBytes (e.bytes.map (·.val)))
/-- A word of a Lens entry (R314). -/
def LensEntry.read (e : LensEntry) (used : Bool) (j : Nat) : Word :=
  match j with
  | 0 => w64 ((if used then 2 ^ 63 else 0) + 2 ^ 32 * e.sender + e.count)
  | 1 => w64 e.transit
  | 2 => w64 e.qwait
  | _ => w64 e.run
/-- A register of the Facet block of a cluster (R316, R317). -/
def Cluster.facetRead (k : Cluster) (o : Nat) : Word :=
  let f := fun i => k.facet.toList.getD i ⟨0, #v[0, 0], 0, 0, Vector.replicate 8 0, 0, 0⟩
  if o < 0x80 then (f (o / 8)).cfg
  else if o < 0x180 then ((f ((o - 0x80) / 16)).bnd.toList.getD (o % 16 / 8) 0)
  else if o < 0x200 then (f ((o - 0x180) / 8)).cnt
  else if o < 0x280 then (f ((o - 0x200) / 8)).snap
  else if o < 0x480 then
    let h := (f ((o - 0x280) / 32)).hist.toList
    let j := o % 32 / 8
    w64 (2 ^ 32 * (h.getD (2 * j + 1) 0).toNat + (h.getD (2 * j) 0).toNat)
  else 0
/-- The Iris state word at 0x060 (R310). -/
def Core.irisWord (k : Core) : Word :=
  k.trig ||| (match k.iris with | .running => 0 | .stopping => 1 | .halted => 2)
/-- A register of core `c`'s debug block (R307). -/
def State.debugRead (s : State) (c o : Nat) : Word :=
  let k := s.coreAt c
  if o < 0x60 then k.snap.toList.getD (o / 8) 0
  else if o = 0x60 then k.irisWord
  else if o = 0x68 then k.ttime
  else if o = 0x70 then k.lnctl
  else if 0x100 ≤ o ∧ o < 0x200 then k.wprec.toList.getD ((o - 0x100) / 8) 0
  else if 0x200 ≤ o ∧ o < 0x280 then k.efr ((o - 0x200) / 16) (o % 16 / 8)
  else if 0x280 ≤ o ∧ o < 0x2C0 then s.qst c ((o - 0x280) / 8)
  else if 0x2C0 ≤ o ∧ o < 0x3C0 then
    match k.sb[(o - 0x2C0) / 16]? with
    | some e => e.dump (o % 16 / 8)
    | none => 0
  else if 0x400 ≤ o ∧ o < 0xC00 then
    match k.lens[(o - 0x400) / 32]? with
    | some e => e.read true (o % 32 / 8)
    | none => 0
  else if 0xC00 ≤ o ∧ o < 0xC20 then k.lensOver.read false (o % 32 / 8)
  else if 0x1000 ≤ o ∧ o < 0x1480 ∧ peerOf c = 0 then (s.clusterAt (clusterOf c)).facetRead (o - 0x1000)
  else 0

/-- The core of an index 32y + x on a die. -/
def coreOfIndex (d i : Nat) : Nat := 1024 * d + i % 1024
/-- A control-window register of die `d` at an offset (R325). -/
def State.controlRead (s : State) (d off : Nat) : Word :=
  if off < 0x10000 then s.dcbRead d off
  else if off < 0x11000 then s.dibRead (off - 0x10000)
  else if 0x20000 ≤ off ∧ off < 0x30000 ∧ d = 0 then s.qrbRead (off - 0x20000)
  else if 0x800000 ≤ off then s.debugRead (coreOfIndex d ((off - 0x800000) / 0x2000)) (off % 0x2000)
  else 0

end Sys2Proof.Machine
end

