-- ==== Sys2Proof/Machine/Tasks.lean ====
section
/-!
DEFINITION. Tasks: TCB fields (R82 to R84), the age order (R87), activation start (R89), kernels of a launch (R103, R296), the
deque (R99, R100), task queues (R300), undo log, rollback and wounds (R247, R249, R378), locks (R241 to R245, R377) and
retirement (R97, R250).
-/
namespace Sys2Proof.Machine

/-! ### TCB fields -/

/-- A word of a TCB. -/
def Tcb.word (t : Tcb) (i : Nat) : Word := t.toList.getD i 0
/-- Bits hi:lo of a word. -/
def bitsOf (x : Word) (hi lo : Nat) : Nat := x.toNat / 2 ^ lo % 2 ^ (hi + 1 - lo)
/-- Replace bits hi:lo of a word. -/
def setBits (x : Word) (hi lo v : Nat) : Word :=
  let m : Word := w64 (2 ^ (hi + 1) - 2 ^ lo)
  (x &&& ~~~m) ||| (w64 (v * 2 ^ lo) &&& m)
/-- Fields of words 2, 3, 13 and 14 (R83, R84). -/
def Tcb.kind (t : Tcb) : Nat := bitsOf (t.word 2) 63 61
@[inherit_doc Tcb.kind] def Tcb.cls (t : Tcb) : Nat := bitsOf (t.word 2) 60 59
@[inherit_doc Tcb.kind] def Tcb.gang (t : Tcb) : Nat := bitsOf (t.word 2) 55 44
@[inherit_doc Tcb.kind] def Tcb.pred (t : Tcb) : Nat := bitsOf (t.word 3) 63 47
@[inherit_doc Tcb.kind] def Tcb.creator (t : Tcb) : Nat := bitsOf (t.word 13) 43 32
@[inherit_doc Tcb.kind] def Tcb.cseq (t : Tcb) : Nat := bitsOf (t.word 13) 63 48
@[inherit_doc Tcb.kind] def Tcb.age (t : Tcb) : Nat := (t.word 1).toNat
/-- Change a word of a TCB. -/
def Tcb.setWord (t : Tcb) (i : Nat) (x : Word) : Tcb := Vector.ofFn fun j => if j.val = i then x else t[j]
/-- The bytes of a TCB, and a TCB of bytes. -/
def Tcb.bytes (t : Tcb) : List Byte := t.toList.flatMap fun w => leBytes 8 w.toNat
@[inherit_doc Tcb.bytes] def tcbOf (bs : List Byte) : Tcb :=
  Vector.ofFn fun i => w64 (natOfBytes ((bs.drop (8 * i.val)).take 8))
/-- A task is older than another (R87). -/
def Tcb.older (a b : Tcb) : Bool :=
  if a.age ≠ b.age then decide (a.age < b.age)
  else if a.creator ≠ b.creator then decide (a.creator < b.creator)
  else decide (2 ^ 15 ≤ (a.cseq + 2 ^ 16 - b.cseq) % 2 ^ 16)

/-- A context runs upcall code (R124). -/
def Ctx.upcallCode (x : Ctx) : Bool := x.upsrc.getLsbD 63
/-- CLASS of a context's task: 0 plain, 1 guarded, 2 ordered; upcall code is plain. -/
def Ctx.cls (x : Ctx) : Nat := if x.upcallCode then 0 else x.tcb.cls
/-- A guarded or ordered task. -/
def Ctx.speculative (x : Ctx) : Bool := x.cls = 1 || x.cls = 2

/-! ### Launches and kernels -/

/-- A launch that has started. -/
def State.launch? (s : State) (l : Nat) : Option Launch := (s.launches.find? (·.1 = l)).map (·.2)
/-- A gang that holds its id (R297). -/
def State.gang? (s : State) (g : Nat) : Option Gang := (s.gangs.find? (·.1 = g)).map (·.2)
/-- Change a gang. -/
def State.updGang (s : State) (g : Nat) (f : Gang → Gang) : State :=
  { s with gangs := s.gangs.map fun p => if p.1 = g then (p.1, f p.2) else p }
/-- The bytes of a code object (R103). -/
def hdrSize (h : Vector Word 16) : Nat := bitsOf (h.toList.getD 1 0) 63 32
/-- An address lies in the code of a kernel, which follows the header of its object (R103). -/
def Kernel.holds (k : Kernel) (a : Nat) : Bool := decide (addr54 k.code + 128 ≤ a ∧ a < addr54 k.code + hdrSize k.hdr)
/-- The kernel of a launch whose code holds an entry address, with its index. -/
def Launch.kernelOf (l : Launch) (a : Nat) : Option (Nat × Kernel) :=
  (l.kernels.zipIdx.find? fun p => p.1.holds a).map fun p => (p.2, p.1)
/-- The launch of the kernel image a core holds. -/
def State.launchOf (s : State) (c : Nat) : Option Launch := (s.coreAt c).image.bind fun i => s.launch? i.launch
/-- Header of the kernel whose code holds ENTRY (R89); the resident image's where none does. -/
def State.headerFor (s : State) (c : Nat) (entry : Word) : Vector Word 16 :=
  match (s.launchOf c).bind fun l => l.kernelOf (addr54 entry) with
  | some (_, k) => k.hdr
  | none => ((s.coreAt c).image.map (·.hdr)).getD (Vector.replicate 16 0)

/-! ### Activation start (R89) -/

/-- A register that StartActivation does not write (R89): an error in it stays (R381). -/
def startKeeps : RegName → Bool
  | .csr .taskid | .csr .age | .csr .tile | .csr .budget | .csr .rmode | .csr .qmode | .csr .fstat | .csr .vprog | .csr .mirth
  | .csr .mirrun | .csr .upsrc => false
  | .csr _ => true
  | _ => false
/-- StartActivation: the context's registers and CSRs from its TCB and kernel header. -/
def Ctx.startFrom (x : Ctx) (t : Tcb) (hdr : Vector Word 16) : Ctx :=
  { x with
    s := Vector.ofFn fun i =>
      if i.val = 2 then w64 (bitsOf (hdr.toList.getD 3 0) 63 32)
      else if 3 ≤ i.val ∧ i.val < 11 then t.word (i.val + 1) else 0
    v := Vector.replicate 32 0
    m := Vector.replicate 8 0
    taskid := t.word 2
    age := t.word 1
    tile := w64 (bitsOf (t.word 2) 43 16)
    budget := w64 (if bitsOf (t.word 14) 47 0 ≠ 0 then bitsOf (t.word 14) 47 0 else bitsOf (hdr.toList.getD 5 0) 47 0)
    rmode := 0
    qmode := 0
    fstat := 0
    vprog := 0
    mirth := 0
    mirrun := 0
    upsrc := 0
    mode := .task
    pc := t.word 0
    tcb := t
    win := []
    absorb := []
    sets := []
    log := []
    outbox := []
    excMode := false
    reporting := false
    grace := false
    failNotice := false
    noted := false
    excPrev := none
    restartMark := false
    lockWait := []
    wfeOn := false
    woke := false
    bad := x.bad.filter startKeeps
    vecOld := none
    st := .run }
/-- A new activation of core `c` in context `n` (R89, R301); Lens notes its start (R313). -/
def State.startActivation (s : State) (c : Nat) (n : CtxNum) (t : Tcb) (lens : Option LensTag) : State :=
  let hdr := s.headerFor c (t.word 0)
  let id := s.starts + 1
  let tag := lens.map fun l => { l with start := s.time }
  { s.updCore c fun k =>
      k.updCtx n fun x => { x.startFrom t hdr with task := id, restarts := 0, lens := tag } with
    starts := id }

/-! ### Bytes the hardware keeps in memory -/

/-- Where a slot of a die's context store lies (R94, R326). -/
def State.slotAddr (s : State) (d i : Nat) : Nat := (s.dieAt d).hcsb.toNat / 4096 % 2 ^ 40 * 4096 + 3072 * i
/-- Bytes the hardware writes at a physical address of its die. -/
def State.writeHome (s : State) (pa : Nat) (bs : List Byte) : State :=
  let b := plainBytes pa bs
  { s.performOn [0, 1, 2, 3] b with poison := healUnits s.poison b }

/-- A word of memory at its home. -/
def State.homeWord (s : State) (pa : Nat) : Word := w64 (natOfBytes ((spanOf pa 8).map s.homeByte))

/-! ### The task queue and the deque -/

/-- The room of a core's task queue and its overflow area, less what suspended gangs keep there (R299, R300, R326). -/
def State.queueRoom (s : State) (c : Nat) : Nat :=
  64 + (bitsOf (s.dieAt (dieOf c)).ovfn 15 0 - ((s.susp.filter (·.core = c)).flatMap (·.overflow)).length)
/-- A core's task queue, its overflow area and the messages it has accepted leave room for one more TCB (R351). -/
def State.canEnqueue (s : State) (c : Nat) : Bool :=
  decide ((s.coreAt c).taskq.length + (s.coreAt c).inbox.length + (s.net.filter (·.dst = c)).length < s.queueRoom c)
/-- The address of slot `i` of a core's overflow area (R326), and the lowest slot in no use. -/
def State.ovfAddr (s : State) (c i : Nat) : Nat :=
  let d := s.dieAt (dieOf c)
  d.ovfb.toNat / 4096 % 2 ^ 40 * 4096 + 128 * (bitsOf d.ovfn 15 0 * (c % 1024) + i)
@[inherit_doc State.ovfAddr] def State.ovfFree (s : State) (c : Nat) (q : List QTask) : Nat :=
  let used := (q ++ (s.susp.filter (·.core = c)).flatMap (·.overflow)).filterMap (·.slot)
  ((List.range (used.length + 1)).find? fun i => !used.contains (s.ovfAddr c i)).getD 0
/-- A TCB as it leaves the overflow area. -/
def State.readBack (s : State) (t : QTask) : QTask :=
  match t.slot with
  | some a => { t with tcb := tcbOf ((spanOf a 128).map s.homeByte), slot := none }
  | none => t
/-- The first 64 TCBs of a core are in its queue, read back from the overflow area; the next lie there (R300), and any more wait at the
dispatcher that creates them (R351). -/
def State.arrangeQueue (s : State) (c : Nat) : State :=
  let q := (s.coreAt c).taskq
  if q.length ≤ 64 && q.all (·.slot.isNone) then s else
  let r := q.zipIdx.foldl (fun (r : State × List QTask) p =>
    let t := p.1
    if p.2 < 64 then (r.1, r.2 ++ [s.readBack t])
    else
      let i := s.ovfFree c (r.2 ++ q)
      if t.slot.isSome || bitsOf (s.dieAt (dieOf c)).ovfn 15 0 ≤ i then (r.1, r.2 ++ [t])
      else (r.1.writeHome (s.ovfAddr c i) t.tcb.bytes, r.2 ++ [{ t with slot := some (s.ovfAddr c i) }])) (s, [])
  r.1.updCore c fun k => { k with taskq := r.2 }
/-- A TCB enters the task queue of a core: class 0 tile, 1 decrement, 2 message, 3 spawn, 4 migration, caused by core `src`. Those of one
cycle stand in that order (R300). -/
def State.enqueue (s : State) (c cls src : Nat) (t : Tcb) (lens : Option LensTag) : State :=
  let q : QTask := ⟨t, lens, s.time, 4096 * cls + src, none⟩
  (s.updCore c fun k =>
    let n := k.taskq.length - (k.taskq.reverse.takeWhile fun e => e.since = s.time && decide (q.rank < e.rank)).length
    { k with taskq := k.taskq.take n ++ q :: k.taskq.drop n }).arrangeQueue c
/-- The head of a core's task queue leaves it. -/
def State.popTask (s : State) (c : Nat) : State := (s.updCore c fun k => { k with taskq := k.taskq.drop 1 }).arrangeQueue c
/-- A message's tag on arrival (R313); whether it is accounted is decided at its end (R314). -/
def State.lensTag (s : State) (sender sent : Nat) : Option LensTag := some ⟨sender, sent, s.time, 0⟩

/-- The deque's counters and slots (R99), in the TCM of core `c`. -/
def State.dequeWord (s : State) (c off : Nat) : Word := w64 (natOfBytes ((spanOf (tcmLoc c off) 8).map s.mem.read))
@[inherit_doc State.dequeWord] def State.dequeTop (s : State) (c : Nat) : Word := s.dequeWord c 0x1E000
@[inherit_doc State.dequeWord] def State.dequeBottom (s : State) (c : Nat) : Word := s.dequeWord c 0x1E008
/-- Location of the slot a counter value names. -/
def dequeSlot (c : Nat) (i : Word) : Nat := tcmLoc c (0x1E080 + 128 * (i.toNat % 63))
/-- The TCB in a slot. -/
def State.dequeTcb (s : State) (c : Nat) (i : Word) : Tcb := tcbOf ((spanOf (dequeSlot c i) 128).map s.mem.read)
/-- Write bytes of a local memory that the hardware keeps (deque, log, ring, context areas). -/
def State.poke (s : State) (l : Nat) (bs : List Byte) : State :=
  { s with mem := (plainBytes l bs).foldl (fun m b => m.write b.loc b.val) s.mem, poison := healUnits s.poison (plainBytes l bs) }
/-- Write a counter of the deque. -/
def State.setDeque (s : State) (c off : Nat) (x : Word) : State := s.poke (tcmLoc c off) (leBytes 8 x.toNat)
/-- The deque's length as an `i64`. -/
def State.dequeLen (s : State) (c : Nat) : Int := (s.dequeBottom c - s.dequeTop c).toInt
/-- The counters are in range (R351). -/
def State.dequeOk (s : State) (c : Nat) : Bool := decide (0 ≤ s.dequeLen c ∧ s.dequeLen c ≤ 63)
/-- The owner pushes at the bottom (R100, R255). -/
def State.dequePush (s : State) (c : Nat) (t : Tcb) : State :=
  let b := s.dequeBottom c
  (s.poke (dequeSlot c b) t.bytes).setDeque c 0x1E008 (b + 1)
/-- The owner takes the bottom TCB (R100); the last one by moving TOP, with BOTTOM as it was before (log 76). -/
def State.dequePop (s : State) (c : Nat) : Option (Tcb × State) :=
  let t := s.dequeTop c
  let b := s.dequeBottom c
  if t = b then none
  else if b - t = 1 then some (s.dequeTcb c (b - 1), s.setDeque c 0x1E000 (t + 1))
  else some (s.dequeTcb c (b - 1), s.setDeque c 0x1E008 (b - 1))
/-- A thief takes the top TCB (R101). -/
def State.dequeSteal (s : State) (c : Nat) : Option (Tcb × State) :=
  let t := s.dequeTop c
  if !s.dequeOk c || t = s.dequeBottom c then none else some (s.dequeTcb c t, s.setDeque c 0x1E000 (t + 1))

/-! ### The undo log and rollback (R247, R249) -/

/-- TCM offset of the first entry of a context's log area (R104). -/
def logBase (n : CtxNum) (logb : Nat) : Nat := 0x1E000 - (n.toNat + 1) * logb
/-- Where a saved core's TCM lies in its save area (R299, R326). -/
def State.saveBase (s : State) (c : Nat) : Nat :=
  (s.dieAt (dieOf c)).savb.toNat / 4096 % 2 ^ 40 * 4096 + 0x28000 * (c % 1024)
/-- The saved core of a saved context whose core has been saved for its gang (R94, R299): its TCM then lies in the save area. -/
def State.whereSaved (s : State) (c : Nat) (x : Ctx) : Option SavedCore :=
  (s.dieAt (dieOf c)).saved.find? (fun v => v.ctx.task = x.task && v.core = c) |>.bind fun v =>
    s.susp.find? fun u => u.core = c && u.gang = v.gang
/-- Header of a context's kernel, whose gang may be suspended. -/
def State.headerOf (s : State) (c : Nat) (x : Ctx) : Vector Word 16 :=
  match s.whereSaved c x with
  | some v => (((s.launch? v.image.launch).bind fun l => l.kernelOf (addr54 (x.tcb.word 0))).map (·.2.hdr)).getD v.image.hdr
  | none => s.headerFor c (x.tcb.word 0)
/-- LOGB of a context's kernel. -/
def State.logbFor (s : State) (c : Nat) (x : Ctx) : Nat := bitsOf ((s.headerOf c x).toList.getD 4 0) 63 32
/-- Entry `i` of the log of context `x` of core `c`: OLD. -/
def State.logOld (s : State) (c : Nat) (x : Ctx) (i : Nat) : List Byte :=
  let off := logBase x.num (s.logbFor c x) + 64 * i + 32
  if (s.whereSaved c x).isSome then s.peek (dieOf c) (s.saveBase c + off) 32 else (spanOf (tcmLoc c off) 32).map s.mem.read
/-- Where OLD of entry `i` lies, and whether it carries poison (R383). -/
def State.logPoisoned (s : State) (c : Nat) (x : Ctx) (i : Nat) : Bool :=
  let off := logBase x.num (s.logbFor c x) + 64 * i + 32
  poisonedAny s.poison (spanOf (if (s.whereSaved c x).isSome then s.saveBase c + off else tcmLoc c off) 32)
/-- Release every lock of an activation. -/
def State.release (s : State) (t : Nat) : State :=
  { s with dies := s.dies.map fun d => { d with locks := d.locks.filter (·.task ≠ t) } }
/-- The whole TCM window of a core is set to zero (R246). -/
def State.clearTcm (s : State) (c : Nat) : State :=
  let lo := tcmLoc c 0
  let hi := lo + s.tcmbOf c
  { s with
    mem := s.mem.filter fun p => decide (p.1 < lo ∨ hi ≤ p.1)
    poison := s.poison.filter fun u => decide (u < lo ∨ hi ≤ u) }

/-- The activation of context `n` of core `c` starts again from its TCB copy (R93), after the TCM window is set to zero (R110, R246). -/
def State.restart (s : State) (c : Nat) (n : CtxNum) : State :=
  let x := (s.coreAt c).getCtx n
  let hdr := s.headerFor c (x.tcb.word 0)
  (s.clearTcm c).updCore c fun k => k.updCtx n fun x => x.startFrom x.tcb hdr

/-- The TCM window in the save area of a suspended gang's core is set to zero (R249, R299). -/
def State.clearSaved (s : State) (c : Nat) (x : Ctx) : State :=
  let lo := s.saveBase c
  let hi := lo + bitsOf ((s.headerOf c x).toList.getD 3 0) 63 32
  let out := fun (p : Nat × Byte) => decide (p.1 < lo ∨ hi ≤ p.1)
  { s with mem := s.mem.filter out, dirty := s.dirty.filter out, poison := s.poison.filter fun u => decide (u < lo ∨ hi ≤ u) }

/-- Steps 1 to 5 of R249 and the clearing of step 6, for the activation of a context `x` of core `c`; none while a store-buffer entry
before its last cannot leave, which the rollback waits for (R138, R249). -/
def State.undo (s : State) (c : Nat) (x : Ctx) : Option State :=
  (State.flushTask c x.task (s.coreAt c).sb.length s).map fun s =>
    -- the log is replayed from the newest entry to the oldest
    let s := x.log.zipIdx.reverse.foldl (fun s p =>
      let w : Writer := ⟨7, c, sliceRouter (dieOf c) (sliceOf p.1.va), s.node, sliceOf p.1.va, []⟩
      let bad := s.logPoisoned c x p.2
      let s := s.sliceStore (dieOf c) w p.1.va (plainBytes p.1.pa (s.logOld c x p.2))
      -- poison travels with the data (R383)
      if bad then { s with poison := p.1.pa :: s.poison.filter (· ≠ p.1.pa) } else s) s
    let s := s.release x.task
    if (s.whereSaved c x).isSome then s.clearSaved c x else s.clearTcm c
/-- What a rollback leaves of the context. -/
def Ctx.undone (x : Ctx) : Ctx :=
  { x.closeWindows true with outbox := [], log := [], sets := [], lockWait := [], restarts := x.restarts + 1, wfeOn := false, woke := false, vecOld := none }

/-- A restart beyond RLIM stops the core before the first instruction, with code 0x049 (R378). -/
def State.limitRestart (s : State) (c : Nat) (n : CtxNum) : State :=
  let lim := bitsOf (s.dieAt (dieOf c)).rslim 15 0
  let x := (s.coreAt c).getCtx n
  if lim = 0 ∨ x.restarts ≤ lim then s
  else
    let e : Exc := { code := 0x049, boundary := true }
    let s := s.updCore c fun k => k.updCtx n fun x =>
      { x with restarts := 0, fltinfo := e.info 2 0, fltaddr := 0 }
    let s := if (s.coreAt c).iris = .running then s.latchFacet c 0 c s.timeReg else s
    let s := s.updCore c fun k =>
      let k := k.focus n
      { (if k.iris = .running then k.latch c (s.cycleOf c) s.time 0 c s.timeReg else k) with iris := .halted, haltAt := some s.time }
    match (s.coreAt c).image with
    | some i => s.signal ((s.gangCores i.gang).filter (· ≠ c)) 0 0 c
    | none => s

/-- A context by the serial number of its activation, resident or saved. -/
def State.findTask (s : State) (t : Nat) : Option (Nat × Ctx) :=
  if t = 0 then none else
  match s.liveCores.findSome? fun c => ((s.coreAt c).ctxs.find? fun x => x.task = t && decide (x.st ≠ .free)).map fun x => (c, x) with
  | some r => some r
  | none => s.dies.toList.findSome? fun d => (d.saved.find? (·.ctx.task = t)).map fun v => (v.core, v.ctx)
/-- A gang stop that an exception of core `c` began in this cycle is taken back, for a wound of the same cycle (R346): its halt of the gang is
not sent, and an earlier halt of the core stays. -/
def State.unstop (s : State) (c : Nat) : State :=
  let mine := fun (g : Signal) => g.op = 0 && g.tsrc = 0 && g.tcore = c && decide (g.ttime = s.timeReg)
  let first := fun (k : Core) => k.ttime = s.timeReg && bitsOf k.trig 63 50 = 4 * c
  { s with signals := s.signals.filter (!mine ·) }.updCore c fun k =>
    if first k then { k with iris := .running, haltAt := none } else { k with iris := .stopping }
/-- A context of the core has entered WAKE: a `wfe` of the RUN context sees it (R127). -/
def Core.noteWake (k : Core) : Core :=
  { k with ctx := { k.ctx with woke := k.ctx.woke || k.ctx.st = .run }
           rest := k.rest.map fun x => { x with woke := x.woke || x.st = .run } }

/-- Bits 0 to 2 of the flags word of a context's slot (R94): arrived, WAKE, to be restarted. -/
def Ctx.slotFlags (x : Ctx) (arrived : Bool) : Nat :=
  (if arrived then 1 else 0) + (if x.st = .wake then 2 else 0) + (if x.restartMark then 4 else 0)
/-- A saved context changes, and with it the flags word of its slot (R94). -/
def State.updSaved (s : State) (d : Nat) (which : Saved → Bool) (f : Saved → Saved) : State :=
  let s := s.updDie d fun y => { y with saved := y.saved.map fun v => if which v then f v else v }
  ((s.dieAt d).saved.filter which).foldl (fun s v =>
    s.writeHome (s.slotAddr d v.slot + 0xA18) (leBytes 8 (v.ctx.slotFlags v.arrived))) s
/-- A wound of the activation `t` (R93, R249, R346, R378): an exception of the same cycle leaves only FLTINFO and FLTADDR; RUN starts again at once; DONE, PARK, WAKE and SAVED are marked for
restart. A wounded ordered task in DONE is a ready ordered task again, in its context (log 27). None while its rollback must wait. -/
def State.wound (s : State) (t : Nat) : Option State :=
  match s.findTask t with
  | none => some s
  | some (c, x) => (s.undo c x).map fun s =>
    let d := dieOf c
    if (s.dieAt d).saved.any (·.ctx.task = t) then
      s.updSaved d (·.ctx.task = t) fun v => { v with arrived := true, ctx := { v.ctx.undone with restartMark := true } }
    else
      let s := s.updCore c fun k => k.updCtx x.num fun x => { x.undone with restartMark := x.st ≠ .run }
      let s := match x.excPrev with
        | some (t, epc, cause) =>
          if t = s.time then
            let s := s.updCore c fun k => k.updCtx x.num fun x => { x with tepc := epc, tcause := cause, excPrev := none }
            if x.st = .run ∧ bitsOf x.fltinfo 53 52 = 2 then s.unstop c else s
          else s
        | none => s
      match x.st with
      | .run => ((s.restart c x.num).updCore c fun k => { k with waiting := false }).limitRestart c x.num
      | .done => s
      | _ => s.updCore c fun k => (k.updCtx x.num fun x => { x with st := .wake }).noteWake

/-! ### Locks (R241 to R245, R377) -/

/-- A commit of core `c` releases lines: what its order holds comes before the next access to each of them (R279). -/
def State.freeLocks (s : State) (c : Nat) (lines : List Nat) : State :=
  if s.wts.isEmpty then s else
  { s with wts := s.wts.map fun w => if w.die = dieOf c ∧ ((w.writer.kind = 0 ∧ w.writer.core = c) ∨ w.seen.contains c)
      then { w with freed := (lines.filter (!w.freed.contains ·)) ++ w.freed } else w }
/-- Core `c` accesses a line: what a commit that released it had in its order enters the core's order (R279). -/
def State.followCommit (s : State) (c line : Nat) : State :=
  if s.wts.any fun w => w.freed.contains line && !w.seen.contains c then
    { s with wts := s.wts.map fun w => if w.freed.contains line ∧ !w.seen.contains c then { w with seen := c :: w.seen } else w }
  else s
/-- The youngest activation of a list. -/
def State.youngest (s : State) (ts : List Nat) : Option Nat :=
  ts.foldl (fun y t => match y with
    | none => some t
    | some u =>
      match s.findTask u, s.findTask t with
      | some (_, a), some (_, b) => if a.tcb.older b.tcb then some t else some u
      | none, _ => some t
      | _, none => some u) none

/-- What a lock request ends in. -/
inductive LockEnd where
  | held
  | wait
  /-- all 256 entries of the slice are the requester's own (R377) -/
  | full
  deriving DecidableEq, Repr

/-- Activation `t` takes a free line of its die (R243): pending reductions of the die are applied first (R160), and the line leaves every
L1D (R245). -/
def State.grant (s : State) (d t slice line : Nat) : State × LockEnd :=
  ((s.applyReds d line).updDie d fun x => { x.dropL1 line with locks := ⟨line, slice, t⟩ :: x.locks.filter (·.line ≠ line) }, .held)
/-- An older activation `t` takes a line after the wound of activation `u` (R244); it waits for the rollback. -/
def State.takeFrom (s : State) (d t u slice line : Nat) : State × LockEnd :=
  match s.wound u with
  | some s => s.grant d t slice line
  | none => (s, .wait)
/-- A lock request of activation `t` (TCB `q`) for a line at a slice of die `d` (R243, R244, R377). -/
def State.lockLine (s : State) (d t : Nat) (q : Tcb) (slice line : Nat) : State × LockEnd :=
  match (s.dieAt d).locks.find? (·.line = line) with
  | some k =>
    if k.task = t then (s, .held)
    else match s.findTask k.task with
      | some (_, h) => if q.older h.tcb then s.takeFrom d t k.task slice line else (s, .wait)
      | none => s.grant d t slice line
  | none =>
    let here := (s.dieAt d).locks.filter (·.slice = slice)
    if here.length < 256 then s.grant d t slice line
    else
      match s.youngest (here.map (·.task)) with
      | none => (s, .wait)
      | some y =>
        if y = t then (if here.all (·.task = t) then (s, .full) else (s, .wait))
        else match s.findTask y with
          | some (_, h) => if q.older h.tcb then s.takeFrom d t y slice line else (s, .wait)
          | none => (s, .wait)

/-- A context's pending lock requests are served in ascending order, up to the first that waits (R243). -/
def State.serveLocks (s : State) (c : Nat) (n : CtxNum) : State × LockEnd :=
  let x := (s.coreAt c).getCtx n
  x.lockWait.foldl (fun p r =>
    if p.2 = .held then
      let (s, e) := p.1.lockLine (dieOf c) x.task x.tcb r.1 r.2
      (if e = .held then s.followCommit c r.2 else s, e)
    else p) (s, .held)

end Sys2Proof.Machine
end

