-- ==== Sys2Proof/Machine/Retire.lean ====
section
/-!
DEFINITION. Handing a TCB to hardware (R85, R248, R255, R257 to R259), the end of an activation, commit (R250) and the
decrements of a retirement (R97, R98, R344, R386, R388).
-/
namespace Sys2Proof.Machine

/-- What handing a TCB over ends in. -/
inductive HandEnd where
  | done
  | wait
  | error (e : Exc)
  deriving DecidableEq, Repr

/-- A write-through that the core's order holds, or a reduction of the core, is still on its way to a home on another die (R239, R279);
`sys` counts those to other nodes. -/
def State.unacked (s : State) (c : Nat) (sys : Bool) : Bool :=
  s.wts.any (fun w => ((w.writer.kind = 0 && w.writer.core = c) || w.seen.contains c) &&
      (sys || w.bytes.any fun b => paNode b.loc = s.node)) ||
    s.reds.any fun r => r.writer.kind = 6 && r.writer.core = c && (paDie r.loc ≠ dieOf c || paNode r.loc ≠ s.node) && (sys || paNode r.loc = s.node)
/-- An acquire of core `c` at any scope brings the writes its die shows into the core's order, so that a later release of it waits for
those still under way (R279, R281). -/
def State.acquireOrder (s : State) (c : Nat) : State :=
  { s with wts := s.wts.map fun w => if w.die = dieOf c ∧ !w.seen.contains c then { w with seen := c :: w.seen } else w }
/-- An acquire at device scope, or system scope (R239, R281): the die's copies of lines homed elsewhere go. -/
def State.acquireCopies (s : State) (d : Nat) (sys : Bool) : State :=
  let stays := fun (l : Nat) => !sys && paNode l ≠ s.node
  s.updDie d fun x => { x with
    copies := x.copies.filter fun c => stays c.1 || s.pendingHere d c.1
    copyPoison := x.copyPoison.filter stays
    l1 := x.l1.filter fun e => e.code || decide (paDie e.pa = d) }
/-- A message is sent, and received (R310, R313). -/
def State.msgSent (s : State) (src : Nat) : State := s.updCore src fun k => { k with msgs := k.msgs + 1 }
@[inherit_doc State.msgSent] def State.msgReceived (s : State) (dst : Nat) : State := s.updCore dst fun k => { k with msgr := k.msgr + 1 }

/-- The translation of an address as the hardware uses it for a TCB (R140, R141, R344), or the exception; `t` is the activation it acts
for. -/
def State.hardAddr (s : State) (d actx : Nat) (m : Mode) (va : Word) (acc : Acc) (t : Nat) : State × Except Exc Nat :=
  if !isGlobal (addr54 va) then (s, .error { code := 0x007, addr := va, acc := acc.code }) else
  match translate d actx va acc t s with
  | .error _ _ => (s, .error { code := 0, wait := true })
  | .ok (.error e) s => (s, .error e)
  | .ok .absent s => (s, .error { code := 0x009, addr := va, acc := acc.code })
  | .ok .malformed s => (s, .error { code := 0x00C, addr := va, acc := acc.code })
  | .ok (.leaf l) s =>
    let pa := l.at (addr54 va)
    (s, if regionOf pa = .control then .error { code := 0x007, addr := va, acc := acc.code }
      else if !l.grants m acc then .error { code := 0x00A, addr := va, acc := acc.code }
      else match s.homeError d pa va acc.code with
        | some e => .error e
        | none => .ok pa)
/-- Hardware of die `d` that acts for activation `t` must wait at a physical line: a task or an engine word holds it (R240, R245), or the
die's earlier writes of it are under way (R257, R280). -/
def State.hardWaits (s : State) (d pa t : Nat) : Bool :=
  s.heldAtHome pa t || s.engineOwned d pa || s.engineOwned (paDie pa) pa || s.wtHere d pa || s.redHere d pa

/-- The commit queue of a core's cluster and its overflow area are full (R251, R379, log 70). -/
def State.commitFull (s : State) (c : Nat) : Bool :=
  let n := ((s.dieAt (dieOf c)).ordered.filter (·.cluster = clusterOf c)).length
  !(decide (n < 64) || decide (n < 64 + Config.commitOverflow))
/-- The fields of R85: AGE, CREATOR, CSEQ and the inherited GANG, tile and RTAG, with KIND. One age is drawn per cycle. -/
def State.stamp (s : State) (c : Nat) (x : Ctx) (kind : Nat) (age : Option Word) (t : Tcb) : Tcb × State :=
  let k := s.coreAt c
  let w2 := setBits (setBits (t.word 2) 55 0 (bitsOf (x.tcb.word 2) 55 0)) 63 61 kind
  let w13 := setBits (setBits (t.word 13) 63 48 k.cseq.toNat) 43 32 c
  let t := ((t.setWord 1 (age.getD (w64 s.time))).setWord 2 w2).setWord 13 w13
  let s := s.updCore c fun k => { k with cseq := k.cseq + 1 }
  (t, if age.isNone then { s with time := s.time + 1 } else s)

/-- A core accepts a message (R351). -/
def State.accepts (s : State) (c : Nat) : Bool := s.canEnqueue c
/-- The virtual addresses of the words that `join` writes (R257). -/
def joinWords (a : Word) : List Word := [1, 2, 13].map fun i => addA a (w64 (8 * i))
/-- A TCB is acted on as its instruction would act in a plain task (R248): `x` is the creating context of core `c`. -/
def State.handOver (s : State) (c : Nat) (x : Ctx) (e : OutEntry) : State × HandEnd :=
  match e.kind with
  | .spawn =>
    if !s.dequeOk c then (s, .error { code := 0x012, addr := e.addr, detail := 12 })
    else if s.dequeLen c = 63 then
      if s.canEnqueue c then
        let (t, s) := s.stamp c x 1 none e.tcb
        (s.enqueue c 3 c t none, .done)
      else (s, .wait)
    else
      let (t, s) := s.stamp c x 1 none e.tcb
      (s.dequePush c t, .done)
  | .join =>
    let d := dieOf c
    if !(s.coreAt c).sb.isEmpty || s.unacked c false then (s, .wait) else
    match s.hardAddr d ((s.coreAt c).image.map (·.actx) |>.getD 0) x.mode e.addr .tcbWrite x.task with
    | (s, .error ex) => (s, if ex.wait then .wait else .error ex)
    | (s, .ok pa) =>
      if s.hardWaits d pa x.task then (s, .wait)
      else if e.tcb.pred = 0 && !s.canEnqueue c then (s, .wait)
      else
        let (t, s) := s.stamp c x 4 none e.tcb
        let w := s.ctxWriter c x e.addr
        let put := fun (s : State) (i : Nat) => s.performBytes w (plainBytes (pa + 8 * i) (leBytes 8 (t.word i).toNat))
        let s := ((put (put (put s 1) 2) 13).clearDead d pa).dropLine d pa
        if t.pred = 0 then (s.enqueue c 1 c t none, .done)
        else ({ s with joined := pa :: s.joined }, .done)
  | .tenq =>
    if s.commitFull c then (s, .wait) else
    let ts := if x.cls = 2 ∧ e.arg.toNat < x.tcb.age then x.tcb.word 1 else e.arg
    let (t, s) := s.stamp c x 2 (some ts) e.tcb
    let l := ((s.coreAt c).image.map (·.launch)).getD 0
    (s.updDie (dieOf c) fun y => { y with ordered := y.ordered ++ [⟨clusterOf c, l, t, 0⟩] }, .done)
  | .msg =>
    let dst := bitsOf e.arg 11 0
    if !(s.coreAt c).sb.isEmpty || s.unacked c false || !s.accepts dst then (s, .wait)
    else
      let (t, s) := s.stamp c x 3 none e.tcb
      let t := t.setWord 2 (setBits (t.word 2) 15 0 (bitsOf e.arg 31 16))
      let gang := ((s.coreAt dst).image.map (·.gang)).getD 0
      ({ s.msgSent c with net := s.net ++ [⟨c, x.num, dst, gang, s.time, t⟩] }, .done)

/-! ### The end of an activation -/

/-- The decrements a retirement performs (R97): JOIN, the successors, then those of popped TCBs in pop order. -/
def Retire.items (r : Retire) : List DecItem :=
  let j := bitsOf r.word3 46 0
  (if j = 0 then [] else [.target (w64 (j * 128))]) ++
    (if bitsOf r.word13 15 0 = 0 then [] else [.succs r.word12 (bitsOf r.word13 15 0)])
/-- The messages a core has received are accounted at their end (R313, R314). -/
def Core.account (k : Core) (tag : LensTag) (endT : Nat) : Core :=
  if !k.lnctl.getLsbD 0 ∨ k.iris ≠ .running then k else
  let cap := 2 ^ 48 - 1
  let dur := fun (a b : Nat) => (b + 2 ^ 48 - a % 2 ^ 48) % 2 ^ 48
  let transit := if tag.arrive < tag.sent then 0 else dur tag.sent tag.arrive
  let add := fun (e : LensEntry) =>
    { e with
      count := min (e.count + 1) (2 ^ 32 - 1)
      transit := min (e.transit + transit) cap
      qwait := min (e.qwait + dur tag.arrive tag.start) cap
      run := min (e.run + dur tag.start endT) cap }
  if k.lens.any (·.sender = tag.sender) then
    { k with lens := k.lens.map fun e => if e.sender = tag.sender then add e else e }
  else if k.lens.length < 64 then { k with lens := k.lens ++ [add ⟨tag.sender, 0, 0, 0, 0⟩] }
  else { k with lensOver := add k.lensOver }
/-- At an activation boundary a STOPPING core is HALTED (R309). -/
def State.boundary (s : State) (c : Nat) : State :=
  s.updCore c fun k => if k.iris = .stopping && !k.ctxs.any (·.st = .run) then { k with iris := .halted } else k
/-- The task of context `n` retires (R97): its decrements are under way and the context is FREE. -/
def State.retire (s : State) (c : Nat) (n : CtxNum) : State :=
  let x := (s.coreAt c).getCtx n
  let items := (⟨x.tcb.word 3, x.tcb.word 12, x.tcb.word 13⟩ :: x.absorb : List Retire).flatMap Retire.items
  let k := s.coreAt c
  let rec_ : Decs := ⟨c, n, x.task, x.tcb.gang, (k.image.map (·.actx)).getD 0, items, false⟩
  let s := if items.isEmpty then s else { s with decs := s.decs ++ [rec_] }
  let s := s.updCore c fun k =>
    let k := match x.lens with | some t => k.account t s.time | none => k
    k.updCtx n fun x => { x with st := .free, lens := none, absorb := [], sets := [], log := [], task := 0, excMode := false }
  s.boundary c
/-- The outbox is carried out in order (R248, R250): what is left of it when an entry must wait. -/
def State.carryOut (s : State) (c : Nat) (n : CtxNum) : List OutEntry → State × HandEnd
  | [] => (s, .done)
  | e :: es =>
    match s.handOver c ((s.coreAt c).getCtx n) e with
    | (s, .done) =>
      -- a watchpoint that a `join` meets here stops the core at this boundary, and one of kind gang its gang (R319)
      let met := if e.kind = .join then (joinWords e.addr).filterMap fun a => (s.coreAt c).watchKind a 8 else []
      let s := if met.isEmpty then s else s.haltCore c 1 c s.timeReg
      let s := match met.contains 2, (s.coreAt c).image with
        | true, some i => s.signal ((s.gangCores i.gang).filter (· ≠ c)) 0 1 c
        | _, _ => s
      (s.updCore c fun k => k.updCtx n fun x => { x with outbox := es }).carryOut c n es
    | r => r
/-- A halt of a core at its activation boundary, and of its gang (R343, R344). -/
def State.haltGang (s : State) (c g : Nat) : State :=
  (s.haltCore c 0 c s.timeReg).signal ((s.gangCores g).filter (· ≠ c)) 0 0 c
/-- A gang stop at an activation boundary (R344, R388): the fault registers, and a halt of the core and its gang. -/
def State.stopGang (s : State) (c : Nat) (n : CtxNum) (g : Nat) (e : Exc) : State :=
  (s.updCore c fun k => k.updCtx n fun x =>
    { x with fltinfo := e.info 2 0, fltaddr := e.addr &&& 0x003FFFFFFFFFFFFF }).haltGang c g
/-- A packet with no reply path meets a failed link (R388): it is dropped, and the gang of the core that sent it is stopped. -/
def State.dropPacket (s : State) (c : Nat) (n : CtxNum) : State :=
  match (s.coreAt c).image with
  | some i => s.stopGang c n i.gang { code := 0x082, boundary := true }
  | none => s
/-- The error of a retirement or of a commit's outbox (R344). -/
def retireError (a : Word) : Exc := { code := 0x012, addr := a, acc := 8, detail := 11, boundary := true }
/-- A guarded or ordered task commits (R250): log and locks go, the outbox is carried out, the task retires. `false`: an
entry of the outbox would have to wait, and the commit has not begun (DEDUCED from R252 and R349, log 101). -/
def State.commit (s : State) (c : Nat) (n : CtxNum) : State × Bool :=
  let x := (s.coreAt c).getCtx n
  let s0 := s
  let lines := ((s.dieAt (dieOf c)).locks.filter (·.task = x.task)).map (·.line)
  let s := ((s.freeLocks c lines).release x.task).updCore c fun k => k.updCtx n fun x => { x with log := [], sets := [] }
  match s.carryOut c n x.outbox with
  | (s, .done) => (s.retire c n, true)
  | (_, .wait) => (s0, false)
  | (s, .error e) =>
    let s := (s.updCore c fun k => k.updCtx n fun x => { x with outbox := [], absorb := [], st := .free, task := 0, lens := none })
    ((s.boundary c).stopGang c n x.tcb.gang (retireError e.addr), true)

/-! ### Decrements (R97, R98, R344) -/

/-- What one decrement ends in. -/
inductive DecEnd where
  | next (items : List DecItem)
  | wait
  | held
  | error (e : Exc)
  /-- R388: the packet is dropped and the gang stopped -/
  | dropped (items : List DecItem)
  deriving DecidableEq, Repr

/-- The first item of a retirement is performed. -/
def State.decrement (s : State) (r : Decs) : State × DecEnd :=
  let d := dieOf r.core
  match r.items with
  | [] => (s, .next [])
  | .succs _ 0 :: is => (s, .next is)
  | .succs a (n + 1) :: is =>
    match s.hardAddr d r.actx .task a .tcb 0 with
    | (s, .error e) => (s, if e.wait then .wait else if e.code = 0x081 then .held else .error (retireError a))
    | (s, .ok pa) =>
      let s := s.seeErrors (spanOf pa 8)
      if a.toNat % 8 ≠ 0 ∨ poisonedAny s.poison (spanOf pa 8) then (s, .error (retireError a))
      else if s.hardWaits d pa 0 then (s, .wait)
      else
        let t := w64 (natOfBytes ((spanOf pa 8).map s.homeByte)) &&& 0x003FFFFFFFFFFFFF
        (s, .next (.target t :: .succs (a + 8) n :: is))
  | .target a :: is =>
    if a.toNat % 128 ≠ 0 then (s, .error (retireError a)) else
    match s.hardAddr d r.actx .task a .tcbWrite 0 with
    | (s, .error e) =>
      (s, if e.wait then .wait else if e.code = 0x081 then .held else if e.code = 0x082 then .dropped is else .error (retireError a))
    | (s, .ok pa) =>
      let s := s.seeErrors (spanOf pa 128)
      if s.hardWaits d pa 0 then (s, .wait)
      else if poisonedAny s.poison (spanOf pa 128) then (s, .error (retireError a))
      else
        let t := tcbOf ((spanOf pa 128).map s.homeByte)
        let w := s.hardWriter r.core a
        let put := fun (s : State) => s.performBytes w
          (plainBytes (pa + 24) (leBytes 8 (setBits (t.word 3) 63 47 (t.pred - 1)).toNat))
        if t.pred = 0 then (s, .error (retireError a))
        else if t.pred > 1 then ((put s).dropLine d pa, .next is)
        else
          let joined := s.joined.contains pa
          if !joined && decide (t.cls ≥ 2) then (s, .error (retireError a))
          else if !s.canEnqueue r.core then (s, .wait)
          else
            let t := t.setWord 3 (setBits (t.word 3) 63 47 0)
            let t := if joined then t
              else t.setWord 2 (setBits (setBits (t.word 2) 63 61 4) 55 44 r.gang)
            let s := (put s).dropLine d pa
            let s := { (s.msgSent r.core).msgReceived r.core with joined := s.joined.erase pa }
            (s.enqueue r.core 1 r.core t (s.lensTag r.core s.time), .next is)

end Sys2Proof.Machine
end

