-- ==== Sys2Proof/Machine/Access.lean ====
section
/-!
DEFINITION. The accesses of a core: locks (R243, R245), the undo log (R247, R375), loads, stores and atomics at their memory
(R131, R138, R155, R159), control-window accesses (R144) and the precise stop of a watchpoint (R319).
-/
namespace Sys2Proof.Machine

/-! ### Locks and the log of the context in focus -/

/-- The physical line of a virtual address for a lock, which must be homed on the task's die (R242, R350). -/
def lockTarget (va : Word) (acc : Acc) : Act (Nat × Nat) := do
  let s ← get
  let d := s.myDie
  match ← translate d s.actx va acc s.core.ctx.task with
  | .error e => raise e
  | .absent =>
    let s ← get
    raise { code := 0x009, addr := va, acc := acc.code, detail := if s.pinEnded d s.actx (addr54 va) then 1 else 0 }
  | .malformed => raise { code := 0x00C, addr := va, acc := acc.code }
  | .leaf l =>
    let pa := l.at (addr54 va)
    if paNode pa ≠ s.node ∨ paDie pa ≠ d then raise { code := 0x012, addr := 0, acc := acc.code, detail := 10 }
    return (sliceOf va, pa / 128)

/-- The lines of a set, by their virtual addresses (R242). -/
def AtomicSet.lines (t : AtomicSet) : List Nat :=
  let lo := addr54 t.base / 128
  let hi := (addr54 t.base + t.len - 1) / 128
  (List.range (hi - lo + 1)).map fun i => (lo + i) * 128
/-- An access touches a set that is not acquired. -/
def AtomicSet.touched (t : AtomicSet) (a n : Nat) : Bool :=
  !t.acquired && t.lines.any fun l => decide (l < a + n ∧ a < l + 128)

/-- Entries of the core that write the lines leave the buffer before a lock is asked for (log 28). -/
def drainLines (lines : List Nat) : Act Unit := do
  let s ← get
  let after := (s.core.sb.reverse.takeWhile fun e => !(e.bytes.any fun b => lines.contains (b.loc / 128))).length
  drain (s.core.sb.length - after)

/-- The virtual lines whose locks an access of the context needs (R243). -/
def Ctx.lockLines (x : Ctx) (a n : Nat) : List Nat :=
  match x.cls with
  | 1 => (x.sets.filter fun t => t.touched a n).flatMap AtomicSet.lines
  | 2 => [a / 128 * 128]
  | _ => []
/-- The locks an access of a guarded or ordered task needs are held, or the access waits (R243). -/
def acquire (va : Word) (n : Nat) (acc : Acc) : Act Unit := do
  let s ← get
  let x := s.core.ctx
  let a := addr54 va
  let lines := x.lockLines a n
  if lines.isEmpty then pure () else do
    let want ← (lines.mergeSort.eraseDups).mapM fun l => lockTarget (w64 l) acc
    let s ← get
    let need : List (Nat × Nat) := want.filter fun r => !(s.dieAt s.myDie).locks.any fun k => k.line = r.2 && k.task = x.task
    if !need.isEmpty then do
      drainLines (need.map (·.2))
      modify fun s => s.updCtx fun x => { x with lockWait := need }
      let s ← get
      let (s, e) := s.serveLocks s.me.toNat x.num
      set s
      match e with
      | .held => pure ()
      | .wait => softly stall
      | .full =>
        modify fun s => s.updCtx fun x => { x with lockWait := [] }
        -- the line whose request found the slice full is the first that is not held (R377)
        let held := fun (r : Nat × Nat) => (s.dieAt s.myDie).locks.any fun k => k.line = r.2 && k.task = x.task
        let at_ := (((lines.mergeSort.eraseDups).zip want).find? fun r => !held r.2).map (·.1)
        raise { code := 0x047, addr := w64 (at_.getD (addr54 va / 128 * 128)), acc := acc.code }
    modify fun s => s.updCtx fun x =>
      { x with lockWait := [], sets := x.sets.map fun t => if t.touched a n then { t with acquired := true } else t }

/-- A line held by another task, or owned by an engine, makes the access wait (R240, R245); after a commit released it, the access follows
that commit (R279). -/
def waitHeld (pa : Nat) : Act Unit := do
  let s ← get
  if s.heldAtHome pa s.core.ctx.task then softly stall
  if s.engineOwned s.myDie pa then
    -- a directory recall (R240, R315)
    modify fun s => s.noteSignal (clusterOf s.me.toNat) 106
    stall
  modify fun s => s.followCommit s.me.toNat (pa / 128)

/-- A logged write is given its log entry (R247, R375). -/
def logWrite (va : Word) (pa : Nat) (acc : Acc) (lane : Option Nat) : Act Unit := do
  let s ← get
  let x := s.core.ctx
  if x.speculative && (s.dieAt s.myDie).locks.any (fun k => k.line = pa / 128 && k.task = x.task) then
    let sect := pa / 32 * 32
    if x.log.any (·.pa = sect) then pure () else do
      let logb := s.logbFor s.me.toNat x
      if x.log.length ≥ logb / 64 then raise { code := 0x046, addr := va, acc := acc.code, lane := lane }
      let sva := w64 (addr54 va / 32 * 32)
      modify fun s => s.seeErrors (spanOf sect 32)
      let s ← get
      let old := s.peek s.myDie sect 32
      let loc := tcmLoc s.me.toNat (logBase x.num logb + 64 * x.log.length)
      -- OLD of a poisoned sector carries its poison (R383)
      let bad := if s.poison.contains sect then (List.range 4).map fun i => loc + 32 + 8 * i else []
      modify fun s =>
        let s := s.poke loc (leBytes 8 (sva.toNat + 1) ++ List.replicate 24 0 ++ old)
        ({ s with poison := bad ++ s.poison } : State).updCtx fun x => { x with log := x.log ++ [⟨sva, sect⟩] }

/-! ### Loads -/

/-- A control-window access waits for the register writes on their way. -/
def waitControl : Act Unit := do
  let s ← get
  if s.agenda.any Move.isRegWrite then stall

/-- Report an exception as of a vector lane (R356). -/
def atLane {α : Type} (lane : Option Nat) (f : Act α) : Act α := fun s =>
  match f s with
  | .error (.exc e) s' => .error (.exc { e with lane := lane }) s'
  | r => r

/-- The L1 of the core in focus still holds a line, and its data serve `n` bytes of it: the die's slices hold them, without error. -/
def State.l1Serves (s : State) (e : L1Line) (a n : Nat) : Bool :=
  let ls := spanOf (e.pa + a % 32) n
  (e.code || decide (paDie e.pa = s.myDie) || ls.all fun l => (s.copyByte s.myDie l).isSome) &&
    !poisonedAny s.poison ls && !poisonedAny (s.dieAt s.myDie).copyPoison ls
/-- A hit in the L1D, or the L1I, of the core in focus (R136, R137): it needs no translation, and a slice sees nothing of it. The access
is checked against the leaf that the line was filled through (log 8). -/
def l1Lookup (code : Bool) (va : Word) (n : Nat) (acc : Acc) : Act (Option Nat) := do
  let s ← get
  match s.l1Find s.me.toNat code s.actx (addr54 va) with
  | none => return none
  | some e =>
    modify State.useFree
    if Config.l1Kept s.fv && s.l1Serves e (addr54 va) n then
      if !e.leaf.grants s.core.ctx.mode acc then raise { code := 0x00A, addr := va, acc := acc.code }
      return some (e.pa + addr54 va % 32)
    else return none

/-- A load from a register of the control window (R144); of another node, its bytes come from outside the device. -/
def controlLoad (va : Word) (pa n : Nat) (acc : Acc) : Act (List Byte) := do
  match ← sbLookup pa n with
  | _ => pure ()
  waitControl
  let s ← get
  match s.homeError s.myDie pa va acc.code with
  | some e => raise e
  | none =>
    if paNode pa = s.node then return leBytes 8 (s.controlRead (paDie pa) (paLoc pa % 2 ^ 24)).toNat
    else farBytes va acc.code 8
/-- A load that missed the L1D, at its slice (R139); the line enters the L1D before the read is counted or its hint takes effect. -/
def sliceLoad (va : Word) (pa n : Nat) (leaf : Leaf) (acc : Acc) (hint : Option (Nat × Bool)) : Act (List Byte) := do
  missRoom va pa n
  let d := (← get).myDie
  let bs ← sliceFetch d pa n va acc.code
  modify fun s => (s.l1Fill s.me.toNat false s.actx (addr54 va) pa leaf).counted d pa hint
  return bs
/-- `n` bytes at a virtual address, read as a load of the core in focus reads them (R131, R136, R138, R139). `ctl`: a form that
reaches the control window (R144). -/
def loadBytes (va : Word) (n : Nat) (acc : Acc) (ctl : Bool) (hint : Option (Nat × Bool)) : Act (List Byte) := do
  let s ← get
  let a := addr54 va
  if isGlobal a then do
    match ← if (s.core.ctx.lockLines a n).isEmpty then l1Lookup false va n acc else pure none with
    | some pa =>
      waitHeld pa
      match ← sbLookup pa n with
      | some bs => return bs
      | none =>
        -- a reduction that has just left the buffer goes before the load (R138, R160)
        if (← get).redHere s.myDie pa then stall
        return (← get).peek s.myDie pa n
    | none =>
      let (pa, leaf) ← globalAddr s.myDie s.actx s.core.ctx.mode va acc ctl s.core.ctx.task
      if regionOf pa = .control then controlLoad va pa n acc
      else do
        acquire va n acc
        waitHeld pa
        match ← sbLookup pa n with
        | some bs => return bs
        | none => sliceLoad va pa n leaf acc hint
  else
    match s.localLoc s.me.toNat a n false with
    | none => raise { code := 0x007, addr := va, acc := acc.code }
    | some l =>
      match ← sbLookup l n with
      | some bs => return bs
      | none => readLocal l n va acc.code

/-! ### Stores -/

/-- A deque counter of the core in focus, which a system-mode store reaches (R351). -/
def State.dequeCounter (s : State) (a n : Nat) : Option Nat :=
  let own := 0x200000 + 0x20000 * peerOf s.me.toNat
  let o := if own ≤ a ∧ a < own + 0x20000 then a - own else a
  if s.core.ctx.mode = .system ∧ s.core.image.isSome ∧ 0x1E000 ≤ o ∧ o + n ≤ 0x1E010 then some (tcmLoc s.me.toNat o) else none
/-- The location a store writes, after its checks, locks and log entry (R131, R132, R247). -/
def storeTarget (va : Word) (n : Nat) (acc : Acc) (ctl : Bool) (lane : Option Nat) : Act Nat := do
  let s ← get
  let a := addr54 va
  if isGlobal a then do
    let (pa, _) ← globalAddr s.myDie s.actx s.core.ctx.mode va acc ctl s.core.ctx.task
    if regionOf pa = .control then return pa
    acquire va n acc
    waitHeld pa
    logWrite va pa acc lane
    return pa
  else
    match s.localLoc s.me.toNat a n true with
    | none =>
      match s.dequeCounter a n with
      | some l => return l
      | none => raise { code := 0x007, addr := va, acc := acc.code }
    | some l => return l

/-- A store of bytes with their masks enters the store buffer (R138). -/
def pushStore (va : Word) (loc : Nat) (bytes : List SbByte) : Act Unit := do
  let s ← get
  let x := s.core.ctx
  let kind : SbKind := if isPhys loc && regionOf loc = .control
    then .control (x.mode = .system) (w64 (natOfBytes (bytes.map (·.val)))) else .store
  sbPush ⟨kind, va, loc, bytes, x.num, x.task, false, [], 0, aidOf s.me.toNat x⟩

/-- A store of plain bytes. -/
def storeBytes (va : Word) (bs : List Byte) (ctl : Bool) : Act Unit := do
  let l ← storeTarget va bs.length .store ctl none
  pushStore va l (plainBytes l bs)

/-! ### The precise stop (R319) -/

/-- After an instruction that wrote, the core stops precisely when a range matched. -/
def State.watchStop (s : State) (kind : Option Nat) : State :=
  match kind with
  | some 2 => s.haltHere 1 (s.core.image.map (·.gang))
  | some _ => s.haltHere 1 none
  | none => s

/-! ### Atomics (R159, R182) -/

/-- The functions of the atomics (R159, R182). -/
abbrev RmwFn := AtomicFn
/-- Op(old, b, c) on `n`-bit values; none where the table gives no store. -/
def RmwFn.apply (f : RmwFn) (n old b c : Nat) : Option Nat :=
  match f with
  | .swap => some b
  | .cas => if old = c then some b else none
  | .add => some ((old + b) % 2 ^ n)
  | .and => some (old &&& b)
  | .or => some (old ||| b)
  | .xor => some (old ^^^ b)
  | .max => some (if intOf true n old < intOf true n b then b else old)
  | .min => some (if intOf true n b < intOf true n old then b else old)
  | .maxn => some (max old b)
  | .minn => some (min old b)

/-- Where an atomic reads and writes: a local memory, or a physical address. -/
def atomicTarget (va : Word) (n : Nat) (lane : Option Nat) : Act Nat := do
  let s ← get
  let a := addr54 va
  if isGlobal a then do
    let (pa, _) ← globalAddr s.myDie s.actx s.core.ctx.mode va .atomic false s.core.ctx.task
    acquire va n .atomic
    waitHeld pa
    logWrite va pa .atomic lane
    return pa
  else
    match s.localLoc s.me.toNat a n false with
    | none => raise { code := 0x007, addr := va, acc := 4 }
    | some l => return l

/-- A device-scope atomic on a line homed elsewhere (R159): at its home point, or at another node, whose old value comes from outside
the device (R144). It follows the write-throughs and reductions this die's slice holds for the line (R280, R160). -/
def homeAtomic (va : Word) (l n : Nat) (w : Writer) (f : Nat → Option Nat) : Act Nat := do
  let s ← get
  let d := s.myDie
  if s.wtHere d l || s.redHere d l then stall
  match s.homeError d l va 4 with
  | some e => raise e
  | none => pure ()
  if paNode l ≠ s.node then do
    modify fun s => (s.clearDead d l).dropLine d l
    return natOfBytes (← farBytes va 4 n)
  else do
    -- at the home it waits for an engine word that has begun the line (R286)
    if s.engineOwned (paDie l) l then stall
    set (s.seeErrors (spanOf l n))
    let s ← get
    if poisonedAny s.poison (spanOf l n) then raise { code := 0x080, addr := va, acc := 4, detail := srcOf l }
    let old := natOfBytes ((spanOf l n).map s.homeByte)
    modify fun s =>
      let s := match f old with
        | some x => s.performBytes w (plainBytes l (leBytes n x))
        | none => s
      ((s.clearDead (paDie l) l).clearDead d l).dropLine d l
    return old
/-- A read-modify-write of `n` bytes at a location (R159): `f old` is the new value, or none for no store. -/
def atomicAt (va : Word) (l n : Nat) (scope : AScope) (f : Nat → Option Nat) : Act Nat := do
  let s ← get
  let d := s.myDie
  let w := s.ctxWriter s.me.toNat s.core.ctx va
  if !isPhys l then do
    let bs ← readLocal l n va 4
    let old := natOfBytes bs
    match f old with
    | some x => modify fun s => s.performBytes w (plainBytes l (leBytes n x))
    | none => pure ()
    return old
  else if scope = .device ∧ (paDie l ≠ d ∨ paNode l ≠ s.node) then homeAtomic va l n w f
  else do
    missRoom va l n
    let bs ← sliceRead d l n va 4
    let old := natOfBytes bs
    match f old with
    | some x => modify fun s => s.sliceStore d w va (plainBytes l (leBytes n x))
    | none => modify fun s => s.clearDead d l
    return old

end Sys2Proof.Machine
end

