-- ==== Sys2Proof/Machine/Memory.lean ====
section
/-!
DEFINITION. Scalar memory instructions (06_memory.md R155 to R160): loads, stores, hinted loads, touch with its page fault
(R149 to R151), prefetch, cache maintenance, atomics and reductions.
-/
namespace Sys2Proof.Machine

/-- Bytes of an access type (R53). -/
def memSize : MemType → Nat
  | .n8 | .i8 => 1 | .n16 | .i16 => 2 | .n32 | .i32 => 4 | .n64 => 8
/-- The value a load gives: sign-extended for an `i` type (R155). -/
def loadValue (z : MemType) (x : Nat) : Word :=
  match z with
  | .i8 => (BitVec.ofNat 8 x).signExtend 64
  | .i16 => (BitVec.ofNat 16 x).signExtend 64
  | .i32 => (BitVec.ofNat 32 x).signExtend 64
  | _ => w64 x
/-- Swz (R71). -/
def swz (a : Nat) (m : Nat) : Nat :=
  if m = 0 then a
  else
    let x := a / 4 % 32 ^^^ a / 2 ^ (6 + m) % 32
    a / 128 * 128 + x * 4 + a % 4
/-- The checked address of a scalar access and whether the words of an 8-byte unit are exchanged (R71, R155). -/
def scalarAddr (p : Word) (m n : Nat) (acc : Acc) : Act (Word × Bool) := do
  let a := addr54 p
  if m ≠ 0 ∧ !(decide (0x100000 ≤ a ∧ a < 0x180000)) then raise { code := 0x008, addr := p, acc := acc.code, detail := m }
  if a % n ≠ 0 then raise { code := 0x006, addr := p, acc := acc.code }
  let b := swz a m
  return (w64 (if n = 8 then b / 8 * 8 else b), n = 8 && b / 4 % 2 = 1)
/-- Exchange the two words of an 8-byte unit (R71). -/
def exchange (swap : Bool) (bs : List Byte) : List Byte := if swap then bs.drop 4 ++ bs.take 4 else bs

/-- `ld` (R155). -/
def execLd (d a : SReg) (l : La) (w : BitVec 3) (z : MemType) (o : BitVec 6) (s : State) :=
  finish (do
    let n := memSize z
    let (va, swap) ← scalarAddr (addA (s.readS a) (sext o * w64 n)) w.toNat n .load
    let bs ← loadBytes va n .load (n = 8) none
    modify fun s => (s.result l (.s d (loadValue z (natOfBytes (exchange swap bs))))).advance 4) s
/-- `st` (R155). -/
def execSt (d a : SReg) (w : BitVec 3) (z : MemType) (o : BitVec 6) (s : State) :=
  finish (do
    let n := memSize z
    let (va, swap) ← scalarAddr (addA (s.readS a) (sext o * w64 n)) w.toNat n .store
    storeBytes va (exchange swap (leBytes n (s.readS d).toNat)) (n = 8)
    modify fun s => (s.advance 4).watchStop (s.core.watchKind va n)) s
/-- The hinted load (R156). -/
def execLdHinted (d a : SReg) (l : La) (k : BitVec 4) (e : Bool) (z : MemType) (o : BitVec 4) (s : State) :=
  finish (do
    let n := memSize z
    let (va, _) ← scalarAddr (addA (s.readS a) (sext o * w64 n)) 0 n .load
    let bs ← loadBytes va n .load false (some (k.toNat, e))
    modify fun s => (s.result l (.s d (loadValue z (natOfBytes bs)))).advance 4) s

/-! ### Touch (R149 to R151) -/

/-- The page-fault record of R151. -/
def pageFaultRecord (va : Word) (actx c : Nat) (n : CtxNum) (time : Nat) : EvRec :=
  ⟨w64 (addr54 va), w64 (0x0F * 2 ^ 56 + 2 ^ 48 * (actx % 256) + 2 ^ 36 * c + 2 ^ 34 * n.toNat), c, time⟩
/-- A context of the core that is FREE and below NCTX, with the smallest number (R151, R301). -/
def Core.freeCtx (k : Core) : Option CtxNum :=
  let n := (k.image.map Image.nctx).getD 0
  ((List.range 4).filter (· < n)).map (BitVec.ofNat 2 ·) |>.find? fun i => (k.getCtx i).st = .free
/-- The PARK or WAKE context that parked earliest. -/
def Core.oldestParked (k : Core) : Option CtxNum :=
  (k.ctxs.filter fun x => x.st = .park || x.st = .wake).foldl (fun (y : Option Ctx) x => match y with
    | none => some x
    | some z => if x.parkSeq < z.parkSeq then some x else some z) none |>.map (·.num)

/-- The bytes of a saved context's slot (R94). -/
def Ctx.slotBytes (x : Ctx) (arrived : Bool) : List Byte :=
  let ws := fun (l : List Word) => l.flatMap fun w => leBytes 8 w.toNat
  ws ((List.range 32).map fun i => x.readS (BitVec.ofNat 5 i)) ++ (x.v.toList.flatMap fun v => leBytes 64 v.toNat) ++
    ws ((List.range 8).map fun i => x.readM (BitVec.ofNat 3 i)) ++ x.tcb.bytes ++
    ws [x.pc, x.taskid, x.age, x.tile, x.budget, x.rmode, x.fstat, x.vprog, x.fltinfo, x.fltaddr, w64 x.num.toNat, w64 (x.slotFlags arrived),
      x.qmode, x.mirth, x.mirrun, x.upsrc, x.tvec, x.tepc, x.tcause, x.tscr]
/-- The registers of a context as its slot holds them (R94). -/
def Ctx.fromSlot (x : Ctx) (bs : List Byte) : Ctx :=
  let w := fun (o : Nat) => w64 (natOfBytes ((bs.drop o).take 8))
  { x with
    s := Vector.ofFn fun i => w (8 * i.val)
    v := Vector.ofFn fun i => BitVec.ofNat 512 (natOfBytes ((bs.drop (0x100 + 64 * i.val)).take 64))
    m := Vector.ofFn fun i => w (0x900 + 8 * i.val)
    tcb := tcbOf ((bs.drop 0x940).take 128)
    pc := w 0x9C0, taskid := w 0x9C8, age := w 0x9D0, tile := w 0x9D8, budget := w 0x9E0, rmode := w 0x9E8, fstat := w 0x9F0
    vprog := w 0x9F8, fltinfo := w 0xA00, fltaddr := w 0xA08, qmode := w 0xA20, mirth := w 0xA28, mirrun := w 0xA30
    upsrc := w 0xA38, tvec := w 0xA40, tepc := w 0xA48, tcause := w 0xA50, tscr := w 0xA58
    restartMark := (w 0xA18).getLsbD 2 }
/-- The lowest slot in no use, or none (R95). -/
def State.freeSlot (s : State) (d : Nat) : Option Nat :=
  let used := (s.dieAt d).saved.map (·.slot)
  (List.range (used.length + 1)).find? fun i => !used.contains i && decide (i < bitsOf (s.dieAt d).hcsn 19 0)
/-- A PARK or WAKE context is saved (R93, R94), if a slot is free: the context is FREE and its state in the store. -/
def State.saveCtx (s : State) (c : Nat) (n : CtxNum) : Option State :=
  let d := dieOf c
  match s.freeSlot d with
  | none => none
  | some i =>
    let x := (s.coreAt c).getCtx n
    let arrived := x.st = .wake
    let s := s.writeHome (s.slotAddr d i) (x.slotBytes arrived)
    let s := s.updDie d fun y => { y with saved := y.saved ++ [⟨c, i, x, arrived, ((s.coreAt c).image.map (·.gang)).getD x.tcb.gang⟩] }
    some (s.updCore c fun k => k.updCtx n fun x => { x with st := .free, task := 0, lens := none, lockWait := [] })

/-- The upcall context starts (R151). -/
def State.startUpcall (s : State) (c : Nat) (n parked : CtxNum) (va : Word) : State :=
  s.updCore c fun k => k.updCtx n fun x =>
    { (x.startFrom (Vector.replicate 16 0) (Vector.replicate 16 0)) with
      s := Vector.ofFn fun i => if i.val = 3 then va &&& 0x003FFFFFFFFFFFFF else if i.val = 4 then w64 parked.toNat else 0
      upsrc := w64 (2 ^ 63 + parked.toNat)
      pc := k.upcall &&& 0x003FFFFFFFFFFFFC
      task := 0, lens := none, restarts := 0 }
/-- The parking of a faulting `tch` (R151): `e` is the exception of its upcall. None: no slot is free (R95). -/
def State.parkTouch (s : State) (e : Exc) : Option State :=
  let c := s.me.toNat
  let n := s.core.ctx.num
  let s := s.updCtx (·.closeWindows true)
  let s := s.setFault e 1
  let s := { s with core := { s.core with ctx := { s.core.ctx with st := .park, parkSeq := s.core.parks }, parks := s.core.parks + 1 } }
  let d := s.myDie
  let s := s.updDie d fun x =>
    -- faults of one cycle reach the ring by ascending linear index (R152)
    let i := x.pfq.length - (x.pfq.reverse.takeWhile fun r => r.sent = s.time && decide (c < r.sender)).length
    { x with pfq := x.pfq.take i ++ pageFaultRecord e.addr s.actx c n s.time :: x.pfq.drop i }
  let go := fun (s : State) =>
    match s.core.freeCtx with
    | some m =>
      if s.core.iris = .running then { s.startUpcall c m n e.addr with core := ((s.startUpcall c m n e.addr).core.focus m) }
      else { s with core := { s.core with pendUp := some (n, e.addr), iris := .halted } }
    | none => s
  match s.core.freeCtx with
  | some _ => some (go s)
  | none =>
    match s.core.oldestParked with
    | none => none
    | some p => (s.saveCtx c p).map go

/-- Where a `tch` page fault is delivered (R151, R341): by upcall, or as a trap. -/
def touchFault (va : Word) (code detail : Nat) : Act Unit := do
  let s ← get
  let x := s.core.ctx
  let e : Exc := { code := code, addr := va, acc := 5, detail := detail }
  if x.mode = .task && !x.upcallCode && decide (s.core.upcall.extractLsb' 2 52 ≠ 0#52) then
    if s.core.blocked true then stall
    match s.parkTouch e with
    | some s' => set s'
    -- no free save slot (R95): DETAIL 1 of a page fault; 0x081 keeps the home's die (R341, R381)
    | none => raise (if code = 0x081 then e else { e with detail := 1 })
  else raise e

/-- A pin of a page for a context in every slice of the die (R149). -/
def State.pin (s : State) (d actx : Nat) (a : Nat) (l : Leaf) : State :=
  let va := a / 2 ^ l.size * 2 ^ l.size
  s.updDie d fun x => { x with
    pins := ⟨actx, va, l, s.time + 256, false⟩ :: x.pins.filter fun p => !(p.actx = actx && p.va = va)
    expired := x.expired.filter fun p => !(p.1 = actx && inPage p.2.1 va l.size) }

/-- `tch` (R149, R151, R157). -/
def execTch (a : SReg) (l : La) (o : BitVec 6) (s : State) :=
  finish (do
    let va := addA (s.readS a) (sext o * 8)
    let ad := addr54 va
    if !isGlobal ad then
      match s.localLoc s.me.toNat ad 1 false with
      | none => raise { code := 0x007, addr := va, acc := 5 }
      | some _ => modify fun s => (s.result l .none).advance 4
    else if s.core.ctx.failNotice then
      modify fun s => s.updCtx fun x => { x with failNotice := false }
      raise { code := 0x00B, addr := va, acc := 5 }
    else
      match ← translate s.myDie s.actx va .touch s.core.ctx.task with
      | .error e => if e.code = 0x081 && !e.wait then touchFault va 0x081 e.detail else raise e
      | .absent | .malformed => touchFault va 0x014 0
      | .leaf f =>
        if regionOf (f.at ad) = .control then raise { code := 0x007, addr := va, acc := 5 }
        if !f.grants s.core.ctx.mode .touch then raise { code := 0x00A, addr := va, acc := 5 }
        modify fun s => ((s.pin s.myDie s.actx ad f).result l .none).advance 4) s

/-! ### Prefetch (R157) -/

/-- A walk that would have to wait finds nothing: a prefetch completes at issue (R157). -/
def atOnce (w : Act WalkEnd) : Act WalkEnd := fun s => match w s with | .error .stall _ => .ok .absent s | r => r
/-- A prefetch: the line of a present, readable page may enter the slice of the die, and with `l1` the core's L1D; nothing else
changes. -/
def prefetch (l1 : Bool) (a : SReg) (o : BitVec 6) (s : State) :=
  finish (do
    let va := addA (s.readS a) (sext o * 8)
    let ad := addr54 va
    if isGlobal ad then
      match ← atOnce (translate s.myDie s.actx va .load s.core.ctx.task) with
      | .leaf f =>
        let pa := f.at ad
        modify fun s =>
          if f.grants s.core.ctx.mode .load && regionOf pa ≠ .control && regionOf pa ≠ .reserved && paNode pa = s.node &&
              (s.homeError s.myDie pa va 2).isNone && !s.homeBusy pa 0 && !s.redHere s.myDie pa then
            let s := if paDie pa ≠ s.myDie && (s.copyByte s.myDie pa).isNone then s.fillLine s.myDie pa else s
            if l1 then s.l1Fill s.me.toNat false s.actx ad pa f else s
          else s
      | _ => pure ()
    modify (·.advance 4)) s
def execPfL1 (a : SReg) (o : BitVec 6) := prefetch true a o
def execPfSl (a : SReg) (o : BitVec 6) := prefetch false a o

/-! ### Cache maintenance (R158) -/

/-- The operations of `cmo`. -/
inductive CmoOp where | cln | inv | cli
  deriving DecidableEq, Repr
/-- A location lies in a range. -/
def inRange (l lo n : Nat) : Bool := decide (lo ≤ l ∧ l < lo + n)
/-- Dirty bytes of a range go to their memory. -/
def State.writeBackRange (s : State) (lo n : Nat) : State :=
  let (now, keep) := s.dirty.partition fun c => inRange c.1 lo n
  { s with dirty := keep, mem := now.foldl (fun m c => m.write c.1 c.2) s.mem }
/-- The lines of a range leave the slices of die `d`, dirty data included. -/
def State.discardRange (s : State) (d lo n : Nat) : State :=
  let s := s.updDie d fun x => { x with
    l1 := x.l1.filter fun e => e.code || !inRange (e.pa / 128 * 128) lo n
    uses := x.uses.filter fun u => !inRange (u.line * 128) lo n
    copies := x.copies.filter fun c => !inRange c.1 lo n || s.pendingHere d c.1
    copyPoison := x.copyPoison.filter fun u => !inRange u lo n }
  if paDie lo ≠ d ∨ paNode lo ≠ s.node then s
  else
    let (gone, keep) := s.dirty.partition fun c => inRange c.1 lo n
    gone.foldl (fun s c => (if Config.wroteBack s.fv then { s with mem := s.mem.write c.1 c.2 } else s).useFree) { s with dirty := keep }
/-- The lines of core `c`'s L1D and L1I in a range of virtual addresses of a context go, and it fetches no old code from there (R137). -/
def State.discardL1 (s : State) (c actx a pa n : Nat) : State :=
  (s.updDie (dieOf c) fun x => { x with
    l1 := x.l1.filter fun e => !(e.core = c && e.actx = actx && inRange (32 * e.line) a n) }).refreshCode c pa n
/-- The dies whose slices a level reaches. -/
def levelDies (v : Level) (d : Nat) : List Nat :=
  match v with
  | .l1 => [] | .slice => [d] | .home => [0, 1, 2, 3]
/-- One page's part of a range is treated. -/
def cmoSegment (op : CmoOp) (v : Level) (va : Word) (pa n : Nat) : Act Unit := do
  let s ← get
  let d := s.myDie
  if op ≠ .inv then
    let after := (s.core.sb.reverse.takeWhile fun e => !e.overlaps pa n).length
    drain (s.core.sb.length - after)
  if v ≠ .l1 then do
    -- the home of each line answers (R386), and at home level the slices of every die (R16, R328, R388, R393)
    match (List.range ((n + 127) / 128)).findSome? fun i => s.homeError d (pa + 128 * i) (addA va (w64 (128 * i))) 6 with
    | some e => raise e
    | none => pure ()
    if v = .home then
      let far := [0, 1, 2, 3].filter (· ≠ d)
      if far.any (s.tripFailed d) then raise { code := 0x082, addr := va, acc := 6 }
      if far.any fun h => s.tripWaits d h || s.inReset d h then stall
    if paNode pa = s.node && s.dies.toList.any fun x => x.locks.any fun k => inRange (k.line * 128) pa n && k.task ≠ s.core.ctx.task then softly stall
    if op ≠ .inv then do
      let s ← get
      if s.wts.any fun w => (v = .home || w.die = d) && w.bytes.any fun b => inRange b.loc pa n then stall
      if v = .home || paDie pa = d then modify (·.writeBackRange pa n)
    if op ≠ .cln then modify fun s => (levelDies v d).foldl (fun s d => s.discardRange d pa n) s
  if op ≠ .cln then modify fun s => s.discardL1 s.me.toNat s.actx (addr54 va) pa n
/-- The range in pieces that lie each in one 64 KiB page, from address `a` on. -/
def cmoPages (op : CmoOp) (v : Level) : Nat → Nat → Nat → Act Unit
  | 0, _, _ => pure ()
  | f + 1, a, e =>
    if e ≤ a then pure () else do
      let n := min (e - a) (0x10000 - a % 0x10000)
      if isGlobal a then do
        let s ← get
        let va := w64 a
        let acc : Acc := if op = .cln then .cmoRead else .cmoWrite
        match ← translate s.myDie s.actx va acc s.core.ctx.task with
        | .error x => raise x
        | .absent => pure ()
        | .malformed => raise { code := 0x00C, addr := va, acc := 6 }
        | .leaf l =>
          if regionOf (l.at a) = .control then raise { code := 0x007, addr := va, acc := 6 }
          if !l.grants s.core.ctx.mode acc then raise { code := 0x00A, addr := va, acc := 6 }
          cmoSegment op v va (l.at a) n
      cmoPages op v f (a + n) e
/-- `cmo` (R158). -/
def cmo (op : CmoOp) (a b : SReg) (l : La) (v : Level) (s : State) :=
  finish (do
    let lo := addr54 (s.readS a)
    let n := (s.readS b).toNat
    if n > 2 ^ 32 ∨ lo + n > 2 ^ 54 then raise { code := 0x007, addr := s.readS a, acc := 6 }
    if n ≠ 0 then
      let g := if v = .l1 then 32 else 128
      let a0 := lo / g * g
      let e := (lo + n + g - 1) / g * g
      cmoPages op v ((e - a0) / 0x10000 + 2) a0 e
    modify fun s => (s.result l .none).advance 4) s
def execCmoCln (a b : SReg) (l : La) (v : Level) := cmo .cln a b l v
def execCmoInv (a b : SReg) (l : La) (v : Level) := cmo .inv a b l v
def execCmoCli (a b : SReg) (l : La) (v : Level) := cmo .cli a b l v

/-! ### Atomics (R159) -/

/-- An atomic: `f old b c` is the new value of the location, or none for no store. -/
def amo (f : RmwFn) (d a b : SReg) (l : La) (z : MemW) (c : AScope) (s : State) :=
  finish (do
    let n := memBytes z
    let va := s.readS a
    if addr54 va % n ≠ 0 then raise { code := 0x006, addr := va, acc := 4 }
    let loc ← atomicTarget va n none
    drainAll
    let m := 2 ^ (8 * n)
    let old ← atomicAt va loc n c fun old => f.apply (8 * n) old ((s.readS b).toNat % m) ((s.readS d).toNat % m)
    modify fun s => ((s.result l (.s d (w64 old))).advance 4).watchStop (s.core.watchKind va n)) s
def execAmoSwap (d a b : SReg) (l : La) (z : MemW) (c : AScope) := amo .swap d a b l z c
def execAmoCas (d a b : SReg) (l : La) (z : MemW) (c : AScope) := amo .cas d a b l z c
def execAmoAdd (d a b : SReg) (l : La) (z : MemW) (c : AScope) := amo .add d a b l z c
def execAmoAnd (d a b : SReg) (l : La) (z : MemW) (c : AScope) := amo .and d a b l z c
def execAmoOr (d a b : SReg) (l : La) (z : MemW) (c : AScope) := amo .or d a b l z c
def execAmoXor (d a b : SReg) (l : La) (z : MemW) (c : AScope) := amo .xor d a b l z c
def execAmoMax (d a b : SReg) (l : La) (z : MemW) (c : AScope) := amo .max d a b l z c
def execAmoMin (d a b : SReg) (l : La) (z : MemW) (c : AScope) := amo .min d a b l z c
def execAmoMaxn (d a b : SReg) (l : La) (z : MemW) (c : AScope) := amo .maxn d a b l z c
def execAmoMinn (d a b : SReg) (l : La) (z : MemW) (c : AScope) := amo .minn d a b l z c

/-! ### Reductions (R160) -/

/-- A reduction enters the store buffer. -/
def red (fn : RedFn) (a b : SReg) (z : MemW) (s : State) :=
  finish (do
    if s.core.ctx.speculative then raise { code := 0x04A, detail := 0x1E }
    let n := memBytes z
    let va := s.readS a
    if addr54 va % n ≠ 0 then raise { code := 0x006, addr := va, acc := 7 }
    if !isGlobal (addr54 va) then raise { code := 0x007, addr := va, acc := 7 }
    let (pa, _) ← globalAddr s.myDie s.actx s.core.ctx.mode va .red false s.core.ctx.task
    let x := s.core.ctx
    let y := w64 ((s.readS b).toNat % 2 ^ (8 * n))
    sbPush ⟨.red fn z y, va, pa, plainBytes pa (List.replicate n 0), x.num, x.task, false, [], 0, aidOf s.me.toNat x⟩
    modify (·.advance 4)) s
def execRedAdd (a b : SReg) (z : MemW) := red .add a b z
def execRedAnd (a b : SReg) (z : MemW) := red .and a b z
def execRedOr (a b : SReg) (z : MemW) := red .or a b z
def execRedXor (a b : SReg) (z : MemW) := red .xor a b z
def execRedMax (a b : SReg) (z : MemW) := red .max a b z
def execRedMin (a b : SReg) (z : MemW) := red .min a b z
def execRedMaxn (a b : SReg) (z : MemW) := red .maxn a b z
def execRedMinn (a b : SReg) (z : MemW) := red .minn a b z
def execRedFadd (a b : SReg) (z : MemW) := red .fadd a b z
def execRedFmax (a b : SReg) (z : MemW) := red .fmax a b z
def execRedFmin (a b : SReg) (z : MemW) := red .fmin a b z

end Sys2Proof.Machine
end

