-- ==== Sys2Proof/Machine/VectorMem.lean ====
section
/-!
DEFINITION. Vector memory instructions (07_vector.md R178 to R183): typed loads and stores through fat pointers (R33, R34),
local gather and scatter, and vector atomics, lane by lane from VPROG.
-/
namespace Sys2Proof.Machine

/-- A memory format of R33 that the vector unit decodes: an element type, or `e8m0`. -/
inductive MemFmt where
  | elem (t : ElemTy)
  | e8m0
  deriving DecidableEq, Repr
/-- The element type of a format code, and whether it is block-scaled (R33); none for raw, coded and sparse codes. -/
def fmtOfCode (c : Nat) : Option (MemFmt × Bool) :=
  match c with
  | 0x01 => some (.elem .i8, false) | 0x02 => some (.elem .n8, false) | 0x03 => some (.elem .i16, false)
  | 0x04 => some (.elem .n16, false) | 0x05 => some (.elem .i32, false) | 0x06 => some (.elem .n32, false)
  | 0x07 => some (.elem .i64, false) | 0x08 => some (.elem .n64, false) | 0x09 => some (.elem .i4, false)
  | 0x10 => some (.elem .f64, false) | 0x11 => some (.elem .f32, false) | 0x12 => some (.elem .f16, false)
  | 0x13 => some (.elem .bf16, false) | 0x14 => some (.elem .e4m3, false) | 0x15 => some (.elem .e5m2, false)
  | 0x16 => some (.elem .e2m1, false) | 0x17 => some (.e8m0, false)
  | 0x18 => some (.elem .e4m3, true) | 0x19 => some (.elem .e5m2, true) | 0x1A => some (.elem .e2m1, true)
  | 0x1B => some (.elem .i8, true) | 0x1C => some (.elem .i4, true)
  | _ => none
/-- Bits of an element of a format. -/
def MemFmt.width : MemFmt → Nat
  | .elem t => elemWidth t
  | .e8m0 => 8
/-- Format code and block length of an address (R33). -/
def ptrCode (p : Word) : Nat := bitsOf p 63 58
@[inherit_doc ptrCode] def ptrL (p : Word) : Nat := bitsOf p 57 54
/-- A block length agrees with its code (R34). -/
def blockOk (scaled : Bool) (l : Nat) : Bool := if scaled then decide (4 ≤ l ∧ l ≤ 12) else decide (l = 0)

/-- The memory format E of `vld` and `vst` (R179). -/
def vecFormat (p st : Word) (t : ElemTy) : Act MemFmt := do
  let e ← if ptrCode p = 0 then pure (MemFmt.elem t)
    else match fmtOfCode (ptrCode p) with
      | some (e, scaled) => if blockOk scaled (ptrL p) then pure e else raise { code := 0x00D, addr := p }
      | none => raise { code := 0x00D, addr := p }
  if e.width = 4 ∧ st ≠ 0 then raise { code := 0x00E, addr := p }
  return e
/-- A memory element as register type T, with flags (R170, R29). -/
def fromMem (e : MemFmt) (t : ElemTy) (mode : RMode) (x : Nat) : Nat × Flags :=
  match e with
  | .elem u => if u = t then (x, 0) else convertElem u t mode false x
  | .e8m0 =>
    match elemFmt t with
    | some f => convertFloat f mode false (e8m0Val x)
    | none => convertInt (elemSigned t) (elemWidth t) mode (e8m0Val x)
/-- A register element as a memory element. DESIGN CHOICE: a store as `e8m0` sets no flag, also where the value is clamped or has no scale
(log 86). -/
def toMem (t : ElemTy) (e : MemFmt) (mode : RMode) (x : Nat) : Nat × Flags :=
  match e with
  | .elem u => if u = t then (x, 0) else convertElem t u mode false x
  | .e8m0 => (e8m0Of (elemVal t x), 0)

/-- VPROG of the context in focus (R178). -/
def State.vprogOf (s : State) : Nat := s.core.ctx.vprog.toNat
/-- Set it. -/
def State.setVprog (s : State) (i : Nat) : State := s.updCtx fun x => { x with vprog := w64 i }
/-- Replace one lane of a vector register; an error elsewhere in it stays (R381). -/
def State.setLane (s : State) (d : VReg) (w i x : Nat) : State :=
  s.updCtx fun c => { c.writeV d (packLanes w ((lanes (s.readV d) w).set i x)) with bad := c.bad }
/-- Lanes VPROG to n − 1 in ascending order; an early end at lane k leaves VPROG = k (R178, R356). -/
def lanesFrom (n : Nat) (m : Word) (f : Nat → Act Unit) : Nat → Act Unit
  | 0 => pure ()
  | fuel + 1 => do
    let i := (← get).vprogOf
    if n ≤ i then pure () else do
      if laneActive m n i then atLane (some i) (f i)
      modify (·.setVprog (i + 1))
      lanesFrom n m f fuel
/-- A vector memory instruction: its lanes, then VPROG ← 0. -/
def vectorMem (n : Nat) (m : Word) (f : Nat → Act Unit) : Act Unit := do
  lanesFrom n m f n
/-- D as the instruction found it when it first issued, kept while it issues again after a wait (R69). -/
def vectorOld (d : VReg) : Act Vec := do
  let s ← get
  match s.core.ctx.vecOld with
  | some v => return v
  | none =>
    modify fun s => s.updCtx fun x => { x with vecOld := some (s.readV d) }
    return s.readV d
/-- The lanes have been written to D as they came (R178); under a lookahead D keeps its old value until the window ends. -/
def vectorDone (d : VReg) (l : La) (old : Vec) : Act Unit :=
  modify fun s =>
    let s := (s.setVprog 0).updCtx fun x => { x with vecOld := none }
    let r := s.readV d
    if l = 0 then (s.writeV d r).advance 4
    else
      ((s.writeV d old).result l (.v d r)).advance 4

/-- The address of lane i of `vld` and `vst` (R179). -/
def laneAddr (p st : Word) (e : MemFmt) (i : Nat) : Word :=
  if st ≠ 0 then addA p (w64 i * st)
  else if e.width = 4 then addA p (w64 (i / 2)) else addA p (w64 (i * (e.width / 8)))

/-- `vld` (R179). -/
def execVld (d : VReg) (a b : SReg) (k : MReg) (l : La) (t : ElemTy) (s : State) :=
  finish (do
    let p := s.readS a
    let st := s.readS b
    let e ← vecFormat p st t
    let n := laneCount t
    let old ← vectorOld d
    let mode := modeOfCode s.core.ctx.rmode
    vectorMem n (s.readM k) fun i => do
      let va := laneAddr p st e i
      let sz := max 1 (e.width / 8)
      if addr54 va % sz ≠ 0 then raise { code := 0x006, addr := va, acc := 2 }
      let x := natOfBytes (← loadBytes va sz .load false none)
      let x := if e.width = 4 then x / 2 ^ (4 * (i % 2)) % 16 else x
      let (y, fl) := fromMem e t mode x
      modify fun s => (s.setLane d (elemWidth t) i y).raiseFlags fl
    vectorDone d l old) s

/-- Bytes join a group entry of the same unit, later lanes over earlier ones. -/
def joinBytes (old new : List SbByte) : List SbByte :=
  new.foldl (fun l b =>
    if l.any (·.loc = b.loc) then
      l.map fun c => if c.loc = b.loc then ⟨c.loc, (c.val &&& ~~~b.mask) ||| (b.val &&& b.mask), c.mask ||| b.mask⟩ else c
    else l ++ [b]) old
/-- A lane of `vst` enters the buffer, in the entry of its 8-byte unit (R138, R180). -/
def pushLane (va : Word) (loc : Nat) (bytes : List SbByte) : Act Unit := do
  let s ← get
  let u := loc / 8
  let x := s.core.ctx
  let mine := fun (e : SbEntry) => e.grp && e.loc / 8 = u && e.ctxn = x.num && e.task = x.task
  if s.core.sb.any mine then
    let sb := s.core.sb.map fun (e : SbEntry) =>
      if mine e then { e with bytes := joinBytes e.bytes bytes, lanes := e.lanes ++ [bytes] } else e
    set { s with core := { s.core with sb := sb } }
  else sbPush ⟨.store, w64 (addr54 va / 8 * 8), u * 8, bytes, x.num, x.task, true, [bytes], 0, aidOf s.me.toNat x⟩
/-- The kind of a watchpoint that some active lane meets (R319). -/
def State.lanesWatch (s : State) (n : Nat) (m : Word) (addr : Nat → Word) (sz : Nat) : Option Nat :=
  ((List.range n).filter fun i => laneActive m n i).foldl (fun r i =>
    match r, s.core.watchKind (addr i) sz with
    | some 2, _ => some 2
    | r, none => r
    | _, k => k) none

/-- `vst` (R180). -/
def execVst (d : VReg) (a b : SReg) (k : MReg) (t : ElemTy) (s : State) :=
  finish (do
    let p := s.readS a
    let st := s.readS b
    let e ← vecFormat p st t
    let n := laneCount t
    let mode := modeOfCode s.core.ctx.rmode
    let sz := max 1 (e.width / 8)
    -- lanes join the entries of this `vst` only, also where it issues again after a wait (R138, R180)
    if s.core.ctx.vecOld.isNone then modify fun s => { s with core := { s.core with sb := s.core.sb.map fun e => { e with grp := false } } }
    let _ ← vectorOld d
    vectorMem n (s.readM k) fun i => do
      let va := laneAddr p st e i
      if addr54 va % sz ≠ 0 then raise { code := 0x006, addr := va, acc := 3 }
      let loc ← storeTarget va sz .store false (some i)
      let (y, fl) := toMem t e mode (lane (s.readV d) (elemWidth t) i)
      let bytes := if e.width = 4
        then [⟨loc, BitVec.ofNat 8 (y * 2 ^ (4 * (i % 2))), if i % 2 = 0 then 0x0F else 0xF0⟩]
        else plainBytes loc (leBytes sz y)
      pushLane va loc bytes
      modify (·.raiseFlags fl)
    modify fun s => (((s.setVprog 0).updCtx fun x => { x with vecOld := none }).advance 4).watchStop
      (s.lanesWatch n (s.readM k) (laneAddr p st e) sz)) s

/-- The address of a lane by index (R181, R182). -/
def indexAddr (p : Word) (v : Vec) (n i : Nat) : Word := addA p (w64 (lane v (8 * n) i * n))
/-- A local address of a gather or scatter; a global one raises a bounds fault (R181). -/
def indexLocal (va : Word) (n : Nat) (acc : Acc) : Act Unit := do
  if addr54 va % n ≠ 0 then raise { code := 0x006, addr := va, acc := acc.code }
  if isGlobal (addr54 va) then raise { code := 0x007, addr := va, acc := acc.code }
/-- `vgath` (R181). -/
def execVgath (d : VReg) (a : SReg) (b : VReg) (k : MReg) (l : La) (e : MemW) (s : State) :=
  finish (do
    let n := memBytes e
    let old ← vectorOld d
    let idx := s.readV b
    vectorMem (64 / n) (s.readM k) fun i => do
      let va := indexAddr (s.readS a) idx n i
      indexLocal va n .load
      let bs ← loadBytes va n .load false none
      modify fun s => s.setLane d (8 * n) i (natOfBytes bs)
    vectorDone d l old) s
/-- `vscat` (R181): it completes when its stores have performed. -/
def execVscat (d : VReg) (a : SReg) (b : VReg) (k : MReg) (l : La) (e : MemW) (s : State) :=
  finish (do
    let n := memBytes e
    vectorMem (64 / n) (s.readM k) fun i => do
      let va := indexAddr (s.readS a) (s.readV b) n i
      indexLocal va n .store
      storeBytes va (leBytes n (lane (s.readV d) (8 * n) i)) false
    drainAll
    modify fun s => ((s.setVprog 0).result l .none).advance 4) s

/-- A vector atomic (R182): `f old b` is the new value of a lane of `n` bytes. -/
def vamo (n : Nat) (f : Nat → Nat → Nat) (d : VReg) (a : SReg) (b : VReg) (k : MReg) (l : La) (s : State) :=
  finish (do
    let old ← vectorOld d
    let idx := s.readV b
    drainAll
    vectorMem (64 / n) (s.readM k) fun i => do
      let va := indexAddr (s.readS a) idx n i
      if addr54 va % n ≠ 0 then raise { code := 0x006, addr := va, acc := 4 }
      let loc ← atomicTarget va n (some i)
      let x ← atomicAt va loc n .die fun o => some (f o (lane old (8 * n) i))
      modify fun s => s.setLane d (8 * n) i x
    let w := s.lanesWatch (64 / n) (s.readM k) (indexAddr (s.readS a) idx n) n
    vectorDone d l old
    modify (·.watchStop w)) s
/-- A function of R160 on 32-bit lanes. -/
def red32 (fn : RedFn) (old b : Nat) : Nat := redOp fn .w32 old b
def execVamoAdd32 (d : VReg) (a : SReg) (b : VReg) (k : MReg) (l : La) := vamo 4 (red32 .add) d a b k l
def execVamoAdd64 (d : VReg) (a : SReg) (b : VReg) (k : MReg) (l : La) := vamo 8 (redOp .add .w64) d a b k l
def execVamoMax32 (d : VReg) (a : SReg) (b : VReg) (k : MReg) (l : La) := vamo 4 (red32 .max) d a b k l
def execVamoMin32 (d : VReg) (a : SReg) (b : VReg) (k : MReg) (l : La) := vamo 4 (red32 .min) d a b k l
def execVamoMaxn32 (d : VReg) (a : SReg) (b : VReg) (k : MReg) (l : La) := vamo 4 (red32 .maxn) d a b k l
def execVamoMinn32 (d : VReg) (a : SReg) (b : VReg) (k : MReg) (l : La) := vamo 4 (red32 .minn) d a b k l
def execVamoFadd32 (d : VReg) (a : SReg) (b : VReg) (k : MReg) (l : La) := vamo 4 (red32 .fadd) d a b k l
def execVamoFmax32 (d : VReg) (a : SReg) (b : VReg) (k : MReg) (l : La) := vamo 4 (red32 .fmax) d a b k l
def execVamoFmin32 (d : VReg) (a : SReg) (b : VReg) (k : MReg) (l : La) := vamo 4 (red32 .fmin) d a b k l
def execVamoSwap32 (d : VReg) (a : SReg) (b : VReg) (k : MReg) (l : La) := vamo 4 (fun _ x => x) d a b k l
def execVamoSwap64 (d : VReg) (a : SReg) (b : VReg) (k : MReg) (l : La) := vamo 8 (fun _ x => x) d a b k l

end Sys2Proof.Machine
end

