-- ==== Sys2Proof/Machine/TaskIns.lean ====
section
/-!
DEFINITION. Task instructions (10_sync.md R254 to R261) and the waits on engines (R214, R215).
-/
namespace Sys2Proof.Machine

/-- The exception 0x012 with a DETAIL of R350. -/
def taskControl (d : Nat) (a : Word) : Exc := { code := 0x012, addr := a, detail := d }
/-- A TCB image, read as loads of the core (R254); a fault has ACC 8 (R350). -/
def readTcb (va : Word) : Act Tcb := do
  let bs ← (List.range 16).mapM fun i => loadBytes (addA va (w64 (8 * i))) 8 .tcb false none
  return tcbOf bs.flatten
/-- Reserved fields of a TCB (R83, R84). -/
def Tcb.reservedSet (t : Tcb) : Bool :=
  decide (bitsOf (t.word 2) 58 56 ≠ 0) || decide (bitsOf (t.word 13) 47 44 ≠ 0) || decide (bitsOf (t.word 13) 31 16 ≠ 0) ||
    decide (bitsOf (t.word 14) 63 48 ≠ 0) || decide (t.word 15 ≠ 0)
/-- The checks of R350 on an image (DETAIL 2 to 4); `kind` is the instruction's (log 29). -/
def checkTcb (kind : Nat) (t : Tcb) (a : Word) : Act Unit := do
  if t.kind ≠ kind ∨ t.cls = 3 ∨ (t.cls = 1 ∧ kind = 3) ∨ (t.cls = 2 ∧ kind ≠ 2) ∨ (t.cls ≠ 2 ∧ kind = 2) ∨ t.reservedSet then raise (taskControl 2 a)
  if kind ≠ 4 ∧ t.pred ≠ 0 then raise (taskControl 3 a)
  let s ← get
  let e := t.word 0
  let inCode := match s.launchOf s.me.toNat with | some l => (l.kernelOf (addr54 e)).isSome | none => false
  if e.extractLsb' 0 2 ≠ 0#2 ∨ !inCode then raise (taskControl 4 a)

/-- Another task holds the line of a TCB that the context in focus hands over (R245). -/
def State.tcbHeld (s : State) (a : Word) : Bool :=
  match (s.hardAddr s.myDie s.actx s.core.ctx.mode a .tcbWrite s.core.ctx.task).2 with
  | .ok pa => s.heldAtHome pa s.core.ctx.task
  | .error _ => false
/-- A creating instruction hands its TCB over, or places it in the outbox of a guarded or ordered task (R248, R376). A watchpoint that the
stores of a `join` meet stops the core after it (R319). -/
def create (kind : Handover) (t : Tcb) (a arg : Word) : Act Unit := do
  let s ← get
  let x := s.core.ctx
  let e : OutEntry := ⟨kind, t, a, arg⟩
  if x.speculative then
    if x.outbox.length ≥ 16 then raise { code := 0x048, addr := a }
    modify fun s => (s.updCtx fun x => { x with outbox := x.outbox ++ [e] }).advance 4
  else
    if kind = .join ∨ kind = .msg then drainAll
    let s ← get
    match s.handOver s.me.toNat s.core.ctx e with
    | (s', .done) =>
      let met := if kind = .join then (joinWords a).filterMap (s.core.watchKind · 8) else []
      set s'
      modify fun s => (s.advance 4).watchStop met.max?
    | (_, .wait) => if kind = .join && s.tcbHeld a then softly stall else stall
    | (_, .error e) => raise e

/-- `spawn` (R255). -/
def execSpawn (a : SReg) (s : State) :=
  finish (do
    let va := s.readS a
    if addr54 va % 128 ≠ 0 then raise (taskControl 1 va)
    if !s.core.ctx.speculative && !s.dequeOk s.me.toNat then raise (taskControl 12 0)
    let t ← readTcb va
    checkTcb 1 t va
    create .spawn t va 0) s
/-- `join` (R257). -/
def execJoin (a : SReg) (s : State) :=
  finish (do
    let va := s.readS a
    if addr54 va % 128 ≠ 0 then raise (taskControl 1 va)
    if !isGlobal (addr54 va) then raise (taskControl 5 va)
    let t ← readTcb va
    checkTcb 4 t va
    create .join t va 0) s
/-- `tenq` (R258). -/
def execTenq (a b : SReg) (s : State) :=
  finish (do
    let va := s.readS a
    if addr54 va % 128 ≠ 0 then raise (taskControl 1 va)
    let t ← readTcb va
    checkTcb 2 t va
    let logb := match (s.launchOf s.me.toNat).bind fun l => l.kernelOf (addr54 (t.word 0)) with
      | some (_, k) => bitsOf (k.hdr.toList.getD 4 0) 63 32
      | none => 0
    if logb = 0 then raise (taskControl 7 va)
    create .tenq t va (s.readS b)) s
/-- A good core that holds the image of a kernel of the issuing launch (R350). -/
def State.messageCore (s : State) (dst : Nat) : Bool :=
  s.good dst && match s.core.image, (s.coreAt dst).image with
    | some i, some j => decide (i.launch = j.launch)
    | _, _ => false
/-- The destination of a message holds the image of a kernel of the issuing launch whose code holds ENTRY (R259, R350). -/
def State.messageOk (s : State) (dst : Nat) (entry : Word) : Bool :=
  s.good dst && match s.core.image, (s.coreAt dst).image with
    | some i, some j => i.launch = j.launch && (match s.launch? j.launch with
      | some l => ((l.kernels[j.kernel]?).map fun k => k.holds (addr54 entry)).getD false
      | none => false)
    | _, _ => false
/-- `msg` (R259). -/
def execMsg (a b : SReg) (s : State) :=
  finish (do
    let va := s.readS a
    let y := s.readS b
    if addr54 va % 128 ≠ 0 then raise (taskControl 1 va)
    -- the checks on register values come before the accesses to the image (R340, R357)
    if bitsOf y 63 32 ≠ 0 ∨ bitsOf y 15 12 ≠ 0 ∨ !s.messageCore (bitsOf y 11 0) then raise (taskControl 6 va)
    let t ← readTcb va
    checkTcb 3 t va
    if !s.messageOk (bitsOf y 11 0) (t.word 0) then raise (taskControl 6 va)
    create .msg t va y) s
/-- `popd` (R256). -/
def execPopd (d : SReg) (s : State) :=
  finish (do
    let va := s.readS d
    let a := addr54 va
    let c := s.me.toNat
    if a % 128 ≠ 0 then raise (taskControl 1 va)
    match s.localLoc c a 128 false with
    | none => raise (taskControl 8 va)
    | some l =>
      if !(decide (tcmLoc c 0 ≤ l ∧ l < tcmLoc c 0x20000)) then raise (taskControl 8 va)
      if s.core.ctx.speculative ∨ s.core.ctx.absorb.length ≥ 16 then modify fun s => (s.writeS d 0).advance 4
      else
        if !s.dequeOk c then raise (taskControl 12 0)
        match s.dequePop c with
        | none => modify fun s => (s.writeS d 0).advance 4
        | some (t, _) =>
          -- the buffer's earlier stores leave first
          let after := (s.core.sb.reverse.takeWhile fun e => !e.overlaps l 128).length
          drain (s.core.sb.length - after)
          modify fun s =>
            let s := ((s.dequePop c).map (·.2)).getD s
            let s := s.performBytes (s.ctxWriter c s.core.ctx va) (plainBytes l t.bytes)
            ((s.updCtx fun x => { x with absorb := x.absorb ++ [⟨t.word 3, t.word 12, t.word 13⟩] }).writeS d 1).advance 4) s
/-- `aset` (R260, R242). -/
def execAset (a b : SReg) (i : BitVec 3) (s : State) :=
  finish (do
    let x := s.core.ctx
    let new : AtomicSet := ⟨i.toNat, s.readS a, (s.readS b).toNat, false⟩
    if x.cls ≠ 1 ∨ x.sets.any (fun t => t.idx = i.toNat && t.acquired) then raise (taskControl 9 0)
    if new.len ≠ 0 ∧ (addr54 new.base + new.len - 1) / 128 - addr54 new.base / 128 + 1 > 64 then raise (taskControl 9 0)
    modify fun s => (s.updCtx fun x =>
      let rest := x.sets.filter (·.idx ≠ i.toNat)
      { x with sets := if new.len = 0 then rest else rest ++ [new] }).advance 4) s

/-- All open windows end, or the instruction waits for a `mi.qry` (R70). -/
def endWindows : Act Unit := do
  if (← get).core.blocked true then stall
  modify fun s => s.updCtx (·.closeWindows true)
/-- `tend` (R261). -/
def execTend (s : State) :=
  finish (do
    let x := s.core.ctx
    let c := s.me.toNat
    if x.upcallCode then raise { code := 0x010 }
    endWindows
    if s.core.queues.toList.any fun q => q.any (·.task = x.task) then stall
    let after := (s.core.sb.reverse.takeWhile (·.task ≠ x.task)).length
    -- the buffer of a STOPPING core is not drained, and a plain task ends without it (R97, R309)
    unless s.core.iris ≠ .running ∧ x.cls ≠ 1 do drain (s.core.sb.length - after)
    match x.cls with
    | 1 =>
      let (s, ok) := (← get).commit c x.num
      set s
      if !ok then stall
    | 2 => modify fun s => (s.updCtx fun x => { x with st := .done }).boundary c
    | _ => modify fun s => s.retire c x.num
    -- a task end (R315)
    modify fun s => s.coreSignal c 13) s

/-! ### Waiting for engines (R211, R214, R215) -/

/-- Fields of EVQ (R124). -/
def evqHead (e : Word) : Nat := bitsOf e 63 48
@[inherit_doc evqHead] def evqTail (e : Word) : Nat := bitsOf e 47 32
@[inherit_doc evqHead] def evqLogn (e : Word) : Nat := bitsOf e 23 20
/-- TCM offset of a record of the ring (R211). -/
def evqSlot (e : Word) (n : Nat) : Nat := bitsOf e 16 4 * 16 + 16 * (n % 2 ^ evqLogn e)
/-- `evr` (R214): the record is accounted by Lens as it is taken (R313). -/
def execEvr (d : SReg) (s : State) :=
  finish (do
    let e := s.core.evq
    if evqLogn e = 0 then raise { code := 0x00E }
    if evqHead e = evqTail e then stall
    let l := tcmLoc s.me.toNat (evqSlot e (evqHead e))
    let lo ← readLocal l 8 (w64 (evqSlot e (evqHead e))) 2
    let hi ← readLocal (l + 8) 8 (w64 (evqSlot e (evqHead e) + 8)) 2
    modify fun s =>
      -- the record of a delivery, or of a kick's arrival or acknowledgement, is an acquire at device scope (R212, R278)
      let kind := natOfBytes hi / 2 ^ 56
      let s := if 2 ≤ kind ∧ kind ≤ 4 then s.acquireCopies s.myDie false else s
      let k := { s.core with evq := setBits e 63 48 ((evqHead e + 1) % 2 ^ 16), ringTags := s.core.ringTags.drop 1 }
      let k := match s.core.ringTags.head? with
        | some (some t) => k.account { t with start := s.time } s.time
        | _ => k
      ((({ s with core := k }).writeS d (w64 (natOfBytes lo))).writeS (d + 1) (w64 (natOfBytes hi))).advance 4) s
/-- `ewt` (R215). -/
def execEwt (a : SReg) (q : QueueId) (s : State) :=
  finish (do
    let words := s.core.queue (queueCode q)
    if a = 0 then
      if words.any (·.ctxn = s.core.ctx.num) then stall
    else
      let n := (s.readS a).extractLsb' 0 32
      if !words.isEmpty && !decide ((s.core.seq.toList.getD (queueCode q) 0 - n).toNat < 2 ^ 31) then stall
    modify (·.advance 4)) s

end Sys2Proof.Machine
end

