-- ==== Sys2Proof/Machine/Barrier.lean ====
section
/-!
DEFINITION. Barriers (10_sync.md R233 to R238) and fences (R239).
-/
namespace Sys2Proof.Machine

/-- NBAR of a kernel image (R103). -/
def Image.nbar (i : Image) : Nat := bitsOf (i.word 2) 44 40
/-- The image of a gang's kernel that a core holds, or held at its pre-emption point while the gang is being suspended (R298, R299). -/
def State.imageIn (s : State) (c g : Nat) : Option Image :=
  match (s.coreAt c).image with
  | some j => if j.gang = g then some j else none
  | none => (s.susp.find? fun v => v.core = c && v.gang = g).map (·.image)
/-- The members of a barrier: the cores of the cluster, or of the gang, whose kernel declares it (R233). -/
def State.members (s : State) (gang : Bool) (n : Nat) : List Nat :=
  match s.core.image with
  | none => []
  | some i =>
    let here := fun (c : Nat) => s.good c && match s.imageIn c i.gang with
      | some j => decide (j.nbar > n)
      | none => false
    if gang then s.liveCores.filter here else (clusterCores (clusterOf s.me.toNat)).filter here
/-- A(c) at a barrier (R233). -/
def Core.arrivals (k : Core) (gang : Bool) (n : Nat) : Nat := (if gang then k.arrG else k.arrC).toList.getD n 0
/-- The lead of the core in focus (R233). -/
def State.lead (s : State) (gang : Bool) (n : Nat) : Nat :=
  let a := s.core.arrivals gang n
  a - ((s.members gang n).map fun c => (s.coreAt c).arrivals gang n).foldl min a
/-- Index of a barrier in a list over both scopes. -/
def barKey (gang : Bool) (n : Nat) : Nat := if gang then 16 + n else n
/-- A(c) ← A(c) + 1, contributing `x` to the phase (R234, R237); four phases are kept. -/
def Core.arrive (k : Core) (gang : Bool) (n : Nat) (x : Option Word) : Core :=
  let a := k.arrivals gang n + 1
  let set16 := fun (v : Vector Nat 16) => if h : n < 16 then v.set n a h else v
  let keep := k.contrib.filter fun t => t.key ≠ barKey gang n ∨ a < t.phase + 4
  { k with
    arrC := if gang then k.arrC else set16 k.arrC
    arrG := if gang then set16 k.arrG else k.arrG
    contrib := match x with | some v => keep ++ [⟨barKey gang n, a, v, k.ctx.num, k.ctx.pc⟩] | none => keep }
/-- The arrive of R234. -/
def arrive (gang : Bool) (n : Nat) (x : Option Word) : Act Unit := do
  let s ← get
  if s.lead gang n ≥ 3 then stall
  drainAll
  let s ← get
  if gang && s.unacked s.me.toNat false then stall
  modify fun s => { s with core := s.core.arrive gang n x }
/-- The wait of R235 for phase `p`, which acquires at die or device scope (R236). -/
def await (gang : Bool) (n p : Nat) : Act Unit := do
  let s ← get
  if (s.members gang n).any fun c => (s.coreAt c).arrivals gang n < p then stall
  modify fun s =>
    let s := s.acquireOrder s.me.toNat
    if gang then s.acquireCopies s.myDie false else s
/-- The contributions to `bar.max` of a core, which may have been saved for gang `g` (R237, R299). -/
def State.contribOf (s : State) (c g : Nat) : List Contrib :=
  (s.coreAt c).contrib ++ ((s.susp.filter fun v => v.core = c && v.gang = g).flatMap (·.contrib))
/-- The maximum of the contributions to a phase (R237). -/
def State.barMax (s : State) (gang : Bool) (n p : Nat) : Word :=
  (s.members gang n).foldl (fun m c =>
    match (s.contribOf c ((s.core.image.map (·.gang)).getD 0)).find? fun t => t.key = barKey gang n && t.phase = p with
    | some t => if m.toNat < t.val.toNat then t.val else m
    | none => m) 0
/-- The phase that the arrival of this `bar.max` counted for: that of its latest contribution, else A(c) (R237). -/
def Core.maxPhase (k : Core) (gang : Bool) (n : Nat) : Nat :=
  ((k.contrib.reverse.find? fun t => t.key = barKey gang n && t.ctxn = k.ctx.num && t.pc = k.ctx.pc).map (·.phase)).getD (k.arrivals gang n)

/-- `bar.arv` (R234). -/
def execBarArv (g : Bool) (n : BitVec 4) (s : State) :=
  finish (do
    arrive g n.toNat none
    modify (·.advance 4)) s
/-- `bar.wt` (R235). -/
def execBarWt (g : Bool) (n : BitVec 4) (s : State) :=
  finish (do
    await g n.toNat (s.core.arrivals g n.toNat)
    modify (·.advance 4)) s
/-- `bar.max` (R237): VPROG.ELEM is 1 from its arrival until its end, so that an execution abandoned in the wait has arrived
(R349). -/
def execBarMax (d a : SReg) (g : Bool) (n : BitVec 4) (s : State) :=
  finish (do
    if s.vprogOf = 0 then
      arrive g n.toNat (some (s.readS a))
      modify (·.setVprog 1)
    let p := (← get).core.maxPhase g n.toNat
    await g n.toNat p
    modify fun s => ((s.writeS d (s.barMax g n.toNat p)).setVprog 0).advance 4) s

/-! ### Fences (R239) -/

/-- The release of a scope. -/
def release (c : FScope) : Act Unit :=
  match c with
  | .cl | .di => pure ()
  | .dv | .sy => do
    drainAll
    let s ← get
    if s.unacked s.me.toNat (c = .sy) then stall
/-- The acquire of a scope: at device and system scope the die's copies go (R281); at every scope what the die shows joins the core's
order (R279). -/
def acquireScope (c : FScope) : Act Unit := modify fun s =>
  let s := s.acquireOrder s.me.toNat
  match c with
  | .cl | .di => s
  | .dv => s.acquireCopies s.myDie false
  | .sy => s.acquireCopies s.myDie true

/-- `fence` (R239). -/
def execFence (c : FScope) (s : State) :=
  finish (do
    drainAll
    release c
    acquireScope c
    modify (·.advance 4)) s
/-- `fence.acq`. -/
def execFenceAcq (c : FScope) (s : State) :=
  finish (do
    acquireScope c
    modify (·.advance 4)) s
/-- `fence.rel`. -/
def execFenceRel (c : FScope) (s : State) :=
  finish (do
    release c
    modify (·.advance 4)) s

end Sys2Proof.Machine
end

