-- ==== Sys2Proof/Machine/Branch.lean ====
section
/-!
DEFINITION. Branches and calls (05_scalar.md R118 to R120).
-/
namespace Sys2Proof.Machine

/-- PC + 4 × Sext(offset) (R52). -/
def State.target {n : Nat} (s : State) (o : BitVec n) : Word := pcAdd s.pc (sext o <<< 2)
/-- A compare branch (R118). -/
def branchIf (p : Word → Word → Bool) (a b : SReg) (o : BitVec 16) (s : State) : Host.Outcome State Fault Refusal :=
  .next (if p (s.readS a) (s.readS b) then s.setPc (s.target o) else s.advance 4)

def execBeq (a b : SReg) (o : BitVec 16) := branchIf (fun x y => x = y) a b o
def execBne (a b : SReg) (o : BitVec 16) := branchIf (fun x y => x ≠ y) a b o
def execBlt (a b : SReg) (o : BitVec 16) := branchIf (fun x y => x.toInt < y.toInt) a b o
def execBge (a b : SReg) (o : BitVec 16) := branchIf (fun x y => x.toInt ≥ y.toInt) a b o
def execBltn (a b : SReg) (o : BitVec 16) := branchIf (fun x y => x.toNat < y.toNat) a b o
def execBgen (a b : SReg) (o : BitVec 16) := branchIf (fun x y => x.toNat ≥ y.toNat) a b o
/-- R119. -/
def execB (o : BitVec 25) (s : State) : Host.Outcome State Fault Refusal := .next (s.setPc (s.target o))
/-- R119: the return address goes to `s1`. -/
def execBl (o : BitVec 25) (s : State) : Host.Outcome State Fault Refusal :=
  .next ((s.writeS 1 (pcAdd s.pc 4)).setPc (s.target o))

/-- The indirect branch (R120): target from A, link register L. -/
def branchReg (a l : SReg) (s : State) : Host.Outcome State Fault Refusal :=
  finish (do
    let t := s.readS a
    if t.extractLsb' 0 2 ≠ 0#2 then raise { code := 0x005, addr := t }
    set ((s.writeS l (pcAdd s.pc 4)).setPc (pcMask t))) s

def execBr (a : SReg) := branchReg a 0
def execBlr (a l : SReg) := branchReg a l
def execRet := branchReg 1 0

end Sys2Proof.Machine
end

