-- ==== Sys2Proof/Machine/Coded.lean ====
section
/-!
DEFINITION. The `e4m3x` coding (02_numbers.md R30 to R32, 09_engines.md R220): decoding an element of a superblock, and coding
a superblock as the copy engine does.
-/
namespace Sys2Proof.Machine

/-- The bits of a token stream (R31): ascending bytes, bit 7 first. -/
def streamBits (bs : List Byte) : List Bool := bs.flatMap fun b => (List.range 8).map fun i => b.getLsbD (7 - i)
/-- A stream of bits as bytes, padded with zero bits. -/
def bytesOfBits : Nat → List Bool → List Byte
  | 0, _ => []
  | n + 1, bits =>
    BitVec.ofNat 8 ((List.range 8).foldl (fun x i => 2 * x + (if bits.getD i false then 1 else 0)) 0) :: bytesOfBits n (bits.drop 8)
/-- `n` tokens (R31) with the base exponent: the exponents and the bits used; none where one lies outside 0 to 15. -/
def tokens : Nat → Nat → List Bool → Option (List Nat × Nat)
  | 0, _, _ => some ([], 0)
  | n + 1, base, bits =>
    let next := fun (e used : Nat) (rest : List Bool) =>
      (tokens n base rest).map fun r => (e :: r.1, used + r.2)
    match bits with
    | false :: r => next base 1 r
    | true :: false :: false :: r => if base + 1 ≤ 15 then next (base + 1) 3 r else none
    | true :: false :: true :: r => if 1 ≤ base then next (base - 1) 3 r else none
    | true :: true :: false :: false :: r => if base + 2 ≤ 15 then next (base + 2) 4 r else none
    | true :: true :: false :: true :: r => if 2 ≤ base then next (base - 2) 4 r else none
    | true :: true :: true :: a :: b :: c :: d :: r =>
      next (8 * a.toNat + 4 * b.toNat + 2 * c.toNat + d.toNat) 7 r
    | _ => none
/-- `n` raw exponents, element 0 first. -/
def rawExps : Nat → List Bool → Option (List Nat)
  | 0, _ => some []
  | n + 1, a :: b :: c :: d :: r => (rawExps n r).map fun es => (8 * a.toNat + 4 * b.toNat + 2 * c.toNat + d.toNat) :: es
  | _ + 1, _ => none
/-- The 32 `e4m3` codes of a block (R30, R31), or none where it breaks the layout, padding bits that are not zero among it (log 89). -/
def decodeBlock (bs : List Byte) : Option (List Nat) := do
  let h := natOfBytes (bs.take 2)
  let base := h / 2 ^ 12
  let len := h / 2 ^ 4 % 64
  if h % 16 ≠ 0 ∨ bs.length < 4 * len ∨ len < 5 then none
  let bits := streamBits ((bs.take (4 * len)).drop 18)
  let (es, used) ← match h / 2 ^ 10 % 4 with
    | 0 => tokens 32 base bits
    | 1 => some (List.replicate 32 base, 0)
    | 2 => (rawExps 32 bits).map fun es => (es, 128)
    | _ => none
  if len ≠ (144 + used + 31) / 32 ∨ (bits.drop used).any id then none
  let signs := natOfBytes ((bs.drop 2).take 4)
  let mants := natOfBytes ((bs.drop 6).take 12)
  return es.zipIdx.map fun p => 128 * (signs / 2 ^ p.2 % 2) + 8 * p.1 + mants / 8 ^ p.2 % 8
/-- Element `i` of a superblock's slot of 2048 bytes (R32). -/
def slotElement (slot : List Byte) (i : Nat) : Option Nat := do
  let off := natOfBytes ((slot.drop (2 * (i / 32))).take 2)
  let len := natOfBytes ((slot.drop off).take 2) / 2 ^ 4 % 64
  if off % 4 ≠ 0 ∨ off < 64 ∨ off + 4 * len > 2048 then none
  let codes ← decodeBlock ((slot.drop off).take (4 * len))
  codes[i % 32]?

/-- The token of exponent `e` (R31). -/
def tokenOf (base e : Nat) : List Bool :=
  if e = base then [false]
  else if e = base + 1 then [true, false, false]
  else if e + 1 = base then [true, false, true]
  else if e = base + 2 then [true, true, false, false]
  else if e + 2 = base then [true, true, false, true]
  else [true, true, true, e.testBit 3, e.testBit 2, e.testBit 1, e.testBit 0]
/-- LEN of a block whose stream has `n` bits (R30). -/
def blockLen (n : Nat) : Nat := (144 + n + 31) / 32
/-- A block of 32 codes (R220): the candidate of least LEN; TMODE 1, then TMODE 0 by BASE, then TMODE 2. -/
def encodeBlock (raw : Nat) (codes : List Nat) : List Byte :=
  let es := codes.map fun c => c / 8 % 16
  let one : List (Nat × Nat × List Bool) := if es.all (· = es.headD 0) then [(1, es.headD 0, [])] else []
  let zero := (List.range 16).map fun b => (0, b, es.flatMap (tokenOf b))
  let two := (2, raw % 16, es.flatMap fun e => [e.testBit 3, e.testBit 2, e.testBit 1, e.testBit 0])
  let best := (one ++ zero).foldr (fun c (b : Nat × Nat × List Bool) =>
    if blockLen c.2.2.length ≤ blockLen b.2.2.length then c else b) two
  let len := blockLen best.2.2.length
  bytesOfNat 2 (2 ^ 12 * best.2.1 + 2 ^ 10 * best.1 + 2 ^ 4 * len) ++
    bytesOfNat 4 ((codes.zipIdx.map fun p => p.1 / 128 % 2 * 2 ^ p.2).sum) ++
    bytesOfNat 12 ((codes.zipIdx.map fun p => p.1 % 8 * 8 ^ p.2).sum) ++ bytesOfBits (4 * len - 18) best.2.2
/-- Codes in groups of 32. -/
def blocksOf : Nat → List Nat → List (List Nat)
  | 0, _ => []
  | n + 1, cs => (cs.take 32 ++ List.replicate (32 - cs.length) 0) :: blocksOf n (cs.drop 32)
/-- The 2048 bytes of a superblock (R32, R220), completed with +0 elements. -/
def encodeSlot (raw : Nat) (codes : List Nat) : List Byte :=
  let blocks := (blocksOf 32 codes).map (encodeBlock raw)
  let offs := blocks.foldl (fun (p : List Nat × Nat) b => (p.1 ++ [p.2], p.2 + b.length)) ([], 64)
  let bs := offs.1.flatMap (bytesOfNat 2) ++ blocks.flatten
  bs ++ List.replicate (2048 - bs.length) 0

end Sys2Proof.Machine
end

