-- ==== Sys2Proof/Machine/System.lean ====
section
/-!
DEFINITION. System instructions (05_scalar.md R125 to R130; 14_debug.md R321 to R323) and the CSR instructions (R121 to R124).
-/
namespace Sys2Proof.Machine

/-- A privileged instruction in task mode raises a privilege exception (R112). -/
def privileged : Act Unit := do
  if (← get).core.ctx.mode = .task then raise { code := 0x004 }

/-- `trap` (R125). -/
def execTrap (n : BitVec 10) (s : State) :=
  finish (do
    endWindows
    modify fun s => s.enterTrap false n.toNat (pcAdd s.pc 4)) s

/-- A held word whose report has been delivered resumes (R365): it is as it was before the fault, at the point reached. -/
def EWord.resume (w : EWord) (n : CtxNum) : EWord :=
  match w.st with
  | .held code _ detail _ true =>
    if w.ctxn ≠ n then w
    else if code = 0x080 ∧ detail / 16 = 10 then { w with st := .queued }
    else { w with st := match w.word with
      | .prMma .. | .prSma .. => if code = 0x040 then .queued else .started
      | .kickPipe .. | .kickManual .. => .sent
      | .prOut .. => .started
      | _ => .queued }
  | _ => w
/-- `rett` (R126, R365). -/
def execRett (s : State) :=
  finish (do
    privileged
    modify fun s =>
      let n := s.core.ctx.num
      let qs := s.core.queues.map fun (q : List EWord) => q.map fun w => w.resume n
      ({ s with core := { s.core with queues := qs } }).leaveTrap) s

/-- `wfe` (R127). -/
def execWfe (s : State) :=
  finish (do
    let first := !s.core.ctx.wfeOn
    if first then modify fun s => s.updCtx fun x => { x with wfeOn := true, woke := false }
    let s ← get
    if evqHead s.core.evq ≠ evqTail s.core.evq ∨ s.core.iris ≠ .running ∨ s.core.ctx.woke then
      modify fun s => (s.updCtx fun x => { x with wfeOn := false, woke := false }).advance 4
    else stall) s

/-- `fret` (R128). -/
def execFret (s : State) :=
  finish (do
    if !s.core.ctx.upcallCode then raise { code := 0x010 }
    endWindows
    modify fun s => (s.updCtx fun x => { x with st := .free, upsrc := 0, excMode := false }).boundary s.me.toNat) s

/-- A WAKE context becomes RUN: it resumes at its `tch`, which is an acquire at device scope (R278), or starts again when it is marked for restart (R93, R249). -/
def State.resumeCtx (s : State) (c : Nat) (n : CtxNum) : State :=
  let x := (s.coreAt c).getCtx n
  if x.restartMark then (s.restart c n).limitRestart c n
  else (s.updCore c fun k => k.updCtx n fun x => { x with st := .run }).acquireCopies (dieOf c) false
/-- An illegal operand of `fres` or `hreq`: FLTADDR holds the operand or 0 (R335, log 46). -/
def illegalOperand (v : Word) : Act Unit := do
  let shown := Config.operandShown (← get).fv
  modify State.useFree
  raise { code := 0x00E, addr := if shown then v else 0 }

/-- `fres` (R129): its exceptions in the order of R357. -/
def execFres (a : SReg) (s : State) :=
  finish (do
    let v := s.readS a
    let n : CtxNum := v.extractLsb' 0 2
    if !s.core.ctx.upcallCode || (s.core.getCtx n).st ≠ .wake then raise { code := 0x010 }
    if v.extractLsb' 2 62 ≠ 0#62 then illegalOperand v
    endWindows
    modify fun s =>
      let s := s.updCtx fun x => { x with st := .free, upsrc := 0, excMode := false }
      let s := s.resumeCtx s.me.toNat n
      { s with core := s.core.focus n }) s

/-- The cores an Iris signal of `hreq` names (R321). -/
def State.partition (s : State) (sel gid : Nat) : List Nat :=
  match sel with
  | 0 => (s.core.image.map fun i => s.gangCores i.gang).getD []
  | 1 => s.gangCores gid
  | 2 => (List.range 1024).map (1024 * (gid % 4) + ·)
  | _ => List.range 4096
/-- Task mode sends only halts and snapshots of its own gang (R321): OP 0 or 2 with SEL 0. -/
def State.hreqDenied (s : State) (a : SReg) : Bool :=
  let v := s.readS a
  s.core.ctx.mode = .task && !(bitsOf v 13 12 = 0 && (bitsOf v 15 14 = 0 || bitsOf v 15 14 = 2))
/-- `hreq` (R321). -/
def execHreq (a : SReg) (s : State) :=
  finish (do
    let v := s.readS a
    let op := bitsOf v 15 14
    let sel := bitsOf v 13 12
    let gid := bitsOf v 11 0
    let ok := v.extractLsb' 16 48 = 0#48 && op ≠ 3 && (if sel = 1 then true else if sel = 2 then gid / 4 = 0 else gid = 0)
    if s.hreqDenied a then raise { code := 0x004 }
    if !ok then illegalOperand v
    modify fun s => (s.signal (s.partition sel gid) op 0 s.me.toNat).advance 4) s

/-- A mark record (R323). -/
def markRecord (s : State) (v : Word) : List Byte :=
  (aidOf s.me.toNat s.core.ctx ++ [v, s.timeReg, 0, 0]).flatMap fun w => leBytes 8 w.toNat
/-- How many of the last of `cnt` marks of a trace ring belong to this cycle and to cores above `c`, at most `n` (R323): record `i` lies at
`at_ i`. -/
def State.marksAbove (s : State) (at_ : Nat → Nat) (c cnt : Nat) : Nat → Nat
  | 0 => 0
  | n + 1 =>
    let a := at_ (cnt - 1)
    if s.homeWord (a + 40) = s.timeReg ∧ c < (s.homeWord (a + 24)).toNat % 4096 then s.marksAbove at_ c (cnt - 1) n + 1 else 0
/-- A mark is appended to the trace ring of a die (R323): marks of one cycle stand by ascending linear index. -/
def State.appendMark (s : State) (d c : Nat) (rec_ : List Byte) : State :=
  let ctl := (s.dieAt d).trctl
  let logn := bitsOf ctl 4 0
  let cnt := (s.dieAt d).trcnt
  let at_ := fun (i : Nat) => bitsOf ctl 51 12 * 4096 + 64 * (i % 2 ^ logn)
  let k := s.marksAbove at_ c cnt.toNat (min cnt.toNat (2 ^ logn - 1))
  let later := (List.range k).map fun i => (cnt.toNat - i, (spanOf (at_ (cnt.toNat - i - 1)) 64).map s.homeByte)
  let s := (later ++ [(cnt.toNat - k, rec_)]).foldl (fun (s : State) p => s.writeHome (at_ p.1) p.2) s
  s.updDie d fun x => { x with trcnt := x.trcnt + 1 }
/-- `tmark` (R323). -/
def execTmark (a : SReg) (s : State) : Host.Outcome State Fault Refusal :=
  .next (if bitsOf (s.dieAt s.myDie).trctl 4 0 = 0 then s.advance 4
    else (s.appendMark s.myDie s.me.toNat (markRecord s (s.readS a))).advance 4)

/-- The translations a `tlbi` removes (R130). -/
def tlbiHits (ctx : Nat) (allp incg : Bool) (va : Nat) (actx page : Nat) (l : Leaf) : Bool :=
  (if l.glob then incg else actx = ctx) && (allp || inPage va page l.size)
/-- `tlbi` (R130): pinned translations go when their window ends. DESIGN CHOICE: it waits for a die in warm reset to serve others again,
since R386 and R393 do not say whether the slices of such a die acknowledge (log 112). -/
def execTlbi (a b : SReg) (s : State) :=
  finish (do
    privileged
    drainAll
    let s ← get
    if s.unacked s.me.toNat false then stall
    -- every slice of every die acknowledges: a die that cannot be reached does not (R328, R388, R393)
    let far := [0, 1, 2, 3].filter (· ≠ s.myDie)
    if far.any (s.tripFailed s.myDie) then raise { code := 0x082, addr := s.readS a }
    if far.any fun h => s.tripWaits s.myDie h || s.inReset s.myDie h then stall
    let v := addr54 (s.readS a)
    let o := s.readS b
    let hit := tlbiHits (bitsOf o 7 0) (o.getLsbD 8) (o.getLsbD 9) v
    let dies := s.dies.map fun (d : Die) => { d with
      tlb := d.tlb.filter fun e => !hit e.actx e.va e.leaf
      pins := d.pins.map fun p => if hit p.actx p.va p.leaf then { p with doomed := true } else p }
    set ({ s with dies := dies }.advance 4)) s

/-- An access whose list of R357 has untouched access and no malformed table reports the one as the other (DEDUCED, log 105). -/
def noMalformed {α : Type} (a : Act α) : Act α := fun s =>
  match a s with
  | .error (.exc e) s' => .error (.exc (if e.code = 0x00C then { e with code := 0x009, detail := 0 } else e)) s'
  | r => r
/-- Arm a watchpoint of the core in focus (R322). -/
def wpa (kind : Nat) (a b : SReg) (i : BitVec 2) (s : State) :=
  finish (do
    let p := s.readS a
    let v := addr54 p
    let n := (s.readS b).toNat
    if n = 0 ∨ n > 65536 ∨ v / 65536 ≠ (v + n - 1) / 65536 then raise { code := 0x00E, addr := w64 v }
    if !isGlobal v then raise { code := 0x007, addr := w64 v, acc := 2 }
    let (pa, _) ← noMalformed (globalAddr s.myDie s.actx s.core.ctx.mode p .load false s.core.ctx.task)
    if paNode pa = s.node ∧ s.tripWaits s.myDie (paDie pa) then stall
    modify fun s =>
      ({ s with core := { s.core with watch := s.core.watch.set i.toNat ⟨kind, pa, v, n⟩ i.isLt } }).advance 4) s
def execWpaStop (a b : SReg) (i : BitVec 2) := wpa 1 a b i
def execWpaGang (a b : SReg) (i : BitVec 2) := wpa 2 a b i
def execWpaRec (a b : SReg) (i : BitVec 2) := wpa 3 a b i
/-- `wpa.off` (R322). -/
def execWpaOff (i : BitVec 2) (s : State) : Host.Outcome State Fault Refusal :=
  .next (({ s with core := { s.core with watch := s.core.watch.set i.toNat ⟨0, 0, 0, 0⟩ i.isLt } }).advance 4)

/-! ### CSRs (R121 to R124) -/

/-- CSR(c) (R123). -/
def State.csr (s : State) (c : Csr) : Word :=
  let k := s.core
  let x := k.ctx
  match c with
  | .taskid => x.taskid | .age => x.age | .tile => x.tile | .core => w64 s.me.toNat | .ctx => w64 x.num.toNat
  | .budget => x.budget | .rmode => x.rmode | .qmode => x.qmode | .fstat => x.fstat | .vprog => x.vprog
  | .fltinfo => x.fltinfo | .fltaddr => x.fltaddr | .upcall => k.upcall | .upsrc => x.upsrc | .evq => k.evq
  | .seq q => (k.seq.toList.getD (queueCode q) 0).setWidth 64
  | .mirth => x.mirth | .mirrun => x.mirrun | .mirhit => k.mirhit | .mirmiss => k.mirmiss
  | .cycle => w64 (s.cycleOf s.me.toNat) | .time => s.timeReg
  | .tvec => x.tvec | .tepc => x.tepc | .tcause => x.tcause | .tscr => x.tscr
/-- A value breaks no reserved field or code of a CSR (R121, R124). -/
def State.csrOk (s : State) (c : Csr) (v : Word) : Bool :=
  match c with
  | .rmode => v.toNat ≤ 4
  | .qmode => v.toNat ≤ 1
  | .fstat => v.toNat < 2 ^ 5
  | .vprog => v.toNat < 2 ^ 7
  | .mirth => v.toNat < 2 ^ 32
  | .mirrun => v.toNat < 2 ^ 8
  | .upcall | .tvec => bitsOf v 63 54 = 0 && bitsOf v 1 0 = 0
  | .tcause => bitsOf v 61 10 = 0
  | .evq =>
    let logn := evqLogn v
    let base := bitsOf v 16 4 * 16
    let size := 16 * 2 ^ logn
    let tcmb := s.tcmbOf s.me.toNat
    let lim := (s.core.image.map fun i => 0x1E000 - i.nctx * i.logb).getD 0x1E000
    bitsOf v 31 24 = 0 && bitsOf v 19 17 = 0 && bitsOf v 3 0 = 0 &&
      (logn = 0 || (decide (4 ≤ logn ∧ logn ≤ 12) && base % size = 0 && decide (tcmb ≤ base ∧ base + size ≤ lim)))
  | _ => true
/-- SetCSR(c, v); read-only fields keep their value (R121). -/
def State.setCsr (s : State) (c : Csr) (v : Word) : State :=
  let s := s.updCtx fun x => { x with bad := x.bad.filter (· ≠ .csr c) }
  match c with
  | .rmode => s.updCtx fun x => { x with rmode := v }
  | .qmode => s.updCtx fun x => { x with qmode := v }
  | .fstat => s.updCtx fun x => { x with fstat := v }
  | .vprog => s.updCtx fun x => { x with vprog := v }
  | .mirth => s.updCtx fun x => { x with mirth := v }
  | .mirrun => s.updCtx fun x => { x with mirrun := v }
  | .tvec => s.updCtx fun x => { x with tvec := v }
  | .tepc => s.updCtx fun x => { x with tepc := v }
  | .tcause => s.updCtx fun x => { x with tcause := v }
  | .tscr => s.updCtx fun x => { x with tscr := v }
  | .upcall => { s with core := { s.core with upcall := v } }
  | .evq => { s with core := { s.core with evq := setBits v 47 32 (evqTail s.core.evq) } }
  | .mirhit => { s with core := { s.core with mirhit := v } }
  | .mirmiss => { s with core := { s.core with mirmiss := v } }
  | _ => s
/-- The trap CSRs, 0x100 to 0x1FF, which only system mode may access (R112). -/
def csrPrivileged : Csr → Bool
  | .tvec | .tepc | .tcause | .tscr => true
  | _ => false
/-- A CSR instruction: all windows end (R122), then CSR ← f(old) where it writes, and D ← old where it reads. -/
def csrOp (c : Csr) (f : Word → Option Word) (d : SReg) (s : State) :=
  finish (do
    endWindows
    if csrPrivileged c then privileged
    let old := (← get).csr c
    match f old with
    | some v =>
      if !s.csrOk c v then raise { code := 0x00F }
      modify (·.setCsr c v)
    | none => pure ()
    modify fun s => (s.writeS d old).advance 4) s
/-- The source of a CSR instruction as it stands after all windows have ended (R122). -/
def State.readEnded (s : State) (a : SReg) : Word := (s.core.ctx.closeWindows true).readS a
def execCsrr (d : SReg) (c : Csr) := csrOp c (fun _ => none) d
def execCsrw (a : SReg) (c : Csr) (s : State) := csrOp c (fun _ => some (s.readEnded a)) 0 s
def execCsrs (d a : SReg) (c : Csr) (s : State) :=
  csrOp c (fun old => if a = 0 then none else some (old ||| s.readEnded a)) d s
def execCsrc (d a : SReg) (c : Csr) (s : State) :=
  csrOp c (fun old => if a = 0 then none else some (old &&& ~~~s.readEnded a)) d s

end Sys2Proof.Machine
end

