-- ==== Sys2Proof/Machine/Push.lean ====
section
/-!
DEFINITION. Pushing an engine word (R55, R74, R187, R209), the checks it meets at issue (R359, R374, R105, R201), and the
Prism words (08_prism.md R204 to R208).
-/
namespace Sys2Proof.Machine

/-- An engine operand fault found at issue (R359). -/
def operandFault (d : Nat) (a : Word) : Exc := { code := 0x043, addr := a, detail := d }
/-- Raise 0x043 when a condition of R359 holds. -/
def refuseIf (b : Bool) (d : Nat) (a : Word) : Act Unit := if b then raise (operandFault d a) else pure ()

/-- A guarded or ordered task may issue no engine word (R374). -/
def notSpeculative : Act Unit := do
  if (← get).core.ctx.speculative then raise { code := 0x04A, detail := 0x3F }
/-- GANG of an engine word of the core. -/
def Core.pushGang (k : Core) : Nat := if k.ctx.upcallCode || k.ctx.task = 0 then (k.image.map (·.gang)).getD 0 else k.ctx.tcb.gang
/-- Push(queue, word): issue stalls while the queue is full; the word takes the next sequence number (R187). Its operands are
the values read at issue, and it carries the GANG of the task that pushes it (R83, R186), the image's in upcall code. `rd` is the result register of a `mi.qry`, written when the word completes (R271); its window waits for that,
also with `s0` (R69). -/
def push (q : Nat) (la : La) (w : Instr) (ops : List Word) (rd : Option SReg := none) : Act Unit := do
  let s ← get
  if (s.core.queue q).length ≥ 8 then stall
  let x := s.core.ctx
  let seq := s.core.pushed.toList.getD q 0 + 1
  let e : EWord := ⟨w, x.ir, ops, x.rmode, x.qmode, x.mirth, x.mirrun, x.num, x.task, x.mode, s.actx, s.core.pushGang, seq,
    s.core.sbCount, 0, 0, [], 0, [], none, [], 0, none, false, .queued⟩
  let k := s.core
  modify fun s => (({ s with core := { k with
    pushed := Vector.ofFn fun i => if i.val = q then seq else k.pushed[i]
    queues := Vector.ofFn fun i => if i.val = q then k.queues[i] ++ [e] else k.queues[i] } }).result la ((rd.map fun r => Dest.mirror r seq.toNat).getD .none)).advance 32

/-! ### Prism words -/

/-- An address in the core's own TCM window or its own peer window (R131), in the scratchpad window. -/
def inOwnTcm (c a : Nat) : Bool :=
  decide (a < 0x20000) || decide (0x200000 + 0x20000 * peerOf c ≤ a ∧ a < 0x200000 + 0x20000 * (peerOf c + 1))
@[inherit_doc inOwnTcm] def inSpad (a : Nat) : Bool := decide (0x100000 ≤ a ∧ a < 0x180000)

/-- The classes of operand codes a Prism accepts (R190): a dense float, a dense integer, or a sparse line. -/
def prismFloat (c : Nat) : Bool := [0x12, 0x13, 0x14, 0x15, 0x18, 0x19, 0x1D, 0x1E, 0x16, 0x1A].contains c
@[inherit_doc prismFloat] def prismInt (c : Nat) : Bool := [0x01, 0x1B, 0x09, 0x1C].contains c
@[inherit_doc prismFloat] def sparseLine (c : Nat) : Bool := decide (0x20 ≤ c ∧ c ≤ 0x24)
/-- A block-scaled code (R33). -/
def blockScaled (c : Nat) : Bool := decide (0x18 ≤ c ∧ c ≤ 0x1C) || c = 0x1E
/-- Bits of an operand element of a code (R33, R197). -/
def codeBits (c : Nat) : Nat :=
  match c with
  | 0x12 | 0x13 | 0x20 | 0x21 => 16
  | 0x16 | 0x1A | 0x09 | 0x1C | 0x24 => 4
  | _ => 8
/-- The `e4m3x` codes. -/
def coded (c : Nat) : Bool := c = 0x1D || c = 0x1E

/-- ADJ of a kernel declares an end: the end it names or the opposite one (R105). -/
def Image.declares (i : Image) (e : End) : Bool :=
  let bit := fun (e : End) => (i.word 2).getLsbD (37 - endCode e)
  bit e || bit (oppositeEnd e)
/-- The tile of a core in its kernel's grid has a neighbour at an end (R201). -/
def State.hasPartner (s : State) (c : Nat) (e : End) : Bool :=
  match (s.coreAt c).image with
  | none => false
  | some i =>
    let tile := ((s.launch? i.launch).bind fun l => l.kernels[i.kernel]?).bind fun k => k.place.find? (·.1 = c)
    let gx := bitsOf (i.word 6) 63 58
    let gy := bitsOf (i.word 6) 57 52
    match tile with
    | none => false
    | some (_, x, y) =>
      (neighbour c e).isSome && match e with
        | .north => decide (y < gy) | .east => decide (x < gx) | .south => decide (0 < y) | .west => decide (0 < x)
/-- A Prism word for an end that is not declared, or has no partner, is a bounds fault (R105, R201). -/
def checkEnd (e : End) : Act Unit := do
  let s ← get
  match s.core.image with
  | some i => if !(i.declares e && s.hasPartner s.me.toNat e) then raise { code := 0x007 }
  | none => raise { code := 0x007 }

/-- Elements of a code in `n` bytes, two in a byte for a 4-bit format; for `e4m3x` 1024 in a slot of 2048 bytes (R32). -/
def codeElems (c n : Nat) : Nat := if coded c then n / 2 else n * 8 / codeBits c
/-- The issue checks of a multiply-accumulate word (R190, R191, R195 to R197, R204, R359); `spa` and `spb` say which operands are sparse. -/
def checkMma (sma : Bool) (role : Role) (spa spb : Bool) (sw : Nat) (p str : Word) (lines k fa fb : Nat) : Act Unit := do
  let c := (← get).me.toNat
  refuseIf (k = 0) 1 0
  refuseIf (2 ^ 32 ≤ str.toNat) 1 str
  -- SPA and SPB must not both be 0 (R204, log 61)
  refuseIf (sma && !spa && !spb) 1 0
  let own := match role with | .a => fa | .b => fb
  let ok := fun c => prismFloat c || prismInt c || (sma && sparseLine c)
  refuseIf (!(ok fa && ok fb) || (prismInt fa != prismInt fb)) 2 0
  refuseIf ((ptrCode p ≠ 0 && ptrCode p ≠ own) || !blockOk (blockScaled (ptrCode p)) (ptrL p)) 2 p
  refuseIf ((sparseLine fa && !spa) || (sparseLine fb && !spb)) 2 p
  let al := if sparseLine own then 128 else if coded own then 2048 else max 1 (codeBits own / 8)
  refuseIf (addr54 p % al ≠ 0 || ((lines > 1 || coded own) && str.toNat % al ≠ 0)) 3 p
  -- each line of a block-scaled operand starts at a block boundary (R34, R191, log 78)
  refuseIf (lines > 1 && blockScaled (ptrCode p) && codeElems own str.toNat % 2 ^ ptrL p ≠ 0) 3 p
  let a := addr54 p
  refuseIf (!(inOwnTcm c a || inSpad a || isGlobal a) || (sw ≠ 0 && !inSpad a) || (sparseLine own && !isGlobal a)) 4 p
  refuseIf (((spa && !sparseLine fa) || (spb && !sparseLine fb)) && k % 8 ≠ 0) 5 0

/-- `pr.mma` (R204). -/
def execPrMma (e : End) (la : La) (role : Role) (bank evn : Bool) (sw : BitVec 3) (p : SReg) (str : EOp) (m n : BitVec 4)
    (k : BitVec 16) (fa fb : BitVec 6) (s : State) :=
  finish (do
    notSpeculative
    let lines := match role with | .a => m.toNat + 1 | .b => n.toNat + 1
    checkMma false role false false sw.toNat (s.readS p) (s.slotVal str) lines k.toNat fa.toNat fb.toNat
    checkEnd e
    push (endCode e) la (.prMma e la role bank evn sw p str m n k fa fb) [s.readS p, s.slotVal str]) s
/-- `pr.sma` (R204). -/
def execPrSma (e : End) (la : La) (role : Role) (bank evn spa spb : Bool) (sw : BitVec 3) (p : SReg) (str : EOp)
    (m n : BitVec 4) (k : BitVec 16) (fa fb : BitVec 6) (moff : BitVec 12) (s : State) :=
  finish (do
    notSpeculative
    let lines := match role with | .a => m.toNat + 1 | .b => n.toNat + 1
    checkMma true role spa spb sw.toNat (s.readS p) (s.slotVal str) lines k.toNat fa.toNat fb.toNat
    checkEnd e
    push (endCode e) la (.prSma e la role bank evn spa spb sw p str m n k fa fb moff) [s.readS p, s.slotVal str]) s
/-- `pr.mdl` (R205). -/
def execPrMdl (e : End) (la : La) (evn : Bool) (src : SReg) (len : BitVec 13) (moff : BitVec 12) (s : State) :=
  finish (do
    notSpeculative
    let a := addr54 (s.readS src)
    refuseIf (!(inOwnTcm s.me.toNat a || inSpad a)) 4 (s.readS src)
    -- a LEN that R205 does not allow is DETAIL 5, since R380 has no DETAIL 1 here (log 63)
    refuseIf (len.toNat % 8 ≠ 0 || len.toNat < 8 || 4096 < moff.toNat + len.toNat) 5 0
    checkEnd e
    push (endCode e) la (.prMdl e la evn src len moff) [s.readS src]) s
/-- `pr.acz` (R206). -/
def execPrAcz (e : End) (la : La) (bank evn both : Bool) (s : State) :=
  finish (do
    notSpeculative
    -- when BOTH is 1, BANK must be 0 (R206, log 61)
    refuseIf (both && bank) 1 0
    checkEnd e
    push (endCode e) la (.prAcz e la bank evn both) []) s
/-- `pr.out` (R199, R200, R207). -/
def execPrOut (e : End) (la : La) (bank evn add clr sat : Bool) (rm : Rm) (dk : Dk) (d : SReg) (dstr : EOp) (ofmt : BitVec 6)
    (m n : BitVec 4) (osc : BitVec 8) (ncore : EOp) (s : State) :=
  finish (do
    notSpeculative
    let p := s.readS d
    let st := s.slotVal dstr
    let nc := s.slotVal ncore
    refuseIf (2 ^ 32 ≤ st.toNat) 1 st
    refuseIf (2 ^ 12 ≤ nc.toNat) 1 nc
    let sz := max 1 (outBits ofmt.toNat / 8)
    refuseIf (addr54 p % sz ≠ 0 || (0 < m.toNat && st.toNat % sz ≠ 0)) 3 p
    refuseIf (outBits ofmt.toNat = 4 && n.toNat % 2 = 0) 5 0
    checkEnd e
    push (endCode e) la (.prOut e la bank evn add clr sat rm dk d dstr ofmt m n osc ncore) [p, st, nc]) s
/-- `pr.scb` (R208). -/
def execPrScb (e : End) (la : La) (evn : Bool) (sb db : SReg) (shift : BitVec 5) (s : State) :=
  finish (do
    notSpeculative
    let a := addr54 (s.readS sb)
    refuseIf (!(inOwnTcm s.me.toNat a || isGlobal a)) 4 (s.readS sb)
    checkEnd e
    push (endCode e) la (.prScb e la evn sb db shift) [s.readS sb, s.readS db]) s

end Sys2Proof.Machine
end

