-- ==== Sys2Proof/Machine/Engines.lean ====
section
/-!
DEFINITION. Issue of the copy, kick, gather and Mirror words (09_engines.md R217 to R231, 11_mirror.md R269 to R273) with the
checks of R359. What the words do is in Machine/Copy.lean, Gather.lean and Mirror.lean.
-/
namespace Sys2Proof.Machine

/-- A pointer that R218 allows for a side: the core's TCM, a peer window, the scratchpad window or global memory. -/
def anySide (a : Nat) : Bool :=
  decide (a < 0x20000) || inSpad a || decide (0x200000 ≤ a ∧ a < 0x280000) || isGlobal a
/-- A pointer in the own TCM window, the scratchpad window or global memory. -/
def ownSide (c a : Nat) : Bool := inOwnTcm c a || inSpad a || isGlobal a
/-- Pipe entry `i` of a header: DIR, NAME, RXOFF and RXLEN (R103); none beyond NPIPE. -/
def pipeEntry (h : Vector Word 16) (i : Nat) : Option Word :=
  if i < bitsOf (h.toList.getD 7 0) 63 56 then some (h.toList.getD (8 + i) 0) else none
/-- The receiver of a pipe of the kernel image of core `c`: its core, its entry's index and RXLEN (R108, R223). -/
def State.pipeTo (s : State) (c i : Nat) : Option (Nat × Nat × Nat) := do
  let im ← (s.coreAt c).image
  let e ← pipeEntry im.hdr i
  if !e.getLsbD 31 then none
  let l ← s.launch? im.launch
  let k ← l.kernels[im.kernel]?
  let t ← k.place.find? (·.1 = c)
  let b ← l.pipes.find? fun b => b.name = bitsOf e 63 32 && b.sk = im.kernel
  let r ← l.kernels[b.rk]?
  let d ← r.place.find? (·.2 = t.2)
  let j ← (List.range 8).find? fun j => match pipeEntry r.hdr j with
    | some x => bitsOf x 63 32 = b.name && !x.getLsbD 31
    | none => false
  return (d.1, j, bitsOf (r.hdr.toList.getD (8 + j) 0) 12 0)

/-- `cp.nd` (R217, R221). -/
def execCpNd (la : La) (evn : Bool) (desc : SReg) (s : State) :=
  finish (do
    notSpeculative
    let p := s.readS desc
    refuseIf (addr54 p % 128 ≠ 0) 3 p
    refuseIf (!ownSide s.me.toNat (addr54 p)) 4 p
    push 4 la (.cpNd la evn desc) [p]) s
/-- `cp.pull`, taking a notice (R226). -/
def execCpPullTake (la : La) (evn : Bool) (src : PullFrom) (dst : SReg) (tag : BitVec 16) (s : State) :=
  finish (do
    notSpeculative
    let p := s.readS dst
    -- PIPE must be 0 (log 61)
    refuseIf (src.pipe ≠ 0) 1 0
    refuseIf (!anySide (addr54 p)) 4 p
    push 4 la (.cpPullTake la evn src dst tag) [p]) s
/-- `cp.pull REL=1` (R226). -/
def execCpPullRelease (la : La) (evn : Bool) (src : PullFrom) (units : BitVec 13) (s : State) :=
  finish (do
    notSpeculative
    -- UNITS is at least 1, and ANY must be 0 (log 61)
    refuseIf (units = 0 || src.any) 1 0
    let recv := match s.core.image.bind fun i => pipeEntry i.hdr src.pipe.toNat with
      | some e => !e.getLsbD 31
      | none => false
    refuseIf (!recv) 6 0
    push 4 la (.cpPullRelease la evn src units) []) s

/-- The operand of slot 3 of a `kick` (R223). -/
def State.kickVal (s : State) : KOp → Word
  | .imm hi r t => w64 (2 ^ 28 * hi.toNat + 2 ^ 16 * r.toNat + t.toNat)
  | .reg r => s.readS r
/-- The checks of a `kick` that do not depend on NP; a SRC that R223 does not allow is held on the remote read (R380, R371). -/
def checkKick (len kt : Word) : Act Unit := do
  refuseIf (len.toNat = 0 || decide (2 ^ 24 ≤ len.toNat)) 1 len
  refuseIf (decide (2 ^ 28 ≤ kt.toNat)) 1 kt
/-- `kick` to a pipe (R223). -/
def execKickPipe (la : La) (pipe : BitVec 3) (src : SReg) (len : EOp) (kt : KOp) (s : State) :=
  finish (do
    notSpeculative
    let l := s.slotVal len
    let t := s.kickVal kt
    checkKick l t
    -- RCORE must be 0 (log 61)
    refuseIf (bitsOf t 27 16 ≠ 0) 1 t
    refuseIf (match s.pipeTo s.me.toNat pipe.toNat with
      | some (_, _, rx) => decide (64 * rx < l.toNat)
      | none => true) 6 0
    push 7 la (.kickPipe la pipe src len kt) [s.readS src, l, t]) s
/-- `kick` with NP (R223). -/
def execKickManual (la : La) (pipe : BitVec 3) (src : SReg) (len : EOp) (kt : KOp) (s : State) :=
  finish (do
    notSpeculative
    let l := s.slotVal len
    let t := s.kickVal kt
    checkKick l t
    refuseIf (!s.good (bitsOf t 27 16)) 6 0
    push 7 la (.kickManual la pipe src len kt) [s.readS src, l, t]) s

/-- Bytes of a gathered element (R229). -/
def gatSize (esz : BitVec 3) : Nat := 4 * 2 ^ esz.toNat
/-- Bytes of an updated element (R230). -/
def gaTySize : GaTy → Nat
  | .i32 | .n32 | .f32 => 4
  | _ => 8
/-- The checks of a gather word: COUNT, alignments and regions of list, table and third operand. -/
def checkGather (list table third count : Word) (al at3 alT : Nat) : Act Unit := do
  refuseIf (count = 0 || decide (2 ^ 20 < count.toNat)) 1 count
  refuseIf (addr54 list % al ≠ 0) 3 list
  refuseIf (addr54 table % alT ≠ 0) 3 table
  refuseIf (addr54 third % at3 ≠ 0) 3 third
  refuseIf (!anySide (addr54 list)) 4 list
  refuseIf (!isGlobal (addr54 table)) 4 table
  refuseIf (!anySide (addr54 third)) 4 third
/-- `ga.gat` (R229). -/
def execGaGat (la : La) (evn : Bool) (esz : BitVec 3) (idx base dst : SReg) (count : EOp) (s : State) :=
  finish (do
    notSpeculative
    let c := s.slotVal count
    checkGather (s.readS idx) (s.readS base) (s.readS dst) c 4 (min (gatSize esz) 8) (gatSize esz)
    push 5 la (.gaGat la evn esz idx base dst count) [s.readS idx, s.readS base, s.readS dst, c]) s
/-- `ga.upd` (R230). -/
def execGaUpd (la : La) (evn : Bool) (op : GaOp) (t : GaTy) (idx base vals : SReg) (count : EOp) (s : State) :=
  finish (do
    notSpeculative
    let c := s.slotVal count
    checkGather (s.readS idx) (s.readS base) (s.readS vals) c 4 (gaTySize t) (gaTySize t)
    push 5 la (.gaUpd la evn op t idx base vals count) [s.readS idx, s.readS base, s.readS vals, c]) s
/-- `ga.prb` (R231). -/
def execGaPrb (la : La) (evn : Bool) (tl : BitVec 5) (keys table dst : SReg) (count : EOp) (s : State) :=
  finish (do
    notSpeculative
    let c := s.slotVal count
    checkGather (s.readS keys) (s.readS table) (s.readS dst) c 8 4 (16 * 2 ^ tl.toNat)
    push 5 la (.gaPrb la evn tl keys table dst count) [s.readS keys, s.readS table, s.readS dst, c]) s

/-- `mi.cfg` (R270). DESIGN CHOICE: of the conditions of R359, each word tests reserved fields and values first, then formats, then alignment,
then regions, operand by operand; R359 and R340 give them no order (log 107). -/
def execMiCfg (la : La) (evn : Bool) (base : SReg) (osz isz : BitVec 6) (nslot : BitVec 16) (s : State) :=
  finish (do
    notSpeculative
    let p := s.readS base
    refuseIf (addr54 p % 4096 ≠ 0) 3 p
    refuseIf (!isGlobal (addr54 p)) 4 p
    push 6 la (.miCfg la evn base osz isz nslot) [p]) s
/-- The checks of KEY, STEP and COUNT or LEN (R269, R271, R272). -/
def checkMirror (key step n : Word) : Act Unit := do
  refuseIf (decide (2 ^ 48 ≤ key.toNat)) 1 key
  refuseIf (decide (2 ^ 32 ≤ step.toNat)) 1 step
  refuseIf (n = 0 || decide (4096 < n.toNat)) 1 n
/-- Bits of an element of a Mirror input (R270). -/
def mirrorBits (code : Nat) : Nat :=
  match code with
  | 0x11 => 32 | 0x12 | 0x13 => 16 | 0x16 => 4 | _ => 8
/-- `mi.qry` (R271). The regions of IN and OUT are checked at their accesses (R380). -/
def execMiQry (la : La) (mode : MiMode) (evn : Bool) (rd key : SReg) (step : EOp) (inp : SReg) (count : EOp) (out : SReg)
    (s : State) :=
  finish (do
    notSpeculative
    let p := s.readS inp
    let o := s.readS out
    let n := s.slotVal count
    checkMirror (s.readS key) (s.slotVal step) n
    let code := ptrCode p
    refuseIf (!decide (0x11 ≤ code ∧ code ≤ 0x16) || ptrL p ≠ 0) 2 p
    refuseIf (addr54 p % max 1 (mirrorBits code / 8) ≠ 0) 3 p
    refuseIf (addr54 o % 4 ≠ 0) 3 o
    refuseIf (mirrorBits code = 4 && n.toNat % 2 ≠ 0) 5 0
    push 6 la (.miQry la mode evn rd key step inp count out) [s.readS key, s.slotVal step, p, n, o] (some rd)) s
/-- `mi.put` (R272). The region of SRC is checked at its accesses (R380). -/
def execMiPut (la : La) (evn : Bool) (key : SReg) (step : EOp) (src : SReg) (len : EOp) (s : State) :=
  finish (do
    notSpeculative
    let p := s.readS src
    let n := s.slotVal len
    checkMirror (s.readS key) (s.slotVal step) n
    refuseIf (n.toNat % 4 ≠ 0) 1 n
    refuseIf (addr54 p % 4 ≠ 0) 3 p
    push 6 la (.miPut la evn key step src len) [s.readS key, s.slotVal step, p, n]) s
/-- `mi.clr` of a key (R273). -/
def execMiClrKey (la : La) (evn : Bool) (key : SReg) (s : State) :=
  finish (do
    notSpeculative
    refuseIf (decide (2 ^ 48 ≤ (s.readS key).toNat)) 1 (s.readS key)
    push 6 la (.miClrKey la evn key) [s.readS key]) s
/-- `mi.clr ALL=1` (R273). -/
def execMiClrAll (la : La) (evn : Bool) (s : State) :=
  finish (do
    notSpeculative
    push 6 la (.miClrAll la evn) []) s

end Sys2Proof.Machine
end

