-- ==== Sys2Proof/Machine/Eng.lean ====
section
/-!
DEFINITION. What every engine shares: words in queues (R187, R209), their accesses (R218, R227, R240), holding a word (R358,
R360), event records (R211 to R213) and completion (R187, R200, R204, R365).
-/
namespace Sys2Proof.Machine

/-! ### Words -/

/-- The head word of queue `q` of core `c`. -/
def State.headWord (s : State) (c q : Nat) : Option EWord := ((s.coreAt c).queue q).head?
/-- Change the head word of a queue. -/
def State.updWord (s : State) (c q : Nat) (f : EWord → EWord) : State :=
  s.updCore c fun k => { k with queues := Vector.ofFn fun i =>
    if i.val = q then (match k.queues[i] with | w :: ws => f w :: ws | [] => []) else k.queues[i] }
/-- The head word leaves its queue, and SEQ takes its number (R187). -/
def State.popWord (s : State) (c q : Nat) : State :=
  s.updCore c fun k => { k with
    seq := Vector.ofFn fun i => if i.val = q then ((k.queue q).head?.map (·.seq)).getD k.seq[i] else k.seq[i]
    queues := Vector.ofFn fun i => if i.val = q then k.queues[i].drop 1 else k.queues[i] }
/-- The stores that the core made before the word issued have left its store buffer (R192, R218, R228). -/
def State.storesLeft (s : State) (c : Nat) (w : EWord) : Bool := (s.coreAt c).sb.all fun e => decide (w.after ≤ e.num)
/-- The point a word has reached. -/
def setPos (c q n : Nat) : Act Unit := modify fun s => s.updWord c q fun w => { w with pos := n }
/-- A word with an exception is held (R358, R360, R381); the exceptions of the engines' own checks keep their code. -/
def State.holdWord (s : State) (c q : Nat) (e : Exc) : State :=
  let own := [0x040, 0x041, 0x043, 0x044, 0x045].contains e.code
  let keep := [0x080, 0x081, 0x082].contains e.code
  let (code, detail) := if own then (e.code, e.detail)
    else if keep then (e.code, 16 * (e.detail % 16) + q) else (0x042, 16 * (e.code % 16) + q)
  s.updWord c q fun w => { w with st := .held code e.acc detail e.addr false }
/-- A word that has been held gives up the lines it owns (R360), as does one that has completed. -/
def State.disown (s : State) (c q : Nat) : State :=
  s.updDie (dieOf c) fun d => { d with eo := d.eo.filter fun e => !(e.2.1 = c && e.2.2 = q) }
/-- The virtual lines of `n` bytes of global memory; local ones are not owned. -/
def linesOf (a n : Nat) : List Word :=
  if n = 0 ∨ !isGlobal a then [] else (List.range ((a + n - 1) / 128 - a / 128 + 1)).map fun i => w64 (128 * (a / 128 + i))
/-- The physical lines of virtual ones, by the translation of the slices of die `d` (R140); one that does not translate is found when it is
written. None while a walk must wait. -/
def physLines (d actx : Nat) : List Word → State → Option (State × List Nat)
  | [], s => some (s, [])
  | a :: ls, s =>
    match translate d actx a .store 0 s with
    | .error _ _ => none
    | .ok (.leaf l) s => (physLines d actx ls s).map fun r => (r.1, l.at (addr54 a) / 128 :: r.2)
    | .ok _ s => physLines d actx ls s
/-- The head word of queue `q` of core `c` takes ownership of lines (R240): none while a task holds or another word owns one, or a slice
has still to apply a reduction to one. -/
def State.takeLines (s : State) (c q : Nat) (ls : List Nat) : Option State :=
  let d := dieOf c
  let mine := fun (e : Nat × Nat × Nat) => e.2.1 = c && e.2.2 = q
  if ls.any fun l => s.heldAtHome (128 * l) 0 || (s.dieAt d).eo.any (fun e => e.1 = l && !mine e) || s.redHere d (128 * l) then none
  else some (s.updDie d fun x => { ls.foldl Die.dropL1 x with eo := x.eo.filter (!mine ·) ++ ls.map fun l => (l, c, q) })
/-- Of the lines a word owns, those it still has to write stay in EO (R240). -/
def State.keepLines (s : State) (c q : Nat) (ls : List Nat) : State :=
  s.updDie (dieOf c) fun d => { d with eo := d.eo.filter fun e => !(e.2.1 = c && e.2.2 = q) || ls.contains e.1 }
/-- The head word of queue `q` of core `c` takes ownership of virtual lines of address context `actx`, once it can (R240). -/
def State.ownLines (s : State) (c q actx : Nat) (ls : List Word) : Option State :=
  (physLines (dieOf c) actx ls s).bind fun r => r.1.takeLines c q r.2
/-- Of the lines a word owns, only the virtual ones it still has to write stay in EO (R240); all of them while a walk must wait. -/
def State.keepOwn (s : State) (c q actx : Nat) (ls : List Word) : State :=
  match physLines (dieOf c) actx ls s with
  | none => s
  | some r => r.1.keepLines c q r.2
/-- Run an effect of the head word of a queue: it finishes with a RES, is held, or cannot go on yet. An effect that must wait
keeps what it has done when its point has moved. -/
def State.runWord (s : State) (c q : Nat) (a : Act Word) : EvEnd :=
  match a s with
  | .ok r s' => .done ((s'.updWord c q fun w => { w with st := .finished r }).disown c q)
  | .error (.exc e) s' => .done ((s'.holdWord c q e).disown c q)
  | .error .stall s' =>
    if (s'.headWord c q).map (·.pos) = (s.headWord c q).map (·.pos) then .off
    else .done (s'.updWord c q fun w => { w with st := .started })
  | .error (.fault f) _ => .fault f

/-- An effect that must wait leaves nothing done. -/
def whole {α : Type} (a : Act α) : Act α := fun s => match a s with | .error .stall _ => .error .stall s | r => r

/-! ### Accesses -/

/-- Who accesses memory for a word: the pushing core and its die, the address context and mode, WTYPE (R318) and CLASS. -/
structure Eng where
  core : Nat
  actx : Nat
  mode : Mode
  kind : Nat
  cls : Nat
  /-- local windows may be reached; `peer`: those of the other peers too -/
  loc : Bool := true
  peer : Bool := true
  deriving DecidableEq, Repr
/-- The accesses of a word of queue `q` of core `c`. -/
def EWord.eng (w : EWord) (c q kind : Nat) : Eng := { core := c, actx := w.actx, mode := w.mode, kind := kind, cls := q }
/-- The die whose slices serve the accesses. -/
def Eng.die (g : Eng) : Nat := dieOf g.core
/-- The writer of R318 for an access to `va`. -/
def Eng.writer (g : Eng) (node : Nat) (va : Word) : Writer :=
  ⟨g.kind, g.core, if g.kind = 5 then sliceRouter g.die (sliceOf va) else 0, node, sliceOf va, []⟩
/-- Another word than that of queue `q` of core `c` owns the line of a location in the slices of die `d` (R240). -/
def State.ownedByOther (s : State) (d l c q : Nat) : Bool := (s.dieAt d).eo.any fun e => e.1 = l / 128 && (e.2.1 ≠ c || e.2.2 ≠ q)
/-- The location of an access: alignment, bounds, translation and protection (R340); the access waits at a line that a task holds or
another engine word owns (R240, R245), and a write for the reductions that the slice has accepted for the line (R160). -/
def Eng.target (g : Eng) (va : Word) (n : Nat) (acc : Acc) : Act Nat := do
  let s ← get
  let a := addr54 va
  let acc' := if acc = .load then 2 else if acc = .store then 3 else 4
  if a % n ≠ 0 then raise { code := 0x006, addr := va, acc := acc' }
  if isGlobal a then do
    let (pa, _) ← globalAddr g.die g.actx g.mode va acc false 0
    let s ← get
    if s.heldAtHome pa 0 || s.ownedByOther g.die pa g.core g.cls || (acc = .store && s.redHere g.die pa) then stall
    return pa
  else
    match if g.loc then s.localLoc g.core a n g.peer else none with
    | some l => return l
    | none => raise { code := 0x007, addr := va, acc := acc' }
/-- A read of `n` bytes. -/
def Eng.read (g : Eng) (va : Word) (n : Nat) : Act (List Byte) := do
  let l ← g.target va n .load
  if isPhys l then sliceRead g.die l n va 2 else readLocal l n va 2
/-- A read of a little-endian number. -/
def Eng.readNat (g : Eng) (va : Word) (n : Nat) : Act Nat := do return natOfBytes (← g.read va n)
/-- Bytes written in one action (R282), at one home or, from an element that two pages share, at two; the lines leave every L1D of the
die (R240). -/
def Eng.put (g : Eng) (va : Word) (bs : List SbByte) : Act Unit := modify fun s =>
  match bs with
  | [] => s
  | b :: _ =>
    if isPhys b.loc then
      let (near, far) := bs.partition fun x => x.loc / 2 ^ 38 = b.loc / 2 ^ 38
      let s := s.updDie g.die fun x => bs.foldl (fun x b => x.dropL1 (b.loc / 128)) x
      (s.sliceStore g.die (g.writer s.node va) va near).sliceStore g.die (g.writer s.node va) va far
    else s.performBytes (g.writer s.node va) bs
/-- A write of bytes, those of `mask`. -/
def Eng.writeMask (g : Eng) (va : Word) (bs : List Byte) (mask : Byte) : Act Unit := do
  let l ← g.target va bs.length .store
  g.put va ((plainBytes l bs).map fun b => { b with mask := mask })
/-- The locations of `n` bytes that parts of `al` bytes make up. -/
def Eng.spots (g : Eng) (va : Word) (n al : Nat) : Act (List Nat) := do
  let ls ← (List.range (n / al)).mapM fun k => g.target (addA va (w64 (al * k))) al .store
  return ls.flatMap (spanOf · al)
/-- A write of an element aligned to `al` in one action (R282). -/
def Eng.writeWhole (g : Eng) (va : Word) (al : Nat) (bs : List Byte) : Act Unit := do
  let ls ← g.spots va bs.length al
  g.put va (ls.zipWith (fun l b => ⟨l, b, 0xFF⟩) bs)
/-- A write of a little-endian number of `n` bytes. -/
def Eng.writeNat (g : Eng) (va : Word) (n x : Nat) : Act Unit := g.writeMask va (leBytes n x) 0xFF

/-- Element `i` of width `w` bits from a byte address: a nibble for 4-bit formats (R28). `off` is a byte offset. -/
def elemAddr (p : Word) (off : Int) (w : Nat) (i : Nat) : Word × Nat :=
  if w = 4 then
    let n : Int := 2 * off + i
    (addA p (BitVec.ofInt 64 (n / 2)), (n % 2).toNat)
  else (addA p (BitVec.ofInt 64 (off + i * (w / 8))), 0)
/-- An element's bits. -/
def Eng.readElem (g : Eng) (p : Word) (off : Int) (w i : Nat) : Act Nat := do
  let (a, nib) := elemAddr p off w i
  let x ← g.readNat a (max 1 (w / 8))
  return if w = 4 then x / 16 ^ nib % 16 else x
/-- Elements of `w` bits from index `i` on that lie in one byte or one wider element: their address, value and the bits they take. A byte
with one 4-bit element keeps its other nibble (R218). -/
def elemWrite (p : Word) (off : Int) (w i : Nat) (xs : List Nat) : Word × List Byte × Byte :=
  let (a, nib) := elemAddr p off w i
  if w = 4 then
    match xs with
    | [x] => (a, [BitVec.ofNat 8 (x % 16 * 16 ^ nib)], if nib = 0 then 0x0F else 0xF0)
    | _ => (a, [BitVec.ofNat 8 (xs.getD 0 0 % 16 + 16 * (xs.getD 1 0 % 16))], 0xFF)
  else (a, leBytes (w / 8) (xs.headD 0), 0xFF)
/-- The writes of elements from index `i` on, each made in one action, a pair of 4-bit elements in one byte (R282). -/
def elemWrites (p : Word) (off : Int) (w : Nat) : Nat → Nat → List Nat → List (Word × List Byte × Byte)
  | 0, _, _ | _, _, [] => []
  | n + 1, i, x :: xs =>
    if w = 4 ∧ (elemAddr p off w i).2 = 0 ∧ !xs.isEmpty then
      elemWrite p off w i [x, xs.headD 0] :: elemWrites p off w n (i + 2) (xs.drop 1)
    else elemWrite p off w i [x] :: elemWrites p off w n (i + 1) xs
/-- Writes whose targets are all checked before the first is made: a fault leaves none of them (R360). -/
def Eng.writeAll (g : Eng) (ws : List (Word × List Byte × Byte)) : Act Unit := do
  for x in ws do let _ ← g.target x.1 x.2.1.length .store
  for x in ws do g.writeMask x.1 x.2.1 x.2.2

/-- Element `i` of an `e4m3x` tensor (R32), through a read `rd`; a block that breaks the layout gives a free value (log 30). -/
def codedElemBy (rd : Word → Nat → Act (List Byte)) (base : Word) (i : Nat) : Act Nat := do
  let slot := addA base (w64 (2048 * (i / 1024)))
  let at_ := fun (n : Nat) => addA slot (w64 n)
  let off := natOfBytes (← rd (at_ (2 * (i / 32 % 32))) 2)
  let there := off % 4 = 0 ∧ 64 ≤ off ∧ off + 2 ≤ 2048
  let len : Nat ← if there then (fun bs => natOfBytes bs / 2 ^ 4 % 64) <$> rd (at_ off) 2 else pure 0
  let words ← if off + 4 * len > 2048 then pure [] else (List.range len).mapM fun j => rd (at_ (off + 4 * j)) 4
  match decodeBlock words.flatten with
  | some codes => return codes.getD (i % 32) 0
  | none =>
    let s ← get
    modify State.useFree
    return Config.brokenElement s.fv % 256
@[inherit_doc codedElemBy] def Eng.codedElem (g : Eng) (base : Word) (i : Nat) : Act Nat := codedElemBy g.read base i

/-! ### Event records (R211 to R213) -/

/-- A record enters the event ring of core `c` now; none while the ring is full. With LOGN = 0 it is dropped. -/
def State.putRecord (s : State) (c : Nat) (r : EvRec) (tag : Bool) : Option State :=
  let k := s.coreAt c
  let logn := evqLogn k.evq
  if logn = 0 then some s
  else if (evqTail k.evq + 2 ^ 16 - evqHead k.evq) % 2 ^ 16 = 2 ^ logn then none
  else
    let s := s.poke (tcmLoc c (evqSlot k.evq (evqTail k.evq))) (leBytes 8 r.lo.toNat ++ leBytes 8 r.hi.toNat)
    let t := if tag then some ⟨r.sender, r.sent, s.time, 0⟩ else none
    let s := s.updCore c fun k => { k with
      evq := setBits k.evq 47 32 ((evqTail k.evq + 1) % 2 ^ 16), ringTags := k.ringTags ++ [t] }
    some (if tag then s.msgReceived c else s)
/-- A record joins those that wait for a core: among those sent in one cycle, by the core that caused them (R212). -/
def insertRec (r : EvRec) (l : List EvRec) : List EvRec :=
  let n := l.length - (l.reverse.takeWhile fun e => e.sent = r.sent && decide (r.sender < e.sender)).length
  l.take n ++ r :: l.drop n
/-- A record waits for a core, or for the return of its suspended gang. -/
def State.holdRecord (s : State) (c : Nat) (r : EvRec) : State :=
  if s.susp.any (·.core = c) && (s.coreAt c).image.isNone then
    { s with susp := s.susp.map fun v => if v.core = c then { v with recq := insertRec r v.recq } else v }
  else s.updCore c fun k => { k with recq := insertRec r k.recq }
/-- A record is sent to a core. -/
def State.addRecord (s : State) (c : Nat) (r : EvRec) : State := (s.msgSent r.sender).holdRecord c r
/-- A record whose high word is `hi` still waits for a core, whose gang may be suspended (R211). -/
def State.recordHere (s : State) (c : Nat) (hi : Word) : Bool :=
  (s.coreAt c).recq.any (·.hi = hi) || s.susp.any fun v => v.core = c && v.recq.any (·.hi = hi)
/-- OP of a word (R56). -/
def opOf : Instr → Nat
  | .prMma .. => 0 | .prSma .. => 1 | .prMdl .. => 2 | .prAcz .. => 3 | .prOut .. => 4 | .prScb .. => 5
  | .cpPullTake .. | .cpPullRelease .. => 1
  | .gaUpd .. => 1 | .gaPrb .. => 2
  | .miQry .. => 1 | .miPut .. => 2 | .miClrKey .. | .miClrAll .. => 3
  | _ => 0
/-- EVN of a word. -/
def evnOf : Instr → Bool
  | .prMma (evn := v) .. | .prSma (evn := v) .. | .prMdl (evn := v) .. | .prAcz (evn := v) .. | .prOut (evn := v) ..
  | .prScb (evn := v) .. | .cpNd (evn := v) .. | .cpPullTake (evn := v) .. | .cpPullRelease (evn := v) ..
  | .gaGat (evn := v) .. | .gaUpd (evn := v) .. | .gaPrb (evn := v) .. | .miCfg (evn := v) .. | .miQry (evn := v) ..
  | .miPut (evn := v) .. | .miClrKey (evn := v) .. | .miClrAll (evn := v) .. => v
  | _ => false
/-- A completion record (R213). -/
def completionRec (c q : Nat) (w : EWord) (res : Word) (now : Nat) : EvRec :=
  ⟨res, w64 (2 ^ 56 + 2 ^ 44 * c + 2 ^ 40 * q + 2 ^ 34 * opOf w.word + 2 ^ 32 * w.ctxn.toNat + w.seq.toNat), c, now⟩
/-- A delivery record (R213). -/
def deliveryRec (c q : Nat) (w : EWord) (d : Nat) (now : Nat) : EvRec :=
  ⟨w64 d, w64 (2 * 2 ^ 56 + 2 ^ 44 * c + 2 ^ 40 * q + w.seq.toNat), c, now⟩
/-- The writes of a word are visible under R212: no write-through or reduction of that engine and core is under way. -/
def State.visible (s : State) (c kind : Nat) : Bool :=
  !(s.wts.any fun w => w.writer.kind = kind && w.writer.core = c) && !(s.reds.any fun r => r.writer.kind = kind && r.writer.core = c)
/-- WTYPE of the writes of a word. -/
def kindOf : Instr → Nat
  | .gaUpd .. => 5
  | .gaGat .. | .gaPrb .. => 2
  | .miCfg .. | .miQry .. | .miPut .. | .miClrKey .. | .miClrAll .. => 3
  | .prOut .. => 4
  | _ => 1
/-- The result register of a `mi.qry` receives RES (R271). -/
def Ctx.answer (x : Ctx) (seq : BitVec 32) (r : Word) : Ctx :=
  { x with win := x.win.map fun w => match w.dest with
    | .mirror rd n => if n = seq.toNat then { w with dest := .s rd r, done := true } else w
    | _ => w }
/-- The head word of a queue completes (R187): SEQ, its record, and RD of a `mi.qry`. None while the record must wait. -/
def State.completeWord (s : State) (c q : Nat) (w : EWord) (res : Word) : Option State :=
  let s1 := if evnOf w.word then (s.msgSent c).putRecord c (completionRec c q w res s.time) true else some s
  s1.map fun s =>
    let s := s.popWord c q
    match w.word with
    | .miQry .. => s.updCore c fun k => k.updCtx w.ctxn (·.answer w.seq res)
    | _ => s
/-- The head word of queue `q` of core `c` has done all but write its record (R187, R200, R204, R212): the state in which it has completed.
A paired word completes at both ends at once; one abandoned alone completes alone (R365). -/
def State.complete (s : State) (c q : Nat) (w : EWord) : Option State :=
  match w.st, w.word with
  | .finished _, .prOut .. => none
  | .sent, .prOut .. =>
    if s.recordHere (bitsOf (w.ops.getD 2 0) 11 0) (deliveryRec c q w 0 0).hi then none else s.completeWord c q w w.res
  | .finished res, _ =>
    if !s.visible c (kindOf w.word) then none
    else if w.paired && res = 0 then
      match neighbour c (endOf q) with
      | none => none
      | some p =>
        let pq := endCode (oppositeEnd (endOf q))
        match s.headWord p pq with
        | none => none
        | some w' => (s.completeWord c q w res).bind fun s => s.completeWord p pq w' res
    else s.completeWord c q w res
  | _, _ => none
/-- The classes below `q` whose head word can write its completion record now: those records come first (R212). -/
def State.completesBelow (s : State) (c q : Nat) : Bool :=
  (List.range q).any fun p => match s.headWord c p with
    | some w => evnOf w.word && (s.complete c p w).isSome
    | none => false
/-- ENGINE_WORD_COMPLETION: the head word of queue `q` of core `c` completes. A `pr.out` first sends its delivery record, and completes
when that has been written (R200). -/
def evEngineWordCompletion (c : CoreId) (q : QueueId) (s : State) : EvEnd :=
  let c := c.toNat
  let q := queueCode q
  match s.headWord c q with
  | none => .off
  | some w =>
    match w.st, w.word with
    | .finished res, .prOut .. =>
      let n := bitsOf (w.ops.getD 2 0) 11 0
      if !s.visible c 4 then .off
      else if s.linkWaits (dieOf c) (dieOf n) && !s.linkFailed (dieOf c) (dieOf n) then .off
      else
        let d := if res = BitVec.allOnes 64 then 2 ^ 54 - 1 else addr54 (w.ops.getD 0 0)
        let s := if s.linkFailed (dieOf c) (dieOf n) then s.dropPacket c w.ctxn
          else s.addRecord n (deliveryRec c q w d s.time)
        .done (s.updWord c q fun w => { w with st := .sent, res := res })
    | _, _ =>
      if evnOf w.word && s.completesBelow c q then .off
      else match s.complete c q w with | some s => .done s | none => .off
def execEngineWordCompletion (c : CoreId) (q : QueueId) (s : State) := (evEngineWordCompletion c q s).outcome s

/-- EVENT_RECORD_WRITE: the oldest waiting record of a running core enters its ring (R211, R309), after the completion records that can be
written now (R212). -/
def evEventRecordWrite (c : CoreId) (s : State) : EvEnd :=
  match (s.coreAt c.toNat).recq with
  | [] => .off
  | r :: rs =>
    if (s.coreAt c.toNat).iris ≠ .running || s.completesBelow c.toNat 8 then .off
    else match (s.updCore c.toNat fun k => { k with recq := rs }).putRecord c.toNat r true with
      | some s => .done s
      | none => .off
def execEventRecordWrite (c : CoreId) (s : State) := (evEventRecordWrite c s).outcome s

end Sys2Proof.Machine
end

