-- ==== Sys2Proof/Machine/Copy.lean ====
section
/-!
DEFINITION. The copy engine: `cp.nd` (09_engines.md R217 to R220, R370), the kick register, notices and pulls (R222 to R226,
R371), and the start order of R209.
-/
namespace Sys2Proof.Machine

/-! ### The descriptor (R217, R370) -/

/-- A descriptor of 16 words. -/
abbrev Desc := List Word
/-- A word of it. -/
def dword (d : Desc) (i : Nat) : Word := d.getD i 0
/-- The extent of a dimension. -/
def descSize (d : Desc) (i : Nat) : Nat :=
  match i with
  | 0 => bitsOf (dword d 5) 31 0
  | 1 => bitsOf (dword d 5) 63 48
  | 2 => bitsOf (dword d 5) 47 32
  | i => bitsOf (dword d 6) (63 - 16 * (i - 3)) (48 - 16 * (i - 3))
/-- The number of dimensions above 0. -/
def descDims (d : Desc) : Nat := bitsOf (dword d 2) 63 61
/-- The byte stride of a dimension from 1, in the source or the destination. -/
def descStride (d : Desc) (src : Bool) (i : Nat) : Int :=
  intOf true 32 (if src then bitsOf (dword d (6 + i)) 63 32 else bitsOf (dword d (6 + i)) 31 0)
/-- The memory format of a code, `e4m3` for the coded ones. -/
def sideFmt (c : Nat) : MemFmt := if coded c then .elem .e4m3 else ((fmtOfCode c).map (·.1)).getD (.elem .n8)
/-- The code of a side, a raw one taking the other's (R219). -/
def sideCode (p other : Word) : Nat := if ptrCode p = 0 then ptrCode other else ptrCode p
/-- A pointer a side accepts, given the other side's: a code other than a sparse-line one, with its L, and an aligned `e4m3x` row. -/
def sideOk (p other : Word) : Bool :=
  let c := ptrCode p
  (c = 0 || coded c || (fmtOfCode c).isSome) && blockOk (blockScaled c) (ptrL p) &&
    (!coded (sideCode p other) || addr54 p % 2048 = 0)
/-- Bits of an element of a side. -/
def sideBits (d : Desc) (p other : Word) : Nat :=
  if sideCode p other = 0 then 8 * 2 ^ bitsOf (dword d 2) 56 55 else (sideFmt (sideCode p other)).width
/-- Elements that a row offset in bytes stands for (R218). -/
def rowElems (c : Nat) (w : Nat) (off : Int) : Int := if coded c then off / 2 else off * 8 / w
/-- A stride keeps the rows of a side at block boundaries, and `e4m3x` rows aligned. -/
def strideOk (d : Desc) (p other : Word) (st : Int) : Bool :=
  let c := ptrCode p
  (!coded (sideCode p other) || st % 2048 = 0) &&
    (!blockScaled c || ((coded c || st * 8 % sideBits d p other = 0) && rowElems c (sideBits d p other) st % ((2 ^ ptrL p : Nat) : Int) = 0))
/-- The first word of a descriptor that breaks R217 to R219; the stride of a dimension of extent 1 moves no row. -/
def descBad (d : Desc) : Option Nat :=
  let p := dword d 0
  let q := dword d 1
  let w2 := dword d 2
  let rm := bitsOf w2 60 58
  let n := descDims d
  let float := [0x10, 0x11, 0x12, 0x13].contains (sideCode q p)
  let blocks := fun (x : Word) => if blockScaled (ptrCode x) then 2 ^ ptrL x else 1
  let used := fun (i : Nat) => decide (descSize d i ≠ 0) == decide (i ≤ n)
  let bad : Nat → Bool := fun i =>
    match i with
    | 0 => !sideOk p q
    | 1 => !sideOk q p
    | 2 => bitsOf w2 54 0 ≠ 0 || n = 7 || rm = 5 || rm = 6 || (rm = 4 && !blockScaled (ptrCode q)) || (w2.getLsbD 57 && float)
    | 5 => descSize d 0 = 0 || descSize d 0 % blocks p ≠ 0 || descSize d 0 % blocks q ≠ 0 || !used 1 || !used 2
    | 6 => !(used 3 && used 4 && used 5 && used 6)
    | 13 | 14 | 15 => dword d i ≠ 0
    | i =>
      if 7 ≤ i ∧ i ≤ 12 then
        (if i - 6 > n then dword d i ≠ 0
         else decide (1 < descSize d (i - 6)) &&
          (!strideOk d p q (descStride d true (i - 6)) || !strideOk d q p (descStride d false (i - 6))))
      else false
  (List.range 16).find? bad

/-! ### Copying (R218 to R220) -/

/-- The value of an element under a scale code (R219). -/
def scaledVal (f : MemFmt) (x : Nat) (scale : Option Nat) : Val :=
  let v := match f with | .elem t => elemVal t x | .e8m0 => e8m0Val x
  match scale with
  | none => v
  | some 0xFF => .nan
  | some e => match v with | .fin s m k => .fin s m (k + e - 127) | v => v
/-- A value as an element of an unscaled destination (R219). DESIGN CHOICE: a block-scaled integer source converts to an integer as a
real value does, so that it saturates with SAT 0 too (log 88). -/
def copyConvert (sf df : MemFmt) (x : Nat) (scale : Option Nat) (mode : RMode) (sat : Bool) : Nat :=
  let v := scaledVal sf x scale
  match df with
  | .e8m0 => e8m0Of v
  | .elem t =>
    match sf, scale with
    | .elem u, none => (convertElem u t mode sat x).1
    | _, _ => match elemFmt t with
      | some f => (convertFloat f mode sat v).1
      | none => (convertInt (elemSigned t) (elemWidth t) mode v).1
/-- The quantise target of a block-scaled code. -/
def quantOf : Nat → QuantTy
  | 0x19 => .e5m2 | 0x1A => .e2m1 | 0x1B => .i8 | 0x1C => .i4 | _ => .e4m3
/-- A block quantised (R45 to R48, R219): its scale code and elements. -/
def quantBlock (q : QuantTy) (mode : RMode) (search : Bool) (xs : List Val) : Nat × List Nat :=
  let nf := xs.any fun v => match v with | .fin .. => false | _ => true
  let am := amaxOf xs
  let c := if search && !nf && am.m ≠ 0 then searchCode xs q mode else codeOf nf am q
  (c, xs.map fun v => if !nf && am.m = 0 then 0 else (quantOne v c q mode).1)
/-- Consecutive groups of `n`. -/
def groupsOf {α : Type} (n : Nat) : Nat → List α → List (List α)
  | 0, _ => []
  | k + 1, xs => if xs.isEmpty then [] else xs.take n :: groupsOf n k (xs.drop n)

/-- What a copy reads at issue (R219): RMODE and QMODE of the issuing context. -/
structure CopyMode where
  rmode : Word
  qmode : Word
/-- One unit of a copy (R218, R219): its elements are all read before the first of them is written. -/
def copyUnit (g : Eng) (d : Desc) (cm : CopyMode) (i0 n : Nat) (so do_ : Int) : Act Unit := do
  let p := dword d 0
  let q := dword d 1
  let cs := sideCode p q
  let cd := sideCode q p
  let ws := sideBits d p q
  let wd := sideBits d q p
  let raw := ptrCode p = 0 || ptrCode q = 0
  let slot := fun (b : Word) (o : Int) (k : Nat) => addA b (BitVec.ofInt 64 (o + 2048 * (i0 / 1024 : Nat) + 8 * k))
  -- bits copied unchanged: for `e4m3x` the slots of the row
  if raw && coded cs then do
    let bytes ← (List.range (256 * ((n + 1023) / 1024))).mapM fun k => do return (slot q do_ k, ← g.read (slot p so k) 8, 0xFF)
    return ← g.writeAll bytes
  let same := raw || (cs = cd && ptrL p = ptrL q && !coded cs)
  let rm := bitsOf (dword d 2) 60 58
  let code : Word := if rm = 7 then cm.rmode else w64 rm
  let sat := (dword d 2).getLsbD 57
  let sf := sideFmt cs
  let so' := rowElems cs ws so
  let do' := rowElems cd wd do_
  let scaleAt := fun (b : Word) (o : Int) (l : Nat) => addA b (BitVec.ofInt 64 (o / (2 ^ l : Nat)))
  let xs ← (List.range n).mapM fun k => do
    let i := i0 + k
    let x ← if coded cs then g.codedElem (addA p (BitVec.ofInt 64 so)) i else g.readElem p so ws i
    if blockScaled cs && !same then do
      let e ← g.readNat (scaleAt (dword d 3) (so' + i) (ptrL p)) 1
      return (x, some e)
    else return (x, none)
  let kept ← if same && !raw && blockScaled cs && i0 % 2 ^ ptrL p = 0 then do
      let e ← g.readNat (scaleAt (dword d 3) (so' + i0) (ptrL p)) 1
      pure [(scaleAt (dword d 4) (do' + i0) (ptrL q), [BitVec.ofNat 8 e], (0xFF : Byte))]
    else pure []
  let blocks := (groupsOf (2 ^ ptrL q) n xs).map fun b =>
    quantBlock (quantOf cd) (quantModeOfCode code) (cm.qmode.getLsbD 0) (b.map fun x => scaledVal sf x.1 x.2)
  let quant := !same && blockScaled cd
  let scales := if quant then
      blocks.zipIdx.map fun b => (scaleAt (dword d 4) (do' + i0 + b.2 * (2 ^ ptrL q : Nat)) (ptrL q), [BitVec.ofNat 8 b.1.1], (0xFF : Byte))
    else kept
  let codes := if same then xs.map (·.1)
    else if quant then blocks.flatMap (·.2)
    else xs.map fun x => copyConvert sf (sideFmt cd) x.1 x.2 (modeOfCode code) sat
  let fv := (← get).fv
  if coded cd then modify State.useFree
  let elems := if coded cd then
      (groupsOf 1024 n codes).zipIdx.flatMap fun b =>
        let bs := encodeSlot (Config.rawBase fv) b.1
        (List.range 256).map fun k => (slot q do_ (256 * b.2 + k), (bs.drop (8 * k)).take 8, (0xFF : Byte))
    else elemWrites q do_ wd codes.length i0 codes
  g.writeAll (scales ++ elems)
/-- The elements read before the first of them is written: one, a pair of 4-bit ones, a scale block, or whole superblocks. -/
def unitLen (d : Desc) : Nat :=
  let p := dword d 0
  let q := dword d 1
  let cd := sideCode q p
  let same := ptrCode p = 0 || ptrCode q = 0 || (ptrCode p = ptrCode q && ptrL p = ptrL q && !coded cd)
  let b := if blockScaled cd && !same then 2 ^ ptrL q else 1
  if coded cd then max 1024 b else if sideBits d q p = 4 then max 2 b else b
/-- The row offsets of a flat index above dimension 0. -/
def rowOffset (d : Desc) (src : Bool) : Nat → Nat → Nat → Int
  | 0, _, _ => 0
  | n + 1, i, r => (r % descSize d i : Nat) * descStride d src i + rowOffset d src n (i + 1) (r / descSize d i)
/-- Copy at most `fuel` units from flat index `f` on (R218), noting the point (R360). -/
def copyFrom (g : Eng) (d : Desc) (cm : CopyMode) (note : Nat → Act Unit) (total : Nat) : Nat → Nat → Act Unit
  | 0, _ => pure ()
  | fuel + 1, f =>
    if total ≤ f then pure () else do
      let sz := descSize d 0
      let i0 := f % sz
      let n := min (unitLen d) (sz - i0)
      whole (copyUnit g d cm i0 n (rowOffset d true (descDims d) 1 (f / sz)) (rowOffset d false (descDims d) 1 (f / sz)))
      note (f + n)
      copyFrom g d cm note total fuel (f + n)
/-- The elements of a descriptor. -/
def descTotal (d : Desc) : Nat := ((List.range (descDims d + 1)).map (descSize d)).foldl (· * ·) 1
/-- The descriptor at an address, read and checked (R217, R370). -/
def readDesc (g : Eng) (p : Word) : Act Desc := do
  let bs ← g.read p 128
  let d := (tcbOf bs).toList
  match descBad d with
  | some i => raise { code := 0x044, addr := w64 (addr54 p), detail := i }
  | none => return d
/-- The virtual lines that a copy writes from flat index `f` on: elements, and scale bytes of quantised or copied blocks. -/
def copyLines (d : Desc) (f : Nat) : List Word :=
  let p := dword d 0
  let q := dword d 1
  let cd := sideCode q p
  let wd := sideBits d q p
  let sz := descSize d 0
  let scaled := blockScaled (ptrCode q) && decide (ptrCode p ≠ 0)
  (List.range (descTotal d / sz - f / sz)).flatMap fun r =>
    let row := f / sz + r
    let i := if r = 0 then f % sz else 0
    let off := rowOffset d false (descDims d) 1 row
    let (lo, hi) := if coded cd then (2048 * (i / 1024), 2048 * ((sz + 1023) / 1024)) else (i * wd / 8, (sz * wd + 7) / 8)
    let e := rowElems cd wd off
    let s0 : Int := (e + i) / (2 ^ ptrL q : Nat)
    let s1 : Int := (e + sz - 1) / (2 ^ ptrL q : Nat)
    linesOf (addr54 (addA q (BitVec.ofInt 64 (off + lo)))) (hi - lo) ++
      (if scaled then linesOf (addr54 (addA (dword d 4) (BitVec.ofInt 64 s0))) (s1 - s0 + 1).toNat else [])
/-- A `cp.nd` starts (R217, R240, R370): its descriptor is read and checked, and its engine owns the lines it writes. -/
def State.startCopy (s : State) (c : Nat) (w : EWord) : EvEnd :=
  match readDesc (w.eng c 4 1) (w.ops.getD 0 0) s with
  | .error (.exc e) s => .done (s.holdWord c 4 e)
  | .error .stall _ => .off
  | .error (.fault f) _ => .fault f
  | .ok d s =>
    match s.ownLines c 4 w.actx (copyLines d w.pos) with
    | none => .off
    | some s => .done (s.updWord c 4 fun w => { w with st := .started, desc := d, begun := true })
/-- `cp.nd` (R217 to R221): it copies all that is left, or a free number of units first. -/
def runCpNd (c : Nat) (w : EWord) : Act Word := do
  let total := descTotal w.desc
  let lim := Config.engineUnits (← get).fv
  modify State.useFree
  copyFrom (w.eng c 4 1) w.desc ⟨w.rmode, w.qmode⟩ (setPos c 4) total (if lim = 0 then total - w.pos else lim) w.pos
  if (((← get).headWord c 4).map (·.pos)).getD total < total then stall
  return 0
/-- A started `cp.nd` goes on; the lines it has written for the last time leave EO (R240). -/
def State.copyGo (s : State) (c : Nat) (w : EWord) : EvEnd :=
  match s.runWord c 4 (runCpNd c w) with
  | .done s =>
    match s.headWord c 4 with
    | some v => .done (if v.st = .started then s.keepOwn c 4 w.actx (copyLines w.desc v.pos) else s)
    | none => .done s
  | r => r

/-! ### Notices and pulls (R222 to R226) -/

/-- The notice of a `kick` as it arrives, after a free time on its way (log 79). -/
def State.noticeOf (s : State) (c : Nat) (w : EWord) : Option Notice :=
  let src := w64 (addr54 (w.ops.getD 0 0))
  let len := bitsOf (w.ops.getD 1 0) 23 0
  let kt := w.ops.getD 2 0
  let mk := fun (r : Nat) (p : Option Nat) => Notice.mk
    src (BitVec.ofNat 12 c) (BitVec.ofNat 12 r) (BitVec.ofNat 16 (bitsOf kt 15 0)) len w.seq p none
      (s.time - Config.transit s.fv) s.time none
  match w.word with
  | .kickPipe _ pipe .. => (s.pipeTo c pipe.toNat).map fun r => mk r.1 (some r.2.1)
  | .kickManual .. => some (mk (bitsOf kt 27 16) none)
  | _ => none
/-- A notice reaches its receiver's kick register, or is refused when that is full. -/
def State.sendNotice (s : State) (c : Nat) (w : EWord) : EvEnd :=
  match s.noticeOf c w with
  | none => .off
  | some n =>
    let k := clusterOf n.rcv.toNat
    if s.linkWaits (dieOf c) (dieOf n.rcv.toNat) && !s.linkFailed (dieOf c) (dieOf n.rcv.toNat) then .off
    else if s.linkFailed (dieOf c) (dieOf n.rcv.toNat) then .done ((s.updWord c 7 fun w => { w with st := .sent }).dropPacket c w.ctxn)
    else if (s.clusterAt k).kick.length ≥ 8 then
      (if w.st = .started then .off else .done (s.updWord c 7 fun w => { w with st := .started }))
    else .done ((((s.useFree.updCluster k fun x => { x with kick := x.kick ++ [n] }).msgSent c).msgReceived n.rcv.toNat).updWord c 7
      fun w => { w with st := .sent })
/-- KICK_NOTICE_ARRIVAL: the notice of the head `kick` of core `c` is sent, once the core's earlier stores are visible (R223),
and arrives or is refused. -/
def evKickNoticeArrival (c : CoreId) (s : State) : EvEnd :=
  match s.headWord c.toNat 7 with
  | some w =>
    if w.st ≠ .queued || (s.coreAt c.toNat).iris = .halted || !s.storesLeft c.toNat w || s.unacked c.toNat false then .off
    else s.sendNotice c.toNat w
  | none => .off
def execKickNoticeArrival (c : CoreId) (s : State) := (evKickNoticeArrival c s).outcome s
/-- KICK_NOTICE_RESEND: a refused notice is sent again (R222). -/
def evKickNoticeResend (c : CoreId) (s : State) : EvEnd :=
  match s.headWord c.toNat 7 with
  | some w => if w.st = .started then s.sendNotice c.toNat w else .off
  | none => .off
def execKickNoticeResend (c : CoreId) (s : State) := (evKickNoticeResend c s).outcome s

/-- How a pull stands. -/
inductive PullEnd where
  | done
  | src (e : Exc)
  | dst (e : Exc)
  | wait
  | fault (f : Fault)
/-- Bytes `i` on of a pull: read at the sender, written at the receiver. -/
def pullBytes (src : Nat → Act Byte) (dst : Nat → Byte → Act Unit) : Nat → Nat → State → State × Nat × PullEnd
  | 0, i, s => (s, i, .done)
  | n + 1, i, s =>
    match src i s with
    | .error (.exc e) s => (s, i, .src e)
    | .error .stall s => (s, i, .wait)
    | .error (.fault f) s => (s, i, .fault f)
    | .ok b s =>
      match dst i b s with
      | .error (.exc e) s => (s, i, .dst e)
      | .error .stall s => (s, i, .wait)
      | .error (.fault f) s => (s, i, .fault f)
      | .ok _ s => pullBytes src dst n (i + 1) s
/-- A byte of the sender's data, by a remote read from the receiver's die (R16, R328, R388). -/
def pullSource (n : Notice) (w : EWord) (i : Nat) : Act Byte := do
  let g : Eng := { (w.eng n.snd.toNat 7 1) with peer := false }
  let va := addA n.src (w64 i)
  let s ← get
  let (a, b) := (dieOf n.rcv.toNat, dieOf n.snd.toNat)
  if s.tripFailed a b then raise { code := 0x082, addr := va, acc := 2 }
  if s.tripWaits a b then stall
  return (← g.read va 1).headD 0
/-- The pulled data have arrived: the notice leaves, is accounted (R313), and is acknowledged (R223). -/
def State.pulled (s : State) (k : Nat) (n : Notice) : State :=
  let s := s.updCluster k fun x => { x with kick := x.kick.erase n }
  let s := s.updCore n.rcv.toNat fun c => c.account ⟨n.snd.toNat, n.sent, n.arrive, n.start.getD s.time⟩ s.time
  let s := s.msgSent n.rcv.toNat
  { s with acks := s.acks ++ [⟨n.snd.toNat, n.seq, n.tag, n.len, n.rcv.toNat, s.time⟩] }
/-- The engine starts the pull of a notice of cluster `k` (R313): `f` is what else it notes in it. -/
def State.startPull (s : State) (k : Nat) (n : Notice) (f : Notice → Notice) : State :=
  s.updCluster k fun x => { x with kick := x.kick.map fun m => if m = n then f { m with start := some (m.start.getD s.time) } else m }
/-- The sender's `kick` of a notice, when it is not held. -/
def State.kickOf (s : State) (n : Notice) : Option EWord :=
  match s.headWord n.snd.toNat 7 with
  | some w => if w.seq = n.seq && w.st = .sent then some w else none
  | none => none
/-- What a pull leaves: progress, which `note` sees too, a hold of either party, or the end. -/
def State.pullEnd (s0 : State) (n : Notice) (r : State × Nat × PullEnd) (note : Nat → State → State) (ok src : State → State)
    (dst : State → Exc → State) : EvEnd :=
  let s := fun (s : State) => note r.2.1 (s.updWord n.snd.toNat 7 fun w => { w with pos := r.2.1 })
  match r.2.2 with
  | .done => .done (if r.2.1 < n.len then s r.1 else ok (s r.1))
  | .src e => .done (src ((s r.1).holdWord n.snd.toNat 7 e))
  | .dst e => .done (dst (s r.1) e)
  | .wait => if r.2.1 = ((s0.headWord n.snd.toNat 7).map (·.pos)).getD 0 then .off else .done (s r.1)
  | .fault f => .fault f
/-- The bytes that a step of a pull moves: all `n` that are left, or a free number of them. -/
def State.pullLen (s : State) (n : Nat) : Nat := if Config.engineUnits s.fv = 0 then n else min n (Config.engineUnits s.fv)
/-- `cp.pull` takes the oldest matching notice, and owns the lines it writes (R226, R240); then it moves the data. A fault at the source
holds the sender's `kick` (R371), and the ownership ends with it (R360). -/
def State.runPullTake (s : State) (c : Nat) (w : EWord) (any : Bool) (tag : BitVec 16) : EvEnd :=
  let k := clusterOf c
  let mine := fun (n : Notice) => match w.taken with
    | some t => n.snd = t.1 && n.seq = t.2
    | none => n.pipe.isNone && n.rcv.toNat = c && n.start.isNone && (any || n.tag = tag)
  let again := fun (s : State) => (s.updWord c 4 fun w => { w with st := .queued }).disown c 4
  match (s.clusterAt k).kick.find? mine with
  -- the notice it took has gone with an abandoned `kick` (R365)
  | none => if w.taken.isSome then .done ((again s).updWord c 4 fun w => { w with taken := none }) else .off
  | some n =>
    match s.kickOf n with
    | none => .off
    | some kw =>
      let dst := fun (i : Nat) => addA (w.ops.getD 0 0) (w64 i)
      if w.st = .queued then
        match s.ownLines c 4 w.actx (linesOf (addr54 (dst kw.pos)) (n.len - kw.pos)) with
        | none => .off
        | some s => .done ((s.startPull k n id).updWord c 4 fun w => { w with st := .started, taken := some (n.snd, n.seq), begun := true })
      else
        let put := fun (i : Nat) (b : Byte) => (w.eng c 4 1).writeMask (dst i) [b] 0xFF
        -- the point of the pull is the kick's (R363), and the lines written for the last time leave EO (R240)
        let note := fun (i : Nat) (s : State) =>
          (s.updWord c 4 fun w => { w with pos := i }).keepOwn c 4 w.actx (linesOf (addr54 (dst i)) (n.len - i))
        s.pullEnd n (pullBytes (pullSource n kw) put (s.pullLen (n.len - kw.pos)) kw.pos s.useFree) note
          (fun s => ((s.pulled k n).updWord c 4 fun w => { w with st := .finished (w64 (2 ^ 48 * n.tag.toNat + n.len)) }).disown c 4)
          again (fun s e => (s.holdWord c 4 e).disown c 4)
/-- The ring of a pipe of a receiving core (R224). -/
def Core.ring (x : Core) (i : Nat) : Ring := findD ⟨0, 0⟩ i x.rings
/-- RXOFF and RXLEN of a pipe of a core's image. -/
def State.pipeArea (s : State) (c i : Nat) : Nat × Nat :=
  match (s.coreAt c).image.bind fun im => pipeEntry im.hdr i with
  | some e => (bitsOf e 25 13, bitsOf e 12 0)
  | none => (0, 0)
/-- `cp.pull REL=1` (R226). -/
def runPullRelease (c : Nat) (pipe units : Nat) : Act Word := do
  let s ← get
  let r := (s.coreAt c).ring pipe
  if r.free + units > (s.pipeArea c pipe).2 then raise { code := 0x043, detail := 0x87 }
  modify fun s => s.updCore c fun x => { x with rings := putKey pipe { r with free := r.free + units } x.rings }
  return 0
/-- The pull of a pipe notice (R224): once there is room its units are reserved; then the data move, and the arrival record is sent. -/
def State.runPipePull (s : State) (k : Nat) (n : Notice) (i : Nat) : EvEnd :=
  let c := n.rcv.toNat
  let (off, len) := s.pipeArea c i
  let r := (s.coreAt c).ring i
  let u := (n.len + 63) / 64
  match s.kickOf n, n.unit with
  | none, _ => .off
  | some _, none =>
    if (s.coreAt c).iris ≠ .running ∨ len = 0 ∨ r.free < u then .off
    else .done ((s.startPull k n fun m => { m with unit := some r.wp }).updCore c fun x =>
      { x with rings := putKey i { r with free := r.free - u } x.rings })
  | some kw, some first =>
    let put := fun (j : Nat) (b : Byte) => act fun s =>
      s.performBytes ⟨1, c, 0, s.node, 0, []⟩ [⟨spadLoc k (64 * off + (64 * first + j) % (64 * len)), b, 0xFF⟩]
    let finish := fun (s : State) =>
      let s := s.updCore c fun x => { x with rings := putKey i { x.ring i with wp := (first + u) % len } x.rings }
      let s := s.addRecord c ⟨w64 (2 ^ 48 * n.tag.toNat + 2 ^ 45 * i + 2 ^ 32 * first + n.len),
        w64 (4 * 2 ^ 56 + 2 ^ 44 * n.snd.toNat + n.seq.toNat), n.snd.toNat, s.time⟩
      s.pulled k n
    s.pullEnd n (pullBytes (pullSource n kw) put (s.pullLen (n.len - kw.pos)) kw.pos s.useFree) (fun _ s => s) finish id (fun s _ => s)
/-- A notice that no earlier notice of its pipe precedes. -/
def firstOfPipe (l : List Notice) (n : Notice) : Bool :=
  match l.find? fun m => m.rcv = n.rcv && m.pipe = n.pipe with
  | some m => m = n
  | none => false
/-- The kick register as a source of the copy engine: the oldest notice that can be pulled. -/
def State.kickSource (s : State) (k : Nat) : EvEnd :=
  EvEnd.first s ((s.clusterAt k).kick.filterMap fun n =>
    match n.pipe with
    | some i => if firstOfPipe (s.clusterAt k).kick n then some fun s => s.runPipePull k n i else none
    | none => none)

/-! ### The copy engine's start order (R209) -/

/-- A core's head copy word as a source: it starts, or goes on. -/
def State.copyWord (s : State) (c : Nat) : EvEnd :=
  match s.headWord c 4 with
  | none => .off
  | some w =>
    let fresh := w.st = .queued && (s.coreAt c).iris ≠ .halted
    if !(fresh || w.st = .started) || !s.storesLeft c w then .off
    else match w.word with
      | .cpNd .. => if w.st = .queued then s.startCopy c w else s.copyGo c w
      | .cpPullTake _ _ src _ tag => s.runPullTake c w src.any tag
      | .cpPullRelease _ _ src units => s.runWord c 4 (runPullRelease c src.pipe.toNat units.toNat)
      | _ => .off
/-- The sources of an engine in rotating order, after the one that started last. -/
def rotated (last n : Nat) : List Nat := (List.range n).map fun i => (last + 1 + i) % n
/-- The first source of a list that can go on, with what it does. -/
def firstSource (run : Nat → EvEnd) : List Nat → Option (Nat × EvEnd)
  | [] => none
  | i :: is => match run i with | .off => firstSource run is | r => some (i, r)
/-- A source that has started a word is remembered; one whose word only went on is not (R209). -/
def EvEnd.rotate (r : EvEnd) (k e i : Nat) (started : State → Bool) : EvEnd :=
  match r with
  | .done s => .done (if started s then s.updCluster k fun x => { x with rot := Vector.ofFn fun j => if j.val = e then i else x.rot[j] } else s)
  | r => r
/-- The head word of a queue has not yet been started. -/
def State.unbegun (s : State) (c q : Nat) : Bool := ((s.headWord c q).map (!·.begun)).getD false
/-- The pulls under way of a cluster's kick register. -/
def State.pulling (s : State) (k : Nat) : Nat := ((s.clusterAt k).kick.filter (·.start.isSome)).length
/-- Source `i` of the copy engine: a peer's queue, or 4, the kick register. -/
def State.copySource (s : State) (k i : Nat) : EvEnd := if i < 4 then s.copyWord (clusterCore k i) else s.kickSource k
/-- The next source of the copy engine. -/
def State.copyNext (s : State) (k : Nat) : Option (Nat × EvEnd) :=
  firstSource (s.copySource k) (rotated ((s.clusterAt k).rot.toList.getD 0 0) 5)
/-- PIPE_PULL: the copy engine serves the kick register (R209, R224). -/
def evPipePull (k : ClusterId) (s : State) : EvEnd :=
  match s.copyNext k.toNat with
  | some (4, r) => r.rotate k.toNat 0 4 fun t => decide (s.pulling k.toNat < t.pulling k.toNat)
  | _ => .off
def execPipePull (k : ClusterId) (s : State) := (evPipePull k s).outcome s
/-- PULL_ACK_ARRIVAL: an acknowledgement reaches the sender, after the arrival record has been written (R223, R225) and after the completion
records that can be written now (R212): its `kick` completes and the record is written. While the sender is not running it waits (R309). -/
def evPullAckArrival (i : Nat) (s : State) : EvEnd :=
  match s.acks[i]? with
  | none => .off
  | some a =>
    let arrival : Word := w64 (4 * 2 ^ 56 + 2 ^ 44 * a.snd + a.seq.toNat)
    if s.recordHere a.sender arrival || !s.visible a.sender 1 || (s.coreAt a.snd).iris ≠ .running || !(s.coreAt a.snd).recq.isEmpty ||
        s.completesBelow a.snd 8 then .off
    else if s.linkWaits (dieOf a.sender) (dieOf a.snd) && !s.linkFailed (dieOf a.sender) (dieOf a.snd) then .off
    else if s.linkFailed (dieOf a.sender) (dieOf a.snd) then
      .done (({ s with acks := s.acks.eraseIdx i }).dropPacket a.sender (s.coreAt a.sender).ctx.num)
    else
      let rec_ : EvRec := ⟨w64 (2 ^ 48 * a.tag.toNat + a.len), w64 (3 * 2 ^ 56 + 2 ^ 44 * a.sender + a.seq.toNat), a.sender, a.sent⟩
      let s := { s with acks := s.acks.eraseIdx i }
      let there := if (s.coreAt a.snd).image.isNone then some (s.holdRecord a.snd rec_) else s.putRecord a.snd rec_ true
      match there with
      | none => .off
      | some s => .done (match s.headWord a.snd 7 with
        | some w => if w.seq = a.seq then s.popWord a.snd 7 else s
        | none => s)
def execPullAckArrival (i : Nat) (s : State) := (evPullAckArrival i s).outcome s

end Sys2Proof.Machine
end

