-- ==== Sys2Proof/Machine/Fetch.lean ====
section
/-!
DEFINITION. The fetch of a core's next instruction (R67, R137, R340), through its L1I.
-/
namespace Sys2Proof.Machine

/-- Where the word of code at `va` lies, and whether the L1I holds its line (R137), else the leaf that maps it. A line that another task
holds makes the fetch wait (R245). -/
def fetchPlace (va : Word) : Act (Nat × Option Leaf) := do
  match ← l1Lookup true va 4 .fetch with
  | some pa =>
    waitHeld pa
    return (pa, none)
  | none =>
    let s ← get
    let (pa, leaf) ← globalAddr s.myDie s.actx s.core.ctx.mode va .fetch false s.core.ctx.task
    waitHeld pa
    missRoom va pa 4
    return (pa, some leaf)
/-- `n` bytes of code at such a place, from the L1I or from the slice (R137). -/
def fetchBytes (va : Word) (pa : Nat) (hit : Bool) (n : Nat) : Act (List Byte) := do
  let d := (← get).myDie
  if hit then return (← get).peek d pa n else sliceFetch d pa n va 1
/-- The word a fetch returns: an old one, where no `cmo` has made it fresh and the fetch still returns it (R137). -/
def fetchWord (pa : Nat) (bs : List Byte) : Act W32 := do
  let s ← get
  let olds := s.stale.filter fun e => e.loc = pa && e.dies.contains s.myDie && !e.fresh.contains s.me.toNat
  olds.foldlM (fun (w : W32) e => do
    let f := (← get).fv
    modify State.useFree
    return if Config.fetchOld f then e.old else w) (BitVec.ofNat 32 (natOfBytes bs))
/-- The words at the pc: one, or the eight of an engine word, which lie in one line (R49, R67); a line that was not in the L1I enters it. -/
def fetchInstr : Act (List W32) := do
  modify (·.updCtx fun x => { x with ir := 0 })
  let pc := (← get).pc
  if addr54 pc < 2 ^ 32 then raise { code := 0x007, addr := pc, acc := 1 }
  let (pa, leaf) ← fetchPlace pc
  let w ← fetchWord pa (← fetchBytes pc pa leaf.isNone 4)
  modify (·.updCtx fun x => { x with ir := w })
  let ws ← if wMaj w = 0x3F ∧ pc.toNat % 32 = 0 then do
      let bs ← fetchBytes pc (pa + 4) leaf.isNone 28
      let rest ← (List.range 7).mapM fun j => fetchWord (pa + 4 + 4 * j) ((bs.drop (4 * j)).take 4)
      pure (w :: rest)
    else pure [w]
  match leaf with
  | some f => modify fun s => (s.l1Fill s.me.toNat true s.actx (addr54 pc) pa f).counted s.myDie pa none
  | none => pure ()
  return ws
/-- The instruction of a context's word, when it is not an engine word. -/
def Ctx.instr (x : Ctx) : Option Instr := (decodeWords false [x.ir]).toOption

end Sys2Proof.Machine
end

