-- ==== Sys2Proof/Machine/Gather.lean ====
section
/-!
DEFINITION. The gather engine (09_engines.md R227 to R231, R372): starting a word takes ownership of the lines it writes (R240);
each later step performs one message at a slice agent, or writes one result after the last message.
-/
namespace Sys2Proof.Machine

/-- The words of the gather engine: bytes of a list entry, of a result, and COUNT. -/
def gatherShape (w : EWord) : Option (Nat × Nat × Nat) :=
  let n := (w.ops.getD 3 0).toNat
  match w.word with
  | .gaGat _ _ esz .. => some (4, gatSize esz, n)
  | .gaUpd .. => some (4, 0, n)
  | .gaPrb .. => some (8, 4, n)
  | _ => none
/-- The virtual lines a word still writes with its engine, from result `j` on. -/
def destLines (w : EWord) (j : Nat) : List Word :=
  match gatherShape w with
  | some (_, sz, n) => linesOf (addr54 (w.ops.getD 2 0) + sz * j) (sz * (n - j))
  | none => []
/-- A gather word starts: it owns the lines its engine writes, once no task holds and no other word owns one (R240, R245). -/
def State.startGather (s : State) (c : Nat) (w : EWord) : EvEnd :=
  match s.ownLines c 5 w.actx (destLines w w.wrote) with
  | none => .off
  | some s => .done (s.updWord c 5 fun w => { w with st := .started, begun := true })

/-- The entry that the engine reads next ahead of its turn, if any: list reads have no order (R228, log 32). -/
def aheadEntry (w : EWord) (n fv : Nat) : Option Nat :=
  (Config.listAhead fv).filter fun i => w.pos ≤ i && decide (i < n) && !w.read.any (·.1 = i)
/-- Entry `i` of the list of a word is read, as bytes of one access (R228). -/
def readEntry (g : Eng) (w : EWord) (sz i : Nat) : Act Nat := g.readNat (addA (w.ops.getD 0 0) (w64 (sz * i))) sz
/-- An entry read ahead is kept, where it can be read; a fault of it is reported when its turn comes (R372). -/
def latchEntry (g : Eng) (c : Nat) (w : EWord) (sz i : Nat) (s : State) : State :=
  match readEntry g w sz i s with
  | .ok x s => s.updWord c 5 fun w => { w with read := (i, w64 x) :: w.read }
  | .error .. => s
/-- Entry `j` of the list, read exactly once (R228): an entry the engine has read ahead is not read again. -/
def listEntry (g : Eng) (c : Nat) (w : EWord) (sz j : Nat) : Act Nat := do
  match w.read.find? (·.1 = j) with
  | some p => return p.2.toNat
  | none =>
    let x ← readEntry g w sz j
    modify fun s => s.updWord c 5 fun w => { w with read := (j, w64 x) :: w.read }
    return x
/-- Result `j` is settled: the word goes on to the next. Its bytes are written after the last message (R229, R231). -/
def settleResult (c : Nat) (j : Nat) (miss : Bool) (bs : List Byte) : Act Unit := modify fun s =>
  s.updWord c 5 fun w => { w with
    pos := j + 1, read := w.read.filter (·.1 ≠ j), res := if miss then w.res + 1 else w.res, probe := 0
    out := if bs.isEmpty then w.out else w.out ++ [bs] }
/-- Result `j` of a word is written in one action (R282); the lines before the next that the word owned leave EO (R240). -/
def writeResult (g : Eng) (c : Nat) (w : EWord) (sz : Nat) : Act Unit := do
  let bs := w.out.getD w.wrote []
  g.writeWhole (addA (w.ops.getD 2 0) (w64 (sz * w.wrote))) (min sz 8) bs
  modify fun s =>
    (s.updWord c 5 fun w => { w with wrote := w.wrote + 1 }).keepOwn c 5 w.actx (destLines w (w.wrote + 1))

/-- The update of `ga.upd` (R230). -/
def gaApply (op : GaOp) (t : GaTy) (old v : Nat) : Nat :=
  let w : MemW := if gaTySize t = 4 then .w32 else .w64
  match op, t with
  | .rep, _ => v
  | .add, .f32 | .add, .f64 => redOp .fadd w old v
  | .max, .f32 | .max, .f64 => redOp .fmax w old v
  | .min, .f32 | .min, .f64 => redOp .fmin w old v
  | .add, _ => redOp .add w old v
  | .max, .n32 | .max, .n64 => redOp .maxn w old v
  | .min, .n32 | .min, .n64 => redOp .minn w old v
  | .max, _ => redOp .max w old v
  | .min, _ => redOp .min w old v
/-- A global table access: a local address is a bounds fault (R228). -/
def tableEng (g : Eng) (kind : Nat) : Eng := { g with kind := kind, loc := false }
/-- An indivisible update at an element's slice agent (R227). -/
def agentUpdate (g : Eng) (va : Word) (n : Nat) (f : Nat → Nat) : Act Unit := do
  let g := tableEng g 5
  let l ← g.target va n .atomic
  let bs ← sliceRead g.die l n va 4
  g.put va (plainBytes l (leBytes n (f (natOfBytes bs))))

/-- The first bucket of a key (R231). -/
def bucketOf (tl k : Nat) : Nat := k * 0x9E3779B97F4A7C15 % 2 ^ 64 / 2 ^ (64 - tl)
/-- The next action of a started gather word: an entry read ahead; the message of index, key or bucket `pos` at its slice agent; or, after
the last message, the write of a result. -/
def gatherMessage (c : Nat) (w : EWord) : Act Unit := do
  let g := w.eng c 5 2
  let j := w.pos
  let base := w.ops.getD 1 0
  let (lsz, sz, n) := (gatherShape w).getD (0, 0, 0)
  if n ≤ j then return ← writeResult g c w sz
  let ahead := aheadEntry w n (← get).fv
  modify State.useFree
  match ahead with
  | some i => return ← modify (latchEntry g c w lsz i)
  | none => pure ()
  let x ← listEntry g c w lsz j
  match w.word with
  | .gaGat _ _ esz .. =>
    let e := gatSize esz
    let null := x = 0xFFFFFFFF
    let bs ← if null then pure (List.replicate e 0) else (tableEng g 2).read (addA base (w64 (x * e))) e
    settleResult c j null bs
  | .gaUpd _ _ op t .. =>
    if x ≠ 0xFFFFFFFF then do
      let sz := gaTySize t
      let v ← g.readNat (addA (w.ops.getD 2 0) (w64 (j * sz))) sz
      agentUpdate g (addA base (w64 (x * sz))) sz (fun old => gaApply op t old v)
    settleResult c j false []
  | .gaPrb _ _ tl .. =>
    let t := tl.toNat
    let put := fun (v : Nat) => settleResult c j (v = 0xFFFFFFFF) (leBytes 4 v)
    if x = 2 ^ 64 - 1 then put 0xFFFFFFFF
    else do
      let b := (bucketOf t x + w.probe) % 2 ^ t
      let at_ := addA base (w64 (16 * b))
      let bs ← (tableEng g 2).read at_ 16
      let kk := natOfBytes (bs.take 8)
      if kk = x then put (natOfBytes ((bs.drop 8).take 4))
      else if kk = 2 ^ 64 - 1 ∨ w.probe + 1 ≥ 2 ^ t then put 0xFFFFFFFF
      else modify fun s => s.updWord c 5 fun w => { w with probe := w.probe + 1 }
  | _ => pure ()
/-- RES of a gather word (R229 to R231). -/
def gatherRes (w : EWord) : Word := match w.word with | .gaUpd .. => 0 | _ => w.res
/-- The next message of core `c`'s gather word. -/
def State.gatherStep (s : State) (c : Nat) : EvEnd :=
  match s.headWord c 5 with
  | none => .off
  | some w =>
    match w.st with
    | .started =>
      match gatherMessage c w s with
      | .ok _ s' =>
        let s' := match s'.headWord c 5, gatherShape w with
          | some w', some (_, sz, n) =>
            if n ≤ w'.pos ∧ (sz = 0 ∨ n ≤ w'.wrote) then (s'.updWord c 5 fun w => { w with st := .finished (gatherRes w) }).disown c 5 else s'
          | _, _ => s'
        .done s'
      | .error (.exc e) s' => .done (((s'.holdWord c 5 e).updWord c 5 fun w => { w with probe := 0, read := [] }).disown c 5)
      | .error .stall _ => .off
      | .error (.fault f) _ => .fault f
    | _ => .off
/-- SLICE_AGENT_MESSAGE: a slice agent performs one message of the cluster's gather words (R227). -/
def evSliceAgentMessage (k : ClusterId) (s : State) : EvEnd :=
  EvEnd.first s ((clusterCores k.toNat).map fun c s => s.gatherStep c)
def execSliceAgentMessage (k : ClusterId) (s : State) := (evSliceAgentMessage k s).outcome s
/-- A core's head gather word as a source of the engine. -/
def State.gatherWord (s : State) (c : Nat) : EvEnd :=
  match s.headWord c 5 with
  | none => .off
  | some w =>
    if w.st ≠ .queued || (s.coreAt c).iris = .halted || !s.storesLeft c w then .off else s.startGather c w

end Sys2Proof.Machine
end

