-- ==== Sys2Proof/Machine/Mirror.lean ====
section
/-!
DEFINITION. The Mirror (11_mirror.md R262 to R273, R373), and ENGINE_WORD_START for the three cluster engines (R209).
-/
namespace Sys2Proof.Machine

/-- Bytes of a slot (R262). -/
def MirrorCfg.slotSize (m : MirrorCfg) : Nat := 64 * (1 + m.isz + m.osz)
/-- Address of a slot's header. -/
def MirrorCfg.slot (m : MirrorCfg) (i : Nat) : Word := addA m.base (w64 (256 + i * m.slotSize))
/-- Address of the counter of a key's pair that a hit or a miss counts in (R262, R268). -/
def MirrorCfg.counter (m : MirrorCfg) (key : Nat) (hit : Bool) : Word := addA m.base (w64 (16 * (key / 2 ^ 32 % 16) + (if hit then 0 else 8)))
/-- The accesses of the Mirror to its store: with the address context of the core that executed `mi.cfg` (R262). DESIGN CHOICE: the rights
(R143, SYS) are those of the mode that the `mi.cfg` was pushed in, whichever core's word the Mirror performs (log 106). -/
def MirrorCfg.eng (m : MirrorCfg) (c : Nat) : Eng := { core := c, actx := m.actx, mode := m.mode, kind := 3, cls := 6, loc := false }
/-- The fields of a slot header (R263). -/
structure Slot where
  v : Bool
  ov : Bool
  ifmt : Nat
  run : Nat
  key : Nat
  tag : Nat
  icnt : Nat
  olen : Nat
  deriving DecidableEq, Repr
/-- A header as its first three words; the rest are zero. -/
def Slot.words (h : Slot) : List Word :=
  [w64 ((if h.v then 2 ^ 63 else 0) + (if h.ov then 2 ^ 62 else 0) + 2 ^ 56 * h.ifmt + 2 ^ 48 * h.run + h.key),
    w64 (2 ^ 32 * h.tag + h.icnt), w64 h.olen]
/-- A header from its words. -/
def slotOf (w0 w1 w2 : Word) : Slot :=
  ⟨w0.getLsbD 63, w0.getLsbD 62, bitsOf w0 61 56, bitsOf w0 55 48, bitsOf w0 47 0, bitsOf w1 63 32, bitsOf w1 12 0, bitsOf w2 12 0⟩
/-- The header of a slot is read; and written. -/
def readSlot (g : Eng) (a : Word) : Act Slot := do
  let w0 ← g.readNat a 8
  let w1 ← g.readNat (addA a 8) 8
  let w2 ← g.readNat (addA a 16) 8
  return slotOf (w64 w0) (w64 w1) (w64 w2)
@[inherit_doc readSlot] def writeSlot (g : Eng) (a : Word) (h : List Word) : Act Unit := do
  for (x, i) in h.zipIdx do g.writeNat (addA a (w64 (8 * i))) 8 x.toNat
/-- A header reset (R263): all eight words are zero. -/
def clearSlot (g : Eng) (a : Word) : Act Unit := do
  for i in List.range 8 do g.writeNat (addA a (w64 (8 * i))) 8 0

/-- The metric of R266 on the elements of the input and the anchor: it holds, against the bound T. -/
def metricHolds (mode : MiMode) (thr : Nat) (xs ys : List Val) : Bool :=
  let finite := fun (v : Val) => match v with | .fin .. => true | _ => false
  if !(xs.all finite && ys.all finite) then false else
  let add := fun (a b : Nat) => (fpAdd fmtF32 .rne (fmtF32.val a) (fmtF32.val b)).1
  let abs := fun (a : Nat) => a % 2 ^ 31
  let le := fun (a b : Nat) => match (fmtF32.val a).cmp (fmtF32.val b) with | some .gt | none => false | _ => true
  let mul := fun (a b : Val) => (fpMul fmtF32 .rne a b).1
  let ds := (xs.zip ys).map fun p => abs (fpAdd fmtF32 .rne p.1 p.2.neg).1
  let maxOf := fun (l : List Nat) => l.foldl (fun m d => fpMinMax fmtF32 true m d) 0
  match mode with
  | .absmax => le (maxOf ds) thr
  | .relmax =>
    let ym := maxOf (ys.map fun y => abs (convertFloat fmtF32 .rne false y).1)
    le (maxOf ds) (mul (fmtF32.val thr) (fmtF32.val ym))
  | .l1 => le (ds.foldl add 0) (mul (fmtF32.val thr) (.fin false xs.length 0))

/-- Element `i` of an input area or input (R266), as a value. -/
def mirrorElem (g : Eng) (a : Word) (code i : Nat) : Act Nat := g.readElem a 0 (mirrorBits code) i
/-- The value of an element. -/
def mirrorVal (code x : Nat) : Val := scaledVal (sideFmt code) x none

/-- Bytes `i` on of a copy, one after another, keeping the point (R360). -/
def putBytes (g : Eng) (c : Nat) (a : Word) (bs : List Byte) : Nat → Nat → Act Unit
  | 0, _ => pure ()
  | n + 1, i => do
    g.writeMask (addA a (w64 i)) [bs.getD i 0] 0xFF
    setPos c 6 (i + 1)
    putBytes g c a bs n (i + 1)
/-- What a word has decided is kept, so that a resumed word goes on from its point (R360). -/
def keepPlan (c : Nat) (p : MirrorPlan) : Act Unit := modify fun s => s.updWord c 6 fun w => { w with plan := some p }
/-- Another core's Mirror word that is held with part of its writes made keeps its slot to itself (R267, log 80): a word on that slot
waits, and with `all` a word on any slot; a held `mi.clr ALL=1` keeps every slot. -/
def slotFree (m : MirrorCfg) (c : Nat) (all : Bool) (key : Nat) : Act Unit := do
  let s ← get
  let busy := fun (p : Nat) => decide (p ≠ c) && match s.headWord p 6 with
    | some w => w.plan.isSome && (match w.st with | .finished _ => false | _ => true) &&
        (all || (match w.word with | .miClrAll .. => true | _ => false) || decide ((w.ops.getD 0 0).toNat % m.nslot = key % m.nslot))
    | none => false
  if (clusterCores (clusterOf c)).any busy then stall
/-- The end of a query (R265, R268, R360): the header is written, and the query is counted, by an indivisible add in the store and in MIRHIT
or MIRMISS. What of this can fault does so before any of it is done. -/
def settleQuery (m : MirrorCfg) (c : Nat) (a : Word) (p : MirrorPlan) (key : Nat) : Act Unit := do
  let g := m.eng c
  let at_ := m.counter key p.hit
  let n ← g.readNat at_ 8
  let _ ← g.target at_ 8 .store
  writeSlot g a p.hdr
  g.writeNat at_ 8 (n + 1)
  modify fun s => (s.noteSignal (clusterOf c) (if p.hit then 100 else 101)).updCore c fun k =>
    if p.hit then { k with mirhit := k.mirhit + 1 } else { k with mirmiss := k.mirmiss + 1 }

/-- The configuration, or 0x045 with DETAIL 1 (R373). -/
def configured (c : Nat) : Act MirrorCfg := do
  match ((← get).clusterAt (clusterOf c)).mirror with
  | some m => return m
  | none => raise { code := 0x045, detail := 1 }
/-- Bytes of `n` elements of a code. -/
def elemBytes (code n : Nat) : Nat := n * mirrorBits code / 8

/-- `mi.cfg` (R270). -/
def runMiCfg (c : Nat) (w : EWord) (osz isz : BitVec 6) (nslot : BitVec 16) : Act Word := do
  let s ← get
  -- it waits for the Mirror words that have started (R270)
  if (clusterCores (clusterOf c)).any fun p => decide (p ≠ c) && match s.headWord p 6 with
      | some x => x.begun || (match x.st with | .finished _ => true | _ => false)
      | none => false then stall
  let m : MirrorCfg := ⟨w64 (addr54 (w.ops.getD 0 0)), nslot.toNat + 1, isz.toNat + 1, osz.toNat + 1, w.actx, w.mode⟩
  let g := m.eng c
  let size := 256 + m.nslot * m.slotSize
  for i in List.range ((size + 65535) / 65536 + 1) do
    let a := addA m.base (w64 (min (65536 * i) (size - 8)))
    let pa ← g.target a 8 .store
    if paDie pa ≠ dieOf c ∨ paNode pa ≠ s.node then raise { code := 0x045, detail := 4 }
  modify fun s => s.updCluster (clusterOf c) fun k => { k with mirror := some m }
  for i in List.range 32 do g.writeNat (addA m.base (w64 (8 * i))) 8 0
  for i in List.range m.nslot do clearSlot g (m.slot i)
  return 0
/-- `mi.qry` (R265 to R268, R271). -/
def runMiQry (c : Nat) (w : EWord) (mode : MiMode) : Act Word := do
  let m ← configured c
  let g := m.eng c
  let gi := { (w.eng c 6 3) with peer := false }
  let key := (w.ops.getD 0 0).toNat
  let step := bitsOf (w.ops.getD 1 0) 31 0
  let inp := w.ops.getD 2 0
  let n := (w.ops.getD 3 0).toNat
  let code := ptrCode inp
  if 64 * m.isz < elemBytes code n then raise { code := 0x045, detail := 2 }
  slotFree m c false key
  let a := m.slot (key % m.nslot)
  let area := addA a 64
  let p : MirrorPlan ← match w.plan with
    | some p => pure p
    | none => do
      let h ← readSlot g a
      let xs ← (List.range n).mapM (mirrorElem gi inp code)
      let lim := bitsOf w.mirrun 7 0
      let same := h.v && h.ov && h.key = key && h.tag = (step + 2 ^ 32 - 1) % 2 ^ 32 && h.ifmt = code && h.icnt = n &&
        (lim = 0 || decide (h.run < lim))
      let hit ← if same then do
          let ys ← (List.range n).mapM (mirrorElem g area code)
          pure (metricHolds mode (bitsOf w.mirth 31 0) (xs.map (mirrorVal code)) (ys.map (mirrorVal code)))
        else pure false
      let bits := mirrorBits code
      let bs ← if hit then (List.range h.olen).mapM fun i => do return (← g.read (addA a (w64 (64 + 64 * m.isz + i))) 1).headD 0
        else pure (leBytes (elemBytes code n) (xs.zipIdx.map fun p => p.1 * 2 ^ (bits * p.2)).sum)
      -- the last read that can fault comes before every write (R360)
      let _ ← g.readNat (m.counter key hit) 8
      let h' : Slot := if hit then { h with tag := step, run := min (h.run + 1) 255 } else ⟨true, false, code, 0, key, step, n, h.olen⟩
      pure ⟨hit, bs, h'.words⟩
  keepPlan c p
  if p.hit then putBytes gi c (w.ops.getD 4 0) p.bytes (p.bytes.length - w.pos) w.pos
  else putBytes g c area p.bytes (p.bytes.length - w.pos) w.pos
  settleQuery m c a p key
  return if p.hit then 1 else 0
/-- `mi.put` (R272). -/
def runMiPut (c : Nat) (w : EWord) : Act Word := do
  let m ← configured c
  let g := m.eng c
  let gi := { (w.eng c 6 3) with peer := false }
  let key := (w.ops.getD 0 0).toNat
  let len := (w.ops.getD 3 0).toNat
  if 64 * m.osz < len then raise { code := 0x045, detail := 3 }
  slotFree m c false key
  let a := m.slot (key % m.nslot)
  let put := fun (p : MirrorPlan) => do
    keepPlan c p
    putBytes g c (addA a (w64 (64 + 64 * m.isz))) p.bytes (len - w.pos) w.pos
    writeSlot g a p.hdr
    return 1
  match w.plan with
  | some p => put p
  | none => do
    let h ← readSlot g a
    if !(h.v && h.key = key && h.tag = bitsOf (w.ops.getD 1 0) 31 0) then return 0
    let bs ← (List.range len).mapM fun i => do return (← gi.read (addA (w.ops.getD 2 0) (w64 i)) 1).headD 0
    put ⟨true, bs, ({ h with ov := true, olen := len } : Slot).words⟩
/-- `mi.clr` of a key (R273). -/
def runMiClrKey (c : Nat) (w : EWord) : Act Word := do
  let m ← configured c
  let g := m.eng c
  let key := (w.ops.getD 0 0).toNat
  slotFree m c false key
  let a := m.slot (key % m.nslot)
  let h ← readSlot g a
  if h.v && h.key = key then do
    clearSlot g a
    return 1
  else return 0
/-- Slots `i` on are reset, one after another, keeping the point (R267, R273, R360). -/
def clearSlots (m : MirrorCfg) (c : Nat) : Nat → Nat → Act Unit
  | 0, _ => pure ()
  | n + 1, i => do
    clearSlot (m.eng c) (m.slot i)
    setPos c 6 (i + 1)
    keepPlan c ⟨false, [], []⟩
    clearSlots m c n (i + 1)
/-- `mi.clr ALL=1` (R273). -/
def runMiClrAll (c : Nat) (w : EWord) : Act Word := do
  let m ← configured c
  slotFree m c true 0
  clearSlots m c (m.nslot - w.pos) w.pos
  return w64 m.nslot

/-- A Mirror word is performed whole (R267): one that must wait does nothing yet. -/
def State.runMirror (s : State) (c : Nat) (a : Act Word) : EvEnd :=
  match s.runWord c 6 (whole a) with
  | .done s => .done (s.updWord c 6 fun w => { w with begun := true })
  | r => r
/-- A core's head Mirror word as a source. -/
def State.mirrorWord (s : State) (c : Nat) : EvEnd :=
  match s.headWord c 6 with
  | none => .off
  | some w =>
    if w.st ≠ .queued || (s.coreAt c).iris = .halted || !s.storesLeft c w then .off
    else match w.word with
      | .miCfg _ _ _ osz isz nslot => s.runMirror c (runMiCfg c w osz isz nslot)
      | .miQry _ mode .. => s.runMirror c (runMiQry c w mode)
      | .miPut .. => s.runMirror c (runMiPut c w)
      | .miClrKey .. => s.runMirror c (runMiClrKey c w)
      | .miClrAll .. => s.runMirror c (runMiClrAll c w)
      | _ => .off
/-- ENGINE_WORD_START: an engine of a cluster starts the next word in rotating order (R209). -/
def evEngineWordStart (k : ClusterId) (e : EngineId) (s : State) : EvEnd :=
  let rot := fun (i : Nat) => (s.clusterAt k.toNat).rot.toList.getD i 0
  match e with
  | .copy => match s.copyNext k.toNat with
    | some (i, r) => if i < 4 then r.rotate k.toNat 0 i fun _ => s.unbegun (clusterCore k.toNat i) 4 else .off
    | none => .off
  | .gather => match firstSource (fun i => s.gatherWord (clusterCore k.toNat i)) (rotated (rot 1) 4) with
    | some (i, r) => r.rotate k.toNat 1 i fun _ => s.unbegun (clusterCore k.toNat i) 5
    | none => .off
  | .mirror => match firstSource (fun i => s.mirrorWord (clusterCore k.toNat i)) (rotated (rot 2) 4) with
    | some (i, r) => r.rotate k.toNat 2 i fun _ => s.unbegun (clusterCore k.toNat i) 6
    | none => .off
def execEngineWordStart (k : ClusterId) (e : EngineId) (s : State) := (evEngineWordStart k e s).outcome s

end Sys2Proof.Machine
end

