-- ==== Sys2Proof/Machine/PrismStep.lean ====
section
/-!
DEFINITION. The Prism (08_prism.md R185 to R201; R42, R43): pairing and mismatch (R188, R367), K-steps over dense, sparse and
coded operands (R190 to R197), the scale cache (R193), and the single-end words (R189, R199, R200, R205 to R208).
-/
namespace Sys2Proof.Machine

/-! ### Ends -/

/-- The two ends of a Prism, first the west or south core's (R184); none where its link leaves the die. -/
def prismEnds (p : PrismId) : Option ((Nat × End) × (Nat × End)) :=
  let c := p.toNat / 2
  let e : End := if p.toNat % 2 = 0 then .east else .north
  (neighbour c e).map fun n => ((c, e), (n, oppositeEnd e))
/-- Index of an end of its Prism (R184). -/
def endIndex : End → Nat
  | .north | .east => 0
  | .south | .west => 1
/-- The Prism performs an operation of a gang (R186): another gang's state, or a fresh mark, resets it first. -/
def State.freshen (s : State) (p g : Nat) : State :=
  if (s.prismAt p).gang = some g then s
  else
    let lo := sideLoc p 0
    let s := (s.healRange lo 8192).healRange (accLoc p false 0) 2048
    { s.updPrism p fun _ => { Prism.reset with gang := some g } with mem := s.mem.filter fun c => decide (c.1 < lo ∨ lo + 8192 ≤ c.1) }

/-- The fields of a paired word (R204). -/
structure MmaWord where
  sma : Bool
  role : Role
  bank : Bool
  spa : Bool
  spb : Bool
  sw : Nat
  m : Nat
  n : Nat
  k : Nat
  fa : Nat
  fb : Nat
  moff : Nat
@[inherit_doc MmaWord] def mmaWord : Instr → Option MmaWord
  | .prMma _ _ role bank _ sw _ _ m n k fa fb =>
    some ⟨false, role, bank, false, false, sw.toNat, m.toNat + 1, n.toNat + 1, k.toNat, fa.toNat, fb.toNat, 0⟩
  | .prSma _ _ role bank _ spa spb sw _ _ m n k fa fb moff =>
    some ⟨true, role, bank, spa, spb, sw.toNat, m.toNat + 1, n.toNat + 1, k.toNat, fa.toNat, fb.toNat, moff.toNat⟩
  | _ => none
/-- The format code, the lines and the sparsity of a word's own operand. -/
def MmaWord.own (x : MmaWord) : Nat := match x.role with | .a => x.fa | .b => x.fb
@[inherit_doc MmaWord.own] def MmaWord.lines (x : MmaWord) : Nat := match x.role with | .a => x.m | .b => x.n
@[inherit_doc MmaWord.own] def MmaWord.sparse (x : MmaWord) : Bool := match x.role with | .a => x.spa | .b => x.spb
/-- The step length k (R42). -/
def MmaWord.stepLen (x : MmaWord) : Nat :=
  match max (codeBits x.fa) (codeBits x.fb) with
  | 16 => 4 | 8 => 8 | _ => 16
/-- The fields in which two words in the rendezvous slots disagree (R188, R367). -/
def mismatch (a b : EWord) (x y : MmaWord) : Nat :=
  (if x.sma ≠ y.sma then 1 else 0) + (if a.gang ≠ b.gang then 2 else 0) +
    (if x.m ≠ y.m ∨ x.n ≠ y.n ∨ x.k ≠ y.k then 4 else 0) + (if x.fa ≠ y.fa ∨ x.fb ≠ y.fb then 8 else 0) +
    (if x.bank ≠ y.bank then 16 else 0) + (if x.role = y.role then 32 else 0) +
    (if x.sma ∧ y.sma ∧ (x.spa ≠ y.spa ∨ x.spb ≠ y.spb) then 64 else 0)
/-- A word is held for a mismatch (R367). -/
def EWord.mismatched (w : EWord) : Bool := w.paired && match w.st with | .held code .. => decide (code = 0x040) | _ => false
/-- PRISM_PAIRING: the paired words in both slots of a Prism are paired, or held for their mismatch (R188, R367); one that has resumed against a
partner still held is found again. -/
def evPrismPairing (p : PrismId) (s : State) : EvEnd :=
  match prismEnds p with
  | none => .off
  | some ((c, e), (d, f)) =>
    match s.headWord c (endCode e), s.headWord d (endCode f) with
    | some a, some b =>
      match mmaWord a.word, mmaWord b.word with
      | some x, some y =>
        let ready := fun (w : EWord) => w.st = .queued || w.mismatched
        if (a.st ≠ .queued && b.st ≠ .queued) || !ready a || !ready b || (s.coreAt c).iris = .halted || (s.coreAt d).iris = .halted then .off
        else
          let n := mismatch a b x y
          if n ≠ 0 then
            let h : Exc := { code := 0x040, detail := n }
            let hold := fun (w : EWord) (s : State) (c q : Nat) => if w.st = .queued then s.holdWord c q h else s
            .done (hold b (hold a s c (endCode e)) d (endCode f))
          else
            let start := fun (w : EWord) => { w with st := .started, pos := 0, begun := true }
            .done (((s.freshen p.toNat a.gang).updWord c (endCode e) start).updWord d (endCode f) start)
      | _, _ => .off
    | _, _ => .off
def execPrismPairing (p : PrismId) (s : State) := (evPrismPairing p s).outcome s

/-! ### Operands (R191 to R197) -/

/-- A read of an operand, swizzled word by word in the scratchpad (R71, R191). -/
def Eng.readSwz (g : Eng) (sw : Nat) (va : Word) (n : Nat) : Act (List Byte) := do
  if sw = 0 then g.read va n
  else
    let a := addr54 va
    if !inSpad a then raise { code := 0x007, addr := va, acc := 2 }
    g.read (w64 (swz a sw)) n
/-- An element of a dense line, or a kept value (R191, R196). -/
def operandElem (g : Eng) (sw code : Nat) (line : Word) (i : Nat) : Act Nat := do
  if coded code then codedElemBy (g.readSwz sw) line i
  else
    let w := codeBits code
    let (a, nib) := elemAddr line 0 w i
    let x := natOfBytes (← g.readSwz sw a (max 1 (w / 8)))
    return if w = 4 then x / 16 ^ nib % 16 else x
/-- The value of an element of a code. -/
def operandVal (code x : Nat) : Val :=
  match code with
  | 0x20 => fmtF16.val x | 0x21 => fmtBf16.val x | 0x22 => fmtE4m3.val x | 0x23 => fmtE5m2.val x | 0x24 => fmtE2m1.val x
  | c => scaledVal (sideFmt c) x none
/-- A scale code read through the scale cache (R193): a sector it holds does not see later stores. The cache holds 2 KiB (R185), of which the
sector read longest ago goes. -/
def scaleByte (g : Eng) (p i : Nat) (o : Int) : Act Nat := do
  let r := (← get).prismAt p
  let a := addA (r.sbase.toList.getD i 0) (BitVec.ofInt 64 (o / (2 ^ (r.shift.toList.getD i 0).toNat : Nat)))
  let sec := addr54 a / 32 * 32
  let s ← get
  let old := (r.scale.toList.getD i []).find? (·.1 = sec)
  let bs ← match old with
    | some e => do
      modify State.useFree
      if Config.scaleKept s.fv then pure e.2 else g.read (w64 sec) 32
    | none => g.read (w64 sec) 32
  modify fun s => s.updPrism p fun r =>
    { r with scale := Vector.ofFn fun j => if j.val = i then ((sec, bs) :: r.scale[j].filter (·.1 ≠ sec)).take 64 else r.scale[j] }
  return (bs.getD (addr54 a - sec) 0).toNat
/-- The unbiased exponent of a scale code; none for 0xFF (R43). -/
def scaleOf (c : Nat) : Option Int := if c = 0xFF then none else some ((c : Int) - 127)

/-- A sparse-line layout (R197): kept values, header offset, first reserved byte, whether byte 120 is a scale. -/
def sparseLayout (code : Nat) : Nat × Nat × Nat × Bool :=
  match code with
  | 0x20 | 0x21 => (56, 112, 126, false)
  | 0x24 => (160, 80, 120, false)
  | _ => (96, 96, 121, true)
/-- Positions `p0` on, `n` of them, of a sparse line (R197, R368): kept values at their positions, and the line's scale. -/
def sparseLineBeat (g : Eng) (code : Nat) (start : Word) (p0 n : Nat) : Act (List (Option Val) × Option Int) := do
  let (kept, hdr, resv, sc) := sparseLayout code
  let span := 2 * kept
  let line := addA start (w64 (128 * (p0 / span)))
  if p0 % span = 0 then do
    let bs ← (List.range (128 - resv)).mapM fun i => g.read (addA line (w64 (resv + i))) 1
    if bs.flatten.any (· ≠ 0) then raise { code := 0x041, addr := line, detail := 2, acc := 2 }
  let scale : Option Int ← if sc then scaleOf <$> g.readNat (addA line 120) 1 else pure (some 0)
  let lo := p0 % span
  let parts ← (List.range ((n + 3) / 4)).mapM fun i => do
    let v := 2 * (lo / 4 + i)
    let h ← g.readNat (addA line (w64 (hdr + v / 4))) 1
    let f1 := h / 4 ^ (v % 4) % 4
    let f2 := h / 4 ^ (v % 4 + 1) % 4
    if f2 ≤ f1 then raise { code := 0x041, addr := line, detail := 1, acc := 2 }
    let x ← operandElem g 0 code line v
    let y ← operandElem g 0 code line (v + 1)
    return (List.range 4).map fun q =>
      if q = f1 then some (operandVal code x) else if q = f2 then some (operandVal code y) else none
  return (parts.flatten.take n, scale)
/-- Positions of a sparse operand in side-memory form (R196). -/
def sideBeat (g : Eng) (x : MmaWord) (p i l : Nat) (start : Word) (p0 n : Nat) : Act (List (Option Val)) := do
  let base := sideLoc p (4096 * i + x.moff + l * x.k / 8)
  let parts ← (List.range ((n + 3) / 4)).mapM fun t => do
    let grp := p0 / 4 + t
    let b := (natOfBytes (← readLocal (base + grp / 2) 1 (w64 x.moff) 2)) / 16 ^ (grp % 2) % 16
    let f1 := b % 4
    let f2 := b / 4
    if f2 ≤ f1 then raise { code := 0x041, addr := w64 x.moff, detail := 1, acc := 2 }
    let u ← operandElem g x.sw x.own start (2 * grp)
    let v ← operandElem g x.sw x.own start (2 * grp + 1)
    return (List.range 4).map fun q =>
      if q = f1 then some (operandVal x.own u) else if q = f2 then some (operandVal x.own v) else none
  return parts.flatten.take n
/-- A beat of one end (R194): the values of positions `p0` on of every line, a skipped one absent, and each line's scale. -/
def beat (g : Eng) (w : EWord) (x : MmaWord) (p i p0 n : Nat) : Act (List (List (Option Val) × Option Int)) :=
  (List.range x.lines).mapM fun l => do
    let start := addA (w.ops.getD 0 0) (w64 (l * (w.ops.getD 1 0).toNat))
    if x.sparse && sparseLine x.own then sparseLineBeat g x.own start p0 n
    else
      let vals ← if x.sparse then sideBeat g x p i l start p0 n
        else (List.range n).mapM fun q => do return some (operandVal x.own (← operandElem g x.sw x.own start (p0 + q)))
      if !blockScaled x.own then return (vals, some 0)
      let r := (← get).prismAt p
      let d : Int := (addr54 start : Int) - addr54 (r.dbase.toList.getD i 0)
      let o : Int := if coded x.own then d / 2 + p0
        else if codeBits x.own = 4 then 2 * d + p0 else d + p0 * (codeBits x.own / 8)
      return (vals, scaleOf (← scaleByte g p i o))

/-! ### Accumulation (R42, R43) -/

/-- The sum of the products of a step: the running sum of finite ones, the infinities seen, and whether it is NaN. -/
structure StepSum where
  sum : Dy
  pos : Bool
  neg : Bool
  nan : Bool
@[inherit_doc StepSum] def StepSum.add (t : StepSum) (a b : Option Val) : StepSum :=
  match a, b with
  | some a, some b =>
    match a.mul b with
    | none | some .nan => { t with nan := true }
    | some (.inf s) => if s then { t with neg := true } else { t with pos := true }
    | some (.fin s m e) => { t with sum := t.sum.add (Dy.ofFin s m e) }
  | _, _ => t
/-- An accumulator element after a step, from a line of each operand with its scale (R42, R43). DESIGN CHOICE: a finite step sum beyond the
f32 range is added exactly, and only the result is rounded (log 81). -/
def accStep (acc : W32) (a b : List (Option Val) × Option Int) : W32 :=
  let t := (a.1.zip b.1).foldl (fun t q => t.add q.1 q.2) (⟨Dy.zero, false, false, false⟩ : StepSum)
  let put := fun (v : Val) => BitVec.ofNat 32 (fpAdd fmtF32 .rne (fmtF32.val acc.toNat) v).1
  match a.2, b.2 with
  | some x, some y =>
    if t.nan ∨ (t.pos ∧ t.neg) then put .nan
    else if t.pos ∨ t.neg then put (.inf t.neg)
    else if t.sum.m = 0 then acc
    else put (.fin (decide (t.sum.m < 0)) t.sum.m.natAbs (t.sum.e + x + y))
  | _, _ => put .nan
/-- The bank after a step: the M×N region is updated (R42, R191). -/
def bankStep (acc : Vector W32 256) (as bs : List (List (Option Val) × Option Int)) : Vector W32 256 :=
  Vector.ofFn fun i =>
    match as[i.val / 16]?, bs[i.val % 16]? with
    | some a, some b => accStep acc[i] a b
    | _, _ => acc[i]
/-- A side-memory range beyond the end's half is found at start (R368). -/
def sideRange (x : MmaWord) : Act Unit := do
  if x.sparse && !sparseLine x.own && decide (4096 < x.moff + x.lines * x.k / 8) then
    raise { code := 0x041, addr := w64 x.moff, detail := 3 }
/-- An end's beat for the positions from `p0` on, with the check made at start. -/
def fetch (g : Eng) (w : EWord) (x : MmaWord) (p i p0 n : Nat) : Act (List (List (Option Val) × Option Int)) := do
  if p0 = 0 then sideRange x
  beat { g with peer := false } w x p i p0 n
/-- Accumulators are read: their errors are found, and a poisoned one holds the word (R382, R383). -/
def readAccs (ls : List Nat) : Act Unit := do
  modify (·.seeErrors ls)
  if poisonedAny (← get).poison ls then raise { code := 0x080, acc := 2, detail := 9 }
/-- PRISM_STEP: the next K-step of a paired operation (R42, R194). A fault is taken by the end that fetched (R366). DESIGN CHOICE:
a poisoned accumulator that a step reads holds the first end's word (log 108). -/
def evPrismStep (p : PrismId) (s : State) : EvEnd :=
  match prismEnds p with
  | none => .off
  | some ((c, e), (d, f)) =>
    match s.headWord c (endCode e), s.headWord d (endCode f) with
    | some a, some b =>
      match mmaWord a.word, mmaWord b.word with
      | some x, some y =>
        if a.st ≠ .started ∨ b.st ≠ .started ∨ !s.storesLeft c a ∨ !s.storesLeft d b then .off
        else
          let k := x.stepLen
          let n := min k (x.k - k * a.pos)
          match fetch (a.eng c (endCode e) 4) a x p.toNat 0 (k * a.pos) n s with
          | .error (.exc h) s => .done (s.holdWord c (endCode e) h)
          | .error .stall _ => .off
          | .error (.fault f) _ => .fault f
          | .ok as s =>
            match fetch (b.eng d (endCode f) 4) b y p.toNat 1 (k * a.pos) n s with
            | .error (.exc h) s => .done (s.holdWord d (endCode f) h)
            | .error .stall _ => .off
            | .error (.fault f) _ => .fault f
            | .ok bs s =>
              let accs := (List.range x.m).flatMap fun i => (List.range x.n).map fun j => accLoc p.toNat x.bank (16 * i + j)
              match readAccs accs s with
              | .error (.exc h) s => .done (s.holdWord c (endCode e) h)
              | .error .stall _ => .off
              | .error (.fault f) _ => .fault f
              | .ok _ s =>
              let (ra, rb) := match x.role with | .a => (as, bs) | .b => (bs, as)
              let s := s.updPrism p.toNat fun r =>
                if x.bank then { r with acc1 := bankStep r.acc1 ra rb } else { r with acc0 := bankStep r.acc0 ra rb }
              let next := fun (w : EWord) =>
                { w with pos := a.pos + 1, st := if x.k ≤ k * (a.pos + 1) then .finished 0 else .started }
              .done ((s.updWord c (endCode e) next).updWord d (endCode f) next)
      | _, _ => .off
    | _, _ => .off
def execPrismStep (p : PrismId) (s : State) := (evPrismStep p s).outcome s

/-! ### Single-end words (R189, R199, R200, R205 to R208) -/

/-- Set banks to +0 (R199, R206). -/
def Prism.clear (r : Prism) (bank both : Bool) : Prism :=
  { r with
    acc0 := if both || !bank then Vector.replicate 256 0 else r.acc0
    acc1 := if both || bank then Vector.replicate 256 0 else r.acc1 }
/-- Banks of a Prism are set to +0 (R199, R206), and lose their poison. -/
def State.clearBanks (s : State) (p : Nat) (bank both : Bool) : State :=
  let one := fun (s : State) (b : Bool) => if both || b == bank then s.healRange (accLoc p b 0) 1024 else s
  (one (one s false) true).updPrism p (·.clear bank both)
/-- Where an element of a delivery goes (R200). -/
def outTarget (g : Eng) (dk : Dk) (n : Nat) (va : Word) (sz : Nat) (add : Bool) : Act Nat := do
  let s ← get
  let a := addr54 va
  let acc := if add then 4 else 3
  match dk with
  | .tcm => if a + sz ≤ s.tcmbOf n then return tcmLoc n a else raise { code := 0x007, addr := va, acc := acc }
  | .spad =>
    if inSpad a && decide (a - 0x100000 + sz ≤ s.spadbOf n) then return spadLoc (clusterOf n) (a - 0x100000)
    else raise { code := 0x007, addr := va, acc := acc }
  | .glob => if isGlobal a then g.target va sz (if add then .atomic else .store) else raise { code := 0x007, addr := va, acc := acc }
/-- An element, or a pair of 4-bit ones, of a delivery under ADD to a global line: the die's slice accepts it as a reduction (R199, R386). Poison
that its home shows now holds the word (R383). -/
def outReduce (g : Eng) (va : Word) (l : Nat) (op : PortOp) : Act Unit := do
  let s ← get
  if paNode l = s.node ∧ s.reachable g.die l then do
    modify (·.seeErrors (spanOf l op.size))
    if poisonedAny (← get).poison (spanOf l op.size) then raise { code := 0x080, addr := va, acc := 4, detail := srcOf l }
  modify fun s => (s.clearDead g.die l).acceptRed g.die l op (g.writer s.node va)
/-- Elements `i` on of a delivery from a bank of Prism `p` (R199, R360); a pair of 4-bit ones is one write. -/
def deliver (g : Eng) (w : EWord) (p : Nat) (bank : Bool) (dk : Dk) (add sat : Bool) (rm : Rm) (ofmt n : Nat) (osc : Int)
    (total : Nat) : Nat → Nat → Act Unit
  | 0, _ => pure ()
  | fuel + 1, i =>
    if total ≤ i then pure () else do
      setPos g.core g.cls i
      let bits := outBits ofmt
      let step := if bits = 4 then 2 else 1
      let sz := max 1 (bits / 8)
      let row := i / n
      let col := i % n
      readAccs ((List.range step).map fun j => accLoc p bank (16 * row + col + j))
      let va := addA (w.ops.getD 0 0) (w64 (row * (w.ops.getD 1 0).toNat + col * bits / 8))
      let l ← outTarget g dk (bitsOf (w.ops.getD 2 0) 11 0) va sz add
      let r := (← get).prismAt p
      let accs := (List.range step).map fun j => (if bank then r.acc1 else r.acc0).toList.getD (16 * row + col + j) 0
      let op : PortOp := .deliver ofmt rm w.rmode sat osc accs
      if isPhys l && add then outReduce g va l op
      else do
        let x ← if add then (fun bs => op.apply (natOfBytes bs)) <$> readLocal l sz va 4
          else pure ((accs.zipIdx.map fun a => deliverVal ofmt (outMode rm w.rmode) sat osc a.1 none * 16 ^ a.2).sum)
        g.put va (plainBytes l (leBytes sz x))
      deliver g w p bank dk add sat rm ofmt n osc total fuel (i + step)
/-- A bank that another end's delivery is still reading is not touched (R189). -/
def State.bankBusy (s : State) (c : Nat) (e : End) (banks : List Bool) : Bool :=
  match neighbour c e with
  | none => false
  | some d =>
    match s.headWord d (endCode (oppositeEnd e)) with
    | some w =>
      (match w.st with | .started | .held .. => true | _ => false) &&
        (match w.word with | .prOut (bank := b) .. => banks.contains b | _ => false)
    | none => false
/-- Byte `i` on of a `pr.mdl` (R205). -/
def loadSide (g : Eng) (src : Word) (p i moff : Nat) : Nat → Nat → Act Unit
  | 0, _ => pure ()
  | n + 1, j => do
    setPos g.core g.cls j
    let b := (← g.read (addA src (w64 j)) 1).headD 0
    modify fun s => s.performBytes (g.writer s.node src) [⟨sideLoc p (4096 * i + moff + j), b, 0xFF⟩]
    loadSide g src p i moff n (j + 1)
/-- What a single-end word does. -/
def singleEnd (c : Nat) (e : End) (w : EWord) : Act Word := do
  let p := prismOf c e
  let q := endCode e
  let i := endIndex e
  let g := { (w.eng c q 4) with peer := false }
  match w.word with
  | .prMdl _ _ _ _ len moff => do
    loadSide g (w.ops.getD 0 0) p i moff.toNat (len.toNat - w.pos) w.pos
    return 0
  | .prAcz _ _ bank _ both => do
    modify fun s => s.clearBanks p bank both
    return 0
  | .prScb _ _ _ _ _ shift => do
    let set2 := fun {α : Type} (v : Vector α 2) (x : α) => Vector.ofFn (n := 2) fun j => if j.val = i then x else v[j]
    modify fun s => s.updPrism p fun r => { r with
      sbase := set2 r.sbase (w.ops.getD 0 0), dbase := set2 r.dbase (w.ops.getD 1 0), shift := set2 r.shift shift
      scale := set2 r.scale [] }
    return 0
  | .prOut _ _ bank _ add clr sat rm dk _ _ ofmt m n osc _ => do
    let s ← get
    let nc := bitsOf (w.ops.getD 2 0) 11 0
    let same := match (s.coreAt nc).image with | some im => im.gang = w.gang | none => false
    -- a local destination is a core of the Prism's die and gang (R200)
    if dk ≠ .glob && (dieOf nc ≠ dieOf c || !same) then raise { code := 0x043, addr := w64 nc, detail := 0x88 }
    let total := (m.toNat + 1) * (n.toNat + 1)
    deliver g w p bank dk add sat rm ofmt.toNat (n.toNat + 1) osc.toInt total
      (total - w.pos) w.pos
    if clr then modify fun s => s.clearBanks p bank false
    return 0
  | _ => return 0
/-- The banks a single-end word reads or writes. -/
def EWord.banks (w : EWord) : List Bool :=
  match w.word with
  | .prAcz _ _ b _ both => if both then [false, true] else [b]
  | .prOut (bank := b) .. => [b]
  | _ => []
/-- The single-end word `w` at the head of an end's queue can start (R189). -/
def State.canStart (s : State) (c : Nat) (e : End) (w : EWord) : Bool :=
  !w.paired && w.st = .queued && (s.coreAt c).iris ≠ .halted && s.storesLeft c w && !s.bankBusy c e w.banks
/-- The first end of a Prism has a single-end word that can start, which comes before one of the second end (R189). -/
def State.firstEndStarts (s : State) (c : Nat) (e : End) : Bool :=
  endIndex e = 1 && match neighbour c e with
    | some d => match s.headWord d (endCode (oppositeEnd e)) with
      | some w => s.canStart d (oppositeEnd e) w
      | none => false
    | none => false
/-- PRISM_SINGLE_END_START: the single-end word at the head of an end's queue starts and is performed (R189). -/
def evPrismSingleEndStart (c : CoreId) (e : End) (s : State) : EvEnd :=
  let c := c.toNat
  match neighbour c e, s.headWord c (endCode e) with
  | some _, some w =>
    let goes := !w.paired && w.st = .started && s.storesLeft c w && !s.bankBusy c e w.banks
    if !goes && (!s.canStart c e w || s.firstEndStarts c e) then .off
    else (s.freshen (prismOf c e) w.gang).runWord c (endCode e) (singleEnd c e w)
  | _, _ => .off
def execPrismSingleEndStart (c : CoreId) (e : End) (s : State) := (evPrismSingleEndStart c e s).outcome s

end Sys2Proof.Machine
end

