-- ==== Sys2Proof/Machine/Report.lean ====
section
/-!
DEFINITION. What comes to a core between instructions: the end of a long-latency instruction (R69), a held word's report (R361,
R366), the abandoning of a word (R365, R369) and the expiry of BUDGET (R349).
-/
namespace Sys2Proof.Machine

/-- LONG_LATENCY_COMPLETION: window `i` of the RUN context completes (R69): a window with no instruction left ends, and its
destination is written unless the result was discarded. A `mi.qry` completes with its word (R271). -/
def evLongLatencyCompletion (c : CoreId) (i : Nat) (s : State) : EvEnd :=
  let k := s.coreAt c.toNat
  match k.ctx.win[i]? with
  | none => .off
  | some w =>
    if k.ctx.st ≠ .run ∨ w.done then .off
    else match w.dest with
      | .mirror .. => .off
      | _ =>
        let upd := fun (x : Ctx) =>
          if w.left = 0 then { x.settle w with win := x.win.eraseIdx i }
          else { x with win := x.win.modify i fun w => { w with done := true } }
        .done (s.updCore c.toNat fun k => { k with ctx := upd k.ctx })
def execLongLatencyCompletion (c : CoreId) (i : Nat) (s : State) := (evLongLatencyCompletion c i s).outcome s

/-- The RUN context of the core in focus leaves a stalled instruction with no effect (R349), and takes an exception at the
instruction boundary. -/
def State.interrupted (s : State) (e : Exc) : State :=
  let s := { s with core := { s.core with waiting := false } }
  (s.updCtx fun x => { x with lockWait := [], wfeOn := false }).takeExc e
/-- The core can take an exception of its RUN context now: it is at a boundary, or stalled where R349 allows. -/
def Core.interruptible (k : Core) : Bool :=
  k.ctx.st = .run && k.iris ≠ .halted && !(k.waiting && k.firm) && !k.blocked true

/-- Words held and not yet reported, in ascending CLASS and SEQ (R361), with their queues. -/
def Core.unreported (k : Core) : List (Nat × EWord) :=
  (List.range 8).flatMap fun q => (k.queue q).filterMap fun w =>
    match w.st with | .held _ _ _ _ false => some (q, w) | _ => none
/-- The exception of a held word. -/
def EWord.heldExc (w : EWord) : Exc :=
  match w.st with
  | .held code acc detail addr _ => { code := code, addr := addr, acc := acc, detail := detail }
  | _ => { code := 0 }
/-- A word's report has been delivered. -/
def State.markReported (s : State) (c q : Nat) (w : EWord) : State :=
  s.updCore c fun k => { k with queues := Vector.ofFn fun i => if i.val = q then k.queues[i].map fun (v : EWord) =>
    if v.seq = w.seq then { v with st := match v.st with | .held a b d x _ => .held a b d x true | st => st } else v
    else k.queues[i] }
/-- The report of one held word of core `c` (R361). -/
def State.reportWord (s : State) (c : CoreId) (q : Nat) (w : EWord) : EvEnd :=
  let k := s.coreAt c.toNat
  let x := k.getCtx w.ctxn
  let e := w.heldExc
  match x.st with
  | .run =>
    if x.reporting ∨ !k.interruptible ∨ k.ctx.num ≠ w.ctxn then .off
    else
      let me := s.me
      let s := (s.markReported c.toNat q w).focus c
      -- a report delivered by a trap is handled until `rett`; one delivered by a gang stop is not (R361)
      let s := s.updCtx fun x => { x with ir := w.slot0, reporting := !s.stops e }
      .done ((s.interrupted e).focus me)
  | .free =>
    let s := s.markReported c.toNat q w
    let g := (k.image.map (·.gang)).getD w.gang
    let s := s.stopGang c.toNat w.ctxn g e
    .done (s.updCore c.toNat fun k => k.updCtx w.ctxn fun x => { x with fltinfo := e.info 2 w.slot0 })
  | _ => .off
/-- HELD_WORD_REPORT: a held word is reported to its context, or stops the gang when the context is FREE (R361). -/
def evHeldWordReport (c : CoreId) (s : State) : EvEnd :=
  EvEnd.first s ((s.coreAt c.toNat).unreported.map fun p s => s.reportWord c p.1 p.2)
def execHeldWordReport (c : CoreId) (s : State) := (evHeldWordReport c s).outcome s

/-- A word completes as abandoned (R365): RES is all ones. -/
def abandoned (w : EWord) : EWord := { w with st := .finished (BitVec.allOnes 64) }
/-- Word `n` of a queue is abandoned. -/
def State.abandon (s : State) (c q : Nat) (n : BitVec 32) : State :=
  s.updCore c fun k => { k with queues := Vector.ofFn fun i =>
    if i.val = q then k.queues[i].map fun (w : EWord) => if w.seq = n then abandoned w else w else k.queues[i] }
/-- The notice of an abandoned `kick` leaves its register, its units are returned, and the acknowledgement says so (R365). -/
def State.abandonKick (s : State) (c : Nat) (w : EWord) : State :=
  match s.noticeOf c w with
  | none => s.abandon c 7 w.seq
  | some m =>
    let k := clusterOf m.rcv.toNat
    match (s.clusterAt k).kick.find? fun n => n.snd = m.snd && n.seq = m.seq with
    | none => s.abandon c 7 w.seq
    | some n =>
      let u := (n.len + 63) / 64
      let s := s.updCluster k fun x => { x with kick := x.kick.erase n }
      let s := match n.pipe, n.unit with
        | some i, some _ => s.updCore n.rcv.toNat fun x =>
            { x with rings := putKey i { x.ring i with free := (x.ring i).free + u } x.rings }
        | _, _ => s
      { (s.updWord c 7 fun w => { w with st := .sent }).msgSent n.rcv.toNat with
        acks := s.acks ++ [⟨c, n.seq, n.tag, 0xFFFFFFFF, n.rcv.toNat, s.time⟩] }
/-- The word at the other end of a Prism is abandoned with one. -/
def State.abandonPartner (s : State) (c q : Nat) : State :=
  match neighbour c (endOf q) with
  | some p => s.updWord p (endCode (oppositeEnd (endOf q))) abandoned
  | none => s
/-- The word at the other end of a Prism is held for its mismatch with one here (R367). -/
def State.partnerMismatched (s : State) (c q : Nat) : Bool :=
  match (neighbour c (endOf q)).bind fun p => s.headWord p (endCode (oppositeEnd (endOf q))) with
  | some w => w.mismatched
  | none => false
/-- EFR_ABORT: the held word of a queue is abandoned, or an unpaired paired word at its head (R363, R365, R369). Both words of a mismatch go,
one that has resumed and not been found again too (R367). -/
def evEfrAbort (c : CoreId) (q : QueueId) (s : State) : EvEnd :=
  let c := c.toNat
  let q := queueCode q
  match ((s.coreAt c).queue q).find? EWord.heldNow with
  | some w =>
    if q = 7 then .done (s.abandonKick c w)
    else
      let s := s.abandon c q w.seq
      .done (if w.pairedNow || w.mismatched then s.abandonPartner c q else s)
  | none =>
    match s.headWord c q with
    | some w =>
      if w.st = .queued ∧ w.paired then
        .done (if s.partnerMismatched c q then (s.updWord c q abandoned).abandonPartner c q else s.updWord c q abandoned)
      else .off
    | none => .off
def execEfrAbort (c : CoreId) (q : QueueId) (s : State) := (evEfrAbort c q s).outcome s

/-- DETAIL of an exception taken in place of a `bar.max` whose arrival has counted (R349). -/
def Ctx.waitsInMax (x : Ctx) : Bool := x.vprog = 1 && match x.instr with | some (.barMax ..) => true | _ => false
/-- At the boundary before an instruction, its word is fetched for FLTINFO (R337, R340); one that cannot be fetched shows 0 (log 93). -/
def State.showNext (s : State) : State :=
  match fetchInstr s with
  | .ok _ s => s
  | .error _ s => s.updCtx fun x => { x with ir := 0 }
/-- BUDGET_EXPIRY: BUDGET has reached zero in task mode (R349). The first expiry of an activation gives the grace allowance, the
second stops the gang. -/
def evBudgetExpiry (c : CoreId) (s : State) : EvEnd :=
  let k := s.coreAt c.toNat
  let x := k.ctx
  if x.budget ≠ 0 ∨ x.mode ≠ .task ∨ x.upcallCode ∨ !k.interruptible then .off
  else
    let me := s.me
    let s := s.focus c
    let e : Exc := { code := 0x011, detail := if k.waiting && x.waitsInMax then 1 else 0, stop := x.grace }
    let s := if x.grace then s else s.updCtx fun x => { x with grace := true, budget := 65536 }
    -- a core that waits for a window has not fetched the instruction it waits before (R69, R337)
    .done (((if k.waiting && !k.blocked false then s else s.showNext).interrupted e).focus me)
def execBudgetExpiry (c : CoreId) (s : State) := (evBudgetExpiry c s).outcome s

end Sys2Proof.Machine
end

