-- ==== Sys2Proof/Machine/Traffic.lean ====
section
/-!
DEFINITION. The device steps of the memory system: store buffers (R138), write-throughs (R280), reductions (R160), pins (R149),
retries (R385), held writes (R386), page-fault records and notices (R152, R153), and lock requests (R243).
-/
namespace Sys2Proof.Machine

/-- STORE_BUFFER_LEAVE: the oldest entry of a running core's store buffer leaves (R138, R309). -/
def evStoreBufferLeave (c : CoreId) (s : State) : EvEnd :=
  if (s.coreAt c.toNat).iris ≠ .running then .off
  else
    let f := s.focus c
    if f.sbReady then .done (f.sbLeave.focus s.me) else .off
def execStoreBufferLeave (c : CoreId) (s : State) := (evStoreBufferLeave c s).outcome s

/-- WRITE_THROUGH_ARRIVAL: a write-through performs at its home and is acknowledged (R280); one whose home is unavailable is kept
(R386, R388). -/
def evWriteThroughArrival (i : Nat) (s : State) : EvEnd :=
  match s.wts[i]? with
  | none => .off
  | some w =>
    if w.held || !s.mayArrive i then .off
    else if w.bytes.all fun b => s.reachable w.die b.loc then .done (s.arrive i)
    else .done { s with wts := s.wts.modify i fun w => { w with held := true } }
def execWriteThroughArrival (i : Nat) (s : State) := (evWriteThroughArrival i s).outcome s

/-- REDUCTION_APPLY: the pending reductions of a die to a line are applied at its home's memory port, in arrival order (R44, R160), after
the die's write-throughs of the line (R283); those whose home is unavailable are kept (R386). -/
def evReductionApply (i : Nat) (s : State) : EvEnd :=
  match s.reds[i]? with
  | none => .off
  | some r =>
    let line := r.loc / 128
    if r.held ∨ s.heldAtHome r.loc 0 ∨ s.engineOwned (paDie r.loc) r.loc ∨ s.wtHere r.die r.loc then .off
    else if s.reachable r.die r.loc then
      (if paNode r.loc ≠ s.node then .done { s with reds := s.reds.eraseIdx i } else .done (s.applyReds r.die line))
    else .done { s with reds := s.reds.map fun (x : PendingRed) => if x.die = r.die ∧ x.loc / 128 = line then { x with held := true } else x }
def execReductionApply (i : Nat) (s : State) := (evReductionApply i s).outcome s

/-- HELD_WRITE_RESEND: a kept write-through, reduction or retirement (in this order of index) is sent again when its home is ready
(R386). -/
def evHeldWriteResend (i : Nat) (s : State) : EvEnd :=
  let n := s.wts.length
  let m := s.reds.length
  if i < n then
    match s.wts[i]? with
    | some w =>
      if w.held ∧ (w.bytes.all fun b => s.reachable w.die b.loc) then
        .done { s with wts := s.wts.modify i fun w => { w with held := false, sent := s.time, tries := 0 } }
      else .off
    | none => .off
  else if i < n + m then
    match s.reds[i - n]? with
    | some r =>
      if r.held ∧ s.reachable r.die r.loc then
        .done { s with reds := s.reds.modify (i - n) fun r => { r with held := false, sent := s.time, tries := 0 } }
      else .off
    | none => .off
  else
    match s.decs[i - n - m]? with
    | some r =>
      -- it is applied when its home is ready; until then the decrement answers `held` again
      match r.held, s.decrement r with
      | true, (_, .held) => .off
      | true, _ => .done { s with decs := s.decs.modify (i - n - m) fun r => { r with held := false } }
      | false, _ => .off
    | none => .off
def execHeldWriteResend (i : Nat) (s : State) := (evHeldWriteResend i s).outcome s

/-- PIN_WINDOW_EXPIRY: the window of a pin has ended (R149): its translation stays in the slices' TLBs, unless a `tlbi` has asked
for its removal (R130). -/
def evPinWindowExpiry (d : DieId) (i : Nat) (s : State) : EvEnd :=
  match (s.dieAt d.toNat).pins[i]? with
  | none => .off
  | some p =>
    if s.time ≤ p.until_ then .off
    else
      let entries := (List.range 96).map fun n => (⟨n, p.actx, p.va, p.leaf⟩ : TlbEntry)
      .done (s.updDie d.toNat fun x => { (if p.doomed then x else entries.foldl Die.tlbAdd x) with
        pins := x.pins.eraseIdx i
        expired := (p.actx, p.va, p.leaf.size) :: x.expired.filter (· ≠ (p.actx, p.va, p.leaf.size)) })
def execPinWindowExpiry (d : DieId) (i : Nat) (s : State) := (evPinWindowExpiry d i s).outcome s

/-- SLICE_RETRY: a refused request is sent again after its backoff (R385): its core may issue it again. -/
def evSliceRetry (i : Nat) (s : State) : EvEnd :=
  match s.refused[i]? with
  | none => .off
  | some r =>
    if r.sent || decide (s.time < r.again) then .off
    else .done { s with refused := s.refused.modify i fun r => { r with sent := true } }
def execSliceRetry (i : Nat) (s : State) := (evSliceRetry i s).outcome s

/-- The page-fault record of context `n` of core `c` still waits in its die's memory path (R152). -/
def State.recordWaits (s : State) (c : Nat) (n : CtxNum) : Bool :=
  (s.dieAt (dieOf c)).pfq.any fun r => r.hi.toNat / 2 ^ 34 % 2 ^ 14 = 4 * c + n.toNat
/-- A page-ready notice takes effect (R153): a PARK context wakes, a SAVED one's notice has arrived. A context whose record has not been
written waits for it (R152); any other context ignores the notice. -/
def State.takeNotice (s : State) (c : Nat) (n : CtxNum) (fail : Bool) : State :=
  let d := dieOf c
  let k := s.coreAt c
  if k.ctxs.any fun x => x.num = n && x.st = .park then
    if s.recordWaits c n then s.updCore c fun k => k.updCtx n fun x => { x with noted := true, failNotice := fail }
    else s.updCore c fun k => (k.updCtx n fun x => { x with st := .wake, noted := false, failNotice := fail }).noteWake
  else
    let mine := fun (v : Saved) => v.core = c && v.ctx.num = n && !v.arrived
    if s.recordWaits c n then s.updSaved d mine fun v => { v with ctx := { v.ctx with noted := true, failNotice := fail } }
    else s.updSaved d mine fun v => { v with arrived := true, ctx := { v.ctx with noted := false, failNotice := fail } }
/-- A page-fault record has been written: a notice that came before it takes effect (R152). -/
def State.recordWritten (s : State) (c : Nat) (n : CtxNum) : State :=
  match ((s.coreAt c).ctxs.filter fun x => x.num = n && x.st = .park) ++
      ((s.dieAt (dieOf c)).saved.filter fun v => v.core = c && v.ctx.num = n && !v.arrived).map (·.ctx) with
  | x :: _ => if x.noted then s.takeNotice c n x.failNotice else s
  | [] => s
/-- PAGE_FAULT_RECORD_WRITE: the oldest waiting page-fault record of a die enters its page-service core's ring (R151, R152), after the
completion records that can be written now (R212). -/
def evPageFaultRecordWrite (d : DieId) (s : State) : EvEnd :=
  match (s.dieAt d.toNat).pfq with
  | [] => .off
  | r :: rs =>
    let c := coreOfIndex d.toNat (bitsOf (s.dieAt d.toNat).pscore 9 0)
    if evqLogn (s.coreAt c).evq = 0 ∨ (s.coreAt c).iris ≠ .running ∨ !(s.coreAt c).recq.isEmpty ∨ s.completesBelow c 8 then .off
    else match (s.updDie d.toNat fun x => { x with pfq := rs }).putRecord c r false with
      | some s => .done (s.recordWritten (bitsOf r.hi 47 36) (BitVec.ofNat 2 (bitsOf r.hi 35 34)))
      | none => .off
def execPageFaultRecordWrite (d : DieId) (s : State) := (evPageFaultRecordWrite d s).outcome s

/-- PRN_WRITE: a page-ready notice at the port of core `c` (R153); while the core is not running it waits in its input buffers (R309). -/
def evPrnWrite (c : CoreId) (v : Word) (s : State) : EvEnd :=
  if (s.coreAt c.toNat).iris ≠ .running then .done (s.updCore c.toNat fun k => { k with notices := k.notices ++ [v] })
  else .done (s.takeNotice c.toNat (v.extractLsb' 0 2) (v.getLsbD 2))
def execPrnWrite (c : CoreId) (v : Word) (s : State) := (evPrnWrite c v s).outcome s

/-- LOCK_REQUEST: a slice serves the lock requests of core `c`'s stalled access (R243, R244, R377). -/
def evLockRequest (c : CoreId) (s : State) : EvEnd :=
  let x := (s.coreAt c.toNat).ctx
  if x.st ≠ .run ∨ x.lockWait.isEmpty then .off
  else
    let mine := fun (s : State) => ((s.dieAt (dieOf c.toNat)).locks.filter (·.task = x.task)).length
    match s.serveLocks c.toNat x.num with
    | (_, .full) => .off
    | (s', _) => if mine s < mine s' then .done s' else .off
def execLockRequest (c : CoreId) (s : State) := (evLockRequest c s).outcome s

end Sys2Proof.Machine
end

