-- ==== Sys2Proof/Machine/Suspend.lean ====
section
/-!
DEFINITION. Suspending a gang and placing it again (13_scheduling.md R298, R299): the save areas of its cores and clusters, and the
restoring of contexts from the context store (R93, R94).
-/
namespace Sys2Proof.Machine

/-! ### Moving areas of memory -/

/-- Replace the cells of `n` locations from `lo`. -/
def Cells.splice (m : Cells) (lo n : Nat) (new : Cells) : Cells :=
  m.filter (fun p => decide (p.1 < lo)) ++ new ++ m.filter fun p => decide (lo + n ≤ p.1)
/-- The cells of `n` locations from `src`, at `dst`. -/
def Cells.shifted (m : Cells) (src n dst : Nat) : Cells :=
  (m.filter fun p => decide (src ≤ p.1 ∧ p.1 < src + n)).map fun p => (p.1 - src + dst, p.2)
/-- Dirty bytes of `n` locations go to their memory. -/
def State.flush (s : State) (lo n : Nat) : State :=
  let (now, keep) := s.dirty.partition fun c => decide (lo ≤ c.1 ∧ c.1 < lo + n)
  { s with dirty := keep, mem := now.foldl (fun m c => m.write c.1 c.2) s.mem }
/-- Poison of `n` locations at `src` is copied to `dst` (R383), and what was there goes. -/
def State.movePoison (s : State) (src dst n : Nat) : State :=
  let s := s.seeRange src n
  let bad := (s.poison.filter fun u => decide (src ≤ u ∧ u < src + n)).flatMap fun u =>
    (spanOf (u - src + dst) (unitSize u)).map unitOf
  let s := s.healRange dst n
  { s with poison := bad.eraseDups ++ s.poison }
/-- `n` bytes at `src` are copied to `dst`, with their poison (R383). -/
def State.moveArea (s : State) (src dst n : Nat) : State :=
  let s := ((s.flush src n).flush dst n).movePoison src dst n
  { s with mem := s.mem.splice dst n (s.mem.shifted src n dst) }
/-- Words written by the hardware at a physical address. -/
def State.writeWords (s : State) (pa : Nat) (ws : List Word) : State := s.writeHome pa (ws.flatMap fun w => leBytes 8 w.toNat)
/-! ### Contexts in the store (R94, R95) -/

/-- A context restored from its slot into context `n` of its core (R93, R94): the undo log and the engine words follow it when its
number changes (log 33). -/
def State.restoreCtx (s : State) (v : Saved) (n : CtxNum) : State :=
  let c := v.core
  let d := dieOf c
  let bs := (spanOf (s.slotAddr d v.slot) 0xA60).map s.homeByte
  let logb := s.logbFor c v.ctx
  let s := if v.ctx.num = n ∨ v.ctx.log.isEmpty then s
    else s.moveArea (tcmLoc c (logBase v.ctx.num logb)) (tcmLoc c (logBase n logb)) (64 * v.ctx.log.length)
  let s := s.updDie d fun x => { x with saved := x.saved.filter fun w => !(w.slot = v.slot) }
  let x := v.ctx.fromSlot bs
  s.updCore c fun k =>
    let k := k.updCtx n fun old => { x with num := n, st := .wake, restartMark := v.ctx.restartMark || x.restartMark, bad := old.bad }
    { k with queues := k.queues.map fun (q : List EWord) => q.map fun w => if w.task = v.ctx.task then { w with ctxn := n } else w }

/-! ### Cores, clusters and Prisms -/

/-- The cores bound to a gang, and its clusters (R296, R297). -/
def Launch.coresOf (l : Launch) (g : Nat) : List Nat := (l.kernels.filter (·.gang = g)).flatMap fun k => k.place.map (·.1)
@[inherit_doc Launch.coresOf] def Launch.clustersOf (l : Launch) (g : Nat) : List Nat := ((l.coresOf g).map clusterOf).eraseDups
/-- The cores bound to a gang that holds its id. -/
def State.boundCores (s : State) (g : Nat) : List Nat :=
  match (s.gang? g).bind fun x => s.launch? x.launch with
  | some l => l.coresOf g
  | none => []
/-- Where a cluster's state lies in its save area (R299, R326). -/
def State.clusterSave (s : State) (k : Nat) : Nat :=
  (s.dieAt (k / 256)).csavb.toNat / 4096 % 2 ^ 40 * 4096 + 0x81000 * (k % 256)

/-- The core words of a save area (R299). -/
def Core.saveWords (k : Core) : List Word :=
  [k.evq, k.upcall, w64 (min 64 k.taskq.length), 0] ++
    ((List.range 8).flatMap fun i => let r := findD ⟨0, 0⟩ i k.rings; [w64 r.wp, w64 r.free]) ++
    (k.watch.toList.flatMap fun w => [w64 w.pa, w64 w.va, w64 w.len, w64 w.kind])
/-- The Prism of which core `c` is the first end, on its E or N side: its index, and where its block lies in the save area. -/
def firstEnds (c : Nat) : List (Nat × Nat × End) := [(2 * c, 0x22000, .east), (2 * c + 1, 0x24A00, .north)]
/-- A Prism's block in a save area (R299); `there` when it is saved. -/
def State.savePrism (s : State) (p g blk : Nat) (there : Bool) : State :=
  if !there then s.writeWords (blk + 0x2830) [0]
  else
    let s := s.freshen p g
    let x := s.prismAt p
    let acc := (x.acc0.toList ++ x.acc1.toList).flatMap fun w => leBytes 4 w.toNat
    let regs := (List.range 2).flatMap fun i => [x.sbase.toList.getD i 0, x.dbase.toList.getD i 0, (x.shift.toList.getD i 0).setWidth 64]
    ((((s.writeHome blk acc).movePoison (accLoc p false 0) blk 2048).moveArea (sideLoc p 0) (blk + 0x800) 0x2000).writeWords (blk + 0x2800) (regs ++ [1]))
/-- A saved Prism is restored; its scale caches are empty. -/
def State.restorePrism (s : State) (p g blk : Nat) : State :=
  if !(s.homeWord (blk + 0x2830)).getLsbD 0 then s
  else
    let acc := fun (o : Nat) => Vector.ofFn fun (i : Fin 256) => BitVec.ofNat 32 (natOfBytes ((spanOf (blk + o + 4 * i.val) 4).map s.homeByte))
    let reg := fun (i : Nat) => s.homeWord (blk + 0x2800 + 8 * i)
    let x : Prism := {
      acc0 := acc 0, acc1 := acc 0x400, sbase := #v[reg 0, reg 3], dbase := #v[reg 1, reg 4]
      shift := #v[(reg 2).setWidth 5, (reg 5).setWidth 5], scale := #v[[], []], gang := some g }
    ((s.updPrism p fun _ => x).movePoison blk (accLoc p false 0) 2048).moveArea (blk + 0x800) (sideLoc p 0) 0x2000
/-- A notice as the save area holds it (R222, R299). -/
def Notice.words (n : Notice) : List Word :=
  [w64 (addr54 n.src), w64 (2 ^ 52 * n.snd.toNat + 2 ^ 40 * n.rcv.toNat + 2 ^ 24 * n.tag.toNat + n.len),
    w64 (2 ^ 32 * n.seq.toNat + (match n.pipe with | none => 8 | some p => p)), 0]
/-- The maximum in flight of a barrier and phase slot, over the members on a cluster, those saved already too (R237, R299). -/
def State.maxInFlight (s : State) (k g key h : Nat) : Word :=
  (clusterCores k).foldl (fun m c => (s.contribOf c g).foldl (fun m t =>
    if t.key = key ∧ t.phase % 4 = h ∧ m.toNat < t.val.toNat then t.val else m) m) 0
/-- The words of a Mirror's configuration. -/
def mirrorWords : Option MirrorCfg → List Word
  | none => [0, 0, 0, 0]
  | some m => [m.base, w64 (2 ^ 63 + 2 ^ 32 * (m.actx % 256) + 2 ^ 22 * (m.osz - 1) + 2 ^ 16 * (m.isz - 1) + (m.nslot - 1)),
      0, 0]
/-- The part of a cluster that its save area holds (R299). -/
def State.saveCluster (s : State) (k g : Nat) : State :=
  let b := s.clusterSave k
  let x := s.clusterAt k
  let counts := fun (gang : Bool) => (List.range 16).flatMap fun n => (List.range 4).map fun m =>
    w64 ((s.coreAt (clusterCore k m)).arrivals gang n)
  let maxima := (List.range 16).flatMap fun n => [n, 16 + n].flatMap fun key => (List.range 4).map fun h => s.maxInFlight k g key h
  let kick := x.kick.flatMap Notice.words ++ List.replicate (4 * (8 - x.kick.length)) 0 ++ [w64 x.kick.length]
  let s := (s.moveArea (spadLoc k 0) b 0x80000).writeWords (b + 0x80000)
    (counts false ++ counts true ++ maxima ++ mirrorWords x.mirror ++ kick)
  { s.updCluster k fun x => { x with kick := [], mirror := none } with suspClusters := s.suspClusters ++ [⟨k, g, x.kick, (x.mirror.map (·.mode)).getD .task⟩] }
/-- A notice for which the kick register has no room is refused, so that its sender sends it again (R222). -/
def State.refuseNotice (s : State) (n : Notice) : State :=
  match s.kickOf n with
  | some _ => s.updWord n.snd.toNat 7 fun w => { w with st := .started }
  | none => s
/-- A cluster is restored (R299). DESIGN CHOICE: its saved notices go before those that its kick register has taken since, and of these the
youngest that the register has no room for are refused (log 109). -/
def State.restoreCluster (s : State) (v : SavedCluster) : State :=
  let k := v.cluster
  let b := s.clusterSave k
  let count := fun (s : State) (gang : Bool) (m n : Nat) => (s.homeWord (b + (if gang then 0x80200 else 0x80000) + 8 * (4 * n + m))).toNat
  let s := s.moveArea b (spadLoc k 0) 0x80000
  let t := s
  let s := (List.range 4).foldl (fun (s : State) m => s.updCore (clusterCore k m) fun x => { x with
    arrC := Vector.ofFn fun i => count t false m i.val, arrG := Vector.ofFn fun i => count t true m i.val }) s
  let w := t.homeWord (b + 0x80808)
  let mir : Option MirrorCfg := if !w.getLsbD 63 then none else
    some { base := t.homeWord (b + 0x80800), nslot := bitsOf w 15 0 + 1, isz := bitsOf w 21 16 + 1, osz := bitsOf w 27 22 + 1,
           actx := bitsOf w 39 32, mode := v.mode }
  let note := fun (p : Notice × Nat) =>
    let w := fun j => t.homeWord (b + 0x80820 + 32 * p.2 + 8 * j)
    { p.1 with
      src := w 0, snd := BitVec.ofNat 12 (bitsOf (w 1) 63 52), rcv := BitVec.ofNat 12 (bitsOf (w 1) 51 40)
      tag := BitVec.ofNat 16 (bitsOf (w 1) 39 24), len := bitsOf (w 1) 23 0, seq := BitVec.ofNat 32 (bitsOf (w 2) 63 32)
      pipe := if (w 2).getLsbD 3 then none else some (bitsOf (w 2) 2 0) }
  let all := v.kick.zipIdx.map note ++ (s.clusterAt k).kick
  let s := s.updCluster k fun x => { x with kick := all.take 8, mirror := mir }
  (all.drop 8).foldl State.refuseNotice { s with suspClusters := s.suspClusters.filter fun u => !(u.cluster = k && u.gang = v.gang) }

/-- The last core of a gang has been saved: the gang is suspended, and its clusters and power units are returned (R298, R302). -/
def State.suspendGang (s : State) (g : Nat) : State :=
  match s.gang? g with
  | none => s
  | some x =>
    let s := x.units.foldl (fun (s : State) u => s.updDie u.1 fun y => { y with
      used := Vector.ofFn fun i => if i.val = u.2.1 then y.used[i] - w64 u.2.2 else y.used[i] }) s
    let s := { s with clusters := s.clusters.map fun (p : Nat × Cluster) => if p.2.claim = some g then (p.1, { p.2 with claim := none }) else p }
    s.updGang g fun x => { x with phase := .suspended, units := [] }
/-- A core saves its own state, the Prisms whose other end has been saved too, and its cluster when it is the last one there
(R298, R299); it is free from then on. -/
def State.saveCore (s : State) (c : Nat) : State :=
  let k := s.coreAt c
  match k.image with
  | none => s
  | some im =>
    let g := im.gang
    let a := s.saveBase c
    let s := ((s.moveArea (tcmLoc c 0) a 0x20000).writeHome (a + 0x20000) ((k.taskq.take 64).flatMap (·.tcb.bytes))).writeWords
      (a + 0x27400) k.saveWords
    let v : SavedCore := ⟨c, g, im, (k.taskq.take 64).map (·.lens), k.taskq.drop 64, k.ringTags, k.recq, k.contrib⟩
    let s := { s with susp := s.susp ++ [v] }
    let bound := s.boundCores g
    let gone := fun (s : State) (x : Nat) => s.susp.any fun v => v.core = x && v.gang = g
    -- Prisms of which this core is an end
    let mine := firstEnds c ++ [End.west, End.south].filterMap fun e =>
      (neighbour c e).bind fun p => (firstEnds p).find? fun f => f.2.2 = oppositeEnd e
    let s := mine.foldl (fun (s : State) f =>
      let first := f.1 / 2
      match neighbour first f.2.2 with
      | none => if first = c then s.savePrism f.1 g (a + f.2.1) false else s
      | some other =>
        let blk := s.saveBase first + f.2.1
        if !bound.contains first then s
        else if !bound.contains other then s.savePrism f.1 g blk false
        else if gone s first && gone s other then s.savePrism f.1 g blk true
        else s) s
    let kl := clusterOf c
    let s := if (bound.filter fun x => clusterOf x = kl).all (gone s) then s.saveCluster kl g else s
    let s := s.updCore c fun k => { k with
      image := none, taskq := [], evq := 0, upcall := 0, ringTags := [], recq := []
      contrib := [], rings := [], watch := Vector.replicate 4 ⟨0, 0, 0, 0⟩, preempt := false, waiting := false }
    if bound.all (gone s) then s.suspendGang g else s
/-- A core of a suspended gang is restored (R299): TCM, task queue, event ring, receive rings and watchpoints. -/
def State.restoreCore (s : State) (v : SavedCore) : State :=
  let c := v.core
  let a := s.saveBase c
  let s := s.moveArea a (tcmLoc c 0) 0x20000
  let w := fun (i : Nat) => s.homeWord (a + 0x27400 + 8 * i)
  let n := bitsOf (w 2) 6 0
  let tcbs := (List.range n).map fun i =>
    (⟨tcbOf ((spanOf (a + 0x20000 + 128 * i) 128).map s.homeByte), v.lens.getD i none, 0, 0, none⟩ : QTask)
  let s1 := { s with susp := s.susp.filter fun u => !(u.core = c && u.gang = v.gang) }
  let s1 := s1.updCore c fun k =>
    { k with
      image := some v.image, held := some v.gang, evq := w 0, upcall := w 1, taskq := tcbs ++ v.overflow
      rings := (List.range 8).foldl (fun r i => putKey i ⟨(w (4 + 2 * i)).toNat, (w (5 + 2 * i)).toNat⟩ r) []
      watch := Vector.ofFn fun i => ⟨(w (23 + 4 * i.val)).toNat, (w (20 + 4 * i.val)).toNat, (w (21 + 4 * i.val)).toNat, (w (22 + 4 * i.val)).toNat⟩
      ringTags := v.ringTags, recq := v.recq ++ k.recq, contrib := v.contrib, victims := Vector.replicate 3 none }
  (firstEnds c).foldl (fun s f => s.restorePrism f.1 v.gang (a + f.2.1)) (s1.arrangeQueue c)

end Sys2Proof.Machine
end

