-- ==== Sys2Proof/Machine/Select.lean ====
section
/-!
DEFINITION. What a core does next (13_scheduling.md R300, R301; R93 to R95, R101), messages and decrements (R97, R259), and the
commits of ordered tasks (R251 to R253, R379).
-/
namespace Sys2Proof.Machine

/-! ### The choice at a task end (R301) -/

/-- A rendezvous slot of the core holds an unpaired word, so a pre-emption request is withheld from it (R201, R298). -/
def Core.unpaired (k : Core) : Bool :=
  (List.range 4).any fun q => match (k.queue q).head? with | some w => w.paired && !w.pairedNow | none => false
/-- The core looks for work: it is running and no context of it is RUN. -/
def Core.looks (k : Core) : Bool := k.iris = .running && !k.ctxs.any (·.st = .run)
/-- The core is at its pre-emption point (R298). -/
def Core.yields (k : Core) : Bool := k.looks && k.preempt && !k.unpaired
/-- A context is now the one that issues. -/
def State.runCtx (s : State) (c : Nat) (n : CtxNum) : State :=
  s.updCore c fun k => { k.focus n with waiting := false, firm := false }
/-- A task starts in a context; it reads memory as after an acquire at device scope (R89, R98). -/
def State.begin (s : State) (c : Nat) (n : CtxNum) (t : Tcb) (lens : Option LensTag) : State :=
  ((s.startActivation c n t lens).runCtx c n).acquireCopies (dieOf c) false
/-- PARK and WAKE contexts are saved, the earliest parked first, while slots are free (R94, R95). -/
def State.saveParked (c : Nat) : Nat → State → State
  | 0, s => s
  | n + 1, s =>
    match (s.coreAt c).oldestParked with
    | none => s
    | some p => match s.saveCtx c p with | none => s | some s => s.saveParked c n
/-- The core yields (R298): it saves its parked contexts, then its own state, when nothing of it is RUN or DONE, no word is left in its
Prism, copy, gather and Mirror queues (log 34), its stores have left its buffer and its retired tasks have decremented (log 77). -/
def State.yield (s : State) (c : Nat) : EvEnd :=
  let parked := fun (s : State) => ((s.coreAt c).ctxs.filter fun x => x.st = .park || x.st = .wake).length
  let s1 := s.saveParked c 4
  let k := s1.coreAt c
  if k.ctxs.all (·.st = .free) && (List.range 7).all (fun q => (k.queue q).isEmpty) && k.image.isSome &&
      k.sb.isEmpty && !s1.decs.any (·.core = c) then .done (s1.saveCore c)
  else if parked s1 < parked s then .done s1
  else .off
/-- A context that resumes or starts again: WAKE, or SAVED with its notice arrived, the earliest parked first (R93, R301). -/
def State.wakeNext (s : State) (c : Nat) : EvEnd :=
  let k := s.coreAt c
  let wakes := (k.ctxs.filter (·.st = .wake)).map fun x => (x.parkSeq, none)
  let room := fun (v : Saved) => if (k.getCtx v.ctx.num).st = .free then some v.ctx.num else k.freeCtx
  let back := (s.dieAt (dieOf c)).saved.filterMap fun v =>
    if v.core = c && v.arrived && (k.image.map (·.gang)) == some v.gang then (room v).map fun n => (v.ctx.parkSeq, some (v, n)) else none
  let first := (wakes ++ back).foldl (fun (y : Option (Nat × Option (Saved × CtxNum))) x => match y with
    | none => some x
    | some z => if x.1 < z.1 then some x else some z) none
  match first with
  | none => .off
  | some (q, none) =>
    match k.ctxs.find? fun x => x.st = .wake && x.parkSeq = q with
    | some x => .done ((s.resumeCtx c x.num).runCtx c x.num)
    | none => .off
  | some (_, some (v, n)) => .done (((s.restoreCtx v n).resumeCtx c n).runCtx c n)
/-- The head of the task queue starts (R301). -/
def State.queueNext (s : State) (c : Nat) : EvEnd :=
  let k := s.coreAt c
  match k.taskq, k.freeCtx with
  | t :: _, some n => .done ((s.popTask c).begin c n t.tcb t.lens)
  | _, _ => .off
/-- The oldest of a list of tasks (R87), with what it carries. -/
def oldest {α : Type} (l : List (Tcb × α)) : Option (Tcb × α) :=
  l.foldl (fun y x => match y with | none => some x | some z => if x.1.older z.1 then some x else some z) none
/-- A queued ordered task could start on core `b` in this cycle (R251, R301): it looks for work, finds none that goes before, holds the image of
the creating kernel's launch, and has a FREE context. -/
def State.offers (s : State) (o : OrdTask) (b : Nat) : Bool :=
  let k := s.coreAt b
  k.looks && !k.yields && k.pendUp.isNone && k.freeCtx.isSome && k.taskq.isEmpty && s.good b &&
    (match s.wakeNext b with | .off => true | _ => false) &&
    match k.image with | some i => decide (i.launch = o.launch) | none => false
/-- A core of smaller index could start it too, and so does (R334). -/
def State.offeredBelow (s : State) (c : Nat) (o : OrdTask) : Bool :=
  s.liveCores.any fun b => decide (b < c) && dieOf b = dieOf c && s.offers o b
/-- The oldest ready ordered task the commit queues offer the core starts: a queued one in a FREE context, unless a core of smaller index
takes it (R334), or one wounded in DONE in its own (R251, R301; log 27). DEDUCED: any core of the launch is one of R251, also where its cluster
runs another gang of the launch than the creator's (R91, log 102). A task that starts again finds the TCM window zero (R246). -/
def State.orderedNext (s : State) (c : Nat) : EvEnd :=
  let k := s.coreAt c
  let d := dieOf c
  match k.image with
  | none => .off
  | some im =>
    let own := (k.ctxs.filter fun x => x.st = .done && x.restartMark).map fun x => (x.tcb, x.num, none)
    let queued := match k.freeCtx with
      | some n => ((s.dieAt d).ordered.zipIdx.filter (·.1.launch = im.launch)).map fun p => (p.1.tcb, n, some p)
      | none => []
    match oldest (own ++ queued) with
    | none => .off
    | some (_, n, none) => .done ((((s.restart c n).runCtx c n).acquireCopies d false).limitRestart c n)
    | some (t, n, some (o, i)) =>
      if s.offeredBelow c o then .off else
      let s := if o.restarts = 0 then s else s.clearTcm c
      let s := (s.updDie d fun x => { x with ordered := x.ordered.eraseIdx i }).begin c n t none
      let s := s.updCore c fun k => k.updCtx n fun x => { x with restarts := o.restarts }
      .done (if o.restarts = 0 then s else s.limitRestart c n)
/-- The bottom TCB of the core's own deque starts (R100, R301). -/
def State.dequeNext (s : State) (c : Nat) : EvEnd :=
  match (s.coreAt c).freeCtx with
  | none => .off
  | some n =>
    if !s.dequeOk c then .off
    else match s.dequePop c with | some (t, s) => .done (s.begin c n t none) | none => .off
/-- Upcall code that a halt kept from starting (R151, R309). -/
def State.upcallNext (s : State) (c : Nat) : EvEnd :=
  let k := s.coreAt c
  match k.pendUp, k.freeCtx with
  | some (p, va), some n => .done (((s.startUpcall c n p va).updCore c fun k => { k with pendUp := none }).runCtx c n)
  | _, _ => .off
/-- A decrement of a task that has retired on the core is not yet performed and need not wait for others: it goes before the core's next
choice, so that its error finds the context FREE (R344). One that had to wait meanwhile reports its error when the context is FREE again
(DEDUCED, log 111). -/
def State.retiring (s : State) (c : Nat) : Bool :=
  s.decs.any fun r => r.core = c && !r.held && match (s.decrement r).2 with | .wait => false | _ => true
/-- SELECT_NEXT_WORK: the core takes the first of R301 that applies. -/
def evSelectNextWork (c : CoreId) (s : State) : EvEnd :=
  let c := c.toNat
  let k := s.coreAt c
  if !k.looks || s.retiring c then .off
  else if k.pendUp.isSome then s.upcallNext c
  else if k.yields then s.yield c
  else if k.image.isNone then .off
  else EvEnd.first s [(·.wakeNext c), (·.queueNext c), (·.orderedNext c), (·.dequeNext c)]
def execSelectNextWork (c : CoreId) (s : State) := (evSelectNextWork c s).outcome s

/-- CONTEXT_SAVE_SLOT_WAIT: a core at its pre-emption point takes a slot that has freed for its earliest parked context (R95). -/
def evContextSaveSlotWait (c : CoreId) (s : State) : EvEnd :=
  let k := s.coreAt c.toNat
  if !k.yields then .off
  else match k.oldestParked with
    | none => .off
    | some p => match s.saveCtx c.toNat p with | some s => .done s | none => .off
def execContextSaveSlotWait (c : CoreId) (s : State) := (evContextSaveSlotWait c s).outcome s

/-! ### Stealing (R101) -/

/-- Quadrant of a core (R11). -/
def quadrantOf (c : Nat) : Nat := 4 * dieOf c + 2 * (rowOf c / 16) + colOf c / 16
/-- A domain of R101 holds two cores: 0 cluster, 1 quadrant, 2 die. -/
def sameDomain (i a b : Nat) : Bool :=
  match i with | 0 => clusterOf a = clusterOf b | 1 => quadrantOf a = quadrantOf b | _ => dieOf a = dieOf b
/-- A core holds the image of the same kernel of the same launch. -/
def State.sameImage (s : State) (a b : Nat) : Bool :=
  match (s.coreAt a).image, (s.coreAt b).image with
  | some i, some j => i.launch = j.launch && i.kernel = j.kernel
  | _, _ => false
/-- The victims of a thief in a domain, in the order it tries them. -/
def State.victimsOf (s : State) (c i : Nat) : List Nat :=
  let vs := (s.liveCores.filter fun v => v ≠ c && sameDomain i c v && s.sameImage c v).mergeSort
  match (s.coreAt c).victims.toList.getD i none with
  | none => vs
  | some l => vs.filter (l < ·) ++ vs.filter (· ≤ l)
/-- The thief tries the victims of a domain, then those of the next; the records keep the last it tried. -/
def State.stealFrom (c : Nat) (n : CtxNum) : List Nat → State → EvEnd
  | [], _ => .off
  | i :: is, s =>
    let vs := s.victimsOf c i
    let note := fun (s : State) (v : Nat) => s.updCore c fun k =>
      { k with victims := Vector.ofFn fun j => if j.val = i then some v else k.victims[j] }
    match vs.findSome? fun v => (s.dequeSteal v).map fun r => (v, r) with
    | some (v, t, s) => .done ((note s v).begin c n t none)
    | none => State.stealFrom c n is (match vs.getLast? with | some v => note s v | none => s)
/-- STEAL: an idle core takes the top TCB of a victim's deque (R101). -/
def evSteal (c : CoreId) (s : State) : EvEnd :=
  let k := s.coreAt c.toNat
  if !k.looks || k.yields || s.retiring c.toNat then .off
  else match evSelectNextWork c s, k.freeCtx with
    | .off, some n => State.stealFrom c.toNat n [0, 1, 2] s
    | _, _ => .off
def execSteal (c : CoreId) (s : State) := (evSteal c s).outcome s

/-! ### Decrements and messages -/

/-- A gang stop for a retired task: its context, while FREE, takes the fault registers (R344). -/
def State.stopFreed (s : State) (c : Nat) (n : CtxNum) (g : Nat) (e : Exc) : State :=
  if ((s.coreAt c).getCtx n).st = .free then s.stopGang c n g e else s.haltGang c g
/-- PRED_DECREMENT: the first decrement of retirement `i` is performed, once the stores of the retired task are visible at device
scope (R97, R98, R344, R386, R388). -/
def evPredDecrement (i : Nat) (s : State) : EvEnd :=
  match s.decs[i]? with
  | none => .off
  | some r =>
    let set_ := fun (s : State) (items : List DecItem) => { s with
      decs := if items.isEmpty then s.decs.eraseIdx i else s.decs.modify i fun r => { r with items := items } }
    if r.held || s.unacked r.core false || (s.coreAt r.core).sb.any (fun e => e.task = r.task) then .off
    else match s.decrement r with
      | (s', .next items) => .done (set_ s' items)
      | (_, .wait) => .off
      | (s', .held) => .done { s' with decs := s'.decs.modify i fun r => { r with held := true } }
      -- an error waits for its context to be FREE again where the wait of an earlier decrement has let other work into it
      | (s', .error e) =>
        if ((s'.coreAt r.core).getCtx r.ctxn).st = .free then .done ((set_ s' []).stopFreed r.core r.ctxn r.gang e) else .off
      | (s', .dropped items) => .done ((set_ s' items).stopFreed r.core r.ctxn r.gang { code := 0x082, boundary := true })
def execPredDecrement (i : Nat) (s : State) := (evPredDecrement i s).outcome s

/-- MESSAGE_ARRIVAL: message `i`, the first of its sender and receiver, enters the receiver's task queue, or its input buffers while
it is not running (R259, R309). A message for a suspended gang's core waits for its return. -/
def evMessageArrival (i : Nat) (s : State) : EvEnd :=
  match s.net[i]? with
  | none => .off
  | some m =>
    let k := s.coreAt m.dst
    if (s.net.take i).any fun n => n.src = m.src && n.dst = m.dst then .off
    else
      let s1 := { s with net := s.net.eraseIdx i }
      if s.linkWaits (dieOf m.src) (dieOf m.dst) && !s.linkFailed (dieOf m.src) (dieOf m.dst) then .off
      else if s.linkFailed (dieOf m.src) (dieOf m.dst) then .done (s1.dropPacket m.src m.ctxn)
      else if (k.image.map (·.gang)) ≠ some m.gang then .off
      else
        let s1 := s1.msgReceived m.dst
        let tag := s.lensTag m.src m.sent
        if k.iris ≠ .running then .done (s1.updCore m.dst fun k => { k with inbox := k.inbox ++ [⟨m.tcb, tag, s.time, 4096 * 2 + m.src, none⟩] })
        else if s1.canEnqueue m.dst then .done (s1.enqueue m.dst 2 m.src m.tcb tag)
        else .off
def execMessageArrival (i : Nat) (s : State) := (evMessageArrival i s).outcome s

/-! ### Ordered tasks (R251 to R253, R379) -/

/-- The uncommitted ordered tasks of a die, with ST and CORE of R379. -/
def State.uncommitted (s : State) (d : Nat) : List (Tcb × Nat × Nat) :=
  let x := s.dieAt d
  let resident := (s.liveCores.filter fun c => dieOf c = d).flatMap fun c =>
    ((s.coreAt c).ctxs.filter fun x => x.st ≠ .free && x.cls = 2).map fun x =>
      match x.st with
      | .run => (x.tcb, 1, c)
      | .done => if x.restartMark then (x.tcb, 0, x.tcb.creator) else (x.tcb, 4, c)
      | _ => (x.tcb, 2, c)
  (x.ordered.map fun o => (o.tcb, 0, o.tcb.creator)) ++ resident ++
    ((x.saved.filter (·.ctx.cls = 2)).map fun v => (v.ctx.tcb, 3, v.core))
/-- COMMIT_FRONTIER_SAMPLE: the die finds the oldest of its uncommitted ordered tasks, and shows it (R252, R379). -/
def evCommitFrontierSample (d : DieId) (s : State) : EvEnd :=
  if s.time / 64 ≤ (s.dieAt d.toNat).frontAt then .off
  else .done (s.updDie d.toNat fun x =>
    let x := { x with frontAt := s.time / 64 }
    match oldest (s.uncommitted d.toNat) with
    | none => { x with cfront := BitVec.allOnes 64, cfhold := 0 }
    | some (t, st, c) => { x with cfront := t.word 1, cfhold := w64 (2 ^ 63 + 2 ^ 60 * st + c) })
def execCommitFrontierSample (d : DieId) (s : State) := (evCommitFrontierSample d s).outcome s

/-- ORDERED_COMMIT: the DONE ordered task of a context commits, when no older one of its die is uncommitted and a sample has shown it
(R250, R252). -/
def evOrderedCommit (c : CoreId) (n : CtxNum) (s : State) : EvEnd :=
  let c := c.toNat
  let x := (s.coreAt c).getCtx n
  let d := dieOf c
  if x.st ≠ .done ∨ x.restartMark ∨ x.cls ≠ 2 ∨ (s.coreAt c).sb.any (·.task = x.task) then .off
  else if (s.uncommitted d).any (fun t => t.1.older x.tcb) || (s.dieAt d).cfront ≠ x.tcb.word 1 then .off
  else
    match s.commit c n with
    | (s', true) => .done s'
    | (_, false) => .off
def execOrderedCommit (c : CoreId) (x : CtxNum) (s : State) := (evOrderedCommit c x s).outcome s

/-- Wounded ordered tasks of a die that wait in DONE to start again, with their cores and contexts (R249, R253). -/
def State.woundedDone (s : State) (d : Nat) : List (Tcb × Nat × Ctx) :=
  (s.liveCores.filter fun c => dieOf c = d).flatMap fun c =>
    ((s.coreAt c).ctxs.filter fun x => x.st = .done && x.restartMark && x.cls = 2).map fun x => (x.tcb, c, x)
/-- An eligible core for an ordered task of a launch (R251): it is running (R309). -/
def State.eligible (s : State) (d l : Nat) (c : Nat) : Bool :=
  dieOf c = d && s.good c && (s.coreAt c).iris = .running && match (s.coreAt c).image with | some i => decide (i.launch = l) | none => false
/-- The youngest ordered task in RUN or DONE on some cores, with its core. -/
def State.youngestHolder (s : State) (cs : List Nat) : Option (Nat × Ctx) :=
  (cs.flatMap fun c => ((s.coreAt c).ctxs.filter fun x =>
    x.cls = 2 && (x.st = .run || (x.st = .done && !x.restartMark))).map fun x => (c, x)).foldl (fun (y : Option (Nat × Ctx)) x => match y with
      | none => some x
      | some z => if z.2.tcb.older x.2.tcb then some x else some z) none
/-- ORDERED_CONTEXT_WOUND: the oldest uncommitted ordered task of the die is ready, in this cluster's commit queue or again after a wound
in DONE on this cluster, and no eligible core has a FREE context: the youngest ordered task in RUN or DONE on such a core is wounded and
returns to its queue, and the oldest starts in the freed context, or is the first to start there at the end of the core's RUN activation
(R253; DEDUCED, log 27). -/
def evOrderedContextWound (k : ClusterId) (s : State) : EvEnd :=
  let d := k.toNat / 256
  let queued := (s.dieAt d).ordered.map fun o => (o.tcb, o, (none : Option (Nat × Ctx)))
  let again := (s.woundedDone d).filterMap fun p =>
    (s.coreAt p.2.1).image.map fun i => (p.1, (⟨clusterOf p.2.1, i.launch, p.1, p.2.2.restarts⟩ : OrdTask), some p.2)
  match oldest (queued ++ again) with
  | none => .off
  | some (t, o, own) =>
    let cores := s.liveCores.filter (s.eligible d o.launch)
    if o.cluster ≠ k.toNat || (s.uncommitted d).any (fun u => u.1.older t) || cores.any (fun c => (s.coreAt c).freeCtx.isSome) then .off
    -- a wounded task on a core that looks for work starts in its own context (R301)
    else if (match own with | some (c, _) => (s.coreAt c).looks | none => false) then .off
    else
      match s.youngestHolder cores with
      | none => .off
      | some (c, x) =>
        match s.undo c x with
        | none => .off
        | some s =>
          let back : OrdTask := ⟨clusterOf c, o.launch, x.tcb, x.restarts + 1⟩
          let s := s.updDie d fun y => { y with ordered := y.ordered.erase o ++ [back] }
          let free := fun (y : Ctx) => { y.undone with st := .free, task := 0, lens := none, restartMark := false }
          let s := match own with
            | some (b, y) => s.updCore b fun k => k.updCtx y.num free
            | none => s
          let s := s.updCore c fun k => k.updCtx x.num free
          let s := (s.startActivation c x.num t none).updCore c fun k => k.updCtx x.num fun y => { y with restarts := o.restarts }
          if x.st = .run then
            let s := (s.runCtx c x.num).acquireCopies d false
            .done (if o.restarts = 0 then s else s.limitRestart c x.num)
          else .done (s.updCore c fun k =>
            ({ k.updCtx x.num fun y => { y with st := .wake, restartMark := true, parkSeq := k.parks } with parks := k.parks + 1 } : Core).noteWake)
def execOrderedContextWound (k : ClusterId) (s : State) := (evOrderedContextWound k s).outcome s

end Sys2Proof.Machine
end

