-- ==== Sys2Proof/Machine/Gang.lean ====
section
/-!
DEFINITION. Gangs (13_scheduling.md R297, R298, R302 to R305; R107, R108, R333, R395): claiming clusters and placing or restoring
gangs, unplacing, pre-emption, power and thermal windows, and the Focus balancer.
-/
namespace Sys2Proof.Machine

/-- The gangs of a launch in a phase. -/
def State.gangsIn (s : State) (l : Nat) (ph : GangPhase) : List Nat :=
  (s.gangs.filter fun p => p.2.launch = l && p.2.phase = ph).map (·.1)

/-! ### Who may claim (R297, R298, R302) -/

/-- What waits for clusters: a launch with all its gangs, or one suspended gang. -/
structure Claimant where
  launch : Nat
  gangs : List Nat
  again : Bool
  deriving DecidableEq, Repr
/-- All that waits. -/
def State.claimants (s : State) : List Claimant :=
  s.launches.flatMap fun p =>
    let w := s.gangsIn p.1 .waiting
    (if w.isEmpty then [] else [⟨p.1, w, false⟩]) ++ (s.gangsIn p.1 .suspended).map fun g => ⟨p.1, [g], true⟩
/-- The clusters a claimant needs. -/
def State.needs (s : State) (a : Claimant) : List Nat :=
  match s.launch? a.launch with
  | some l => (a.gangs.flatMap l.clustersOf).eraseDups
  | none => []
/-- A claimant goes before another (R297, R298): higher EPRI at start, then suspended before new, then earlier start, lower die,
lower gang id. -/
def State.before (s : State) (a b : Claimant) : Bool :=
  match s.launch? a.launch, s.launch? b.launch with
  | some x, some y =>
    if x.epri ≠ y.epri then decide (y.epri < x.epri)
    else if a.again ≠ b.again then a.again
    else if x.start ≠ y.start then decide (x.start < y.start)
    else if x.die ≠ y.die then decide (x.die < y.die)
    else decide (a.gangs.headD 0 < b.gangs.headD 0)
  | _, _ => false
/-- Nothing of another gang remains on a cluster (R297). -/
def State.clusterFree (s : State) (gs : List Nat) (k : Nat) : Bool :=
  (s.clusterAt k).claim.isNone && (clusterCores k).all fun c =>
    let x := s.coreAt c
    x.ctxs.all (·.st = .free) && (x.taskq.all fun t => gs.contains t.tcb.gang) && x.queues.toList.all fun q => q.all fun w => gs.contains w.gang
/-- No rendezvous slot of a Prism that the kernels of some gangs declare holds another gang's unpaired word (R201). -/
def State.prismsClear (s : State) (l : Launch) (gs : List Nat) : Bool :=
  (l.kernels.filter fun k => gs.contains k.gang).all fun k => k.place.all fun p =>
    [End.north, .east, .south, .west].all fun e => match neighbour p.1 e with
      | some q => (!(k.hdr.toList.getD 2 0).getLsbD (37 - endCode e) && !(k.hdr.toList.getD 2 0).getLsbD (37 - endCode (oppositeEnd e))) ||
          (match ((s.coreAt q).queue (endCode (oppositeEnd e))).head? with
            | some w => !w.paired || w.pairedNow || gs.contains w.gang
            | none => true)
      | none => true
/-- The units the gangs of a launch hold (R302): die, region and ECOST of each bound core. -/
def State.unitsOf (s : State) (l : Launch) (g : Nat) : List (Nat × Nat × Nat) :=
  (l.kernels.filter (·.gang = g)).flatMap fun k => k.place.map fun p =>
    let c := p.1
    (dieOf c, 4 * (rowOf c / 8) + colOf c / 8, ((s.dieAt (dieOf c)).ecost.toList.getD (bitsOf (k.hdr.toList.getD 2 0) 33 30) 0).toNat)
/-- The units fit the budget of every region (R302). -/
def State.powerFits (s : State) (us : List (Nat × Nat × Nat)) : Bool :=
  us.all fun u =>
    let more := ((us.filter fun v => v.1 = u.1 && v.2.1 = u.2.1).map (·.2.2)).foldl (· + ·) 0
    decide (((s.dieAt u.1).used.toList.getD u.2.1 0).toNat + more ≤ ((s.dieAt u.1).rbud.toList.getD u.2.1 0).toNat)
/-- Units are added to the regions. -/
def State.addUnits (s : State) (us : List (Nat × Nat × Nat)) : State :=
  us.foldl (fun (s : State) u => s.updDie u.1 fun y => { y with
    used := Vector.ofFn fun i => if i.val = u.2.1 then y.used[i] + w64 u.2.2 else y.used[i] }) s
/-- Units are returned. -/
def State.dropUnits (s : State) (us : List (Nat × Nat × Nat)) : State :=
  us.foldl (fun (s : State) u => s.updDie u.1 fun y => { y with
    used := Vector.ofFn fun i => if i.val = u.2.1 then y.used[i] - w64 u.2.2 else y.used[i] }) s
/-- A die's functions whose ready bits are 1 may be used (R328): no warm reset of it is under way, or it raises its bits again in step 7
(R393). -/
def Die.usable (x : Die) : Bool := match x.resetting with | none | some 6 => true | _ => false
/-- The squares of the cores are ready (R328). -/
def State.squaresReady (s : State) (cs : List Nat) : Bool :=
  cs.all fun c => (s.dieAt (dieOf c)).rdy.getLsbD (48 + 4 * (rowOf c / 8) + colOf c / 8) && (s.dieAt (dieOf c)).usable

/-! ### Placing (R297, R333) -/

/-- The TCB of a tile task (R86, R297). -/
def tileTcb (l : Launch) (k : Kernel) (c x y z age cseq : Nat) : Tcb :=
  let cls := bitsOf (k.hdr.toList.getD 2 0) 39 38
  Vector.ofFn fun i =>
    match i.val with
    | 0 => k.code + w64 (bitsOf (k.hdr.toList.getD 1 0) 31 0)
    | 1 => w64 age
    | 2 => w64 (2 ^ 59 * cls + 2 ^ 44 * k.gang + 2 ^ 28 * z + 2 ^ 22 * y + 2 ^ 16 * x + l.tag.toNat)
    | 13 => w64 (2 ^ 48 * (cseq % 2 ^ 16) + 2 ^ 32 * c)
    | 14 => k.tbud
    | j => if 4 ≤ j ∧ j < 12 then k.args.toList.getD (j - 4) 0 else 0
/-- The receive rings of a kernel's pipes (R224). -/
def ringsOf (hdr : Vector Word 16) : List (Nat × Ring) :=
  (List.range (bitsOf (hdr.toList.getD 7 0) 63 56)).filterMap fun i =>
    let e := hdr.toList.getD (8 + i) 0
    if e.getLsbD 31 then none else some (i, ⟨0, bitsOf e 12 0⟩)
/-- The Prisms with an end on a core. -/
def prismsOf (c : Nat) : List Nat :=
  [End.north, .east, .south, .west].filterMap fun e => (neighbour c e).map fun _ => prismOf c e
/-- A bound core is set up (R297): deque, rings, Mirror, watchpoints and Prisms, EVQ and UPCALL, the TCM window, and its tile tasks. -/
def State.placeCore (s : State) (lid : Nat) (l : Launch) (ki : Nat) (k : Kernel) (c x y : Nat) : State :=
  let tcmb := bitsOf (k.hdr.toList.getD 3 0) 63 32
  let zs := bitsOf (k.hdr.toList.getD 6 0) 51 36 + 1
  let lo := tcmLoc c 0
  let inWindow := fun (a : Nat) => decide (lo ≤ a ∧ a < lo + tcmb)
  let s := { s with
    mem := s.mem.filter (fun p => !inWindow p.1), poison := s.poison.filter (!inWindow ·), flips := s.flips.filter fun f => !inWindow f.1 }
  let s := ((s.poke lo (k.data.take tcmb)).setDeque c 0x1E000 0).setDeque c 0x1E008 0
  let s := (prismsOf c).foldl (fun (s : State) p => s.updPrism p fun x => { x with gang := none }) s
  let s := s.updCluster (clusterOf c) fun z => { z with mirror := none }
  let now := s.time
  let first := (s.coreAt c).cseq
  let s := s.updCore c fun w => { w with
    image := some ⟨lid, ki, k.gang, k.code, k.hdr, l.actx⟩, held := some k.gang
    rings := ringsOf k.hdr
    evq := setBits k.evqv 63 32 0
    upcall := k.upcv
    victims := Vector.replicate 3 none
    arrC := Vector.replicate 16 0, arrG := Vector.replicate 16 0, contrib := []
    recq := [], ringTags := [], preempt := false
    cseq := w.cseq + BitVec.ofNat 16 zs }
  let tile := fun (z : Nat) => (⟨tileTcb l k c x y z (now + z) (first.toNat + z), none, now + z, c, none⟩ : QTask)
  (s.updCore c fun w => { w with taskq := w.taskq ++ (List.range zs).map tile }).arrangeQueue c
/-- The gangs of a launch are placed (R297): the watchpoints of every core of their clusters are disarmed (R322). -/
def State.placeGangs (s : State) (lid : Nat) (l : Launch) : State :=
  let cores := ((l.kernels.flatMap fun k => k.place.map fun p => clusterOf p.1).eraseDups).flatMap clusterCores
  let s := cores.foldl (fun (s : State) c => s.updCore c fun w => { w with watch := Vector.replicate 4 ⟨0, 0, 0, 0⟩ }) s
  let s := l.kernels.zipIdx.foldl (fun (s : State) kp =>
    kp.1.place.foldl (fun (s : State) p => s.placeCore lid l kp.2 kp.1 p.1 p.2.1 p.2.2) s) s
  let zmax := (l.kernels.map fun k => bitsOf (k.hdr.toList.getD 6 0) 51 36 + 1).foldl max 0
  { s with time := s.time + zmax }
/-- A suspended gang is restored (R299). -/
def State.restoreGang (s : State) (g : Nat) : State :=
  let s := (s.susp.filter (·.gang = g)).foldl State.restoreCore s
  (s.suspClusters.filter (·.gang = g)).foldl State.restoreCluster s
/-- GANG_CLAIM: launch `l` claims all the clusters it needs, and its gangs are placed; or a suspended gang of it claims its own and is
restored (R297 to R299, R302, R328). -/
def State.claim (s : State) (a : Claimant) : EvEnd :=
  match s.launch? a.launch with
  | none => .off
  | some l =>
    let ks := s.needs a
    let us := a.gangs.flatMap (s.unitsOf l)
    let others := s.claimants.any fun b => s.before b a && (s.needs b).any ks.contains
    if others || !ks.all (s.clusterFree a.gangs) || !s.powerFits us || !s.squaresReady (a.gangs.flatMap l.coresOf) || !s.prismsClear l a.gangs then .off
    else
      let s := a.gangs.foldl (fun (s : State) g =>
        let s := (l.clustersOf g).foldl (fun (s : State) k => s.updCluster k fun x => { x with claim := some g }) s
        s.updGang g fun x => { x with phase := .placed, units := s.unitsOf l g }) (s.addUnits us)
      .done (if a.again then a.gangs.foldl State.restoreGang s else s.placeGangs a.launch l)
@[inherit_doc State.claim] def evGangClaim (l : Nat) (s : State) : EvEnd :=
  EvEnd.first s ((s.claimants.filter (·.launch = l)).map fun a s => s.claim a)
def execGangClaim (l : Nat) (s : State) := (evGangClaim l s).outcome s

/-- GANG_UNPLACE: every activation of a placed gang has retired and its queues and engine words are empty; its clusters and power
units are returned (R297, R302). -/
def evGangUnplace (g : Nat) (s : State) : EvEnd :=
  match s.gang? g with
  | none => .off
  | some x =>
    let cs := s.boundCores g
    let idle := fun (c : Nat) =>
      let k := s.coreAt c
      k.ctxs.all (·.st = .free) && k.taskq.isEmpty && k.inbox.isEmpty && s.dequeTop c = s.dequeBottom c && k.queues.toList.all (·.isEmpty)
    let away := s.liveCores.any fun c => !cs.contains c && ((s.coreAt c).taskq.any (·.tcb.gang = g) ||
      (s.coreAt c).ctxs.any fun x => decide (x.st ≠ .free) && x.tcb.gang = g)
    let left := away || s.decs.any (·.gang = g) || s.net.any (fun m => m.tcb.gang = g || m.gang = g) ||
      s.dies.toList.any fun d => d.saved.any (·.gang = g) || d.ordered.any fun o => o.tcb.gang = g
    if x.phase ≠ .placed || left || !cs.all idle then .off
    else
      let s := cs.foldl (fun (s : State) c => s.updCore c fun k => { k with image := none, preempt := false }) s
      let s := { s with clusters := s.clusters.map fun (p : Nat × Cluster) => if p.2.claim = some g then (p.1, { p.2 with claim := none }) else p }
      .done ({ s.dropUnits x.units with gangs := s.gangs.filter (·.1 ≠ g) })
def execGangUnplace (g : Nat) (s : State) := (evGangUnplace g s).outcome s

/-! ### Pre-emption (R298, R303, R395) -/

/-- Pre-emption of every core of a gang is requested. -/
def State.requestGang (s : State) (g : Nat) : State :=
  (s.boundCores g).foldl (fun (s : State) c => s.updCore c fun k => if (k.image.map (·.gang)) = some g then { k with preempt := true } else k) s
/-- Some core of the gang has not had the request. -/
def State.notAsked (s : State) (g : Nat) : Bool :=
  (s.boundCores g).any fun c => ((s.coreAt c).image.map (·.gang)) = some g && !(s.coreAt c).preempt
/-- A gang's priority: BPRI of its queue at launch (R298). -/
def State.priority (s : State) (g : Nat) : Nat := (((s.gang? g).bind fun x => s.launch? x.launch).map (·.bpri)).getD 0
/-- PREEMPTION_REQUEST: launch `l` waits for clusters that only gangs of lower priority hold (R298). -/
def evPreemptionRequest (l : Nat) (s : State) : EvEnd :=
  match s.launch? l with
  | none => .off
  | some x =>
    let holders := ((s.claimants.filter (·.launch = l)).flatMap fun a => (s.needs a).filterMap fun k => (s.clusterAt k).claim).eraseDups
    if holders.isEmpty || !holders.all (fun g => decide (s.priority g < x.bpri)) || !holders.any s.notAsked then .off
    else .done (holders.foldl State.requestGang s)
def execPreemptionRequest (l : Nat) (s : State) := (evPreemptionRequest l s).outcome s
/-- The placed gang with the lowest priority that has a core in a region; on equal priority, the later launch (R303). DESIGN CHOICE: of two
gangs of one launch, the first in the device's list of gangs (log 103). -/
def State.victimGang (s : State) (d r : Nat) : Option Nat :=
  let here := s.gangs.filter fun p => p.2.phase = .placed &&
    (s.boundCores p.1).any fun c => dieOf c = d && 4 * (rowOf c / 8) + colOf c / 8 = r
  (here.foldl (fun (y : Option (Nat × Gang)) p => match y with
    | none => some p
    | some q =>
      if s.priority p.1 < s.priority q.1 ∨ (s.priority p.1 = s.priority q.1 ∧ q.2.launch < p.2.launch) then some p else some q) none).map (·.1)
/-- A region asks for the pre-emption of a gang. -/
def State.relieve (s : State) (d r : Nat) : State :=
  match s.victimGang d r with | some g => s.requestGang g | none => s
/-- POWER_WINDOW: an 850-cycle window of a region ends with its measured power (R302, R303). -/
def evPowerWindow (d : DieId) (r : RegionNum) (s : State) : EvEnd :=
  let x := s.dieAt d.toNat
  if s.time / 850 ≤ x.powAt[r.toNat]'r.isLt then .off
  else
    let m := Config.measuredPower s.fv % 2 ^ 32
    let s := s.useFree.updDie d.toNat fun x => { x with
      powAt := x.powAt.set r.toNat (s.time / 850) r.isLt, meas := x.meas.set r.toNat (w64 m) r.isLt }
    .done (if (x.plim[r.toNat]'r.isLt).toNat < m then s.relieve d.toNat r.toNat else s)
def execPowerWindow (d : DieId) (r : RegionNum) (s : State) := (evPowerWindow d r s).outcome s
/-- The compute dies lose power, and all their state (R395); the devices of GDDR-7 keep their data and its poison (log 53). -/
def State.powerOff (s : State) : State :=
  let gddr := fun (l : Nat) => isPhys l && regionOf l == .gddr
  { State.reset with
    time := s.time, fv := s.fv, agenda := s.agenda, flash := s.flash, booted := s.booted, image := s.image, bstat := s.bstat
    mgmt := s.mgmt, idpk := s.idpk, boothash := s.boothash, node := s.node, attq := s.attq, reports := s.reports
    mem := s.mem.filter (gddr ·.1), poison := s.poison.filter gddr, flips := s.flips.filter (gddr ·.1), starts := s.starts }
/-- THERMAL_WINDOW: an 850-cycle window of a region ends with its highest temperature (R395): above TWARN it asks for pre-emption,
above TCRIT its cores issue in alternate cycles, and at 115 °C the management die removes power. -/
def evThermalWindow (d : DieId) (r : RegionNum) (s : State) : EvEnd :=
  let x := s.dieAt d.toNat
  if s.time / 850 ≤ x.thermAt[r.toNat]'r.isLt then .off
  else
    let w := x.therm[r.toNat]'r.isLt
    let m := Config.measuredTemp s.fv % 2 ^ 8
    let s := s.useFree.updDie d.toNat fun x => { x with
      thermAt := x.thermAt.set r.toNat (s.time / 850) r.isLt
      therm := x.therm.set r.toNat (setBits w 63 56 m) r.isLt
      hot := x.hot.set r.toNat (decide (bitsOf w 15 8 < m)) r.isLt }
    .done (if 115 ≤ m ∧ s.released then s.powerOff else if bitsOf w 23 16 < m then s.relieve d.toNat r.toNat else s)
def execThermalWindow (d : DieId) (r : RegionNum) (s : State) := (evThermalWindow d r s).outcome s

/-! ### Focus (R304, R305) -/

/-- A queued TCB that a migration may move (R305). -/
def QTask.movable (t : QTask) : Bool := decide (1 ≤ t.tcb.kind ∧ t.tcb.kind ≤ 4) && t.tcb.cls ≠ 2
/-- The last `n` movable TCBs of a queue, and the rest, in their order. -/
def splitMovable (n : Nat) (q : List QTask) : List QTask × List QTask :=
  let r := q.reverse.foldl (fun (p : List QTask × List QTask) t =>
    if t.movable && decide (p.1.length < n) then (t :: p.1, p.2) else (p.1, t :: p.2)) ([], [])
  r
/-- A migration of up to `n` TCBs (R305); each is a message from the source (R310, R313). -/
def State.migrate (s : State) (a b n : Nat) : State :=
  let room := s.queueRoom b - ((s.coreAt b).taskq.length + (s.coreAt b).inbox.length + (s.net.filter (·.dst = b)).length)
  let (moved, stay) := splitMovable (min n room) (s.coreAt a).taskq
  let moved := moved.map s.readBack
  let s := (s.updCore a fun k => { k with taskq := stay }).arrangeQueue a
  moved.foldl (fun (s : State) t => ((s.enqueue b 4 a t.tcb (s.lensTag a s.time)).msgSent a).msgReceived b) s
/-- A destination is within the source's scope (R304). DESIGN CHOICE: SCOPE 3, which is reserved, finds no destination (log 104). -/
def inScope (scope a b : Nat) : Bool := match scope with | 0 | 1 | 2 => sameDomain scope a b | _ => false
/-- The pairs of R304, deepest with shallowest: the source, the destination and the difference of their depths. -/
def State.focusPairs (s : State) (scope : Nat) (shallow : List (Nat × Nat)) : List Nat → List (Nat × Nat) → List (Nat × Nat × Nat)
  | _, [] => []
  | used, (a, da) :: deep =>
    match shallow.find? fun p => p.1 ≠ a && !used.contains p.1 && decide (p.2 < da) && inScope scope a p.1 && s.sameImage a p.1 with
    | some (b, db) =>
      if used.contains a then s.focusPairs scope shallow used deep
      else (a, b, da - db) :: s.focusPairs scope shallow (a :: b :: used) deep
    | none => s.focusPairs scope shallow used deep
/-- FOCUS_BALANCE: every 1024 cycles, at most 16 migrations of the die (R304). -/
def evFocusBalance (d : DieId) (s : State) : EvEnd :=
  let x := s.dieAt d.toNat
  if s.time / 1024 ≤ x.focusAt then .off
  else
    let s := s.updDie d.toNat fun x => { x with focusAt := s.time / 1024 }
    if !x.fctl.getLsbD 63 then .done s
    else
      let cs := ((s.liveCores.filter fun c => dieOf c = d.toNat && (s.coreAt c).image.isSome).mergeSort).map fun c => (c, (s.coreAt c).taskq.length)
      let deep := cs.mergeSort fun a b => decide (b.2 < a.2 ∨ (a.2 = b.2 ∧ a.1 ≤ b.1))
      let shallow := cs.mergeSort fun a b => decide (a.2 < b.2 ∨ (a.2 = b.2 ∧ a.1 ≤ b.1))
      let fthr := bitsOf x.fctl 7 0
      let cmds := ((s.focusPairs (bitsOf x.fctl 9 8) shallow [] deep).filter fun p => decide (fthr ≤ p.2.2 / 2 ∧ 0 < p.2.2 / 2)).take 16
      .done (cmds.foldl (fun (s : State) p => s.migrate p.1 p.2.1 (p.2.2 / 2)) s)
def execFocusBalance (d : DieId) (s : State) := (evFocusBalance d s).outcome s

end Sys2Proof.Machine
end

