-- ==== Sys2Proof/Machine/Dispatcher.lean ====
section
/-!
DEFINITION. Command queues and dispatchers (13_scheduling.md R290 to R297, R306; R390): register writes, ageing, the choice of an
entry, launch records (R103, R107, R108, R296), the entries' work and their completion.
-/
namespace Sys2Proof.Machine

/-- Change a command queue. -/
def State.updCq (s : State) (q : Nat) (f : CmdQueue → CmdQueue) : State :=
  { s with cqs := Vector.ofFn fun i => if i.val = q then f s.cqs[i] else s.cqs[i] }

/-! ### Reads by a dispatcher -/

/-- The code of a fault of a dispatcher's access (R390); 0x081 also for an access that must wait. -/
def Exc.entryCode (e : Exc) : Nat := if e.wait then 0x081 else e.code
/-- A line is in use where a dispatcher's access to its home waits (R240, R245). -/
def State.dispWaits (s : State) (d pa : Nat) : Bool := s.heldAtHome pa 0 || s.engineOwned d pa || s.engineOwned (paDie pa) pa
/-- Eight bytes read by the dispatcher of die `d` in an address context, through the slices' translation (R140, R296, R390). -/
def dispRead8 (d actx : Nat) (va : Word) : Act (List Byte) := do
  let s ← get
  let (s, r) := s.hardAddr d actx .system va .load 0
  set s
  match r with
  | .error e => raise e
  | .ok pa =>
    if s.dispWaits d pa then raise { code := 0x081, addr := va, acc := 2, wait := true }
    set (s.seeErrors (spanOf pa 8))
    let s ← get
    if poisonedAny s.poison (spanOf pa 8) then raise { code := 0x080, addr := va, acc := 2, detail := srcOf pa }
    return (spanOf pa 8).map s.homeByte
/-- `n` bytes read by the dispatcher of die `d`. -/
def dispRead (d actx : Nat) (va : Word) (n : Nat) : Act (List Byte) := do
  let chunks ← (List.range ((addr54 va % 8 + n + 7) / 8)).mapM fun i => dispRead8 d actx (w64 (addr54 va / 8 * 8 + 8 * i))
  return (chunks.flatten.drop (addr54 va % 8)).take n
/-- `n` words. -/
def dispWords (d actx : Nat) (va : Word) (n : Nat) : Act (List Word) := do
  let bs ← dispRead d actx va (8 * n)
  return (List.range n).map fun i => w64 (natOfBytes ((bs.drop (8 * i)).take 8))

/-! ### Entries and readiness (R291 to R295) -/

/-- The place of entry RCNT of a queue (R290). -/
def CmdQueue.headAt (x : CmdQueue) : Nat := x.ring.toNat + 64 * (x.rcnt.toNat % 2 ^ x.logn)
/-- The entry RCNT of a queue, if it is visible (R292): its home can be reached from the queue's dispatcher (R16, R328, R386). DESIGN CHOICE: an
entry that lies in poisoned memory, or whose home a failed bridge cuts off, is never visible (log 110). -/
def State.headEntry (s : State) (q : Nat) : Option (Vector Word 8) :=
  let x := s.cq q
  if !x.en || x.halt || x.wcnt = x.rcnt || !decide (4 ≤ x.logn ∧ x.logn ≤ 12) then none
  else
    let pa := x.headAt
    if (spanOf pa 64).any (fun l => !s.reachable x.hdie l) || s.dispWaits x.hdie pa || poisonedAny s.poison (spanOf pa 64) then none
    else
      let e : Vector Word 8 := Vector.ofFn fun i => s.homeWord (pa + 8 * i.val)
      if e[0].getLsbD 63 = x.rcnt.getLsbD x.logn then some e else none
/-- TYPE of an entry. -/
def entryType (e : Vector Word 8) : Nat := bitsOf e[0] 7 0
/-- The started entries of a queue that have not completed, on whichever die it was served when they started. -/
def State.started (s : State) (q : Nat) : List CqEntry :=
  s.dies.toList.flatMap fun d => d.slots.toList.filterMap fun o => o.bind fun (e : CqEntry) => if e.queue = q then some e else none
/-- A queue is ready (R294): its head is visible, and no WAIT or QBARRIER of it stands before it (R293). -/
def State.queueReady (s : State) (q : Nat) : Bool :=
  (s.headEntry q).isSome && (s.started q).all fun e => entryType e.words ≠ 4 && entryType e.words ≠ 5
/-- The enqueue time of an entry (R291). -/
def CmdQueue.enqTime (x : CmdQueue) (n : BitVec 32) : Nat :=
  ((x.enq.filter fun p => (n - p.1).toNat < 2 ^ 31).getLast?.map (·.2)).getD 0
/-- A queue's wait (R294): a queue that is not ready is at BPRI and waits for nothing; one that has become ready waits from now. -/
def State.noteQueue (s : State) (q : Nat) (x : CmdQueue) : CmdQueue :=
  if !x.en && x.since.isNone && decide (x.epri = x.bpri) then x
  else if s.queueReady q then (if x.since.isSome then x else { x with epri := x.bpri, since := some s.time })
  else { x with epri := x.bpri, since := none }
/-- The rises of a queue that are due (R294): a level is left once its wait there has lasted AGEI × 850 cycles. -/
def CmdQueue.rise (agei : List Word) (now : Nat) : Nat → CmdQueue → CmdQueue
  | 0, x => x
  | n + 1, x =>
    let a := 850 * (agei.getD x.epri 0).toNat
    match x.since with
    | some t => if x.epri ≥ 7 ∨ a = 0 ∨ now < t + a then x else CmdQueue.rise agei now n { x with epri := x.epri + 1, since := some (t + a) }
    | none => x
/-- A change of AGEI(l) at `now` to `a` microseconds: a queue that has by then waited longer at that level rises now. -/
def CmdQueue.reage (l a now : Nat) (x : CmdQueue) : CmdQueue :=
  if x.epri = l ∧ a ≠ 0 then { x with since := x.since.map fun t => max t (now - 850 * a) } else x
/-- The waits of all queues are brought up to date. -/
def State.noteQueues (s : State) : State :=
  if s.cqs.toList.all fun x => !x.en && x.since.isNone && decide (x.epri = x.bpri) then s
  else { s with cqs := Vector.ofFn fun i => s.noteQueue i.val s.cqs[i] }

/-- The waits of all queues are brought up to date, and the rises that are due are made (R294). -/
def State.agedQueues (s : State) : State :=
  let s := s.noteQueues
  { s with cqs := s.cqs.map fun (x : CmdQueue) => x.rise s.agei.toList s.time 7 }

/-! ### Register writes (R290, R291, R390) -/

/-- The queue registers take no write while die 0 resets (R393). -/
def State.qrbHeld (s : State) : Bool := match (s.dieAt 0).resetting with | some n => decide (5 ≤ n) | none => false
/-- WCNT_WRITE: entries become visible, with their enqueue time; a lap of RCNT halts the queue (R291, R390). -/
def evWcntWrite (q : CmdQ) (v : Word) (s : State) : EvEnd :=
  if s.qrbHeld then .off
  else .done (s.updCq q.toNat fun x =>
    let w := v.setWidth 32
    let x := { x with wcnt := w, enq := if w = x.wcnt then x.enq else x.enq ++ [(x.wcnt, s.time)] }
    if (w - x.rcnt).toNat > 2 ^ x.logn then { x with ovr := true, halt := true, code := 0, idx := x.rcnt } else x)
def execWcntWrite (q : CmdQ) (v : Word) (s : State) := (evWcntWrite q v s).outcome s
/-- QUEUE_ENABLE_WRITE: a write of EN, BPRI, LOGN and HDIE. Clearing EN discards the unstarted entries and clears HALT, and frees the
slots that can never complete; LOGN and HDIE stay while EN is 1; an enabled queue with a reserved LOGN halts (R290, R390). -/
def evQueueEnableWrite (q : CmdQ) (v : Word) (s : State) : EvEnd :=
  if s.qrbHeld then .off
  else
    let x := s.cq q.toNat
    let en := v.getLsbD 63
    let kept := fun (e : CqEntry) => if e.queue = q.toNat ∧ e.stuck then none else some e
    let s : State := if x.en && !en then { s with dies := s.dies.map fun (d : Die) => { d with slots := d.slots.map (·.bind kept) } } else s
    .done (s.updCq q.toNat fun x =>
      let y := if x.en then { x with en := en, bpri := bitsOf v 62 60 }
        else { x with en := en, bpri := bitsOf v 62 60, logn := bitsOf v 59 56, hdie := bitsOf v 55 54 }
      let y := if x.en && !en then { y with rcnt := y.wcnt, halt := false, enq := [], epri := y.bpri, since := none } else y
      let y := if y.since.isNone then { y with epri := y.bpri } else y
      if y.en && !y.halt && !decide (4 ≤ y.logn ∧ y.logn ≤ 12) then { y with halt := true, code := 0x00F, idx := y.rcnt } else y)
def execQueueEnableWrite (q : CmdQ) (v : Word) (s : State) := (evQueueEnableWrite q v s).outcome s
/-- HISTOGRAM_CLEAR: the histogram and LMAX are cleared (R290). -/
def evHistogramClear (q : CmdQ) (s : State) : EvEnd :=
  if s.qrbHeld then .off else .done (s.updCq q.toNat fun x => { x with hist := Vector.replicate 16 0, lmax := 0 })
def execHistogramClear (q : CmdQ) (s : State) := (evHistogramClear q s).outcome s
/-- QUEUE_AGEING: a ready queue that has waited AGEI(EPRI) × 850 cycles at its level rises one level (R294). -/
def evQueueAgeing (q : CmdQ) (s : State) : EvEnd :=
  let s := s.noteQueues
  let x := s.cq q.toNat
  let y := x.rise s.agei.toList s.time 1
  if y = x then .off else .done (s.updCq q.toNat fun _ => y)
def execQueueAgeing (q : CmdQ) (s : State) := (evQueueAgeing q s).outcome s

/-! ### Launch records (R103, R107, R108, R296) -/

/-- A pipe name: up to four ASCII bytes, zero-padded (R103). -/
def nameOk (n : Nat) : Bool :=
  let b := fun (i : Nat) => n / 2 ^ (8 * i) % 256
  (List.range 4).all fun i => decide (b i < 128) && (b i ≠ 0 || (List.range 4).all fun j => decide (j < i) || b j = 0)
/-- A kernel header keeps R103. -/
def headerOk (h : Vector Word 16) : Bool :=
  let f := fun (i hi lo : Nat) => bitsOf (h.toList.getD i 0) hi lo
  let np := f 7 63 56
  decide (f 0 63 0 = 0x4B56594C00010000 ∧ f 1 31 0 % 4 = 0 ∧ 0x80 ≤ f 1 31 0) &&
  decide (3 ≤ f 2 63 58 ∧ f 2 63 58 ≤ 32 ∧ f 2 57 52 ≤ 32 ∧ 1 ≤ f 2 51 48 ∧ f 2 51 48 ≤ 8 ∧ 1 ≤ f 2 47 45 ∧ f 2 47 45 ≤ 4) &&
  decide (f 2 44 40 ≤ 16 ∧ f 2 39 38 ≤ 1 ∧ f 2 29 0 = 0 ∧ (f 2 37 34 ≠ 0 → f 2 39 38 = 0)) &&
  decide (f 3 63 32 % 64 = 0 ∧ f 3 31 0 % 64 = 0 ∧ f 3 31 0 ≤ 0x80000 ∧ f 4 63 32 % 64 = 0 ∧ f 4 31 0 = 0) &&
  decide (f 3 63 32 + f 2 47 45 * f 4 63 32 ≤ 0x1E000 ∧ f 5 63 48 = 0 ∧ 1 ≤ f 5 47 0 ∧ f 6 35 0 = 0 ∧ np ≤ 8 ∧ f 7 55 0 = 0) &&
  (List.range 8).all fun i =>
    let e := 8 + i
    if np ≤ i then f e 63 0 = 0
    else if f e 31 31 = 1 then nameOk (f e 63 32) && f e 30 0 = 0
    else nameOk (f e 63 32) && decide (f e 30 26 = 0 ∧ 64 * (f e 25 13 + f e 12 0) ≤ f 3 31 0)
/-- An EVQV keeps R124 under a header. -/
def evqvOk (v : Word) (h : Vector Word 16) : Bool :=
  let f := fun (i hi lo : Nat) => bitsOf (h.toList.getD i 0) hi lo
  let logn := evqLogn v
  let base := bitsOf v 16 4 * 16
  decide (bitsOf v 31 24 = 0 ∧ bitsOf v 19 17 = 0 ∧ bitsOf v 3 0 = 0) &&
    (logn = 0 || (decide (4 ≤ logn ∧ logn ≤ 12 ∧ base % (16 * 2 ^ logn) = 0 ∧ f 3 63 32 ≤ base) &&
      decide (base + 16 * 2 ^ logn + f 2 47 45 * f 4 63 32 ≤ 0x1E000)))
/-- X and Y of a kernel's grid. -/
def gridOf (h : Vector Word 16) : Nat × Nat := (bitsOf (h.toList.getD 6 0) 63 58 + 1, bitsOf (h.toList.getD 6 0) 57 52 + 1)
/-- The cores of a rectangle of good cores, with their tiles. -/
def State.rectangle (s : State) (d x0 y0 x y : Nat) : Option (List (Nat × Nat × Nat)) :=
  if x0 + x > 32 ∨ y0 + y > 32 then none
  else
    let l := (List.range y).flatMap fun j => (List.range x).map fun i => (1024 * d + 32 * (y0 + j) + x0 + i, i, j)
    if l.all fun p => s.good p.1 then some l else none
/-- The cores a kernel is bound to (R107, R296), from its entry's word 1 and its binding table. -/
def State.placement (s : State) (w1 : Word) (h : Vector Word 16) (table : List Nat) : Option (List (Nat × Nat × Nat)) :=
  let (x, y) := gridOf h
  match bitsOf w1 63 62 with
  | 0 => s.rectangle (bitsOf w1 61 60) (bitsOf w1 55 50) (bitsOf w1 49 44) x y
  | 1 =>
    (((List.range 4).filter fun d => w1.getLsbD (56 + d)).flatMap fun d =>
      (List.range (33 - y)).flatMap fun y0 => (List.range (33 - x)).map fun x0 => (d, x0, y0)).findSome? fun o =>
        s.rectangle o.1 o.2.1 o.2.2 x y
  | 2 =>
    if bitsOf (h.toList.getD 2 0) 37 34 ≠ 0 ∨ table.any (4096 ≤ ·) ∨ !table.all s.good ∨ table.eraseDups.length < table.length then none
    else some (table.zipIdx.map fun p => (p.1, p.2 % x, p.2 / x))
  | _ => none
/-- A condition of R296, or code 0x012 (R390). -/
def need (b : Bool) : Act Unit := if b then pure () else raise { code := 0x012 }
/-- Where the data of a code object of `size` bytes begin (R333, R403): at a 4-byte boundary after all its code, in which its tile task's entry
lies; the object does not say where (log 37). -/
def dataBegin (raw entry size : Nat) : Nat := min size (entry + 4 + 4 * (raw % (size / 4 + 1)))
/-- A kernel of a record is read and checked, with its whole code object (R296). -/
def readKernel (d rctx actx : Nat) (e : Word) : Act Kernel := do
  let w ← dispWords d rctx e 8
  let f := fun (i hi lo : Nat) => bitsOf (w.getD i 0) hi lo
  let code := w64 (addr54 (w.getD 0 0))
  let pm := f 1 63 62
  need (decide (code.toNat % 128 = 0 ∧ f 1 43 0 = 0 ∧ f 6 63 48 = 0 ∧ f 7 63 0 = 0 ∧ (pm = 2 ∨ f 2 63 0 = 0)))
  let h : Vector Word 16 ← (fun (l : List Word) => Vector.ofFn fun i => l.getD i.val 0) <$> dispWords d actx code 16
  need (headerOk h)
  let (x, y) := gridOf h
  let table ← if pm = 2 then
      (fun bs => (List.range (x * y)).map fun i => natOfBytes ((bs.drop (2 * i)).take 2)) <$> dispRead d actx (w.getD 2 0) (2 * x * y)
    else pure []
  let place ← match (← get).placement (w.getD 1 0) h table with | some p => pure p | none => raise { code := 0x012 }
  need (evqvOk (w.getD 3 0) h)
  let size := bitsOf (h.toList.getD 1 0) 63 32
  let object ← dispRead d actx code size
  let off := dataBegin (Config.dataStart object) (bitsOf (h.toList.getD 1 0) 31 0) size
  let args ← if f 5 63 0 = 0 then pure (List.replicate 8 0) else dispWords d actx (w.getD 5 0) 8
  return {
    code := code, data := (object.drop off).take (bitsOf (h.toList.getD 3 0) 63 32), hdr := h, place := place, evqv := w.getD 3 0
    upcv := w.getD 4 0 &&& 0x003FFFFFFFFFFFFC, args := Vector.ofFn fun i => args.getD i.val 0, tbud := w64 (f 6 47 0), gang := 0 }
/-- A pipe entry is checked (R108, R296). -/
def pipeOf (ks : List Kernel) (w : Word) : Act PipeBind := do
  let sk := bitsOf w 31 29
  let rk := bitsOf w 28 26
  let name := bitsOf w 63 32
  let has := fun (i : Nat) (dir : Bool) => match ks[i]? with
    | some k => (List.range (bitsOf (k.hdr.toList.getD 7 0) 63 56)).any fun j =>
        bitsOf (k.hdr.toList.getD (8 + j) 0) 63 32 = name && (k.hdr.toList.getD (8 + j) 0).getLsbD 31 = dir
    | none => false
  let grid := fun (i : Nat) => (ks[i]?).map fun k => gridOf k.hdr
  need (bitsOf w 25 0 = 0 && has sk true && has rk false && grid sk == grid rk)
  return ⟨name, sk, rk⟩
/-- The lowest kernel index of each kernel's gang (R108): pipes join the kernels they bind. -/
def gangRoots (n : Nat) (ps : List PipeBind) : List Nat :=
  let join := fun (r : List Nat) (p : PipeBind) =>
    let a := r.getD p.sk 0
    let b := r.getD p.rk 0
    r.map fun x => if x = max a b then min a b else x
  ps.foldl join (List.range n)
/-- A LAUNCH entry's record is read and checked, with everything it names (R296). -/
def readLaunch (d : Nat) (e : Vector Word 8) : Act LaunchRecord := do
  let rec_ := w64 (addr54 e[1])
  let rctx := bitsOf e[2] 7 0
  need (decide (rec_.toNat % 64 = 0))
  let h ← dispWords d rctx rec_ 8
  let nk := bitsOf (h.getD 0 0) 63 61 + 1
  let np := bitsOf (h.getD 0 0) 60 56
  let actx := bitsOf (h.getD 0 0) 55 48
  need (decide (np ≤ 16 ∧ bitsOf (h.getD 0 0) 47 0 = 0) && (h.drop 1).all (· = 0))
  let ks ← (List.range nk).mapM fun i => readKernel d rctx actx (rec_ + w64 (64 + 64 * i))
  let pw ← dispWords d rctx (rec_ + w64 (64 + 64 * nk)) np
  let ps ← pw.mapM (pipeOf ks)
  let roots := gangRoots nk ps
  let all := ks.flatMap fun k => k.place.map (·.1)
  -- one image to a core (R91), and no two gangs in one cluster (R108)
  need (all.eraseDups.length = all.length)
  let cl := (ks.zip roots).flatMap fun p => (p.1.place.map fun q => (clusterOf q.1, p.2)).eraseDups
  need (cl.all fun a => cl.all fun b => a.1 ≠ b.1 || a.2 = b.2)
  return { actx := actx, kernels := ks, pipes := ps, roots := roots }
/-- The smallest gang ids that no gang holds (R297). -/
def State.freeGangIds (s : State) (n : Nat) : List Nat :=
  (((List.range 4095).map (· + 1)).filter fun g => !s.gangs.any (·.1 = g)).take n

/-! ### Starting an entry (R294, R295, R390) -/

/-- What an entry reads before it starts, a launch record with everything it names, or a descriptor; or the exception whose code halts the
queue, or for which it waits (R296, R390). -/
def entryCheck (d : Nat) (e : Vector Word 8) : Act (Option LaunchRecord × List Word) :=
  match entryType e with
  | 1 => (fun r => (some r, [])) <$> readLaunch d e
  | 2 => do
    let va := w64 (addr54 e[1])
    if va.toNat % 128 ≠ 0 then raise { code := 0x044 }
    let l ← dispWords d (bitsOf e[2] 7 0) va 16
    if (descBad l).isSome then raise { code := 0x044 }
    return (none, l)
  | 0 | 3 | 4 | 5 => pure (none, [])
  | _ => raise { code := 0x001 }
/-- A queue goes before another (R294, R295): higher EPRI, earlier head, then round from the last winner. -/
def State.queueBefore (s : State) (p a b : Nat) : Bool :=
  let x := s.cq a
  let y := s.cq b
  let tx := x.enqTime x.rcnt
  let ty := y.enqTime y.rcnt
  if x.epri ≠ y.epri then decide (y.epri < x.epri)
  else if tx ≠ ty then decide (tx < ty)
  else decide ((a + 63 - p) % 64 < (b + 63 - p) % 64)
/-- The best of a list of queues, and the rest. -/
def State.bestQueue (s : State) (p : Nat) : List Nat → Option Nat
  | [] => none
  | q :: qs => match s.bestQueue p qs with
    | none => some q
    | some r => some (if s.queueBefore p r q then r else q)
/-- The head of a queue starts in a slot, with what it has read. -/
def State.startEntry (s : State) (d j q : Nat) (e : Vector Word 8) (r : Option LaunchRecord × List Word) : State :=
  let x := s.cq q
  let entry : CqEntry := {
    queue := q, idx := x.rcnt, words := e, enq := x.enqTime x.rcnt, epri := x.epri, bpri := x.bpri, began := s.time, record := r.1, desc := r.2
    launch := none, begun := false, pos := 0, finished := false, stuck := false }
  let s := s.useFree.updDie d fun y => { y with slots := Vector.ofFn fun i => if i.val = j then some entry else y.slots[i], lastQueue := q }
  s.updCq q fun x => { x with rcnt := x.rcnt + 1, epri := x.bpri, since := none, startAt := some s.time }
/-- A queue halts (R390). -/
def State.haltQueue (s : State) (q code : Nat) (idx : BitVec 32) : State :=
  s.updCq q fun x => { x with halt := true, code := code, idx := idx }
/-- The queues are tried in order; one whose entry must wait for a home lets the next go. -/
def State.tryQueues (s : State) (d j : Nat) : Nat → List Nat → EvEnd
  | 0, _ => .off
  | n + 1, qs =>
    match s.bestQueue (s.dieAt d).lastQueue qs with
    | none => .off
    | some q =>
      match s.headEntry q with
      | none => .off
      | some e =>
        -- an error of the entry itself is found as it is read (R382)
        let z := s.seeErrors (spanOf (s.cq q).headAt 64)
        if poisonedAny z.poison (spanOf (s.cq q).headAt 64) then .done z
        else match entryCheck d e z with
          | .ok r z => .done (z.startEntry d j q e r)
          | .error (.exc x) z =>
            if x.entryCode = 0x081 then s.tryQueues d j n (qs.filter (· ≠ q)) else .done (z.haltQueue q x.entryCode (s.cq q).rcnt)
          | .error .stall _ => s.tryQueues d j n (qs.filter (· ≠ q))
          | .error (.fault f) _ => .fault f
/-- QUEUE_ENTRY_START: a free slot of a dispatcher starts the head of the ready queue with the highest EPRI, one in a cycle; a rise due in
that cycle has been made (R294, R295; DEDUCED, log 96). -/
def evQueueEntryStart (d : DieId) (s : State) : EvEnd :=
  let s := s.agedQueues
  let x := s.dieAt d.toNat
  let started := s.cqs.toList.any fun y => y.startAt = some s.time && y.hdie = d.toNat
  if !x.rdy.getLsbD 19 || !x.usable || started then .off
  else match (List.range 4).find? fun j => (x.slots.toList.getD j none).isNone with
    | none => .off
    | some j => s.tryQueues d.toNat j 64 ((List.range 64).filter fun q => (s.cq q).en && (s.cq q).hdie = d.toNat && (s.cq q).startAt ≠ some s.time && s.queueReady q)
def execQueueEntryStart (d : DieId) (s : State) := (evQueueEntryStart d s).outcome s

/-! ### The entries (R293) -/

/-- The entry of a slot, when it is of a type and not finished. -/
def State.slotEntry (s : State) (d : DieId) (j : SlotNum) (t : Nat) : Option CqEntry :=
  ((s.dieAt d.toNat).slots[j.toNat]'j.isLt).bind fun e => if entryType e.words = t ∧ !e.finished ∧ !e.stuck then some e else none
/-- Change the entry of a slot. -/
def State.updSlot (s : State) (d : DieId) (j : SlotNum) (f : CqEntry → Option CqEntry) : State :=
  s.updDie d.toNat fun x => { x with slots := x.slots.set j.toNat ((x.slots[j.toNat]'j.isLt).bind f) j.isLt }
/-- An entry has done what it does. -/
def State.entryDone (s : State) (d : DieId) (j : SlotNum) : State := s.updSlot d j fun e => some { e with finished := true }
/-- A SIGNAL or QBARRIER behind an entry of its queue that ended without completing never completes (R390). -/
def CqEntry.after (e f : CqEntry) : CqEntry :=
  let later := decide (f.queue = e.queue ∧ f.idx ≠ e.idx ∧ (f.idx - e.idx).toNat < 2 ^ 31)
  if later && [3, 5].contains (entryType f.words) then { f with stuck := true } else f
/-- An access of a started entry meets a fault (R390): a home that is unavailable is waited for; another fault ends the entry, halts
the queue, and no later entry treats it as complete. -/
def State.entryFault (s : State) (d : DieId) (j : SlotNum) (e : CqEntry) (code : Nat) : EvEnd :=
  if code = 0x081 then .off
  else
    let s := { s with dies := s.dies.map fun (x : Die) => { x with slots := x.slots.map fun (o : Option CqEntry) => o.map (CqEntry.after e) } }
    .done (((s.updSlot d j fun _ => none).disown (1024 * d.toNat) (8 + j.toNat)).haltQueue e.queue code e.idx)
/-- Every earlier entry of the queue has completed. -/
def State.firstEntry (s : State) (e : CqEntry) : Bool :=
  (s.started e.queue).all fun f => f.idx = e.idx || decide ((f.idx - e.idx).toNat < 2 ^ 31)

/-- CQ_NOP: it completes at its start (R293). -/
def evCqNop (d : DieId) (j : SlotNum) (s : State) : EvEnd :=
  match s.slotEntry d j 0 with | some _ => .done (s.entryDone d j) | none => .off
def execCqNop (d : DieId) (j : SlotNum) (s : State) := (evCqNop d j s).outcome s
/-- Another started launch takes its tag and gang ids before one that started at `t` on die `d` (R297). -/
def State.earlierLaunch (s : State) (t d : Nat) : Bool :=
  (List.range 4).any fun b => (s.dieAt b).slots.toList.any fun o => match o with
    | some e => e.record.isSome && e.launch.isNone && (decide (e.began < t) || (e.began = t && decide (b < d)))
    | none => false
/-- CQ_LAUNCH: the launch whose record was read at its start takes its tag, the count of launches accepted before it (log 82), and its gang
ids (R81, R297). -/
def evCqLaunch (d : DieId) (j : SlotNum) (s : State) : EvEnd :=
  match s.slotEntry d j 1 with
  | none => .off
  | some e =>
    match e.record, e.launch with
    | some r, none =>
      let rs := r.roots.eraseDups.mergeSort
      let ids := s.freeGangIds rs.length
      if s.earlierLaunch e.began d.toNat || ids.length < rs.length then .off
      else
        let lid := s.accepted
        let gangOf := fun (r : Nat) => ((rs.zip ids).find? (·.1 = r)).elim 0 (·.2)
        let l : Launch := {
          tag := BitVec.ofNat 16 lid, die := d.toNat, queue := e.queue, epri := e.epri, bpri := e.bpri, start := e.began, actx := r.actx
          kernels := (r.kernels.zip r.roots).map fun p => { p.1 with gang := gangOf p.2 }, pipes := r.pipes }
        .done ({ s.updSlot d j fun e => some { e with launch := some lid } with
          accepted := lid + 1, launches := s.launches ++ [(lid, l)], gangs := s.gangs ++ ids.map fun g => (g, ⟨lid, .waiting, []⟩) })
    | _, _ => .off
def execCqLaunch (d : DieId) (j : SlotNum) (s : State) := (evCqLaunch d j s).outcome s

/-- The copy of a COPY entry, by the copy engine of cluster (0,0) of the die, with RMODE and QMODE codes 0 (R293). -/
def runCqCopy (d : DieId) (j : SlotNum) (e : CqEntry) : Act Unit := do
  let g : Eng := {
    core := 1024 * d.toNat, actx := bitsOf e.words[2] 7 0, mode := .system, kind := 1, cls := 8 + j.toNat, loc := false, peer := false }
  let note := fun (n : Nat) => act fun s => s.updSlot d j fun e => some { e with pos := n }
  copyFrom g e.desc ⟨0, 0⟩ note (descTotal e.desc) (descTotal e.desc - e.pos) e.pos
/-- CQ_COPY: the engine takes the lines that the entry's copy writes (R240), and copies; an element that must wait keeps the place (R293,
R390), and the lines written for the last time leave EO. -/
def evCqCopy (d : DieId) (j : SlotNum) (s : State) : EvEnd :=
  match s.slotEntry d j 2 with
  | none => .off
  | some e =>
    let c := 1024 * d.toNat
    let actx := bitsOf e.words[2] 7 0
    let pos := fun (s : State) => (s.slotEntry d j 2).map (·.pos)
    if !e.begun then
      match s.ownLines c (8 + j.toNat) actx (copyLines e.desc 0) with
      | some s => .done (s.updSlot d j fun e => some { e with begun := true })
      | none => .off
    else match runCqCopy d j e s with
      | .ok _ s => .done ((s.entryDone d j).disown c (8 + j.toNat))
      | .error (.exc x) s' =>
        match s'.entryFault d j e x.code with
        | .off => if pos s' = pos s then .off else .done s'
        | r => r
      | .error .stall s' =>
        if pos s' = pos s then .off
        else .done (s'.keepOwn c (8 + j.toNat) actx (copyLines e.desc ((pos s').getD e.pos)))
      | .error (.fault f) _ => .fault f
def execCqCopy (d : DieId) (j : SlotNum) (s : State) := (evCqCopy d j s).outcome s
/-- The physical address of a SIGNAL or WAIT entry (R293), or the code of its fault. -/
def State.entryAddr (s : State) (d : DieId) (e : CqEntry) (acc : Acc) : State × Except Nat Nat :=
  let va := w64 (addr54 e.words[1])
  if va.toNat % 8 ≠ 0 then (s, .error 0x006)
  else match s.hardAddr d.toNat (bitsOf e.words[3] 15 8) .system va acc 0 with
    | (s, .error x) => (s, .error x.entryCode)
    | (s, .ok pa) =>
      let s := if acc = .store then s else s.seeErrors (spanOf pa 8)
      (s, if acc ≠ .store && poisonedAny s.poison (spanOf pa 8) then .error 0x080 else .ok pa)
/-- A SIGNAL's write or add at the home, after every earlier entry has completed (R293); a held line makes it wait. -/
def State.signalEntry (s : State) (d : DieId) (j : SlotNum) (e : CqEntry) (add : Bool) : EvEnd :=
  if !s.firstEntry e then .off
  else match s.entryAddr d e (if add then .atomic else .store) with
    | (s, .error c) => s.entryFault d j e c
    | (s, .ok pa) =>
      if s.dispWaits d.toNat pa || s.reds.any (fun r => r.loc / 128 = pa / 128) then .off
      else
        let v := if add then s.homeWord pa + e.words[2] else e.words[2]
        let w : Writer := ⟨1, 1024 * d.toNat, 0, s.node, sliceOf (w64 (addr54 e.words[1])), []⟩
        let s := (s.performBytes w (plainBytes pa (leBytes 8 v.toNat))).clearDead (paDie pa) pa
        .done (((s.clearDead d.toNat pa).dropLine d.toNat pa).entryDone d j)
/-- CQ_SIGNAL_WRITE: the value is written at the home (R293). -/
def evCqSignalWrite (d : DieId) (j : SlotNum) (s : State) : EvEnd :=
  match s.slotEntry d j 3 with | some e => if (e.words[3]).getLsbD 0 then .off else s.signalEntry d j e false | none => .off
def execCqSignalWrite (d : DieId) (j : SlotNum) (s : State) := (evCqSignalWrite d j s).outcome s
/-- CQ_SIGNAL_ADD: the value is added at the home (R293). -/
def evCqSignalAdd (d : DieId) (j : SlotNum) (s : State) : EvEnd :=
  match s.slotEntry d j 3 with | some e => if (e.words[3]).getLsbD 0 then s.signalEntry d j e true else .off | none => .off
def execCqSignalAdd (d : DieId) (j : SlotNum) (s : State) := (evCqSignalAdd d j s).outcome s
/-- CQ_WAIT: an acquire read at system scope finds the value at least the entry's (R293). -/
def evCqWait (d : DieId) (j : SlotNum) (s : State) : EvEnd :=
  match s.slotEntry d j 4 with
  | none => .off
  | some e =>
    match s.entryAddr d e .load with
    | (s, .error c) => s.entryFault d j e c
    | (s, .ok pa) =>
      if s.dispWaits d.toNat pa then .off
      else if s.reds.any (fun r => r.loc / 128 = pa / 128) || (s.homeWord pa).toNat < e.words[2].toNat then .off
      else .done ((s.acquireCopies d.toNat true).entryDone d j)
def execCqWait (d : DieId) (j : SlotNum) (s : State) := (evCqWait d j s).outcome s
/-- CQ_QBARRIER: every earlier entry of the queue has completed (R293). -/
def evCqQbarrier (d : DieId) (j : SlotNum) (s : State) : EvEnd :=
  match s.slotEntry d j 5 with | some e => if s.firstEntry e then .done (s.entryDone d j) else .off | none => .off
def execCqQbarrier (d : DieId) (j : SlotNum) (s : State) := (evCqQbarrier d j s).outcome s

/-- The latency of an entry is counted (R306). -/
def CmdQueue.count (x : CmdQueue) (enq now : Nat) : CmdQueue :=
  let l := (now % 2 ^ 48 + 2 ^ 48 - enq % 2 ^ 48) % 2 ^ 48
  let i := min 15 (l.log2 - x.lsh)
  { x with
    lmax := max x.lmax l
    hist := Vector.ofFn fun b => if b.val = i then (if x.hist[b] = BitVec.allOnes 32 then x.hist[b] else x.hist[b] + 1) else x.hist[b] }
/-- QUEUE_ENTRY_COMPLETION: an entry completes, frees its slot and is counted: a LAUNCH when its gangs are unplaced, a COPY when its
writes are visible (R293, R306). -/
def evQueueEntryCompletion (d : DieId) (j : SlotNum) (s : State) : EvEnd :=
  match (s.dieAt d.toNat).slots[j.toNat]'j.isLt with
  | none => .off
  | some e =>
    let ready : Bool := match entryType e.words with
      | 1 => (match e.launch with | some l => !s.gangs.any (·.2.launch = l) | none => false)
      | 2 => e.finished && s.visible (1024 * d.toNat) 1
      | _ => e.finished
    if !ready then .off
    else .done ((s.updSlot d j fun _ => none).updCq e.queue fun x => x.count e.enq s.time)
def execQueueEntryCompletion (d : DieId) (j : SlotNum) (s : State) := (evQueueEntryCompletion d j s).outcome s

end Sys2Proof.Machine
end

