-- ==== Sys2Proof/Machine/Debug.lean ====
section
/-!
DEFINITION. Iris signals at a core (14_debug.md R308 to R312, R321), the Facet counters (R315 to R317) and the Lens table's clearing
(R314).
-/
namespace Sys2Proof.Machine

/-! ### Iris -/

/-- A signal on its way between dies waits at a bridge that is not ready (R328); the management port's take no route of R16. -/
def State.signalWaits (s : State) (g : Signal) : Bool :=
  g.tsrc ≠ 2 && s.linkWaits (dieOf g.tcore) (dieOf g.core) && !s.linkFailed (dieOf g.tcore) (dieOf g.core)
/-- The next signal of a core, and the rest. -/
def State.takeSignal (s : State) (c : Nat) : Option (Signal × State) :=
  (s.signals.find? fun g => decide (g.core = c) && !s.signalWaits g).map fun g => (g, { s with signals := s.signals.erase g })
/-- A signal of a kind reaches a core, with what it does; one that meets a failed bridge is dropped (R388). -/
def State.onSignal (s : State) (c : CoreId) (op : Nat) (f : Signal → State → EvEnd) : EvEnd :=
  match s.takeSignal c.toNat with
  | some (g, s) =>
    if g.op ≠ op then .off
    else if g.tsrc ≠ 2 ∧ s.linkFailed (dieOf g.tcore) (dieOf g.core) then .done (s.dropPacket g.tcore (s.coreAt g.tcore).ctx.num)
    else f g s
  | none => .off
/-- The cores of a partition (R308). -/
def State.partitionCores (s : State) : Partition → List Nat
  | .gang g => s.gangCores g.toNat
  | .die d => (List.range 1024).map (1024 * d.toNat + ·)
  | .device => List.range 4096
/-- The management port sends a signal to a partition (R308, R311), with TSRC 2 and TCORE 0 (R310). -/
def State.portSignal (s : State) (p : Partition) (op : Nat) : EvEnd := .done (s.signal (s.partitionCores p) op 2 0)
/-- IRIS_HALT: the management port sends a halt, or a halt reaches a core (R308, R309, R312). -/
def evIrisHalt (g : IrisStep) (s : State) : EvEnd :=
  match g with
  | .port p => s.portSignal p 0
  | .arrival c => s.onSignal c 0 fun g s =>
    .done (s.haltCore c.toNat g.tsrc g.tcore g.ttime)
def execIrisHalt (g : IrisStep) (s : State) := (evIrisHalt g s).outcome s
/-- The store-buffer entries of the core in focus that can leave do so, in order. -/
def State.drainReady : Nat → State → State
  | 0, s => s
  | n + 1, s => if s.sbReady then s.sbLeave.drainReady n else s
/-- The input buffers of a core are released, in arrival order (R311): queued TCBs, and page-ready notices. -/
def State.releaseInput (s : State) (c : Nat) : State :=
  let k := s.coreAt c
  let s := (s.updCore c fun k => { k with taskq := k.taskq ++ k.inbox, inbox := [], notices := [] }).arrangeQueue c
  k.notices.foldl (fun s v => s.takeNotice c (v.extractLsb' 0 2) (v.getLsbD 2)) s
/-- IRIS_RESUME: the management port sends a resume, or a resume reaches a core (R311): a HALTED core drains its store buffer and
releases its input buffers; a STOPPING one returns to running. A resume of a cycle comes before a halt of it (R312). -/
def evIrisResume (g : IrisStep) (s : State) : EvEnd :=
  match g with
  | .port p => s.portSignal p 1
  | .arrival c =>
    if (s.coreAt c.toNat).haltAt = some s.time then .off
    else s.onSignal c 1 fun _ s =>
      let me := s.me
      let halted := (s.coreAt c.toNat).iris = .halted
      let s := s.updCore c.toNat fun k => { k with iris := .running }
      .done ((if halted then ((s.focus c).drainReady 16).focus me else s).releaseInput c.toNat)
def execIrisResume (g : IrisStep) (s : State) := (evIrisResume g s).outcome s
/-- IRIS_SNAPSHOT: the management port asks for a snapshot, or a core latches without a change of its state (R321) or of what Lens does
(log 92); one that is STOPPING or HALTED keeps its snapshot (R312). -/
def evIrisSnapshot (g : IrisStep) (s : State) : EvEnd :=
  match g with
  | .port p => s.portSignal p 2
  | .arrival c => s.onSignal c 2 fun g s =>
    let c := c.toNat
    if (s.coreAt c).iris ≠ .running then .done s
    else .done ((s.latchFacet c g.tsrc g.tcore g.ttime).updCore c fun k => k.latch c (s.cycleOf c) s.time g.tsrc g.tcore g.ttime)
def execIrisSnapshot (g : IrisStep) (s : State) := (evIrisSnapshot g s).outcome s

/-! ### Facet -/

/-- OP of a counter (R316). -/
def Facet.op (f : Facet) : Nat := bitsOf f.cfg 62 60
/-- A bin counts, saturating at 32 bits. -/
def Facet.bump (f : Facet) (i : Nat) : Facet :=
  { f with hist := Vector.ofFn fun j => if j.val = i then w64 (min (f.hist[j].toNat + 1) (2 ^ 32 - 1)) else f.hist[j] }
/-- The bin of a high run of `d` cycles (R317): the bounds B1 to B7 that it reaches. -/
def Facet.binOf (f : Facet) (d : Nat) : Nat :=
  ((List.range 7).filter fun i => decide (bitsOf (f.bnd.toList.getD (i / 4) 0) (16 * (i % 4) + 15) (16 * (i % 4)) ≤ d)).length
/-- A window of OP 3 ends: it counts when A was high at least THR cycles, and the next begins. -/
def Facet.endWindow (f : Facet) : Facet :=
  { f with
    cnt := if bitsOf f.cfg 15 0 ≤ f.run then f.cnt + 1 else f.cnt
    run := 0, left := bitsOf f.cfg 31 16 }
/-- One cycle of a counter with its signals A and B (R316, R317). -/
def Facet.sample (f : Facet) (a b : Bool) : Facet :=
  if !f.cfg.getLsbD 63 then f
  else
    let c := fun (p : Bool) => if p then f.cnt + 1 else f.cnt
    match f.op with
    | 0 => { f with cnt := c a }
    | 1 => { f with cnt := c (a && b) }
    | 2 => { f with cnt := c (a && decide (f.run = 0)), run := if a then 1 else 0 }
    | 3 =>
      let f := if f.left = 0 then f.endWindow else f
      { f with run := if a then f.run + 1 else f.run, left := f.left - 1 }
    | 4 =>
      if a then { f with run := f.run + 1 }
      else if f.run = 0 then f
      else { (f.bump (f.binOf f.run)) with cnt := f.cnt + 1, run := 0 }
    | _ => f
/-- `n` cycles of a counter, from cycle `j` on, with the signals high in each. -/
def Facet.cycles (sig : Nat → Nat → Bool) : Nat → Nat → Facet → Facet
  | 0, _, f => f
  | n + 1, j, f => Facet.cycles sig n (j + 1) (f.sample (sig j (bitsOf f.cfg 59 53)) (sig j (bitsOf f.cfg 52 46)))
/-- FCFG_WRITE: a write of a configuration clears the counter and its histogram; one with a reserved OP, or with WIN 0 under OP 3, is
ignored (R316). -/
def evFcfgWrite (k : ClusterId) (n : BitVec 4) (v : Word) (s : State) : EvEnd :=
  let op := bitsOf v 62 60
  if 5 ≤ op ∨ (op = 3 ∧ bitsOf v 31 16 = 0) then .done s
  else
    let fresh := fun (f : Facet) =>
      { f with cfg := setBits v 45 32 0, cnt := 0, hist := Vector.replicate 8 0, run := 0, left := bitsOf v 31 16 }
    .done (s.updCluster k.toNat fun x => { x with facet := x.facet.set n.toNat (fresh (x.facet[n.toNat]'n.isLt)) n.isLt })
def execFcfgWrite (k : ClusterId) (n : BitVec 4) (v : Word) (s : State) := (evFcfgWrite k n v s).outcome s
/-- FACET_WINDOW_END: an OP 3 window has run its cycles (R316). -/
def evFacetWindowEnd (k : ClusterId) (n : BitVec 4) (s : State) : EvEnd :=
  let f := (s.clusterAt k.toNat).facet[n.toNat]'n.isLt
  if !f.cfg.getLsbD 63 ∨ f.op ≠ 3 ∨ f.left ≠ 0 then .off
  else .done (s.updCluster k.toNat fun x => { x with facet := x.facet.set n.toNat (x.facet[n.toNat]'n.isLt).endWindow n.isLt })
def execFacetWindowEnd (k : ClusterId) (n : BitVec 4) (s : State) := (evFacetWindowEnd k n s).outcome s

/-! ### Lens -/

/-- LENS_CLEAR: every entry returns to its reset value (R314). -/
def evLensClear (c : CoreId) (s : State) : EvEnd :=
  .done (s.updCore c.toNat fun k => { k with lens := [], lensOver := ⟨0, 0, 0, 0, 0⟩ })
def execLensClear (c : CoreId) (s : State) := (evLensClear c s).outcome s

end Sys2Proof.Machine
end

