-- ==== Sys2Proof/Machine/Platform.lean ====
section
/-!
DEFINITION. Bring-up and failures of the package: ready bits (15_platform.md R327, R328), the signed boot, identity and attestation
(R329 to R332, R394), links and Wifort (23_faults_system.md R387 to R389), the scrubber and soft errors (R381 to R384), warm reset
(R393, R396) and the loss of power (R395).
-/
namespace Sys2Proof.Machine

/-! ### Ready bits (R327, R328) -/

/-- The die across a bridge (R7, R16): bridge 0 N, 1 E, 2 S, 3 W; none at the package edge. -/
def dieAcross (d b : Nat) : Option Nat :=
  match b with
  | 0 => if 2 ≤ d then some (d - 2) else none
  | 1 => if d % 2 = 0 then some (d + 1) else none
  | 2 => if d < 2 then some (d + 2) else none
  | _ => if d % 2 = 1 then some (d - 1) else none
/-- Set or clear a bit. -/
def putBit (x : Word) (i : Nat) (v : Bool) : Word := if v then x ||| (1 <<< i) else x &&& ~~~((1 : Word) <<< i)
/-- A ready bit of a die, and UP of a bridge with it (R387). -/
def Die.setReady (x : Die) (bit : Nat) (v : Bool) : Die :=
  let y := { x with rdy := putBit x.rdy bit v }
  if 20 ≤ bit ∧ bit < 24 then { y with lnkst := Vector.ofFn fun k => if k.val = 23 - bit then putBit y.lnkst[k] 62 v else y.lnkst[k] }
  else y
/-- A function that no ready bit of a die stands for, or whose bit stays 0: reserved bits, an edge bridge, an absent channel (R327). -/
def neverReady (d i : Nat) : Bool :=
  decide (16 ≤ i ∧ i < 19) || (decide (20 ≤ i ∧ i < 24) && (dieAcross d (23 - i)).isNone) ||
    (decide (24 ≤ i ∧ i < 32) && !Config.gddrPresent (8 * d + (i - 24)))
/-- Die `n`'s bridge `back` toward a die in warm reset is trained again: its retraining is counted, and it is up (R387, R393). -/
def State.trainAcross (s : State) (n back : Nat) : State :=
  let w := fun (v : Word) => putBit (setBits v 47 32 (min (bitsOf v 47 32 + 1) (2 ^ 16 - 1))) 63 false
  s.updDie n fun x =>
    ({ x with lnkst := Vector.ofFn fun k => if k.val = back then w x.lnkst[k] else x.lnkst[k] }).setReady (23 - back) true
/-- FUNCTION_READY: a function has tested itself or trained, and sets its bit (R328): not one that never is, a bridge that has failed or a
lane that fails its training. In a warm reset the bits rise in its last step, and a bridge with its other end (R393). -/
def evFunctionReady (f : FunctionId) (s : State) : EvEnd :=
  let d := f.die.toNat
  let i := f.bit.toNat
  let x := s.dieAt d
  let resets := x.resetting.isSome
  if !s.released || (resets && x.resetting ≠ some 6) || x.rdy.getLsbD i || neverReady d i then .off
  else if i < 16 then
    (if Config.laneTrains s.fv then .done (s.useFree.updDie d (·.setReady i true)) else .done s.useFree)
  else if 20 ≤ i ∧ i < 24 ∧ (x.lnkst.toList.getD (23 - i) 0).getLsbD 63 then .off
  else
    let s := s.updDie d (·.setReady i true)
    .done (match resets && decide (20 ≤ i ∧ i < 24), dieAcross d (23 - i) with
      | true, some n => s.trainAcross n ((23 - i + 2) % 4)
      | _, _ => s)
def execFunctionReady (f : FunctionId) (s : State) := (evFunctionReady f s).outcome s
/-- FUNCTION_FAIL: a function fails and its bit clears (R328). -/
def evFunctionFail (f : FunctionId) (s : State) : EvEnd :=
  if !(s.dieAt f.die.toNat).rdy.getLsbD f.bit.toNat then .off
  else .done (s.updDie f.die.toNat (·.setReady f.bit.toNat false))
def execFunctionFail (f : FunctionId) (s : State) := (evFunctionFail f s).outcome s

/-! ### Links (R387 to R389) -/

/-- A link status word after a retraining (R387): RETRAIN and REPLAY count, saturating; a failure sets FAIL and clears UP (R388). -/
def linkWord (w : Word) (replays : Nat) (ok : Bool) : Word :=
  let w := setBits w 47 32 (min (bitsOf w 47 32 + 1) (2 ^ 16 - 1))
  let w := setBits w 31 0 (min (bitsOf w 31 0 + replays) (2 ^ 32 - 1))
  if ok then w else putBit (putBit w 63 true) 62 false
/-- LINK_RETRAIN: a bridge of a die retrains and replays its flits (R387); after 8 failed attempts it has failed (R388). -/
def evLinkRetrain (d : DieId) (b : BitVec 2) (s : State) : EvEnd :=
  if !(s.dieAt d.toNat).rdy.getLsbD (23 - b.toNat) then .off
  else
    let ok := Config.linkTrains s.fv
    let n := Config.replayed s.fv
    .done (s.useFree.updDie d.toNat fun x =>
      let y := { x with lnkst := Vector.ofFn fun k => if k.val = b.toNat then linkWord x.lnkst[k] n ok else x.lnkst[k] }
      if ok then y else { y with rdy := putBit y.rdy (23 - b.toNat) false })
def execLinkRetrain (d : DieId) (b : BitVec 2) (s : State) := (evLinkRetrain d b s).outcome s
/-- WIFORT_REPLAY: the write-throughs and reductions of a die to other nodes that have not been acknowledged for 4096 cycles are sent again;
after 8 replays one is answered by a link error, and is kept (R386, R388, R389). Loads and atomics get their answer where they issue (log 9). -/
def evWifortReplay (d : DieId) (s : State) : EvEnd :=
  let due := fun (die sent : Nat) (held : Bool) => die = d.toNat && !held && decide (sent + 4096 ≤ s.time)
  let lateW := fun (w : WriteThrough) => due w.die w.sent w.held && w.bytes.any fun b => paNode b.loc ≠ s.node
  let lateR := fun (r : PendingRed) => due r.die r.sent r.held && decide (paNode r.loc ≠ s.node)
  if !s.wts.any lateW && !s.reds.any lateR then .off
  else .done { s with
    wts := s.wts.map fun w => if lateW w then { w with sent := s.time, tries := w.tries + 1, held := decide (8 ≤ w.tries) } else w
    reds := s.reds.map fun r => if lateR r then { r with sent := s.time, tries := r.tries + 1, held := decide (8 ≤ r.tries) } else r }
def execWifortReplay (d : DieId) (s : State) := (evWifortReplay d s).outcome s
/-- WIFORT_LANE_FAIL: a lane fails training, and its WF bit clears (R389). -/
def evWifortLaneFail (d : DieId) (j : BitVec 4) (s : State) : EvEnd :=
  if !(s.dieAt d.toNat).rdy.getLsbD j.toNat then .off else .done (s.updDie d.toNat (·.setReady j.toNat false))
def execWifortLaneFail (d : DieId) (j : BitVec 4) (s : State) := (evWifortLaneFail d j s).outcome s
/-- The function of a Wifort atomic on its old value (R159). -/
def wifortAtomic (fn : AtomicFn) (w : MemW) (old : Nat) (b c : Word) : Option Nat :=
  let n := match w with | .w32 => 32 | .w64 => 64
  RmwFn.apply fn n old (b.toNat % 2 ^ n) (c.toNat % 2 ^ n)
/-- The address of a Wifort request. -/
def wifortPa (rq : WifortAccess) : Nat :=
  match rq with
  | .read a _ => a.toNat
  | .write a _ => a.toNat
  | .atomic a _ _ _ _ => a.toNat
/-- WIFORT_REQUEST: a request of another node or the host for a home here (R389). A read finds the errors of the units it takes; a
write or an atomic performs at the home at system scope, after the reductions accepted for its line (R160, R391). One for a home that
is unavailable, as on a die in warm reset from its step 4 on (R386, R393), or for a line that a task or an engine word holds, has no effect
yet. -/
def evWifortRequest (rq : WifortRequest) (s : State) : EvEnd :=
  let pa := wifortPa rq.access
  let d := paDie pa
  let w : Writer := ⟨8, rq.core.toNat, 0, rq.node.toNat, sliceOf (w64 pa), []⟩
  if paNode pa ≠ s.node || !s.homeReady d pa || (s.dieAt d).closed || !([Region.nearSram, .gddr].contains (regionOf pa)) then .off
  else if s.heldAtHome pa 0 || s.engineOwned d pa || s.reds.any (fun r => r.loc / 128 = pa / 128) then .off
  else match rq.access with
    | .read _ n => .done (s.seeErrors (spanOf pa n.toNat))
    | .write _ bs =>
      if pa / 128 ≠ (pa + bs.length - 1) / 128 then .off else .done ((s.performBytes w (plainBytes pa bs)).clearDead d pa)
    | .atomic _ fn sz b c =>
      let n := memBytes sz
      if pa % n ≠ 0 then .off
      else
        let s := s.seeErrors (spanOf pa n)
        if poisonedAny s.poison (spanOf pa n) then .done s
        else match wifortAtomic fn sz (natOfBytes ((spanOf pa n).map s.homeByte)) b c with
          | some x => .done ((s.performBytes w (plainBytes pa (leBytes n x))).clearDead d pa)
          | none => .done (s.clearDead d pa)
def execWifortRequest (rq : WifortRequest) (s : State) := (evWifortRequest rq s).outcome s

/-! ### Errors (R381 to R384) -/

/-- The line that the scrubber of a die reads at its place `n`, and the place after it (R384): the 2^24 lines of near SRAM, then the lines that
the slices hold dirty, both in ascending order; a clean slice line loses its errors where they come up (log 16). -/
def State.scrubLine (s : State) (d n : Nat) : Nat × Nat :=
  let base := 2 ^ 33 * s.node + 2 ^ 31 * d
  if n < 2 ^ 24 then (base + n, n + 1)
  else match ((s.dirty.map (·.1 / 128)).filter fun l => decide (base + (n - 2 ^ 24) ≤ l) && paDie (128 * l) = d && paNode (128 * l) = s.node).min? with
    | some l => (l, 2 ^ 24 + (l - base) + 1)
    | none => (base, 1)
/-- SCRUB_TICK: the scrubber of a die reads its next line and finds its errors (R382, R384). -/
def evScrubTick (d : DieId) (s : State) : EvEnd :=
  let x := s.dieAt d.toNat
  if !x.scrub.getLsbD 63 ∨ s.time < x.scrubTime + max 64 (bitsOf x.scrub 31 0) then .off
  else
    let (l, n) := s.scrubLine d.toNat x.scrubAt
    .done ((s.seeRange (128 * l) 128).updDie d.toNat fun x => { x with scrubAt := n, scrubTime := s.time })
def execScrubTick (d : DieId) (s : State) := (evScrubTick d s).outcome s
/-- An error of a register of a context (R381, R382): counted, and an uncorrectable one marks the register. -/
def State.regError (s : State) (c : CoreId) (n : CtxNum) (r : RegName) (unc : Bool) : State :=
  let s := s.updDie (dieOf c.toNat) (·.count unc 8 0)
  if unc then s.updCore c.toNat fun k => k.updCtx n fun x => { x with bad := r :: x.bad.filter (· ≠ r) } else s
/-- A location of a memory the device has: physical, or of a TCM, a scratchpad, a side memory or an accumulator. -/
def memoryLoc (l : Nat) : Bool :=
  if isPhys l then (match regionOf l with | .nearSram | .gddr => true | _ => false)
  else decide (l < 2 ^ 52 + 2 ^ 29) || decide (2 ^ 53 ≤ l ∧ l < 2 ^ 53 + 2 ^ 29) || decide (2 ^ 54 ≤ l ∧ l < 2 ^ 54 + 2 ^ 26) ||
    decide (2 ^ 55 ≤ l ∧ l < 2 ^ 55 + 2 ^ 24)
/-- The unit of a location has an error, which a read or the scrubber will find. -/
def State.flipAt (s : State) (l : Nat) (unc : Bool) : State :=
  { s with flips := (unitOf l, unc || s.flips.any (·.1 = unitOf l)) :: s.flips.filter (·.1 ≠ unitOf l) }
/-- An error of a clean copy (R382): counted as corrected; `lose` discards the copy where the code cannot correct it. -/
def State.cleanError (s : State) (d : Nat) (unc : Bool) (lose : State → State) : State :=
  let s := s.updDie d (·.count false 0 0)
  if unc then lose s else s
/-- A die's slices hold a line: it is homed there, or they have a copy of it. -/
def State.sliceHolds (s : State) (d l : Nat) : Bool :=
  isPhys l && (decide (paDie l = d ∧ paNode l = s.node) || (s.dieAt d).copies.any fun c => decide (c.1 / 128 = l / 128))
/-- A die is the home of a location whose sector, or line, its slices hold dirty. -/
def State.sliceDirty (s : State) (d size l : Nat) : Bool := decide (paDie l = d ∧ paNode l = s.node) && s.dirtyIn size l
/-- An uncorrectable tag or directory error of a dirty line poisons its four sectors at once (R382). -/
def State.tagError (s : State) (d l : Nat) : State :=
  let us := (List.range 4).map fun i => l / 128 * 128 + 32 * i
  let s := s.updDie d (·.count true 4 (l / 128 * 128))
  { s with poison := us ++ s.poison.filter (!us.contains ·), flips := s.flips.filter fun f => !us.contains f.1 }
/-- A queued engine word is held for an uncorrectable error in it (R381). -/
def Core.holdAt (k : Core) (q i : Nat) : Core :=
  let bad := fun (w : EWord) => { w with st := .held 0x080 0 (16 * 10 + q) 0 false }
  { k with queues := Vector.ofFn fun j => if j.val = q then (k.queues[j]).modify i bad else k.queues[j] }
/-- SOFT_ERROR: a stored bit flips (R382): a memory's unit, or a dirty slice sector, keeps the error until a read or the scrubber finds it;
a register is marked; a queued engine word is held with code 0x080; a clean copy (L1 line, slice line, TLB entry, scale-cache sector) is
discarded and counted as corrected. DESIGN CHOICE: a hot-line array, for which R382 gives no action, loses nothing that a program sees and
counts its uncorrectable errors with SRC 5 (log 114). -/
def evSoftError (site : ErrorSite) (s : State) : EvEnd :=
  match site with
  | .memory l unc =>
    if memoryLoc l then .done (s.flipAt l unc) else .off
  | .l1 c i unc =>
    let d := dieOf c.toNat
    match ((s.dieAt d).l1.filter (·.core = c.toNat))[i]? with
    | some e => .done (s.cleanError d unc (·.updDie d fun x => { x with l1 := x.l1.erase e }))
    | none => .off
  | .tlb d i unc =>
    if i < (s.dieAt d.toNat).tlb.length then
      .done (s.cleanError d.toNat unc (·.updDie d.toNat fun x => { x with tlb := x.tlb.eraseIdx i }))
    else .off
  | .slice d l unc =>
    if !s.sliceHolds d.toNat l then .off
    else if s.sliceDirty d.toNat 32 l then .done (s.flipAt l unc)
    else .done (s.cleanError d.toNat unc (·.loseClean d.toNat l))
  | .tag d l unc =>
    if !s.sliceHolds d.toNat l then .off
    else if unc && s.sliceDirty d.toNat 128 l then .done (s.tagError d.toNat l)
    else .done (s.cleanError d.toNat unc (·.loseClean d.toNat l))
  | .hotLine d unc => .done (s.updDie d.toNat (·.count unc 5 0))
  | .scale p second i unc =>
    let j : Fin 2 := if second then 1 else 0
    if i < (s.prismAt p.toNat).scale[j].length then
      .done (s.cleanError (p.toNat / 2048) unc (·.updPrism p.toNat fun x =>
        { x with scale := Vector.ofFn fun k => if k = j then x.scale[k].eraseIdx i else x.scale[k] }))
    else .off
  | .sreg c x r unc => if r = 0 then .off else .done (s.regError c x (.s r) unc)
  | .vreg c x r unc => .done (s.regError c x (.v r) unc)
  | .mreg c x r unc => if r = 0 then .off else .done (s.regError c x (.m r) unc)
  | .csr c x r unc => .done (s.regError c x (.csr r) unc)
  | .word c q i unc =>
    let q := queueCode q
    match ((s.coreAt c.toNat).queue q)[i]? with
    | none => .off
    | some w =>
      if w.st == .queued then
        (if unc then .done ((s.updDie (dieOf c.toNat) (·.count true 10 0)).updCore c.toNat (·.holdAt q i))
         else .done (s.updDie (dieOf c.toNat) (·.count false 10 0)))
      else .off
def execSoftError (site : ErrorSite) (s : State) := (evSoftError site s).outcome s

/-! ### Boot, identity and attestation (R329 to R332, R394) -/

/-- `n` bytes of SHAKE256 over a byte string. -/
def shake (n : Nat) (m : List Byte) : List Byte := (List.range n).map (Config.shakeByte m)
/-- Bytes of an ASCII string. -/
def ascii (t : String) : List Byte := t.toList.map fun c => BitVec.ofNat 8 c.toNat
/-- `n` bytes of the flash. -/
def State.flashBytes (s : State) (a n : Nat) : List Byte := (spanOf a n).map s.flash.read
/-- Where the two images lie (R394). -/
def imageAt (i : Nat) : Nat := if i = 0 then 0 else 0x4000000
/-- The body of an image. -/
def State.imageBody (s : State) (a : Nat) : List Byte := s.flashBytes (a + 29872) (natOfBytes (s.flashBytes (a + 8) 8))
/-- BSTAT of an image (R329, R394). -/
def State.imageStatus (s : State) (i : Nat) : Nat :=
  let a := imageAt i
  let key := s.flashBytes (a + 16) 64
  let len := natOfBytes (s.flashBytes (a + 8) 8)
  if !Config.flashReads i then 1
  else if natOfBytes (s.flashBytes a 8) ≠ 0x4B56594200000001 ∨ len = 0 ∨ 29872 + len > 0x4000000 then 2
  else if shake 32 key ≠ Config.romDigest then 3
  else
    let body := s.imageBody a
    if !Config.slhVerify key (shake 64 body) (ascii "KV-YLD-BOOT") (s.flashBytes (a + 80) 29792) then 4
    else if !Config.bootValid body then 5 else 0
/-- A die's registers as the boot image sets them (R326, R329, R330). -/
def bootDie (body : List Byte) (d : Nat) : Die :=
  let w := fun (i : Nat) => Config.bootWord body (100 + 100 * d + i)
  let page := fun (i : Nat) => w64 (bitsOf (w i) 51 12 * 2 ^ 12)
  { Die.reset with
    actb := page 0, pscore := w64 (bitsOf (w 1) 9 0), hcsb := page 2, hcsn := w64 (bitsOf (w 3) 19 0), savb := page 4, ovfb := page 5
    ovfn := w64 (bitsOf (w 6) 15 0), csavb := page 7
    plim := Vector.ofFn fun i => w64 (bitsOf (w (8 + i.val)) 31 0)
    rbud := Vector.ofFn fun i => w64 (bitsOf (w (24 + i.val)) 15 0) }
/-- A core as boot leaves it: TVEC of each context (R329). -/
def bootCore (body : List Byte) (c : Nat) : Core :=
  let tvec := fun (x : Ctx) => { x with tvec := w64 (bitsOf (Config.bootWord body (1000 + 4 * c + x.num.toNat)) 53 2 * 4) }
  { Core.reset with ctx := tvec Core.reset.ctx, rest := Core.reset.rest.map tvec }
/-- The seeds of the identity key (R331), and its public key. -/
def bootSeeds (body : List Byte) : List Byte := shake 96 (Config.pufCorrected 0 body)
@[inherit_doc bootSeeds] def idKey (seeds : List Byte) : List Byte := (List.range 64).map (Config.slhKeyByte seeds)
/-- Eight words of 64 bytes. -/
def wordsOf (bs : List Byte) : Vector Word 8 := Vector.ofFn fun i => w64 (natOfBytes ((bs.drop (8 * i.val)).take 8))
/-- The attestation report for a nonce (R332). -/
def State.report (s : State) (seeds : List Byte) (nonce : BitVec 256) : List Byte :=
  let ws := fun (l : List Word) => l.flatMap fun w => leBytes 8 w.toNat
  let front := leBytes 32 nonce.toNat ++ ws s.boothash.toList ++ ws s.idpk.toList ++ ws (s.dies.toList.map (·.rdy) ++ [s.mgmt]) ++
    leBytes 8 (s.time % 2 ^ 48) ++ List.replicate 32 0
  front ++ (List.range 49856).map (Config.slhSignByte seeds (shake 64 front) (ascii "KV-YLD-ATT"))
/-- ATTESTATION_REQUEST: the management die answers with a signed report, or keeps the request until ATT rises (R332). -/
def evAttestationRequest (nonce : BitVec 256) (s : State) : EvEnd :=
  match s.image with
  | some a =>
    if s.mgmt.getLsbD 2 then .done { s with reports := s.reports ++ [s.report (bootSeeds (s.imageBody a)) nonce] }
    else .done { s with attq := s.attq ++ [nonce] }
  | none => .done { s with attq := s.attq ++ [nonce] }
def execAttestationRequest (nonce : BitVec 256) (s : State) := (evAttestationRequest nonce s).outcome s
/-- GSQMAP as GCMAP gives it (R21, R22): a square is good when at most 2 of its 64 cores are bad. -/
def goodSquares (gcmap : Nat → Word) : Word :=
  let good := fun (d x y : Nat) => (gcmap (16 * d + y / 2)).getLsbD (32 * (y % 2) + x)
  let bad := fun (q : Nat) => ((List.range 64).filter fun i =>
    !good (q / 16) (8 * (q % 16 % 4) + i % 8) (8 * (q % 16 / 4) + i / 8)).length
  (List.range 64).foldl (fun w q => putBit w q (decide (bad q ≤ 2))) 0
/-- The compute dies are configured from an accepted image and released (R329, R331). -/
def State.bootFrom (s : State) (a : Nat) : State :=
  let body := s.imageBody a
  let seeds := bootSeeds body
  let w := Config.bootWord body
  let s := { s with
    core := bootCore body s.me.toNat
    others := ((List.range 4096).filter (· ≠ s.me.toNat)).map fun c => (c, bootCore body c)
    dies := Vector.ofFn fun d => bootDie body d.val
    gcmap := Vector.ofFn fun i => w i.val
    gsqmap := goodSquares w, node := bitsOf (w 65) 11 0
    boothash := wordsOf (shake 64 body), idpk := wordsOf (idKey seeds)
    mgmt := 7, released := true, image := some a }
  { s with reports := s.reports ++ s.attq.map (s.report seeds), attq := [] }
/-- POWER_ON_BOOT: the management die tries the first image and then the second (R329, R394); when both fail, only PORT rises. -/
def evPowerOnBoot (s : State) : EvEnd :=
  if s.booted then .off
  else
    let a := s.imageStatus 0
    let b := s.imageStatus 1
    let s := { s with booted := true }
    if a = 0 then .done ({ s with bstat := w64 (8 * (Config.untried s.fv % 8)), fv := s.fv + 1 }.bootFrom (imageAt 0))
    else
      let s := { s with bstat := w64 (8 * b + a) }
      .done (if b = 0 then s.bootFrom (imageAt 1) else { s with mgmt := 1 })
def execPowerOnBoot (s : State) := (evPowerOnBoot s).outcome s

/-- THERMAL_SHUTDOWN: at 115 °C, or on loss of coolant flow, the compute dies lose power and all their state (R395). -/
def evThermalShutdown (s : State) : EvEnd := if s.released then .done s.powerOff else .off
def execThermalShutdown (s : State) := (evThermalShutdown s).outcome s

/-! ### Warm reset (R393, R396) -/

/-- A core loses all that a gang has on it (R393); one of the gang's own returns to running, but for those of die `d`. -/
def Core.endGang (k : Core) (g : Nat) (runs : Bool) : Core :=
  let here := decide (k.image.map (·.gang) = some g)
  let free := fun (x : Ctx) => if !here && !(decide (x.st ≠ .free) && x.tcb.gang = g) then x else { x with
    st := .free, task := 0, lens := none, win := [], absorb := [], sets := [], log := [], outbox := [], lockWait := []
    restartMark := false, excMode := false, reporting := false, wfeOn := false, woke := false }
  let k := { k with
    ctx := free k.ctx, rest := k.rest.map free, taskq := k.taskq.filter (·.tcb.gang ≠ g), inbox := k.inbox.filter (·.tcb.gang ≠ g)
    queues := k.queues.map fun (q : List EWord) => q.filter (·.gang ≠ g) }
  if !here then k
  else { k with recq := [], pendUp := none, image := none, preempt := false, waiting := false, iris := if runs then .running else k.iris }
/-- All of a gang is ended (R393): contexts, queued TCBs, engine words and what they have under way are discarded on every die; its
clusters and power units are returned, and its halted cores on other dies than `d` run on. -/
def State.endGang (s : State) (g d : Nat) : State :=
  let cs := s.boundCores g
  let tasks := (s.liveCores.flatMap fun c => (s.coreAt c).ctxs.filter fun x => decide (x.st ≠ .free) && x.tcb.gang = g).map (·.task) ++
    s.dies.toList.flatMap fun y => (y.saved.filter (·.gang = g)).map (·.ctx.task)
  let s := s.liveCores.foldl (fun (s : State) c => (s.updCore c (·.endGang g (dieOf c ≠ d))).arrangeQueue c) s
  let s := match s.gang? g with | some x => s.dropUnits x.units | none => s
  { s with
    clusters := s.clusters.map fun (p : Nat × Cluster) => (p.1, { p.2 with
      claim := if p.2.claim = some g then none else p.2.claim, kick := p.2.kick.filter fun n => !cs.contains n.snd.toNat })
    dies := s.dies.map fun (y : Die) => { y with
      saved := y.saved.filter (·.gang ≠ g), ordered := y.ordered.filter (·.tcb.gang ≠ g)
      locks := y.locks.filter fun l => !tasks.contains l.task, eo := y.eo.filter fun e => decide (8 ≤ e.2.2) || !cs.contains e.2.1 }
    decs := s.decs.filter (·.gang ≠ g), net := s.net.filter fun m => m.tcb.gang ≠ g ∧ m.gang ≠ g
    acks := s.acks.filter fun a => !cs.contains a.snd
    susp := s.susp.filter (·.gang ≠ g), suspClusters := s.suspClusters.filter (·.gang ≠ g), gangs := s.gangs.filter (·.1 ≠ g) }
/-- A bit of the WRLOG bitmap is set (R396). -/
def State.markGang (s : State) (base g : Nat) : State :=
  let a := base + 8 * (g / 64)
  s.writeWords a [s.homeWord a ||| (1 <<< (g % 64))]
/-- Write-throughs that can reach their homes arrive, in order. -/
def State.arriveAll (p : WriteThrough → Bool) : Nat → State → State
  | 0, s => s
  | n + 1, s =>
    match s.wts.findIdx? fun w => p w && w.bytes.all fun b => s.reachable w.die b.loc with
    | none => s
    | some i => (s.arrive i).arriveAll p n
/-- All entries of a core's store buffer leave. -/
def State.drainCore (s : State) (c : Nat) : State :=
  let es := (s.coreAt c).sb
  es.foldl (fun (s : State) e => s.leave c e) (s.updCore c fun k => { k with sb := [] })
/-- The logic and the local memories of die `d` are reset; near SRAM and GDDR-7 stay (R393, step 6). -/
def State.resetDie (s : State) (d : Nat) : State :=
  let lost := fun (l : Nat) => !isPhys l && decide (dieOfLoc l = d)
  let body := (s.image.map s.imageBody).getD []
  let fresh := if s.image.isSome then bootCore body else fun _ => Core.reset
  let old := s.dieAt d
  let kept : Die := { (if s.image.isSome then bootDie body d else Die.reset) with
    resetting := old.resetting, resetBy := old.resetBy, resetTime := s.time
    frontAt := s.time / 64, focusAt := s.time / 1024 }
  let others := (s.others.filter fun p => decide (dieOf p.1 ≠ d)) ++
    (if s.image.isSome then (((List.range 1024).map (1024 * d + ·)).filter (· ≠ s.me.toNat)).map fun c => (c, fresh c) else [])
  { s.updDie d fun _ => kept with
    core := if dieOf s.me.toNat = d then fresh s.me.toNat else s.core
    others := others.foldl (fun l p => putKey p.1 p.2 l) []
    clusters := s.clusters.filter fun p => p.1 / 256 ≠ d
    prisms := s.prisms.filter fun p => p.1 / 2048 ≠ d
    mem := s.mem.filter fun p => !lost p.1
    dirty := s.dirty.filter fun p => paDie p.1 ≠ d
    poison := s.poison.filter (!lost ·), flips := s.flips.filter fun f => !lost f.1
    wts := s.wts.filter (·.die ≠ d), reds := s.reds.filter (·.die ≠ d)
    signals := s.signals.filter fun g => dieOf g.core ≠ d, refused := s.refused.filter fun r => dieOf r.core ≠ d
    decs := s.decs.filter fun r => dieOf r.core ≠ d, acks := s.acks.filter fun a => dieOf a.snd ≠ d ∧ dieOf a.sender ≠ d
    net := s.net.filter fun m => dieOf m.src ≠ d ∧ dieOf m.dst ≠ d }
/-- The dirty bytes of the slices of die `d` go to their memory. -/
def State.flushDie (s : State) (d : Nat) : State :=
  let (now, keep) := s.dirty.partition fun c => paDie c.1 = d
  { s with dirty := keep, mem := now.foldl (fun m c => m.write c.1 c.2) s.mem }
/-- Every function of a die in warm reset that can be ready is (R393, step 7); a lane may fail its training. -/
def State.allReady (s : State) (d : Nat) : Bool :=
  (List.range 64).all fun i => decide (i < 16) || neverReady d i || (s.dieAt d).rdy.getLsbD i
/-- WARM_RESET: the next step of the reset of a die (R393). -/
def evWarmReset (d : DieId) (s : State) : EvEnd :=
  let d := d.toNat
  let x := s.dieAt d
  let at_ := fun (s : State) (n : Nat) => s.updDie d fun x => { x with resetting := some n }
  match x.resetting with
  | none => .off
  | some 0 =>
    let gs := (s.gangs.map (·.1)).filter fun g => (s.boundCores g).any fun c => dieOf c = d
    let (tsrc, tcore) := match x.resetBy.2 with | some c => (3, c.toNat) | none => (2, 0)
    let cs := (gs.flatMap fun g => s.gangCores g).eraseDups
    .done (((s.signal cs 0 tsrc tcore).updDie d fun x => { x with resetGangs := gs, resetting := some 1 }))
  | some 1 =>
    -- the cores are halted, but for those a failed bridge kept the halt from (R388); then the store buffers and slices of the die drain
    let cs := x.resetGangs.flatMap s.boundCores
    if (s.signals.any fun g => cs.contains g.core) || cs.any (fun c => (s.coreAt c).iris = .stopping) then .off
    else
      let s := (s.liveCores.filter fun c => dieOf c = d).foldl State.drainCore s
      let s := (s.reds.filter fun r => r.die = d || paDie r.loc = d).foldl (fun (s : State) r =>
        if s.reachable r.die r.loc && paNode r.loc = s.node then s.applyReds r.die (r.loc / 128) else s) s
      let s := s.arriveAll (fun w => w.die = d || w.home = d) s.wts.length
      .done (at_ (s.flushDie d) 2)
  | some 2 =>
    -- the other dies drop their copies of lines homed here, once their write-throughs to it are acknowledged
    let s := s.arriveAll (fun w => w.home = d) s.wts.length
    if s.wts.any fun w => w.home = d && w.die ≠ d && paNode ((w.bytes.head?.map (·.loc)).getD 0) = s.node then .off
    else
      let s := { s with dies := s.dies.map fun (y : Die) => { y with
        l1 := y.l1.filter fun e => e.code || paDie e.pa ≠ d || paNode e.pa ≠ s.node
        copies := y.copies.filter fun c => paDie c.1 ≠ d || paNode c.1 ≠ s.node, copyPoison := y.copyPoison.filter fun c => paDie c ≠ d } }
      .done (at_ s 3)
  -- what those write-throughs have written is in memory before the slices lose it
  | some 3 => .done (at_ (s.flushDie d) 4)
  | some 4 =>
    let base := bitsOf (s.dieAt x.resetBy.1).wrlog 51 9 * 512
    let s := x.resetGangs.foldl (fun (s : State) g => (s.endGang g d).markGang base g) s
    .done (at_ s 5)
  | some 5 =>
    -- the LAUNCH entries of the ended gangs complete first, those of the die's own dispatcher too
    let ending := fun (o : Option CqEntry) => match o.bind (·.launch) with | some l => !s.gangs.any (·.2.launch = l) | none => false
    if x.slots.toList.any ending then .off else .done (at_ (s.resetDie d) 6)
  | some _ =>
    if !s.allReady d then .off
    else .done ((s.updDie d fun y => { y with resetting := none }).updDie x.resetBy.1 fun y => { y with wrst := putBit y.wrst 62 false })
def execWarmReset (d : DieId) (s : State) := (evWarmReset d s).outcome s

end Sys2Proof.Machine
end

