-- ==== Sys2Proof/Machine/Registers.lean ====
section
/-!
DEFINITION. Writes of the control windows (15_platform.md R325, R326; the register tables of R290, R302, R304, R307, R310, R314,
R316, R318, R323, R363, R378, R382, R384, R387, R390, R393 and R395). A reserved field reads zero whatever is written (R5); a write of
a read-only or reserved register changes nothing.
-/
namespace Sys2Proof.Machine

/-- Bits `hi:lo` of a written value, in their place. -/
def field (v : Word) (hi lo : Nat) : Word := w64 (bitsOf v hi lo * 2 ^ lo)
/-- A field of `old` takes that of `v`. -/
def takeField (old v : Word) (hi lo : Nat) : Word := setBits old hi lo (bitsOf v hi lo)
/-- Writing 1 to bit 63 clears it. -/
def clearV (old v : Word) : Word := if v.getLsbD 63 then putBit old 63 false else old
/-- An element of a vector is changed. -/
def updAt {n : Nat} (x : Vector Word n) (i : Nat) (f : Word → Word) : Vector Word n := Vector.ofFn fun j => if j.val = i then f x[j] else x[j]

/-- Four ECOST fields, from class `c` (R302). -/
def Die.writeEcost (x : Die) (c : Nat) (v : Word) : Die :=
  let put := fun (j : Nat) => w64 (bitsOf v (16 * (j - c) + 15) (16 * (j - c)))
  { x with ecost := Vector.ofFn fun j => if c ≤ j.val ∧ j.val < c + 4 then put j.val else x.ecost[j] }
/-- A write of the power block (R302). -/
def Die.writePower (x : Die) (o : Nat) (v : Word) : Die :=
  if 0x100 ≤ o then x.writeEcost ((o - 0x100) / 2) v
  else if o % 16 = 0 then { x with rbud := updAt x.rbud (o / 16) fun _ => field v 15 0 }
  else { x with plim := updAt x.plim (o / 16) fun _ => field v 31 0 }
/-- A write of THERM(q): TWARN and TCRIT (R395). -/
def thermWrite (v old : Word) : Word := takeField (takeField old v 23 16) v 15 8
/-- TRCTL with a reserved LOGN keeps its value (log 39). -/
def trctlWrite (old v : Word) : Word :=
  let n := bitsOf v 4 0
  if n = 0 ∨ (6 ≤ n ∧ n ≤ 20) then field v 51 12 ||| field v 4 0 else old
/-- A write of the die control block, but for WRST and the ports PRN. -/
def Die.writeDcb (x : Die) (o : Nat) (v : Word) : Die :=
  match o with
  | 0x00 => { x with actb := field v 51 12 }
  | 0x08 => { x with pscore := field v 9 0 }
  | 0x10 => { x with hcsb := field v 51 12 }
  | 0x18 => { x with hcsn := field v 19 0 }
  | 0x20 => { x with savb := field v 51 12 }
  | 0x28 => { x with ovfb := field v 51 12 }
  | 0x30 => { x with ovfn := field v 15 0 }
  | 0x38 => { x with fctl := field v 63 63 ||| field v 9 0 }
  | 0x40 => { x with trctl := trctlWrite x.trctl v }
  | 0x50 => { x with rslim := field v 15 0 }
  | 0x68 => { x with csavb := field v 51 12 }
  | 0x80 => { x with errc := v }
  | 0x88 => { x with erra := clearV x.erra v }
  | 0x90 => { x with scrub := field v 63 63 ||| field v 31 0 }
  | 0x188 => { x with wrlog := field v 51 9 }
  | _ =>
    if 0x100 ≤ o ∧ o < 0x180 then { x with therm := updAt x.therm ((o - 0x100) / 8) (thermWrite v) }
    else if 0x1000 ≤ o ∧ o < 0x1120 then x.writePower (o - 0x1000) v
    else x
/-- A write of WRST on die `d` (R393): GO starts the reset of another die, unless one is under way. -/
def State.writeWrst (s : State) (src : Option CoreId) (d : Nat) (v : Word) : State :=
  let t := bitsOf v 1 0
  let busy := (s.dieAt d).wrst.getLsbD 62
  if v.getLsbD 63 then
    if busy ∨ t = d % 4 then s
    else (s.updDie d fun x => { x with wrst := putBit (w64 t) 62 true }).updDie t fun x => { x with resetting := some 0, resetBy := (d % 4, src) }
  else s.updDie d fun x => { x with wrst := setBits x.wrst 1 0 t }
/-- A write of a queue's register block, its ageing or its status (R290, R390). DESIGN CHOICE: an LSH of 25 to 31, outside the 0 to 24 that R290
states, is stored and shifts the bins as the others do (log 113). -/
def State.writeQrb (s : State) (o : Nat) (v : Word) : State :=
  if o < 0x2000 then
    let q : CmdQ := BitVec.ofNat 6 (o / 128)
    match o % 128 / 8 with
    | 0 => s.updCq q.toNat fun x => if x.en then x else { x with ring := field v 51 6 }
    | 1 => match evQueueEnableWrite q v s with | .done t => t | _ => s
    | 2 => match evWcntWrite q v s with | .done t => t | _ => s
    | 5 =>
      let s := s.updCq q.toNat fun x => { x with lsh := bitsOf v 4 0 }
      if v.getLsbD 63 then (match evHistogramClear q s with | .done t => t | _ => s) else s
    | _ => s
  else if o < 0x2038 then
    let l := (o - 0x2000) / 8
    let aged := fun (x : CmdQueue) => (x.rise s.agei.toList s.time 7).reage l (bitsOf v 23 0) s.time
    { s with agei := updAt s.agei l fun _ => field v 23 0, cqs := s.cqs.map aged }
  else if 0x2100 ≤ o ∧ o < 0x2300 then
    s.updCq ((o - 0x2100) / 8) fun x => if v.getLsbD 63 then { x with ovr := false } else x
  else s
/-- A write of the Facet block of a cluster (R316, R317). -/
def State.writeFacet (s : State) (k o : Nat) (v : Word) : State :=
  if o < 0x80 then (match evFcfgWrite (BitVec.ofNat 10 k) (BitVec.ofNat 4 (o / 8)) v s with | .done t => t | _ => s)
  else if o < 0x180 then
    let x := if o % 16 / 8 = 1 then field v 47 0 else v
    let put := fun (f : Facet) => { f with bnd := updAt f.bnd (o % 16 / 8) fun _ => x }
    s.updCluster k fun y => { y with facet := Vector.ofFn fun j => if j.val = (o - 0x80) / 16 then put y.facet[j] else y.facet[j] }
  else s
/-- The queue of a CLASS. -/
def queueOf : Nat → QueueId
  | 0 => .pn | 1 => .pe | 2 => .ps | 3 => .pw | 4 => .cp | 5 => .ga | 6 => .mi | _ => .kq
/-- A write of a core's debug block (R307). -/
def State.writeDebug (s : State) (c o : Nat) (v : Word) : State :=
  if o = 0 then s.updCore c fun k => { k with snap := updAt k.snap 0 (clearV · v) }
  else if o = 0x70 then
    let s := s.updCore c fun k => { k with lnctl := field v 0 0 }
    if v.getLsbD 1 then (match evLensClear (BitVec.ofNat 12 c) s with | .done t => t | _ => s) else s
  else if 0x100 ≤ o ∧ o < 0x200 then
    if o % 64 = 0 then s.updCore c fun k => { k with wprec := updAt k.wprec ((o - 0x100) / 8) (clearV · v) } else s
  else if 0x200 ≤ o ∧ o < 0x280 then
    if o % 16 = 0 ∧ v.getLsbD 62 then
      (match evEfrAbort (BitVec.ofNat 12 c) (queueOf ((o - 0x200) / 16)) s with | .done t => t | _ => s)
    else s
  else if 0x1000 ≤ o ∧ o < 0x1480 ∧ peerOf c = 0 then s.writeFacet (clusterOf c) (o - 0x1000) v
  else s
/-- A write of the control window of die `d` at an offset (R325). The management port reaches the whole of it, the command-queue registers
too: R325 lets it, and R18 says only that it does not carry the host's command queues (log 83, DESIGN CHOICE). -/
def State.writeControl (s : State) (src : Option CoreId) (d off : Nat) (v : Word) : State :=
  if off < 0x10000 then
    if off = 0x180 then s.writeWrst src d v
    else if 0x2000 ≤ off ∧ off < 0x4000 then
      (match evPrnWrite (BitVec.ofNat 12 (coreOfIndex d ((off - 0x2000) / 8))) v s with | .done t => t | _ => s)
    else s.updDie d (·.writeDcb off v)
  else if 0x20000 ≤ off ∧ off < 0x30000 ∧ d = 0 then s.writeQrb (off - 0x20000) v
  else if 0x800000 ≤ off then s.writeDebug (coreOfIndex d ((off - 0x800000) / 0x2000)) (off % 0x2000) v
  else s
/-- A write waits: that of a command-queue register while die 0 is reset (R393), or a core's for another die's window while a bridge on the
way, or the die, does not take it (R328, R388, R393). DESIGN CHOICE: behind a bridge that has failed it waits until a reset (log 95). -/
def State.writeWaits (s : State) (src : Option CoreId) (a : Nat) : Bool :=
  (s.qrbHeld && decide (paDie a = 0) && decide (0x20000 ≤ paLoc a % 2 ^ 24 ∧ paLoc a % 2 ^ 24 < 0x30000)) ||
    match src with
    | some c => let d := dieOf c.toNat
      d ≠ paDie a && (s.tripWaits d (paDie a) || s.tripFailed d (paDie a) || s.inReset d (paDie a))
    | none => false
/-- REGISTER_WRITE: an aligned 8-byte write reaches a register of this device's control windows (R325), from a core or, with none, from
the management port. -/
def evRegisterWrite (src : Option CoreId) (a : Nat) (v : Word) (s : State) : EvEnd :=
  if regionOf a ≠ .control ∨ paNode a ≠ s.node ∨ a % 8 ≠ 0 then .off
  else if s.writeWaits src a then .done { s with agenda := s.agenda ++ [.event (.registerWrite src a v)] }
  else .done (s.writeControl src (paDie a) (paLoc a % 2 ^ 24) v)
def execRegisterWrite (src : Option CoreId) (a : Nat) (v : Word) (s : State) := (evRegisterWrite src a v s).outcome s

end Sys2Proof.Machine
end

