-- ==== Sys2Proof/Machine/Scalar.lean ====
section
/-!
DEFINITION. Integer, logic, compare, select and immediate instructions (05_scalar.md R113 to R117).
-/
namespace Sys2Proof.Machine

/-- The least significant zero bits of a number, at most `n`. -/
def trailingZeros : Nat → Nat → Nat
  | 0, _ => 0
  | n + 1, x => if x % 2 = 1 then 0 else 1 + trailingZeros n (x / 2)
/-- Zero bits above the highest one bit of a `w`-bit number. -/
def leadingZeros (w x : Nat) : Nat := if x = 0 then w else w - 1 - x.log2
/-- The one bits among the low `n`. -/
def popCount : Nat → Nat → Nat
  | 0, _ => 0
  | n + 1, x => x % 2 + popCount n (x / 2)
/-- 1 for true, 0 for false. -/
def boolWord (b : Bool) : Word := if b then 1 else 0
/-- The amount of a shift: bits 5:0. -/
def shAmt (b : Word) : Nat := b.toNat % 64

/-- The form of R113: D ← F(A, B), PC ← PC + 4. -/
def aluRR (f : Word → Word → Word) (d a b : SReg) (s : State) : Host.Outcome State Fault Refusal :=
  .next ((s.writeS d (f (s.readS a) (s.readS b))).advance 4)
/-- The form with one source. -/
def aluR (f : Word → Word) (d a : SReg) (s : State) : Host.Outcome State Fault Refusal :=
  .next ((s.writeS d (f (s.readS a))).advance 4)
/-- A quotient or remainder with lookahead (R115, R69). -/
def divRR (f : Word → Word → Word) (d a b : SReg) (l : La) (s : State) : Host.Outcome State Fault Refusal :=
  .next ((s.result l (.s d (f (s.readS a) (s.readS b)))).advance 4)

/-- High half of a product (R113). -/
def mulHigh (a b : Word) : Word := BitVec.ofInt 64 (a.toInt * b.toInt / 2 ^ 64)
@[inherit_doc mulHigh] def mulHighU (a b : Word) : Word := BitVec.ofNat 64 (a.toNat * b.toNat / 2 ^ 64)
/-- Quotients and remainders, with the fixed corners of R115. -/
def divS (a b : Word) : Word := if b = 0 then BitVec.allOnes 64 else BitVec.ofInt 64 (a.toInt.tdiv b.toInt)
@[inherit_doc divS] def remS (a b : Word) : Word := if b = 0 then a else BitVec.ofInt 64 (a.toInt.tmod b.toInt)
@[inherit_doc divS] def divU (a b : Word) : Word := if b = 0 then BitVec.allOnes 64 else BitVec.ofNat 64 (a.toNat / b.toNat)
@[inherit_doc divS] def remU (a b : Word) : Word := if b = 0 then a else BitVec.ofNat 64 (a.toNat % b.toNat)

def execAdd (d a b : SReg) := aluRR (· + ·) d a b
def execSub (d a b : SReg) := aluRR (· - ·) d a b
def execMul (d a b : SReg) := aluRR (· * ·) d a b
def execMulh (d a b : SReg) := aluRR mulHigh d a b
def execMulhn (d a b : SReg) := aluRR mulHighU d a b
def execDiv (d a b : SReg) (l : La) := divRR divS d a b l
def execDivn (d a b : SReg) (l : La) := divRR divU d a b l
def execRem (d a b : SReg) (l : La) := divRR remS d a b l
def execRemn (d a b : SReg) (l : La) := divRR remU d a b l
def execAnd (d a b : SReg) := aluRR (· &&& ·) d a b
def execOr (d a b : SReg) := aluRR (· ||| ·) d a b
def execXor (d a b : SReg) := aluRR (· ^^^ ·) d a b
def execSll (d a b : SReg) := aluRR (fun x y => x <<< shAmt y) d a b
def execSrl (d a b : SReg) := aluRR (fun x y => x >>> shAmt y) d a b
def execSra (d a b : SReg) := aluRR (fun x y => x.sshiftRight (shAmt y)) d a b
def execRol (d a b : SReg) := aluRR (fun x y => x.rotateLeft (shAmt y)) d a b
def execRor (d a b : SReg) := aluRR (fun x y => x.rotateRight (shAmt y)) d a b
def execClz (d a : SReg) := aluR (fun x => BitVec.ofNat 64 (leadingZeros 64 x.toNat)) d a
def execCtz (d a : SReg) := aluR (fun x => BitVec.ofNat 64 (trailingZeros 64 x.toNat)) d a
def execPop (d a : SReg) := aluR (fun x => BitVec.ofNat 64 (popCount 64 x.toNat)) d a
def execMin (d a b : SReg) := aluRR (fun x y => if x.toInt ≤ y.toInt then x else y) d a b
def execMax (d a b : SReg) := aluRR (fun x y => if x.toInt ≤ y.toInt then y else x) d a b
def execMinn (d a b : SReg) := aluRR (fun x y => if x.toNat ≤ y.toNat then x else y) d a b
def execMaxn (d a b : SReg) := aluRR (fun x y => if x.toNat ≤ y.toNat then y else x) d a b
/-- R116. -/
def execAdda (d a b : SReg) := aluRR addA d a b
def execSeq (d a b : SReg) := aluRR (fun x y => boolWord (x = y)) d a b
def execSne (d a b : SReg) := aluRR (fun x y => boolWord (x ≠ y)) d a b
def execSlt (d a b : SReg) := aluRR (fun x y => boolWord (x.toInt < y.toInt)) d a b
def execSltn (d a b : SReg) := aluRR (fun x y => boolWord (x.toNat < y.toNat)) d a b
def execSle (d a b : SReg) := aluRR (fun x y => boolWord (x.toInt ≤ y.toInt)) d a b
def execSlen (d a b : SReg) := aluRR (fun x y => boolWord (x.toNat ≤ y.toNat)) d a b
/-- R114: all three sources are read before D is written. -/
def execSel (d a b c : SReg) (s : State) : Host.Outcome State Fault Refusal :=
  .next ((s.writeS d (if s.readS c ≠ 0 then s.readS a else s.readS b)).advance 4)

/-! ### Immediate forms (R117) -/

def execAddi (d a : SReg) (i : BitVec 16) := aluR (· + sext i) d a
def execAndi (d a : SReg) (i : BitVec 16) := aluR (· &&& zext i) d a
def execOri (d a : SReg) (i : BitVec 16) := aluR (· ||| zext i) d a
def execXori (d a : SReg) (i : BitVec 16) := aluR (· ^^^ zext i) d a
def execSlli (d a : SReg) (n : BitVec 6) := aluR (· <<< n.toNat) d a
def execSrli (d a : SReg) (n : BitVec 6) := aluR (· >>> n.toNat) d a
def execSrai (d a : SReg) (n : BitVec 6) := aluR (·.sshiftRight n.toNat) d a
def execRori (d a : SReg) (n : BitVec 6) := aluR (·.rotateRight n.toNat) d a
def execSlti (d a : SReg) (i : BitVec 16) := aluR (fun x => boolWord (x.toInt < (sext i).toInt)) d a
def execSltin (d a : SReg) (i : BitVec 16) := aluR (fun x => boolWord (x.toNat < (sext i).toNat)) d a
def execLi (d : SReg) (i : BitVec 16) (s : State) : Host.Outcome State Fault Refusal := .next ((s.writeS d (sext i)).advance 4)
/-- D with bits 16k + 15 : 16k replaced. -/
def insert16 (k : Nat) (x : Word) (i : BitVec 16) : Word :=
  (x &&& ~~~((0xFFFF : Word) <<< (16 * k))) ||| (zext i <<< (16 * k))
def execLis16 (d : SReg) (i : BitVec 16) := aluR (insert16 1 · i) d d
def execLis32 (d : SReg) (i : BitVec 16) := aluR (insert16 2 · i) d d
def execLis48 (d : SReg) (i : BitVec 16) := aluR (insert16 3 · i) d d
/-- R116. -/
def execAddai (d a : SReg) (i : BitVec 16) := aluR (addA · (sext i)) d a

end Sys2Proof.Machine
end

