-- ==== Sys2Proof/Machine/Vector.lean ====
section
/-!
DEFINITION. Vector arithmetic, compares, conversions, quantisation, reductions, permutes and mask logic (07_vector.md R161
to R177). Elements are numbers of their width; every source is read before the destination is written.
-/
namespace Sys2Proof.Machine

/-! ### Integer arithmetic (R166) -/

/-- The form of R166 with two vector sources. -/
def vecInt (f : Bool → Nat → Nat → Nat → Nat) (d a b : VReg) (k : MReg) (t : IntTy) (s : State) :
    Host.Outcome State Fault Refusal :=
  let e := intElem t
  let w := elemWidth e
  let va := s.readV a
  let vb := s.readV b
  let r := laneMap w (512 / w) (s.readM k) (s.readV d) fun i => (f (elemSigned e) w (lane va w i) (lane vb w i), 0)
  .next ((s.writeV d r.1).advance 4)

/-- Functions F of R166 on `w`-bit elements, `sg` for a signed type. -/
def viMulh (sg : Bool) (w x y : Nat) : Nat := wrapInt w (intOf sg w x * intOf sg w y / (2 ^ w : Nat))
@[inherit_doc viMulh] def viMin (sg : Bool) (w x y : Nat) : Nat := if intOf sg w x ≤ intOf sg w y then x else y
@[inherit_doc viMulh] def viMax (sg : Bool) (w x y : Nat) : Nat := if intOf sg w x ≤ intOf sg w y then y else x
@[inherit_doc viMulh] def viSra (_ : Bool) (w x y : Nat) : Nat := wrapInt w (intOf true w x / (2 ^ (y % w) : Nat))
@[inherit_doc viMulh] def viAbs (sg : Bool) (w x : Nat) : Nat := if sg then wrapInt w (intOf true w x).natAbs else x
@[inherit_doc viMulh] def viSat (f : Int → Int → Int) (sg : Bool) (w x y : Nat) : Nat :=
  wrapInt w (clampInt sg w (f (intOf sg w x) (intOf sg w y)))

def execVadd (d a b : VReg) (k : MReg) (t : IntTy) := vecInt (fun _ w x y => (x + y) % 2 ^ w) d a b k t
def execVsub (d a b : VReg) (k : MReg) (t : IntTy) := vecInt (fun _ w x y => (x + 2 ^ w - y) % 2 ^ w) d a b k t
def execVmul (d a b : VReg) (k : MReg) (t : IntTy) := vecInt (fun _ w x y => x * y % 2 ^ w) d a b k t
def execVmulh (d a b : VReg) (k : MReg) (t : IntTy) := vecInt (viMulh) d a b k t
def execVmin (d a b : VReg) (k : MReg) (t : IntTy) := vecInt (viMin) d a b k t
def execVmax (d a b : VReg) (k : MReg) (t : IntTy) := vecInt (viMax) d a b k t
def execVand (d a b : VReg) (k : MReg) (t : IntTy) := vecInt (fun _ _ x y => x &&& y) d a b k t
def execVor (d a b : VReg) (k : MReg) (t : IntTy) := vecInt (fun _ _ x y => x ||| y) d a b k t
def execVxor (d a b : VReg) (k : MReg) (t : IntTy) := vecInt (fun _ _ x y => x ^^^ y) d a b k t
def execVsll (d a b : VReg) (k : MReg) (t : IntTy) := vecInt (fun _ w x y => x * 2 ^ (y % w) % 2 ^ w) d a b k t
def execVsrl (d a b : VReg) (k : MReg) (t : IntTy) := vecInt (fun _ w x y => x / 2 ^ (y % w)) d a b k t
def execVsra (d a b : VReg) (k : MReg) (t : IntTy) := vecInt (viSra) d a b k t
def execVadds (d a b : VReg) (k : MReg) (t : IntTy) := vecInt (viSat (· + ·)) d a b k t
def execVsubs (d a b : VReg) (k : MReg) (t : IntTy) := vecInt (viSat (· - ·)) d a b k t
def execVabs (d a : VReg) (k : MReg) (t : IntTy) := vecInt (fun sg w x _ => viAbs sg w x) d a a k t
def execVneg (d a : VReg) (k : MReg) (t : IntTy) := vecInt (fun _ w x _ => (2 ^ w - x) % 2 ^ w) d a a k t
def execVclz (d a : VReg) (k : MReg) (t : IntTy) := vecInt (fun _ w x _ => leadingZeros w x) d a a k t
def execVpop (d a : VReg) (k : MReg) (t : IntTy) := vecInt (fun _ w x _ => popCount w x) d a a k t

/-! ### Floating-point arithmetic (R167, R168) -/

/-- The form of R167 and R168: `f` on the encodings of A, B and D, with the flags of the active lanes. -/
def vecFp (f : Fmt → RMode → Nat → Nat → Nat → Nat × Flags) (d a b : VReg) (k : MReg) (t : FloatTy) (r : Rm) (s : State) :
    Host.Outcome State Fault Refusal :=
  let g := floatFmt t
  let w := g.width
  let va := s.readV a
  let vb := s.readV b
  let vd := s.readV d
  let x := laneMap w (512 / w) (s.readM k) vd fun i => f g (s.modeOf r) (lane va w i) (lane vb w i) (lane vd w i)
  .next (((s.writeV d x.1).raiseFlags x.2).advance 4)

/-- A sign change or clearing of the encoding; a NaN gives the canonical NaN (R168). -/
def fpSign (f : Fmt) (g : Nat → Nat) (x : Nat) : Nat × Flags := if f.val x = .nan then (f.nan, 0) else (g x, 0)

def execVfadd (d a b : VReg) (k : MReg) (t : FloatTy) (r : Rm) := vecFp (fun g m x y _ => fpAdd g m (g.val x) (g.val y)) d a b k t r
def execVfsub (d a b : VReg) (k : MReg) (t : FloatTy) (r : Rm) := vecFp (fun g m x y _ => fpAdd g m (g.val x) (g.val y).neg) d a b k t r
def execVfmul (d a b : VReg) (k : MReg) (t : FloatTy) (r : Rm) := vecFp (fun g m x y _ => fpMul g m (g.val x) (g.val y)) d a b k t r
def execVfdiv (d a b : VReg) (k : MReg) (t : FloatTy) (r : Rm) := vecFp (fun g m x y _ => fpDiv g m (g.val x) (g.val y)) d a b k t r
def execVfmin (d a b : VReg) (k : MReg) (t : FloatTy) (r : Rm) := vecFp (fun g _ x y _ => (fpMinMax g false x y, 0)) d a b k t r
def execVfmax (d a b : VReg) (k : MReg) (t : FloatTy) (r : Rm) := vecFp (fun g _ x y _ => (fpMinMax g true x y, 0)) d a b k t r
def execVfma (d a b : VReg) (k : MReg) (t : FloatTy) (r : Rm) := vecFp (fun g m x y z => fpFma g m (g.val x) (g.val y) (g.val z)) d a b k t r
def execVfms (d a b : VReg) (k : MReg) (t : FloatTy) (r : Rm) := vecFp (fun g m x y z => fpFma g m (g.val x) (g.val y) (g.val z).neg) d a b k t r
def execVfnma (d a b : VReg) (k : MReg) (t : FloatTy) (r : Rm) := vecFp (fun g m x y z => fpFma g m (g.val x).neg (g.val y) (g.val z).neg) d a b k t r
def execVfnms (d a b : VReg) (k : MReg) (t : FloatTy) (r : Rm) := vecFp (fun g m x y z => fpFma g m (g.val x).neg (g.val y) (g.val z)) d a b k t r
def execVfsqrt (d a : VReg) (k : MReg) (t : FloatTy) (r : Rm) := vecFp (fun g m x _ _ => fpSqrt g m (g.val x)) d a a k t r
def execVfabs (d a : VReg) (k : MReg) (t : FloatTy) (r : Rm) := vecFp (fun g _ x _ _ => fpSign g (· % 2 ^ (g.width - 1)) x) d a a k t r
def execVfneg (d a : VReg) (k : MReg) (t : FloatTy) (r : Rm) := vecFp (fun g _ x _ _ => fpSign g (fun y => (y + 2 ^ (g.width - 1)) % 2 ^ g.width) x) d a a k t r

/-! ### Compares (R169) -/

/-- The order of two elements; none with a NaN operand. -/
def elemCmp (t : ElemTy) (x y : Nat) : Option Ordering := (elemVal t x).cmp (elemVal t y)
/-- A mask from the bits that hold. -/
def maskOf (n : Nat) (p : Nat → Bool) : Word :=
  BitVec.ofNat 64 (packNat 1 ((List.range n).map fun i => if p i then 1 else 0))
/-- The form of R169: bit i is 1 when lane i is active and the relation holds. -/
def vecCmp (p : Option Ordering → Bool) (d : MReg) (a b : VReg) (k : MReg) (t : ElemTy) (s : State) :
    Host.Outcome State Fault Refusal :=
  let w := elemWidth t
  let m := s.readM k
  let va := s.readV a
  let vb := s.readV b
  .next ((s.writeM d (maskOf (512 / w) fun i => laneActive m (512 / w) i && p (elemCmp t (lane va w i) (lane vb w i)))).advance 4)

def execVceq (d : MReg) (a b : VReg) (k : MReg) (t : ElemTy) := vecCmp (· == some .eq) d a b k t
def execVcne (d : MReg) (a b : VReg) (k : MReg) (t : ElemTy) := vecCmp (· != some .eq) d a b k t
def execVclt (d : MReg) (a b : VReg) (k : MReg) (t : ElemTy) := vecCmp (· == some .lt) d a b k t
def execVcle (d : MReg) (a b : VReg) (k : MReg) (t : ElemTy) := vecCmp (fun o => o == some .lt || o == some .eq) d a b k t
def execVcgt (d : MReg) (a b : VReg) (k : MReg) (t : ElemTy) := vecCmp (· == some .gt) d a b k t
def execVcge (d : MReg) (a b : VReg) (k : MReg) (t : ElemTy) := vecCmp (fun o => o == some .gt || o == some .eq) d a b k t

/-! ### Conversion (R170) -/

/-- `vcvt`: n = 512 / max of the widths; elements of D at n and above become zero. -/
def execVcvt (d a : VReg) (x : Bool) (u : ElemTy) (k : MReg) (t : ElemTy) (r : Rm) (s : State) :
    Host.Outcome State Fault Refusal :=
  let ws := elemWidth t
  let wt := elemWidth u
  let n := 512 / max ws wt
  let va := s.readV a
  let y := laneMap wt n (s.readM k) (s.readV d) fun i => convertElem t u (s.modeOf r) x (lane va ws i)
  .next (((s.writeV d y.1).raiseFlags y.2).advance 4)

/-! ### Quantisation (R171 to R174) -/

/-- `vq`: 16 `f32` lanes with the scale code in bits 7:0 of B; elements 16 and above become zero. -/
def execVq (d a : VReg) (b : SReg) (k : MReg) (q : QuantTy) (r : Rm) (s : State) : Host.Outcome State Fault Refusal :=
  let c := (s.readS b).toNat % 256
  let va := s.readV a
  let y := laneMap (elemWidth (quantElem q)) 16 (s.readM k) (s.readV d) fun i =>
    quantOne (fmtF32.val (lane va 32 i)) c q (s.quantModeOf r)
  .next (((s.writeV d y.1).raiseFlags y.2).advance 4)

/-- The active `f32` lanes of a vector. -/
def activeF32 (v : Vec) (m : Word) : List Nat := ((List.range 16).filter (laneActive m 16)).map (lane v 32)
/-- A finite value. -/
def isFinite : Val → Bool
  | .fin .. => true
  | _ => false
/-- An amax word (R171). -/
def amaxWord (nf : Bool) (am : Nat) (q : QuantTy) (code : Nat) : Word :=
  BitVec.ofBool nf ++ BitVec.ofNat 31 am ++ q.code ++ 0#21 ++ BitVec.ofNat 8 code
/-- `vqs`: the amax word of B's part together with the active lanes of A (R172). AMAX is kept as `f32` bits, whose order
is that of the magnitudes (R171). -/
def execVqs (d : SReg) (a : VReg) (b : SReg) (k : MReg) (q : QuantTy) (r : Rm) (s : State) :
    Host.Outcome State Fault Refusal :=
  let w := s.readS b
  let xs := activeF32 (s.readV a) (s.readM k)
  let am0 := (w.extractLsb' 32 31).toNat
  let special := !isFinite (fmtF32.val am0)
  let nf := w.getLsbD 63 || special || xs.any fun x => !isFinite (fmtF32.val x)
  let am := (xs.filter fun x => isFinite (fmtF32.val x)).foldl (fun m x => max m (x % 2 ^ 31)) (if special then 0 else am0)
  let res :=
    if s.core.ctx.qmode.getLsbD 0 then
      -- QMODE.SEARCH: B is not read, and the active lanes are a whole block
      let nf := xs.any fun x => !isFinite (fmtF32.val x)
      let am := (xs.filter fun x => isFinite (fmtF32.val x)).foldl (fun m x => max m (x % 2 ^ 31)) 0
      amaxWord nf am q (if nf then 0xFF else if am = 0 then 127 else searchCode (xs.map fmtF32.val) q (s.quantModeOf r))
    else amaxWord nf am q (codeOf nf (fmtF32.val am).dy q)
  .next ((s.writeS d res).advance 4)

/-- `vsx`: `e8m0` codes in bytes 0 to 15 to `f32` (R29, R174). -/
def execVsx (d a : VReg) (k : MReg) (s : State) : Host.Outcome State Fault Refusal :=
  let va := s.readV a
  let y := laneMap 32 16 (s.readM k) (s.readV d) fun i => ((convertFloat fmtF32 .rne false (e8m0Val (lane va 8 i))).1, 0)
  .next ((s.writeV d y.1).advance 4)

/-! ### Reductions (R175) -/

/-- The result in 64 bits: signed types sign-extended, the others zero-extended. -/
def extendElem (t : ElemTy) (x : Nat) : Word :=
  if elemSigned t then BitVec.ofInt 64 (intOf true (elemWidth t) x) else BitVec.ofNat 64 x
/-- The form of R175: active lanes combined in ascending order; `ident` when none is active. A lone floating-point lane is
returned unrounded, a NaN as the canonical NaN. -/
def vecRed (ident : ElemTy → Nat) (f : ElemTy → RMode → Nat → Nat → Nat × Flags) (d : SReg) (a : VReg)
    (k : MReg) (t : ElemTy) (s : State) : Host.Outcome State Fault Refusal :=
  let w := elemWidth t
  let va := s.readV a
  let m := s.readM k
  let fix := fun x => match elemFmt t with
    | some g => if g.val x == .nan then g.nan else x
    | none => x
  let r : Nat × Flags :=
    match ((List.range (512 / w)).filter (laneActive m (512 / w))).map (lane va w) with
    | [] => (ident t, 0)
    | [x] => (fix x, 0)
    | x :: xs => xs.foldl (fun acc y => let z := f t (modeOfCode s.core.ctx.rmode) acc.1 y; (z.1, acc.2 ||| z.2)) (x, 0)
  .next (((s.writeS d (extendElem t r.1)).raiseFlags r.2).advance 4)

/-- Combining functions and identities of R175. -/
def redSum (t : ElemTy) (m : RMode) (x y : Nat) : Nat × Flags :=
  match elemFmt t with
  | some g => fpAdd g m (g.val x) (g.val y)
  | none => ((x + y) % 2 ^ elemWidth t, 0)
@[inherit_doc redSum] def redPick (wantMax : Bool) (t : ElemTy) (_ : RMode) (x y : Nat) : Nat × Flags :=
  match elemFmt t with
  | some g => (fpMinMax g wantMax x y, 0)
  | none => ((if wantMax then viMax else viMin) (elemSigned t) (elemWidth t) x y, 0)
@[inherit_doc redSum] def identPick (wantMax : Bool) (t : ElemTy) : Nat :=
  match elemFmt t with
  | some g => g.infinity wantMax
  | none => wrapInt (elemWidth t) ((if wantMax then intMin else intMax) (elemSigned t) (elemWidth t))
def execVrsum (d : SReg) (a : VReg) (k : MReg) (t : ElemTy) := vecRed (fun _ => 0) redSum d a k t
def execVrmin (d : SReg) (a : VReg) (k : MReg) (t : ElemTy) := vecRed (identPick false) (redPick false) d a k t
def execVrmax (d : SReg) (a : VReg) (k : MReg) (t : ElemTy) := vecRed (identPick true) (redPick true) d a k t
def execVrand (d : SReg) (a : VReg) (k : MReg) (t : ElemTy) :=
  vecRed (fun t => 2 ^ elemWidth t - 1) (fun _ _ x y => (x &&& y, 0)) d a k t
def execVror (d : SReg) (a : VReg) (k : MReg) (t : ElemTy) := vecRed (fun _ => 0) (fun _ _ x y => (x ||| y, 0)) d a k t
def execVrxor (d : SReg) (a : VReg) (k : MReg) (t : ElemTy) := vecRed (fun _ => 0) (fun _ _ x y => (x ^^^ y, 0)) d a k t

/-! ### Permutes (R176) -/

/-- The form of R176: `f` gives lane i from the elements of A; inactive lanes keep D. -/
def vecPerm (f : (Nat → Nat) → Nat → Nat → Nat) (d a : VReg) (k : MReg) (e : ElemSize) (s : State) :
    Host.Outcome State Fault Refusal :=
  let w := esBits e
  let va := s.readV a
  let y := laneMap w (512 / w) (s.readM k) (s.readV d) fun i => (f (lane va w) (512 / w) i, 0)
  .next ((s.writeV d y.1).advance 4)

def execVperm (d a b : VReg) (k : MReg) (e : ElemSize) (s : State) : Host.Outcome State Fault Refusal :=
  let vb := s.readV b
  vecPerm (fun x n i => x (lane vb (esBits e) i % n)) d a k e s
def execVbcast (d : VReg) (a : SReg) (k : MReg) (e : ElemSize) (s : State) : Host.Outcome State Fault Refusal :=
  let x := (s.readS a).toNat % 2 ^ esBits e
  vecPerm (fun _ _ _ => x) d d k e s
def execVslup (d a : VReg) (b : SReg) (k : MReg) (e : ElemSize) (s : State) : Host.Outcome State Fault Refusal :=
  let sh := (s.readS b).toNat
  vecPerm (fun x n i => if i ≥ min sh n then x (i - min sh n) else 0) d a k e s
def execVsldn (d a : VReg) (b : SReg) (k : MReg) (e : ElemSize) (s : State) : Host.Outcome State Fault Refusal :=
  let sh := (s.readS b).toNat
  vecPerm (fun x n i => if i + min sh n < n then x (i + min sh n) else 0) d a k e s
def execVzip (d a b : VReg) (k : MReg) (e : ElemSize) (s : State) : Host.Outcome State Fault Refusal :=
  let vb := s.readV b
  vecPerm (fun x _ i => if i % 2 = 0 then x (i / 2) else lane vb (esBits e) (i / 2)) d a k e s
def execVunzip (d a b : VReg) (k : MReg) (e : ElemSize) (s : State) : Host.Outcome State Fault Refusal :=
  let vb := s.readV b
  vecPerm (fun x n i => if 2 * i < n then x (2 * i) else lane vb (esBits e) (2 * i - n)) d a k e s
/-- `vcompr`: the active lanes packed from lane 0; the rest zero. -/
def execVcompr (d a : VReg) (k : MReg) (e : ElemSize) (s : State) : Host.Outcome State Fault Refusal :=
  let w := esBits e
  let va := s.readV a
  let m := s.readM k
  .next ((s.writeV d (packLanes w (((List.range (512 / w)).filter (laneActive m (512 / w))).map (lane va w)))).advance 4)
/-- `vexpand`: an active lane takes A's lane numbered by the active lanes below it; the others are zero. -/
def execVexpand (d a : VReg) (k : MReg) (e : ElemSize) (s : State) : Host.Outcome State Fault Refusal :=
  let w := esBits e
  let va := s.readV a
  let m := s.readM k
  let n := 512 / w
  .next ((s.writeV d (packLanes w ((List.range n).map fun i =>
    if laneActive m n i then lane va w ((List.range i).filter (laneActive m n)).length else 0))).advance 4)

/-! ### Mask logic (R177) -/

/-- The form with two masks. -/
def maskOp (f : Word → Word → Word) (d a b : MReg) (s : State) : Host.Outcome State Fault Refusal :=
  .next ((s.writeM d (f (s.readM a) (s.readM b))).advance 4)
def execMand (d a b : MReg) := maskOp (· &&& ·) d a b
def execMor (d a b : MReg) := maskOp (· ||| ·) d a b
def execMxor (d a b : MReg) := maskOp (· ^^^ ·) d a b
def execMandn (d a b : MReg) := maskOp (fun x y => x &&& ~~~y) d a b
def execMnot (d a : MReg) := maskOp (fun x _ => ~~~x) d a a
/-- The form that writes an `s` register from a mask. -/
def maskToS (f : Word → Word) (d : SReg) (a : MReg) (s : State) : Host.Outcome State Fault Refusal :=
  .next ((s.writeS d (f (s.readM a))).advance 4)
def execMpop (d : SReg) (a : MReg) := maskToS (fun x => BitVec.ofNat 64 (popCount 64 x.toNat)) d a
def execMfirst (d : SReg) (a : MReg) := maskToS (fun x => BitVec.ofNat 64 (trailingZeros 64 x.toNat)) d a
def execMto (d : SReg) (a : MReg) := maskToS id d a
def execMfrom (d : MReg) (a : SReg) (s : State) : Host.Outcome State Fault Refusal :=
  .next ((s.writeM d (s.readS a)).advance 4)

end Sys2Proof.Machine
end

