-- ==== Sys2Proof/Machine/Dispatch.lean ====
section
/-!
DEFINITION. The meaning of every instruction: one arm per constructor of Instr, each one call of its meaning.
-/
namespace Sys2Proof.Machine

/-- The instruction or device step `i` at state `s`. -/
def exec (i : Instr) (s : State) : Host.Outcome State Fault Refusal :=
  match i with
  | .add d a b => Sys2Proof.Machine.execAdd d a b s
  | .sub d a b => Sys2Proof.Machine.execSub d a b s
  | .mul d a b => Sys2Proof.Machine.execMul d a b s
  | .mulh d a b => Sys2Proof.Machine.execMulh d a b s
  | .mulhn d a b => Sys2Proof.Machine.execMulhn d a b s
  | .div d a b l => Sys2Proof.Machine.execDiv d a b l s
  | .divn d a b l => Sys2Proof.Machine.execDivn d a b l s
  | .rem d a b l => Sys2Proof.Machine.execRem d a b l s
  | .remn d a b l => Sys2Proof.Machine.execRemn d a b l s
  | .and d a b => Sys2Proof.Machine.execAnd d a b s
  | .or d a b => Sys2Proof.Machine.execOr d a b s
  | .xor d a b => Sys2Proof.Machine.execXor d a b s
  | .sll d a b => Sys2Proof.Machine.execSll d a b s
  | .srl d a b => Sys2Proof.Machine.execSrl d a b s
  | .sra d a b => Sys2Proof.Machine.execSra d a b s
  | .rol d a b => Sys2Proof.Machine.execRol d a b s
  | .ror d a b => Sys2Proof.Machine.execRor d a b s
  | .clz d a => Sys2Proof.Machine.execClz d a s
  | .ctz d a => Sys2Proof.Machine.execCtz d a s
  | .pop d a => Sys2Proof.Machine.execPop d a s
  | .min d a b => Sys2Proof.Machine.execMin d a b s
  | .max d a b => Sys2Proof.Machine.execMax d a b s
  | .minn d a b => Sys2Proof.Machine.execMinn d a b s
  | .maxn d a b => Sys2Proof.Machine.execMaxn d a b s
  | .adda d a b => Sys2Proof.Machine.execAdda d a b s
  | .seq d a b => Sys2Proof.Machine.execSeq d a b s
  | .sne d a b => Sys2Proof.Machine.execSne d a b s
  | .slt d a b => Sys2Proof.Machine.execSlt d a b s
  | .sltn d a b => Sys2Proof.Machine.execSltn d a b s
  | .sle d a b => Sys2Proof.Machine.execSle d a b s
  | .slen d a b => Sys2Proof.Machine.execSlen d a b s
  | .sel d a b c => Sys2Proof.Machine.execSel d a b c s
  | .addi d a im => Sys2Proof.Machine.execAddi d a im s
  | .andi d a im => Sys2Proof.Machine.execAndi d a im s
  | .ori d a im => Sys2Proof.Machine.execOri d a im s
  | .xori d a im => Sys2Proof.Machine.execXori d a im s
  | .slli d a n => Sys2Proof.Machine.execSlli d a n s
  | .srli d a n => Sys2Proof.Machine.execSrli d a n s
  | .srai d a n => Sys2Proof.Machine.execSrai d a n s
  | .rori d a n => Sys2Proof.Machine.execRori d a n s
  | .slti d a im => Sys2Proof.Machine.execSlti d a im s
  | .sltin d a im => Sys2Proof.Machine.execSltin d a im s
  | .li d im => Sys2Proof.Machine.execLi d im s
  | .lis16 d im => Sys2Proof.Machine.execLis16 d im s
  | .lis32 d im => Sys2Proof.Machine.execLis32 d im s
  | .lis48 d im => Sys2Proof.Machine.execLis48 d im s
  | .addai d a im => Sys2Proof.Machine.execAddai d a im s
  | .beq a b o => Sys2Proof.Machine.execBeq a b o s
  | .bne a b o => Sys2Proof.Machine.execBne a b o s
  | .blt a b o => Sys2Proof.Machine.execBlt a b o s
  | .bge a b o => Sys2Proof.Machine.execBge a b o s
  | .bltn a b o => Sys2Proof.Machine.execBltn a b o s
  | .bgen a b o => Sys2Proof.Machine.execBgen a b o s
  | .b o => Sys2Proof.Machine.execB o s
  | .bl o => Sys2Proof.Machine.execBl o s
  | .br a => Sys2Proof.Machine.execBr a s
  | .blr a l => Sys2Proof.Machine.execBlr a l s
  | .ret => Sys2Proof.Machine.execRet s
  | .ld d a l w z o => Sys2Proof.Machine.execLd d a l w z o s
  | .st d a w z o => Sys2Proof.Machine.execSt d a w z o s
  | .ldHinted d a l k e z o => Sys2Proof.Machine.execLdHinted d a l k e z o s
  | .tch a l o => Sys2Proof.Machine.execTch a l o s
  | .pfL1 a o => Sys2Proof.Machine.execPfL1 a o s
  | .pfSl a o => Sys2Proof.Machine.execPfSl a o s
  | .cmoCln a b l v => Sys2Proof.Machine.execCmoCln a b l v s
  | .cmoInv a b l v => Sys2Proof.Machine.execCmoInv a b l v s
  | .cmoCli a b l v => Sys2Proof.Machine.execCmoCli a b l v s
  | .amoSwap d a b l z c => Sys2Proof.Machine.execAmoSwap d a b l z c s
  | .amoCas d a b l z c => Sys2Proof.Machine.execAmoCas d a b l z c s
  | .amoAdd d a b l z c => Sys2Proof.Machine.execAmoAdd d a b l z c s
  | .amoAnd d a b l z c => Sys2Proof.Machine.execAmoAnd d a b l z c s
  | .amoOr d a b l z c => Sys2Proof.Machine.execAmoOr d a b l z c s
  | .amoXor d a b l z c => Sys2Proof.Machine.execAmoXor d a b l z c s
  | .amoMax d a b l z c => Sys2Proof.Machine.execAmoMax d a b l z c s
  | .amoMin d a b l z c => Sys2Proof.Machine.execAmoMin d a b l z c s
  | .amoMaxn d a b l z c => Sys2Proof.Machine.execAmoMaxn d a b l z c s
  | .amoMinn d a b l z c => Sys2Proof.Machine.execAmoMinn d a b l z c s
  | .redAdd a b z => Sys2Proof.Machine.execRedAdd a b z s
  | .redAnd a b z => Sys2Proof.Machine.execRedAnd a b z s
  | .redOr a b z => Sys2Proof.Machine.execRedOr a b z s
  | .redXor a b z => Sys2Proof.Machine.execRedXor a b z s
  | .redMax a b z => Sys2Proof.Machine.execRedMax a b z s
  | .redMin a b z => Sys2Proof.Machine.execRedMin a b z s
  | .redMaxn a b z => Sys2Proof.Machine.execRedMaxn a b z s
  | .redMinn a b z => Sys2Proof.Machine.execRedMinn a b z s
  | .redFadd a b z => Sys2Proof.Machine.execRedFadd a b z s
  | .redFmax a b z => Sys2Proof.Machine.execRedFmax a b z s
  | .redFmin a b z => Sys2Proof.Machine.execRedFmin a b z s
  | .vadd d a b k t => Sys2Proof.Machine.execVadd d a b k t s
  | .vsub d a b k t => Sys2Proof.Machine.execVsub d a b k t s
  | .vmul d a b k t => Sys2Proof.Machine.execVmul d a b k t s
  | .vmulh d a b k t => Sys2Proof.Machine.execVmulh d a b k t s
  | .vmin d a b k t => Sys2Proof.Machine.execVmin d a b k t s
  | .vmax d a b k t => Sys2Proof.Machine.execVmax d a b k t s
  | .vand d a b k t => Sys2Proof.Machine.execVand d a b k t s
  | .vor d a b k t => Sys2Proof.Machine.execVor d a b k t s
  | .vxor d a b k t => Sys2Proof.Machine.execVxor d a b k t s
  | .vsll d a b k t => Sys2Proof.Machine.execVsll d a b k t s
  | .vsrl d a b k t => Sys2Proof.Machine.execVsrl d a b k t s
  | .vsra d a b k t => Sys2Proof.Machine.execVsra d a b k t s
  | .vabs d a k t => Sys2Proof.Machine.execVabs d a k t s
  | .vneg d a k t => Sys2Proof.Machine.execVneg d a k t s
  | .vadds d a b k t => Sys2Proof.Machine.execVadds d a b k t s
  | .vsubs d a b k t => Sys2Proof.Machine.execVsubs d a b k t s
  | .vclz d a k t => Sys2Proof.Machine.execVclz d a k t s
  | .vpop d a k t => Sys2Proof.Machine.execVpop d a k t s
  | .vfadd d a b k t r => Sys2Proof.Machine.execVfadd d a b k t r s
  | .vfsub d a b k t r => Sys2Proof.Machine.execVfsub d a b k t r s
  | .vfmul d a b k t r => Sys2Proof.Machine.execVfmul d a b k t r s
  | .vfdiv d a b k t r => Sys2Proof.Machine.execVfdiv d a b k t r s
  | .vfmin d a b k t r => Sys2Proof.Machine.execVfmin d a b k t r s
  | .vfmax d a b k t r => Sys2Proof.Machine.execVfmax d a b k t r s
  | .vfma d a b k t r => Sys2Proof.Machine.execVfma d a b k t r s
  | .vfms d a b k t r => Sys2Proof.Machine.execVfms d a b k t r s
  | .vfnma d a b k t r => Sys2Proof.Machine.execVfnma d a b k t r s
  | .vfnms d a b k t r => Sys2Proof.Machine.execVfnms d a b k t r s
  | .vfsqrt d a k t r => Sys2Proof.Machine.execVfsqrt d a k t r s
  | .vfabs d a k t r => Sys2Proof.Machine.execVfabs d a k t r s
  | .vfneg d a k t r => Sys2Proof.Machine.execVfneg d a k t r s
  | .vceq d a b k t => Sys2Proof.Machine.execVceq d a b k t s
  | .vcne d a b k t => Sys2Proof.Machine.execVcne d a b k t s
  | .vclt d a b k t => Sys2Proof.Machine.execVclt d a b k t s
  | .vcle d a b k t => Sys2Proof.Machine.execVcle d a b k t s
  | .vcgt d a b k t => Sys2Proof.Machine.execVcgt d a b k t s
  | .vcge d a b k t => Sys2Proof.Machine.execVcge d a b k t s
  | .vcvt d a x u k t r => Sys2Proof.Machine.execVcvt d a x u k t r s
  | .vq d a b k q r => Sys2Proof.Machine.execVq d a b k q r s
  | .vqs d a b k q r => Sys2Proof.Machine.execVqs d a b k q r s
  | .vsx d a k => Sys2Proof.Machine.execVsx d a k s
  | .vrsum d a k t => Sys2Proof.Machine.execVrsum d a k t s
  | .vrmin d a k t => Sys2Proof.Machine.execVrmin d a k t s
  | .vrmax d a k t => Sys2Proof.Machine.execVrmax d a k t s
  | .vrand d a k t => Sys2Proof.Machine.execVrand d a k t s
  | .vror d a k t => Sys2Proof.Machine.execVror d a k t s
  | .vrxor d a k t => Sys2Proof.Machine.execVrxor d a k t s
  | .vperm d a b k e => Sys2Proof.Machine.execVperm d a b k e s
  | .vbcast d a k e => Sys2Proof.Machine.execVbcast d a k e s
  | .vslup d a b k e => Sys2Proof.Machine.execVslup d a b k e s
  | .vsldn d a b k e => Sys2Proof.Machine.execVsldn d a b k e s
  | .vzip d a b k e => Sys2Proof.Machine.execVzip d a b k e s
  | .vunzip d a b k e => Sys2Proof.Machine.execVunzip d a b k e s
  | .vcompr d a k e => Sys2Proof.Machine.execVcompr d a k e s
  | .vexpand d a k e => Sys2Proof.Machine.execVexpand d a k e s
  | .mand d a b => Sys2Proof.Machine.execMand d a b s
  | .mor d a b => Sys2Proof.Machine.execMor d a b s
  | .mxor d a b => Sys2Proof.Machine.execMxor d a b s
  | .mandn d a b => Sys2Proof.Machine.execMandn d a b s
  | .mnot d a => Sys2Proof.Machine.execMnot d a s
  | .mpop d a => Sys2Proof.Machine.execMpop d a s
  | .mfirst d a => Sys2Proof.Machine.execMfirst d a s
  | .mfrom d a => Sys2Proof.Machine.execMfrom d a s
  | .mto d a => Sys2Proof.Machine.execMto d a s
  | .vld d a b k l t => Sys2Proof.Machine.execVld d a b k l t s
  | .vst d a b k t => Sys2Proof.Machine.execVst d a b k t s
  | .vgath d a b k l e => Sys2Proof.Machine.execVgath d a b k l e s
  | .vscat d a b k l e => Sys2Proof.Machine.execVscat d a b k l e s
  | .vamoAdd32 d a b k l => Sys2Proof.Machine.execVamoAdd32 d a b k l s
  | .vamoAdd64 d a b k l => Sys2Proof.Machine.execVamoAdd64 d a b k l s
  | .vamoMax32 d a b k l => Sys2Proof.Machine.execVamoMax32 d a b k l s
  | .vamoMin32 d a b k l => Sys2Proof.Machine.execVamoMin32 d a b k l s
  | .vamoMaxn32 d a b k l => Sys2Proof.Machine.execVamoMaxn32 d a b k l s
  | .vamoMinn32 d a b k l => Sys2Proof.Machine.execVamoMinn32 d a b k l s
  | .vamoFadd32 d a b k l => Sys2Proof.Machine.execVamoFadd32 d a b k l s
  | .vamoFmax32 d a b k l => Sys2Proof.Machine.execVamoFmax32 d a b k l s
  | .vamoFmin32 d a b k l => Sys2Proof.Machine.execVamoFmin32 d a b k l s
  | .vamoSwap32 d a b k l => Sys2Proof.Machine.execVamoSwap32 d a b k l s
  | .vamoSwap64 d a b k l => Sys2Proof.Machine.execVamoSwap64 d a b k l s
  | .spawn a => Sys2Proof.Machine.execSpawn a s
  | .popd d => Sys2Proof.Machine.execPopd d s
  | .tenq a b => Sys2Proof.Machine.execTenq a b s
  | .tend => Sys2Proof.Machine.execTend s
  | .join a => Sys2Proof.Machine.execJoin a s
  | .aset a b im => Sys2Proof.Machine.execAset a b im s
  | .msg a b => Sys2Proof.Machine.execMsg a b s
  | .evr d => Sys2Proof.Machine.execEvr d s
  | .ewt a q => Sys2Proof.Machine.execEwt a q s
  | .barArv g n => Sys2Proof.Machine.execBarArv g n s
  | .barWt g n => Sys2Proof.Machine.execBarWt g n s
  | .barMax d a g n => Sys2Proof.Machine.execBarMax d a g n s
  | .fence c => Sys2Proof.Machine.execFence c s
  | .fenceAcq c => Sys2Proof.Machine.execFenceAcq c s
  | .fenceRel c => Sys2Proof.Machine.execFenceRel c s
  | .trap n => Sys2Proof.Machine.execTrap n s
  | .rett => Sys2Proof.Machine.execRett s
  | .wfe => Sys2Proof.Machine.execWfe s
  | .fret => Sys2Proof.Machine.execFret s
  | .fres a => Sys2Proof.Machine.execFres a s
  | .hreq a => Sys2Proof.Machine.execHreq a s
  | .tmark a => Sys2Proof.Machine.execTmark a s
  | .tlbi a b => Sys2Proof.Machine.execTlbi a b s
  | .wpaStop a b im => Sys2Proof.Machine.execWpaStop a b im s
  | .wpaGang a b im => Sys2Proof.Machine.execWpaGang a b im s
  | .wpaRec a b im => Sys2Proof.Machine.execWpaRec a b im s
  | .wpaOff im => Sys2Proof.Machine.execWpaOff im s
  | .csrr d c => Sys2Proof.Machine.execCsrr d c s
  | .csrw a c => Sys2Proof.Machine.execCsrw a c s
  | .csrs d a c => Sys2Proof.Machine.execCsrs d a c s
  | .csrc d a c => Sys2Proof.Machine.execCsrc d a c s
  | .prMma e la role bank evn sw p str m n k fa fb => Sys2Proof.Machine.execPrMma e la role bank evn sw p str m n k fa fb s
  | .prSma e la role bank evn spa spb sw p str m n k fa fb moff => Sys2Proof.Machine.execPrSma e la role bank evn spa spb sw p str m n k fa fb moff s
  | .prMdl e la evn src len moff => Sys2Proof.Machine.execPrMdl e la evn src len moff s
  | .prAcz e la bank evn both => Sys2Proof.Machine.execPrAcz e la bank evn both s
  | .prOut e la bank evn add clr sat rm dk d dstr ofmt m n osc ncore => Sys2Proof.Machine.execPrOut e la bank evn add clr sat rm dk d dstr ofmt m n osc ncore s
  | .prScb e la evn sb db shift => Sys2Proof.Machine.execPrScb e la evn sb db shift s
  | .cpNd la evn desc => Sys2Proof.Machine.execCpNd la evn desc s
  | .cpPullTake la evn src dst tag => Sys2Proof.Machine.execCpPullTake la evn src dst tag s
  | .cpPullRelease la evn src units => Sys2Proof.Machine.execCpPullRelease la evn src units s
  | .kickPipe la pipe src len kt => Sys2Proof.Machine.execKickPipe la pipe src len kt s
  | .kickManual la pipe src len kt => Sys2Proof.Machine.execKickManual la pipe src len kt s
  | .gaGat la evn esz idx base dst count => Sys2Proof.Machine.execGaGat la evn esz idx base dst count s
  | .gaUpd la evn op t idx base vals count => Sys2Proof.Machine.execGaUpd la evn op t idx base vals count s
  | .gaPrb la evn tl keys table dst count => Sys2Proof.Machine.execGaPrb la evn tl keys table dst count s
  | .miCfg la evn base osz isz nslot => Sys2Proof.Machine.execMiCfg la evn base osz isz nslot s
  | .miQry la mode evn rd key step inp count out => Sys2Proof.Machine.execMiQry la mode evn rd key step inp count out s
  | .miPut la evn key step src len => Sys2Proof.Machine.execMiPut la evn key step src len s
  | .miClrKey la evn key => Sys2Proof.Machine.execMiClrKey la evn key s
  | .miClrAll la evn => Sys2Proof.Machine.execMiClrAll la evn s
  | .registerWrite src a v => Sys2Proof.Machine.execRegisterWrite src a v s
  | .longLatencyCompletion c im => Sys2Proof.Machine.execLongLatencyCompletion c im s
  | .storeBufferLeave c => Sys2Proof.Machine.execStoreBufferLeave c s
  | .writeThroughArrival im => Sys2Proof.Machine.execWriteThroughArrival im s
  | .reductionApply im => Sys2Proof.Machine.execReductionApply im s
  | .pinWindowExpiry d im => Sys2Proof.Machine.execPinWindowExpiry d im s
  | .sliceRetry im => Sys2Proof.Machine.execSliceRetry im s
  | .heldWriteResend im => Sys2Proof.Machine.execHeldWriteResend im s
  | .pageFaultRecordWrite d => Sys2Proof.Machine.execPageFaultRecordWrite d s
  | .prnWrite c v => Sys2Proof.Machine.execPrnWrite c v s
  | .selectNextWork c => Sys2Proof.Machine.execSelectNextWork c s
  | .contextSaveSlotWait c => Sys2Proof.Machine.execContextSaveSlotWait c s
  | .steal c => Sys2Proof.Machine.execSteal c s
  | .predDecrement im => Sys2Proof.Machine.execPredDecrement im s
  | .messageArrival im => Sys2Proof.Machine.execMessageArrival im s
  | .lockRequest c => Sys2Proof.Machine.execLockRequest c s
  | .commitFrontierSample d => Sys2Proof.Machine.execCommitFrontierSample d s
  | .orderedCommit c x => Sys2Proof.Machine.execOrderedCommit c x s
  | .orderedContextWound k => Sys2Proof.Machine.execOrderedContextWound k s
  | .budgetExpiry c => Sys2Proof.Machine.execBudgetExpiry c s
  | .engineWordStart k e => Sys2Proof.Machine.execEngineWordStart k e s
  | .prismPairing p => Sys2Proof.Machine.execPrismPairing p s
  | .prismSingleEndStart c e => Sys2Proof.Machine.execPrismSingleEndStart c e s
  | .prismStep p => Sys2Proof.Machine.execPrismStep p s
  | .engineWordCompletion c q => Sys2Proof.Machine.execEngineWordCompletion c q s
  | .eventRecordWrite c => Sys2Proof.Machine.execEventRecordWrite c s
  | .heldWordReport c => Sys2Proof.Machine.execHeldWordReport c s
  | .efrAbort c q => Sys2Proof.Machine.execEfrAbort c q s
  | .sliceAgentMessage k => Sys2Proof.Machine.execSliceAgentMessage k s
  | .kickNoticeArrival c => Sys2Proof.Machine.execKickNoticeArrival c s
  | .kickNoticeResend c => Sys2Proof.Machine.execKickNoticeResend c s
  | .pipePull k => Sys2Proof.Machine.execPipePull k s
  | .pullAckArrival im => Sys2Proof.Machine.execPullAckArrival im s
  | .wcntWrite q v => Sys2Proof.Machine.execWcntWrite q v s
  | .queueEnableWrite q v => Sys2Proof.Machine.execQueueEnableWrite q v s
  | .histogramClear q => Sys2Proof.Machine.execHistogramClear q s
  | .queueAgeing q => Sys2Proof.Machine.execQueueAgeing q s
  | .queueEntryStart d => Sys2Proof.Machine.execQueueEntryStart d s
  | .cqNop d j => Sys2Proof.Machine.execCqNop d j s
  | .cqLaunch d j => Sys2Proof.Machine.execCqLaunch d j s
  | .cqCopy d j => Sys2Proof.Machine.execCqCopy d j s
  | .cqSignalWrite d j => Sys2Proof.Machine.execCqSignalWrite d j s
  | .cqSignalAdd d j => Sys2Proof.Machine.execCqSignalAdd d j s
  | .cqWait d j => Sys2Proof.Machine.execCqWait d j s
  | .cqQbarrier d j => Sys2Proof.Machine.execCqQbarrier d j s
  | .queueEntryCompletion d j => Sys2Proof.Machine.execQueueEntryCompletion d j s
  | .gangClaim l => Sys2Proof.Machine.execGangClaim l s
  | .gangUnplace g => Sys2Proof.Machine.execGangUnplace g s
  | .preemptionRequest l => Sys2Proof.Machine.execPreemptionRequest l s
  | .powerWindow d r => Sys2Proof.Machine.execPowerWindow d r s
  | .focusBalance d => Sys2Proof.Machine.execFocusBalance d s
  | .irisHalt g => Sys2Proof.Machine.execIrisHalt g s
  | .irisResume g => Sys2Proof.Machine.execIrisResume g s
  | .irisSnapshot g => Sys2Proof.Machine.execIrisSnapshot g s
  | .fcfgWrite k n v => Sys2Proof.Machine.execFcfgWrite k n v s
  | .facetWindowEnd k n => Sys2Proof.Machine.execFacetWindowEnd k n s
  | .lensClear c => Sys2Proof.Machine.execLensClear c s
  | .warmReset d => Sys2Proof.Machine.execWarmReset d s
  | .linkRetrain d b => Sys2Proof.Machine.execLinkRetrain d b s
  | .wifortReplay d => Sys2Proof.Machine.execWifortReplay d s
  | .wifortLaneFail d j => Sys2Proof.Machine.execWifortLaneFail d j s
  | .scrubTick d => Sys2Proof.Machine.execScrubTick d s
  | .thermalWindow d r => Sys2Proof.Machine.execThermalWindow d r s
  | .thermalShutdown => Sys2Proof.Machine.execThermalShutdown s
  | .powerOnBoot => Sys2Proof.Machine.execPowerOnBoot s
  | .functionReady f => Sys2Proof.Machine.execFunctionReady f s
  | .attestationRequest nonce => Sys2Proof.Machine.execAttestationRequest nonce s
  | .softError site => Sys2Proof.Machine.execSoftError site s
  | .functionFail f => Sys2Proof.Machine.execFunctionFail f s
  | .wifortRequest rq => Sys2Proof.Machine.execWifortRequest rq s

end Sys2Proof.Machine
end

