-- ==== Sys2Proof/Machine/Regs.lean ====
section
/-!
DEFINITION. The registers an instruction names, for the register-count check of decode (R66, R105, R347), and those whose value it
reads, for the register-file error (R381, R340). A device step names none.
-/
namespace Sys2Proof

/-- The register of an operand slot, if it names one (R55). -/
def EOp.regs : EOp → List Machine.RegName
  | .imm _ => []
  | .reg r => [.s r]
@[inherit_doc EOp.regs] def KOp.regs : KOp → List Machine.RegName
  | .imm _ _ _ => []
  | .reg r => [.s r]
/-- RMODE, when a rounding field defers to it (R62). -/
def Rm.csrs : Rm → List Machine.RegName
  | .csr => [.csr .rmode]
  | _ => []

/-- The registers an instruction's fields name, in the order of the fields; `evr` also names D + 1 (R63). -/
def namesOf : Instr → List Machine.RegName
  | .add d a b | .sub d a b | .mul d a b | .mulh d a b | .mulhn d a b | .div d a b _ | .divn d a b _ | .rem d a b _
  | .remn d a b _ | .and d a b | .or d a b | .xor d a b | .sll d a b | .srl d a b | .sra d a b | .rol d a b
  | .ror d a b | .min d a b | .max d a b | .minn d a b | .maxn d a b | .adda d a b | .seq d a b | .sne d a b
  | .slt d a b | .sltn d a b | .sle d a b | .slen d a b | .amoSwap d a b _ _ _ | .amoCas d a b _ _ _
  | .amoAdd d a b _ _ _ | .amoAnd d a b _ _ _ | .amoOr d a b _ _ _ | .amoXor d a b _ _ _ | .amoMax d a b _ _ _
  | .amoMin d a b _ _ _ | .amoMaxn d a b _ _ _ | .amoMinn d a b _ _ _ => [.s d, .s a, .s b]
  | .clz d a | .ctz d a | .pop d a | .addi d a _ | .andi d a _ | .ori d a _ | .xori d a _ | .slli d a _ | .srli d a _
  | .srai d a _ | .rori d a _ | .slti d a _ | .sltin d a _ | .addai d a _ | .ld d a _ _ _ _ | .st d a _ _ _
  | .ldHinted d a _ _ _ _ _ | .barMax d a _ _ | .csrs d a _ | .csrc d a _ => [.s d, .s a]
  | .sel d a b c => [.s d, .s a, .s b, .s c]
  | .li d _ | .lis16 d _ | .lis32 d _ | .lis48 d _ | .popd d | .csrr d _ => [.s d]
  | .beq a b _ | .bne a b _ | .blt a b _ | .bge a b _ | .bltn a b _ | .bgen a b _ | .cmoCln a b _ _ | .cmoInv a b _ _
  | .cmoCli a b _ _ | .redAdd a b _ | .redAnd a b _ | .redOr a b _ | .redXor a b _ | .redMax a b _ | .redMin a b _
  | .redMaxn a b _ | .redMinn a b _ | .redFadd a b _ | .redFmax a b _ | .redFmin a b _ | .tenq a b | .aset a b _
  | .msg a b | .tlbi a b | .wpaStop a b _ | .wpaGang a b _ | .wpaRec a b _ => [.s a, .s b]
  | .br a | .tch a _ _ | .pfL1 a _ | .pfSl a _ | .spawn a | .join a | .ewt a _ | .fres a | .hreq a | .tmark a
  | .csrw a _ => [.s a]
  | .blr a l => [.s a, .s l]
  | .vadd d a b k _ | .vsub d a b k _ | .vmul d a b k _ | .vmulh d a b k _ | .vmin d a b k _ | .vmax d a b k _
  | .vand d a b k _ | .vor d a b k _ | .vxor d a b k _ | .vsll d a b k _ | .vsrl d a b k _ | .vsra d a b k _
  | .vadds d a b k _ | .vsubs d a b k _ | .vfadd d a b k _ _ | .vfsub d a b k _ _ | .vfmul d a b k _ _
  | .vfdiv d a b k _ _ | .vfmin d a b k _ _ | .vfmax d a b k _ _ | .vfma d a b k _ _ | .vfms d a b k _ _
  | .vfnma d a b k _ _ | .vfnms d a b k _ _ | .vperm d a b k _ | .vzip d a b k _ | .vunzip d a b k _ =>
    [.v d, .v a, .v b, .m k]
  | .vabs d a k _ | .vneg d a k _ | .vclz d a k _ | .vpop d a k _ | .vfsqrt d a k _ _ | .vfabs d a k _ _
  | .vfneg d a k _ _ | .vcvt d a _ _ k _ _ | .vsx d a k | .vcompr d a k _ | .vexpand d a k _ => [.v d, .v a, .m k]
  | .vceq d a b k _ | .vcne d a b k _ | .vclt d a b k _ | .vcle d a b k _ | .vcgt d a b k _ | .vcge d a b k _ =>
    [.m d, .v a, .v b, .m k]
  | .vq d a b k _ _ | .vslup d a b k _ | .vsldn d a b k _ => [.v d, .v a, .s b, .m k]
  | .vqs d a b k _ _ => [.s d, .v a, .s b, .m k]
  | .vrsum d a k _ | .vrmin d a k _ | .vrmax d a k _ | .vrand d a k _ | .vror d a k _ | .vrxor d a k _ =>
    [.s d, .v a, .m k]
  | .vbcast d a k _ => [.v d, .s a, .m k]
  | .mand d a b | .mor d a b | .mxor d a b | .mandn d a b => [.m d, .m a, .m b]
  | .mnot d a => [.m d, .m a]
  | .mpop d a | .mfirst d a | .mto d a => [.s d, .m a]
  | .mfrom d a => [.m d, .s a]
  | .vld d a b k _ _ | .vst d a b k _ => [.v d, .s a, .s b, .m k]
  | .vgath d a b k _ _ | .vscat d a b k _ _ | .vamoAdd32 d a b k _ | .vamoAdd64 d a b k _ | .vamoMax32 d a b k _
  | .vamoMin32 d a b k _ | .vamoMaxn32 d a b k _ | .vamoMinn32 d a b k _ | .vamoFadd32 d a b k _
  | .vamoFmax32 d a b k _ | .vamoFmin32 d a b k _ | .vamoSwap32 d a b k _ | .vamoSwap64 d a b k _ =>
    [.v d, .s a, .v b, .m k]
  | .evr d => [.s d, .s (d + 1)]
  | .prMma _ _ _ _ _ _ p str _ _ _ _ _ | .prSma _ _ _ _ _ _ _ _ p str _ _ _ _ _ _ => [.s p] ++ str.regs
  | .prMdl _ _ _ src _ _ => [.s src]
  | .prOut _ _ _ _ _ _ _ _ _ d dstr _ _ _ _ ncore => [.s d] ++ dstr.regs ++ ncore.regs
  | .prScb _ _ _ sb db _ => [.s sb, .s db]
  | .cpNd _ _ desc => [.s desc]
  | .cpPullTake _ _ _ dst _ => [.s dst]
  | .kickPipe _ _ src len kt | .kickManual _ _ src len kt => [.s src] ++ len.regs ++ kt.regs
  | .gaGat _ _ _ idx base dst count => [.s idx, .s base, .s dst] ++ count.regs
  | .gaUpd _ _ _ _ idx base vals count => [.s idx, .s base, .s vals] ++ count.regs
  | .gaPrb _ _ _ keys table dst count => [.s keys, .s table, .s dst] ++ count.regs
  | .miCfg _ _ base _ _ _ => [.s base]
  | .miQry _ _ _ rd key step inp count out => [.s rd, .s key] ++ step.regs ++ [.s inp] ++ count.regs ++ [.s out]
  | .miPut _ _ key step src len => [.s key] ++ step.regs ++ [.s src] ++ len.regs
  | .miClrKey _ _ key => [.s key]
  | _ => []

/-- The registers whose value an instruction reads, with the CSRs that take part in its effect; a D that is kept where lanes are
inactive is not among them. -/
def sourcesOf : Instr → List Machine.RegName
  | .add _ a b | .sub _ a b | .mul _ a b | .mulh _ a b | .mulhn _ a b | .div _ a b _ | .divn _ a b _ | .rem _ a b _
  | .remn _ a b _ | .and _ a b | .or _ a b | .xor _ a b | .sll _ a b | .srl _ a b | .sra _ a b | .rol _ a b
  | .ror _ a b | .min _ a b | .max _ a b | .minn _ a b | .maxn _ a b | .adda _ a b | .seq _ a b | .sne _ a b
  | .slt _ a b | .sltn _ a b | .sle _ a b | .slen _ a b | .beq a b _ | .bne a b _ | .blt a b _ | .bge a b _
  | .bltn a b _ | .bgen a b _ | .cmoCln a b _ _ | .cmoInv a b _ _ | .cmoCli a b _ _ | .amoSwap _ a b _ _ _
  | .amoAdd _ a b _ _ _ | .amoAnd _ a b _ _ _ | .amoOr _ a b _ _ _ | .amoXor _ a b _ _ _ | .amoMax _ a b _ _ _
  | .amoMin _ a b _ _ _ | .amoMaxn _ a b _ _ _ | .amoMinn _ a b _ _ _ | .redAdd a b _ | .redAnd a b _ | .redOr a b _
  | .redXor a b _ | .redMax a b _ | .redMin a b _ | .redMaxn a b _ | .redMinn a b _ | .redFadd a b _ | .redFmax a b _
  | .redFmin a b _ | .tenq a b | .aset a b _ | .msg a b | .tlbi a b | .wpaStop a b _ | .wpaGang a b _ | .wpaRec a b _ =>
    [.s a, .s b]
  | .lis16 d _ | .lis32 d _ | .lis48 d _ => [.s d]
  | .clz _ a | .ctz _ a | .pop _ a | .addi _ a _ | .andi _ a _ | .ori _ a _ | .xori _ a _ | .slli _ a _ | .srli _ a _
  | .srai _ a _ | .rori _ a _ | .slti _ a _ | .sltin _ a _ | .addai _ a _ | .br a | .blr a _ | .ld _ a _ _ _ _
  | .ldHinted _ a _ _ _ _ _ | .tch a _ _ | .pfL1 a _ | .pfSl a _ | .mfrom _ a | .spawn a | .join a | .hreq a
  | .tmark a | .csrw a _ => [.s a]
  | .sel _ a b c => [.s a, .s b, .s c]
  | .ret => [.s 1]
  | .st d a _ _ _ => [.s d, .s a]
  | .amoCas d a b _ _ _ => [.s d, .s a, .s b]
  | .vadd _ a b k _ | .vsub _ a b k _ | .vmul _ a b k _ | .vmulh _ a b k _ | .vmin _ a b k _ | .vmax _ a b k _
  | .vand _ a b k _ | .vor _ a b k _ | .vxor _ a b k _ | .vsll _ a b k _ | .vsrl _ a b k _ | .vsra _ a b k _
  | .vadds _ a b k _ | .vsubs _ a b k _ | .vceq _ a b k _ | .vcne _ a b k _ | .vclt _ a b k _ | .vcle _ a b k _
  | .vcgt _ a b k _ | .vcge _ a b k _ | .vperm _ a b k _ | .vzip _ a b k _ | .vunzip _ a b k _ => [.v a, .v b, .m k]
  | .vabs _ a k _ | .vneg _ a k _ | .vclz _ a k _ | .vpop _ a k _ | .vsx _ a k | .vrmin _ a k _ | .vrmax _ a k _
  | .vrand _ a k _ | .vror _ a k _ | .vrxor _ a k _ | .vcompr _ a k _ | .vexpand _ a k _ => [.v a, .m k]
  | .vfadd _ a b k _ r | .vfsub _ a b k _ r | .vfmul _ a b k _ r | .vfdiv _ a b k _ r | .vfmin _ a b k _ r
  | .vfmax _ a b k _ r => [.v a, .v b, .m k] ++ r.csrs
  | .vfma d a b k _ r | .vfms d a b k _ r | .vfnma d a b k _ r | .vfnms d a b k _ r => [.v d, .v a, .v b, .m k] ++ r.csrs
  | .vfsqrt _ a k _ r | .vfabs _ a k _ r | .vfneg _ a k _ r | .vcvt _ a _ _ k _ r => [.v a, .m k] ++ r.csrs
  | .vq _ a b k _ r => [.v a, .s b, .m k] ++ r.csrs
  | .vqs _ a _ k _ r => [.v a, .m k, .csr .qmode] ++ r.csrs
  | .vrsum _ a k _ => [.v a, .m k, .csr .rmode]
  | .vbcast _ a k _ => [.s a, .m k]
  | .vslup _ a b k _ | .vsldn _ a b k _ => [.v a, .s b, .m k]
  | .mand _ a b | .mor _ a b | .mxor _ a b | .mandn _ a b => [.m a, .m b]
  | .mnot _ a | .mpop _ a | .mfirst _ a | .mto _ a => [.m a]
  | .vld _ a b k _ _ => [.s a, .s b, .m k, .csr .rmode, .csr .vprog]
  | .vst d a b k _ => [.v d, .s a, .s b, .m k, .csr .rmode, .csr .vprog]
  | .vgath _ a b k _ _ => [.s a, .v b, .m k, .csr .vprog]
  | .vscat d a b k _ _ | .vamoAdd32 d a b k _ | .vamoAdd64 d a b k _ | .vamoMax32 d a b k _ | .vamoMin32 d a b k _
  | .vamoMaxn32 d a b k _ | .vamoMinn32 d a b k _ | .vamoFadd32 d a b k _ | .vamoFmax32 d a b k _
  | .vamoFmin32 d a b k _ | .vamoSwap32 d a b k _ | .vamoSwap64 d a b k _ => [.v d, .s a, .v b, .m k, .csr .vprog]
  | .popd d => [.s d]
  | .evr _ | .wfe => [.csr .evq]
  | .ewt a q => [.s a, .csr (.seq q)]
  | .barMax _ a _ _ => [.s a, .csr .vprog]
  | .trap _ => [.csr .tvec]
  | .rett => [.csr .tepc, .csr .tcause]
  | .fret => [.csr .upsrc]
  | .fres a => [.s a, .csr .upsrc]
  | .csrr _ c => [.csr c]
  | .csrs _ a c | .csrc _ a c => [.s a, .csr c]
  | .prMma _ _ _ _ _ _ p str _ _ _ _ _ | .prSma _ _ _ _ _ _ _ _ p str _ _ _ _ _ _ => [.s p] ++ str.regs
  | .prMdl _ _ _ src _ _ => [.s src]
  | .prOut _ _ _ _ _ _ _ rm _ d dstr _ _ _ _ ncore => [.s d] ++ dstr.regs ++ ncore.regs ++ rm.csrs
  | .prScb _ _ _ sb db _ => [.s sb, .s db]
  | .cpNd _ _ desc => [.s desc, .csr .rmode, .csr .qmode]
  | .cpPullTake _ _ _ dst _ => [.s dst]
  | .kickPipe _ _ src len kt | .kickManual _ _ src len kt => [.s src] ++ len.regs ++ kt.regs
  | .gaGat _ _ _ idx base dst count => [.s idx, .s base, .s dst] ++ count.regs
  | .gaUpd _ _ _ _ idx base vals count => [.s idx, .s base, .s vals] ++ count.regs
  | .gaPrb _ _ _ keys table dst count => [.s keys, .s table, .s dst] ++ count.regs
  | .miCfg _ _ base _ _ _ => [.s base]
  | .miQry _ _ _ _ key step inp count out =>
    [.s key] ++ step.regs ++ [.s inp] ++ count.regs ++ [.s out, .csr .mirth, .csr .mirrun]
  | .miPut _ _ key step src len => [.s key] ++ step.regs ++ [.s src] ++ len.regs
  | .miClrKey _ _ key => [.s key]
  | _ => []

/-- D, the governing mask and the number of lanes of a vector instruction whose inactive lanes read D (R162, R166). -/
def mergedOf : Instr → Option (VReg × MReg × Nat)
  | .vadd d _ _ k t | .vsub d _ _ k t | .vmul d _ _ k t | .vmulh d _ _ k t | .vmin d _ _ k t | .vmax d _ _ k t
  | .vand d _ _ k t | .vor d _ _ k t | .vxor d _ _ k t | .vsll d _ _ k t | .vsrl d _ _ k t | .vsra d _ _ k t
  | .vabs d _ k t | .vneg d _ k t | .vadds d _ _ k t | .vsubs d _ _ k t | .vclz d _ k t | .vpop d _ k t =>
    some (d, k, Machine.laneCount (Machine.intElem t))
  | .vfadd d _ _ k t _ | .vfsub d _ _ k t _ | .vfmul d _ _ k t _ | .vfdiv d _ _ k t _ | .vfmin d _ _ k t _
  | .vfmax d _ _ k t _ | .vfsqrt d _ k t _ | .vfabs d _ k t _ | .vfneg d _ k t _ => some (d, k, Machine.laneCount (Machine.floatElem t))
  | .vcvt d _ _ u k t _ => some (d, k, 512 / max (Machine.elemWidth u) (Machine.elemWidth t))
  | .vq d _ _ k _ _ | .vsx d _ k => some (d, k, 16)
  | .vperm d _ _ k e | .vbcast d _ k e | .vslup d _ _ k e | .vsldn d _ _ k e | .vzip d _ _ k e | .vunzip d _ _ k e =>
    some (d, k, 512 / Machine.esBits e)
  | .vld d _ _ k _ t => some (d, k, Machine.laneCount t)
  | .vgath d _ _ k _ e => some (d, k, 64 / Machine.memBytes e)
  | _ => none

namespace Machine

/-- The class of a register (R347, R381): 0 `s`, 1 `v`, 2 `m`, 3 CSR; and its number. -/
def RegName.cls : RegName → Nat
  | .s _ => 0 | .v _ => 1 | .m _ => 2 | .csr _ => 3
@[inherit_doc RegName.cls] def RegName.num : RegName → Nat
  | .s r => r.toNat | .v r => r.toNat | .m r => r.toNat | .csr _ => 0
/-- NS, NV, NM and NBAR of a kernel header (R103). -/
def hdrCount (h : Vector Word 16) (cls : Nat) : Nat :=
  let w := h.toList.getD 2 0
  match cls with | 0 => bitsOf w 63 58 | 1 => bitsOf w 57 52 | _ => bitsOf w 51 48
@[inherit_doc hdrCount] def hdrBars (h : Vector Word 16) : Nat := bitsOf (h.toList.getD 2 0) 44 40
/-- The first register of an instruction that the header does not declare (R66, R105). DESIGN CHOICE: of several it is the first in the
order of `namesOf`, which DETAIL then gives (log 90). -/
def tooHigh (h : Vector Word 16) (i : Instr) : Option RegName := (namesOf i).find? fun r => decide (hdrCount h r.cls ≤ r.num)
/-- The barrier id of opcode 0x31. -/
def barrierOf : Instr → Option Nat
  | .barArv _ n | .barWt _ n | .barMax _ _ _ n => some n.toNat
  | _ => none
/-- An instruction executes only in system mode (R112); `csrr`, `csrw`, `csrs` and `csrc` of the system registers are among them. -/
def systemOnly : Instr → Bool
  | .rett | .tlbi _ _ => true
  | .csrr _ c | .csrw _ c | .csrs _ _ c | .csrc _ _ c => c.system
  | _ => false

/-- The registers whose value an instruction reads at this state: D where an inactive lane, or a lane below VPROG, keeps it (R162,
R178), and B of `vqs` unless QMODE.SEARCH (R172). -/
def State.valuesRead (s : State) (i : Instr) : List RegName :=
  let x := s.core.ctx
  let kept := match mergedOf i with
    | some (d, k, n) =>
      if (List.range n).all (laneActive (x.readM k) n) && !(decide (x.vprog ≠ 0) && (sourcesOf i).contains (.csr .vprog)) then [] else [RegName.v d]
    | none => []
  let amax := match i with | .vqs _ _ b _ _ _ => if x.qmode.getLsbD 0 then [] else [RegName.s b] | _ => []
  (sourcesOf i) ++ kept ++ amax
/-- The first register in error that an instruction reads; `s0` and `m0` hold no error (R381). -/
def State.badSource (s : State) (i : Instr) : Option RegName :=
  if s.core.ctx.bad.isEmpty then none
  else (s.valuesRead i).find? fun r => s.core.ctx.bad.contains r && decide (r ≠ .s 0 ∧ r ≠ .m 0)

/-- Every stall of the instruction is one that R349 lists: a full engine queue, `bar.arv`, `bar.wt`, `bar.max`, `tend`, `ewt`, `evr` and
`wfe`. Of the others, R349 lists a full store buffer and the wait for a lock or a held line. -/
def listedWait : Instr → Bool
  | .barArv _ _ | .barWt _ _ | .barMax _ _ _ _ | .tend | .ewt _ _ | .evr _ | .wfe => true
  | .prMma .. | .prSma .. | .prMdl .. | .prAcz .. | .prOut .. | .prScb .. | .cpNd .. | .cpPullTake .. | .cpPullRelease .. => true
  | .kickPipe .. | .kickManual .. | .gaGat .. | .gaUpd .. | .gaPrb .. => true
  | .miCfg .. | .miQry .. | .miPut .. | .miClrKey .. | .miClrAll .. => true
  | _ => false

end Machine

end Sys2Proof
end

