-- ==== Sys2Proof/Machine/Due.lean ====
section
/-!
DEFINITION. The order in which the device steps are taken when the agenda names none (log 1): the first that is enabled, among those
the device takes by itself. Steps from outside it (a host write, a Wifort request, an attestation request), soft errors and failures
are taken only when the agenda names them.
-/
namespace Sys2Proof.Machine

/-- A core that no device step concerns. -/
def Core.quiet (k : Core) : Bool :=
  k.image.isNone && k.sb.isEmpty && k.recq.isEmpty && k.pendUp.isNone && k.iris == .running && k.queues.toList.all (·.isEmpty)
/-- The cores a device step may concern, by ascending linear index (R334). -/
def State.busyCores (s : State) : List CoreId :=
  ((s.me.toNat :: ((s.others.filter fun p => !p.2.quiet).map (·.1)) ++ s.signals.map (·.core)).mergeSort.eraseDups).map (BitVec.ofNat 12)
/-- The clusters a device step may concern. -/
def State.busyClusters (s : State) : List ClusterId :=
  ((s.busyCores.map fun c => clusterOf c.toNat) ++ s.clusters.map (·.1)).eraseDups.map fun k => BitVec.ofNat 10 k
/-- The ends of a core, and the queues. -/
def allEnds : List End := [.north, .east, .south, .west]
@[inherit_doc allEnds] def allQueues : List QueueId := [.pn, .pe, .ps, .pw, .cp, .ga, .mi, .kq]
/-- A device step. -/
abbrev Event := State → EvEnd

/-- The steps of a core. -/
def coreEvents (c : CoreId) : List Event :=
  [evIrisHalt (.arrival c), evIrisResume (.arrival c), evIrisSnapshot (.arrival c), evHeldWordReport c, evBudgetExpiry c, evSelectNextWork c, evContextSaveSlotWait c,
    evLockRequest c, evOrderedCommit c 0, evOrderedCommit c 1, evOrderedCommit c 2, evOrderedCommit c 3, evEventRecordWrite c,
    evStoreBufferLeave c, evKickNoticeArrival c, evKickNoticeResend c] ++
  allEnds.map (fun e => evPrismSingleEndStart c e) ++ allQueues.map (fun q => evEngineWordCompletion c q) ++
  allEnds.map (fun e => evPrismPairing (BitVec.ofNat 13 (prismOf c.toNat e))) ++
  allEnds.map fun e => evPrismStep (BitVec.ofNat 13 (prismOf c.toNat e))
/-- The steps of a cluster. -/
def clusterEvents (k : ClusterId) : List Event :=
  [evEngineWordStart k .copy, evEngineWordStart k .gather, evEngineWordStart k .mirror, evSliceAgentMessage k, evPipePull k,
    evOrderedContextWound k] ++ (List.range 16).map fun n => evFacetWindowEnd k (BitVec.ofNat 4 n)
/-- The steps of a dispatcher slot. -/
def slotEvents (d : DieId) (j : SlotNum) : List Event :=
  [evCqNop d j, evCqLaunch d j, evCqCopy d j, evCqSignalWrite d j, evCqSignalAdd d j, evCqWait d j, evCqQbarrier d j,
    evQueueEntryCompletion d j]
/-- The steps of a die. -/
def dieEvents (s : State) (d : DieId) : List Event :=
  [evWarmReset d, evCommitFrontierSample d, evPageFaultRecordWrite d, evFocusBalance d, evScrubTick d, evWifortReplay d] ++
  (List.range 16).flatMap (fun r => [evPowerWindow d (BitVec.ofNat 4 r), evThermalWindow d (BitVec.ofNat 4 r)]) ++
  (List.range (s.dieAt d.toNat).pins.length).map (fun i => evPinWindowExpiry d i) ++
  [0, 1, 2, 3].flatMap (slotEvents d) ++ [evQueueEntryStart d] ++
  (List.range 48).map fun b => evFunctionReady ⟨d, BitVec.ofNat 6 (b + 16)⟩
/-- The steps of what is under way between units. -/
def pathEvents (s : State) : List Event :=
  (List.range s.wts.length).map (fun i => evWriteThroughArrival i) ++ (List.range s.reds.length).map (fun i => evReductionApply i) ++
  (List.range s.refused.length).map (fun i => evSliceRetry i) ++
  (List.range (s.wts.length + s.reds.length + s.decs.length)).map (fun i => evHeldWriteResend i) ++
  (List.range s.decs.length).map (fun i => evPredDecrement i) ++ (List.range s.net.length).map (fun i => evMessageArrival i) ++
  (List.range s.acks.length).map fun i => evPullAckArrival i
/-- The steps of launches, gangs and command queues. -/
def launchEvents (s : State) : List Event :=
  s.launches.flatMap (fun l => [evGangClaim l.1, evPreemptionRequest l.1]) ++ s.gangs.map (fun g => evGangUnplace g.1) ++
  (List.range 64).map fun q => evQueueAgeing (BitVec.ofNat 6 q)
/-- All steps the device may take by itself, in order; idle cores steal last. -/
def State.events (s : State) : List Event :=
  [evPowerOnBoot] ++ s.busyCores.flatMap coreEvents ++ s.busyClusters.flatMap clusterEvents ++ pathEvents s ++ launchEvents s ++
  [0, 1, 2, 3].flatMap (dieEvents s) ++ s.busyCores.map fun c => evSteal c
/-- The first enabled step. -/
def State.due (s : State) : EvEnd := EvEnd.first s s.events

end Sys2Proof.Machine
end

