-- ==== Sys2Proof/Machine/Signals.lean ====
section
/-!
DEFINITION. The raw signals of the Facet arrays (R315) in a step, and the cycles that the counters see of it (R316).
-/
namespace Sys2Proof.Machine

/-! ### Signals of a core -/

/-- A core stalls in an instruction that a test accepts. -/
def Core.stalledIn (k : Core) (p : Instr → Bool) : Bool := k.runs && k.waiting && match k.ctx.instr with | some i => p i | none => false
/-- The head word of an end is paired and under way. -/
def Core.stepping (k : Core) (q : Nat) : Bool := match (k.queue q).head? with | some w => w.paired && decide (w.st = .started) | none => false
/-- The head word of an end has performed a Prism step between two states of its core. -/
def Core.stepped (k l : Core) (q : Nat) : Bool :=
  match (k.queue q).head?, (l.queue q).head? with
  | some v, some w => v.paired && v.seq = w.seq && (decide (v.pos ≠ w.pos) || (decide (v.st = .started) && match w.st with | .finished _ => true | _ => false))
  | _, _ => false
/-- Signals 1 to 5, 8, 10, 14 and 20 to 23 of a core are states: `l` is the core after a step, `k` before it. -/
def Core.level (k l : Core) (i : Nat) : Bool :=
  match i with
  | 1 => l.runs && l.waiting && l.blocked false
  | 2 => l.runs && l.waiting && decide (wMaj l.ctx.ir = 0x3F) && decide (8 ≤ (l.queue (l.ctx.ir.toNat / 2 ^ 22 % 16)).length)
  | 3 => l.unpaired
  | 4 => l.stalledIn fun j => match j with | .barArv _ _ | .barWt _ _ | .barMax _ _ _ _ => true | _ => false
  | 5 => l.stalledIn fun j => match j with | .evr _ | .ewt _ _ | .wfe => true | _ => false
  | 8 => decide (16 ≤ l.sb.length)
  | 10 => l.runs && !l.ctx.lockWait.isEmpty
  | 14 => l.runs && l.ctx.upcallCode
  | i => decide (20 ≤ i) && l.stepping (i - 20) && !k.stepped l (i - 20)
/-- A context has been wounded: its activation has one restart more, or is a queued ordered task again (R249, R253). -/
def Ctx.wounded (x y : Ctx) (d : Die) : Bool :=
  decide (x.st ≠ .free) && (decide (x.task = y.task ∧ x.restarts < y.restarts) || (decide (x.task ≠ y.task ∧ x.cls = 2) && d.ordered.any (·.tcb = x.tcb)))
/-- Signals 11, 12 and 15 to 19 of core `c` are events of a step from `s` to `t`; 0, 6, 7 and 13 are noted where they happen. -/
def State.coreEvent (s t : State) (c i : Nat) : Bool :=
  let k := s.coreAt c
  let l := t.coreAt c
  let x := k.ctx
  let y := l.getCtx x.num
  match i with
  | 11 => k.ctxs.any fun x => x.wounded (l.getCtx x.num) (t.dieAt (dieOf c))
  | 12 => x.num ≠ l.ctx.num
  | 15 => x.st = .run && y.task = x.task && y.fstat &&& ~~~x.fstat ≠ 0
  | i => decide (16 ≤ i ∧ i < 20) && k.stepped l (i - 16)

/-! ### Signals of a cluster -/

/-- An engine of a cluster works on a word of queue `q`. -/
def State.engineBusy (s : State) (k q : Nat) : Bool :=
  (clusterCores k).any fun c => match s.headWord c q with
    | some w => w.begun && (match w.st with | .queued | .started => true | _ => false)
    | none => false
/-- The oldest store of a core's buffer waits at a line in EO (R240), a directory recall. -/
def State.storeRecalled (s : State) (c : Nat) : Bool :=
  match (s.coreAt c).sb.head? with | some e => isPhys e.loc && s.engineOwned (dieOf c) e.loc | none => false
/-- Signals 1 to 3, 6, 8 and 10 of a cluster. The recalls of its loads, atomics and reductions are noted where they wait. -/
def State.clusterLevel (s : State) (k j : Nat) : Bool :=
  match j with
  | 1 => s.engineBusy k 4 || decide (0 < s.pulling k)
  | 2 => s.engineBusy k 5
  | 3 => s.engineBusy k 6
  | 6 => decide (8 ≤ (s.clusterAt k).kick.length)
  | 8 => decide (0 < s.pulling k)
  | 10 => (clusterCores k).any s.storeRecalled
  | _ => false
/-- The lowest arrival count of a cluster barrier's members (R233). -/
def State.barrierLow (s : State) (k n : Nat) : Nat :=
  ((clusterCores k).filter fun c => match (s.coreAt c).image with | some i => decide (n < hdrBars i.hdr) | none => false).foldl
    (fun m c => min m ((s.coreAt c).arrivals false n)) (2 ^ 64)
/-- A `kick` of core `c` to cluster `k` is refused in a step. -/
def State.refusedAt (s t : State) (k c : Nat) : Bool :=
  match s.headWord c 7, t.headWord c 7 with
  | some v, some w => decide (v.st = .queued ∧ w.st = .started) && (match s.noticeOf c v with | some n => decide (clusterOf n.rcv.toNat = k) | none => false)
  | _, _ => false
/-- Signals 7 and 9 of a cluster; 4, 5 and 10 are noted where they happen. -/
def State.clusterEvent (s t : State) (k j : Nat) : Bool :=
  match j with
  | 7 => s.liveCores.any (s.refusedAt t k)
  | 9 => (List.range 16).any fun n => decide (s.barrierLow k n < t.barrierLow k n)
  | _ => false

/-! ### Sampling -/

/-- A raw signal is high as a state after the step from `s` to `t`; the bank conflicts depend on timing and are free (log 21). -/
def State.signalLevel (s t : State) (k j i : Nat) : Bool :=
  if i < 96 then
    (if i % 24 = 9 then Config.facetSignal (t.fv + j) (128 * k + i)
     else (s.coreAt (clusterCore k (i / 24))).level (t.coreAt (clusterCore k (i / 24))) (i % 24))
  else if i = 96 then Config.facetSignal (t.fv + j) (128 * k + i)
  else t.clusterLevel k (i - 96)
/-- A raw signal is an event of the step. -/
def State.signalEvent (s t : State) (k i : Nat) : Bool :=
  if i < 96 then s.coreEvent t (clusterCore k (i / 24)) (i % 24) else s.clusterEvent t k (i - 96)
/-- The counters of a cluster over a step of `n` cycles: its events, and those noted before in the same cycle, are high in the first. -/
def Cluster.sample (x : Cluster) (s t : State) (k n : Nat) : Cluster :=
  let pulse := (List.range 128).foldl (fun (p : BitVec 128) i => if s.signalEvent t k i then p ||| (1 <<< i) else p) x.pulse
  if n = 0 then { x with pulse := pulse }
  else
    let sig := fun (j i : Nat) => s.signalLevel t k j i || (decide (j = 0) && pulse.getLsbD i)
    { x with pulse := 0, facet := x.facet.map (Facet.cycles sig n 0) }
/-- The Facet arrays see the step from `s` to `t` (R315, R316): each cycle once. -/
def State.sampleFacets (s t : State) : State :=
  if t.clusters.all fun p => !p.2.counts then t
  else
    let n := t.time - s.time
    { t with
      fv := t.fv + n
      clusters := t.clusters.map fun (p : Nat × Cluster) => if p.2.counts then (p.1, p.2.sample s t p.1 n) else p }
/-- Core `c` has issued an instruction (signal 0 of R315). -/
def State.noteIssue (s : State) (c : Nat) : State := s.coreSignal c 0

end Sys2Proof.Machine
end

