-- ==== Sys2Proof/Machine/Issue.lean ====
section
/-!
DEFINITION. One step of a core: what comes before its next instruction, the decode checks (R65, R66), privilege
and register errors (R340), the instruction itself, and the passing of time with BUDGET (R96). Machine/Step.lean only calls these.
-/
namespace Sys2Proof.Machine

/-! ### Time and BUDGET (R96, R345, R362, log 3) -/

/-- A context keeps its gang under fault service (R345). -/
def Ctx.serviced (x : Ctx) : Bool := (x.excMode && x.st != .free) || x.st == .park || x.st == .wake
/-- The gang is under fault service (R345), or a word of it is held (R362). -/
def State.serviced (s : State) (g : Nat) : Bool :=
  let here := fun (k : Core) =>
    (k.image.map (·.gang) == some g && k.ctxs.any Ctx.serviced) || k.queues.toList.any fun q => q.any fun w => w.heldNow && w.gang == g
  here s.core || s.others.any (fun p => here p.2) || s.dies.toList.any fun y => y.saved.any fun v => v.gang == g
/-- The words that an instruction waits on: `tend` for those of its task, `ewt` for a queue's, `wfe` for any (R201). -/
def Core.waitsOn (k : Core) (q : Nat) (w : EWord) : Bool :=
  match k.ctx.instr with
  | some .tend => w.task == k.ctx.task
  | some (.ewt _ p) => w.task == k.ctx.task && queueCode p == q
  | some .wfe => w.task == k.ctx.task
  | _ => false
/-- The task waits in `tend`, `ewt` or `wfe` on a Prism word that is marked partner-absent (R96, R201). -/
def State.partnerWait (s : State) (c : Nat) (k : Core) : Bool :=
  k.waiting && allEnds.any fun e =>
    match (k.queue (endCode e)).head? with
    | some w => k.waitsOn (endCode e) w && s.partnerAbsent c e w
    | none => false
/-- BUDGET of a core's RUN context counts down (R96). -/
def State.counts (s : State) (c : Nat) (k : Core) : Bool :=
  k.runs && k.ctx.mode == .task && !k.ctx.upcallCode && !(k.image.any fun i => s.serviced i.gang) && !s.partnerWait c k
/-- A message under way at its receiver starts `n` cycles later. -/
def LensTag.later (n : Nat) (t : LensTag) : LensTag := { t with start := t.start + n }
/-- `n` cycles pass for a core. While it is HALTED they count as queue wait of the messages it has started (R313). -/
def State.spend (s : State) (n c : Nat) (k : Core) : Core :=
  if k.iris = .halted then
    let halted := fun (x : Ctx) => { x with lens := x.lens.map (·.later n) }
    { k with ctx := halted k.ctx, rest := k.rest.map halted }
  else if s.counts c k then { k with ctx := { k.ctx with budget := k.ctx.budget - w64 (min n k.ctx.budget.toNat) } } else k
/-- So they do of the pulls of a HALTED core's notices, and of its saved contexts (R313). -/
def State.spendHalted (s : State) (n : Nat) : State :=
  let halted := fun (c : Nat) => decide ((s.coreAt c).iris = .halted)
  if s.liveCores.all (!halted ·) then s else
  let notice := fun (x : Notice) => if halted x.rcv.toNat then { x with start := x.start.map (· + n) } else x
  let saved := fun (v : Saved) => if halted v.core then { v with ctx := { v.ctx with lens := v.ctx.lens.map (·.later n) } } else v
  { s with
    clusters := s.clusters.map fun (p : Nat × Cluster) => (p.1, { p.2 with kick := p.2.kick.map notice })
    dies := s.dies.map fun (y : Die) => { y with saved := y.saved.map saved } }
/-- The power region of a core has passed TCRIT, so it issues in alternate cycles (R395). -/
def State.slowed (s : State) (c : Nat) : Bool := (s.dieAt (dieOf c)).hot.toList.getD (4 * (rowOf c / 8) + colOf c / 8) false
/-- Time passes with a step, which the core in focus is charged for or not; command queues note what they wait for from now (R294). -/
def State.pass (s : State) (charge : Bool) : State :=
  let n := Config.cycles s.fv + (if s.slowed s.me.toNat then 1 else 0)
  let s := s.noteQueues.spendHalted n
  { s with
    time := s.time + n, fv := s.fv + 1, core := if charge then s.spend n s.me.toNat s.core else s.core
    others := s.others.map fun p => (p.1, s.spend n p.1 p.2) }
@[inherit_doc State.pass] def State.tick (s : State) : State := s.pass true

/-! ### Decode and checks -/

/-- DETAIL of a reserved instruction (R348). -/
def DecodeError.detail : DecodeError → Nat
  | .slot j _ => j
  | _ => 0
/-- The instruction of the words, or the exception of R65. -/
def decodeHere (ws : List W32) : Act Instr := do
  let pc := (← get).pc
  match decodeWords (pc.toNat % 32 = 0) ws with
  | .ok i => return i
  | .error e => raise { code := 0x001, detail := DecodeError.detail e }
/-- The kernel header that decode checks against (R347). -/
def Core.header (k : Core) : Vector Word 16 := (k.image.map (·.hdr)).getD (Vector.replicate 16 0)
/-- Privilege (R112, R321), then an error in a register the instruction reads (R340, R381). -/
def State.privilege (s : State) (i : Instr) : Option Exc :=
  let denied := match i with | .hreq a => s.hreqDenied a | _ => systemOnly i && decide (s.core.ctx.mode = Mode.task)
  if denied then some { code := 0x004 }
  else (s.badSource i).map fun r => { code := 0x083, detail := r.cls, stop := true }
/-- The barrier count (R66, R105, R347), then the other checks. -/
def State.barrierCheck (s : State) (i : Instr) : Option Exc :=
  match barrierOf i with
  | some n => if hdrBars s.core.header ≤ n then some { code := 0x003, detail := n } else s.privilege i
  | none => s.privilege i
/-- The first condition that stops an instruction before its effect: the register count (R66, R105, R347) comes first. -/
def State.obstacle (s : State) (i : Instr) : Option Exc :=
  match tooHigh s.core.header i with
  | some r => some { code := 0x002, detail := 64 * r.cls + r.num }
  | none => s.barrierCheck i
/-- The next instruction of the context in focus, fetched, decoded and checked. -/
def nextInstr : Act Instr := do
  let ws ← fetchInstr
  let i ← decodeHere ws
  match (← get).obstacle i with
  | some e => raise e
  | none => return i

/-! ### Issue -/

/-- After an instruction: its open windows have one instruction less to go (R69), or it waits, and time passes; the switch of `fres` is
charged to no budget (R129). -/
def State.after (s : State) (i : Instr) : State :=
  if s.core.waiting then ({ s with core := { s.core with firm := s.core.firm && !listedWait i } } : State).tick
  else ((s.updCtx Ctx.ageWindows).noteIssue s.me.toNat).pass (match i with | .fres _ => false | _ => true)
/-- A state reached, with more to do. -/
def thenDo (o : Host.Outcome State Fault Refusal) (f : State → State) : Host.Outcome State Fault Refusal :=
  match o with
  | .next s => .next (f s)
  | .fault r => .fault r
  | .refused r => .refused r
/-- Windows with no instruction left end, and the core tries its instruction (R69). -/
def State.ready (s : State) : State :=
  ({ s with core := { s.core with waiting := false, firm := true } }).updCtx (·.closeWindows false)
/-- The next instruction is fetched and runs. -/
def issueNow (s : State) : Host.Outcome State Fault Refusal :=
  match nextInstr s.ready with
  | .ok i s' => thenDo (exec i s') (·.after i)
  | .error e s' => thenDo (finish (throw e) s') State.tick
/-- The core in focus can issue: it is out of reset, its context is RUN, and no request of it waits after a refusal (R385). -/
def State.canIssue (s : State) : Bool :=
  s.released && s.core.runs && !s.refused.any fun r => r.core == s.me.toNat && !r.sent
/-- One step of the core in focus: a held word's report or the expiry of BUDGET at its boundary (R349, R361), a wait for a window
(R69), or its next instruction. -/
def issueStep (s : State) : Host.Outcome State Fault Refusal :=
  if !s.canIssue then .next s.tick
  else match EvEnd.first s [evHeldWordReport s.me, evBudgetExpiry s.me] with
    | .done t => .next t.tick
    | .fault f => .fault f
    | .off =>
      if s.core.blocked false then .next ({ s with core := { s.core with waiting := true, firm := false } } : State).tick
      else issueNow s
/-- The agenda without its first move that need not wait, and that move; writes of the queue registers wait while die 0 is reset
(R393). -/
def takeMove (s : State) : List Move → Option (Move × List Move)
  | [] => none
  | .event (.registerWrite src a v) :: l =>
    if s.writeWaits src a then (takeMove s l).map fun r => (r.1, .event (.registerWrite src a v) :: r.2)
    else some (.event (.registerWrite src a v), l)
  | m :: l => some (m, l)
/-- Without an agenda: a core that can go on does; else the device takes the next step due, or time passes (log 1). -/
def idleStep (s : State) : Host.Outcome State Fault Refusal :=
  if s.canIssue && !s.core.waiting then issueStep s
  else match s.due with
    | .done t => .next t.tick
    | .fault f => .fault f
    | .off => if s.canIssue then issueStep s else .next s.tick
/-- The next move of the device, or the step taken without one; after a device step, command queues note what they wait for (R294). -/
def moveStep (s : State) : Host.Outcome State Fault Refusal :=
  match takeMove s s.agenda with
  | some (.event i, l) => thenDo (exec i { s with agenda := l }) State.noteQueues
  | some (.issue c, l) => issueStep (({ s with agenda := l }).focus c)
  | none => idleStep s
/-- One step of the device, which the Facet arrays see (R315). -/
def stepOf (s : State) : Host.Outcome State Fault Refusal := thenDo (moveStep s) s.sampleFacets

/-! ### Placing an instruction -/

/-- The header of an image that declares everything (R103): NS 32, NV 32, NM 8, NCTX 4, NBAR 16. -/
def wideHeader : Vector Word 16 := #v[0x4B56594C00010000, 0x0000100000000080, w64 (2 ^ 58 * 32 + 2 ^ 52 * 32 + 2 ^ 48 * 8 + 2 ^ 45 * 4 + 2 ^ 40 * 16),
  0x0001000000080000, 0x0000200000000000, 0x0000000000100000, 0xF000000000000000, 0, 0, 0, 0, 0, 0, 0, 0, 0]
/-- The virtual address `withFetchWord` fetches at, where its page table maps it (R141 to R143). -/
def probeVa : Nat := 0x100010000
@[inherit_doc probeVa] def probePa : Nat := 0x10000
/-- Write bytes to memory. -/
def placeBytes (m : Cells) (a : Nat) (bs : List Byte) : Cells := (spanOf a bs.length).zip bs |>.foldl (fun m p => m.write p.1 p.2) m
/-- An address-context entry at 0x1000, its root entry for 4 GiB, a table at 0x3000 and a table at 0x4000, whose leaf maps the page
at `probeVa`, executable, writable and readable. -/
def placeTables (m : Cells) : Cells :=
  let put := fun (m : Cells) (a x : Nat) => placeBytes m a (leBytes 8 x)
  put (put (put (put m 0x1000 (2 ^ 63 + 0x2000 + 4)) (0x2000 + 8 * 4) (0x3000 + 1)) 0x3000 (0x4000 + 1)) (0x4000 + 8) (probePa + 0x3B)
/-- `s` with the first core's context 0 running a kernel that declares everything, its pc where the words of an instruction lie. -/
def placeInstr (s : State) (bs : List Byte) : State :=
  let ctx : Ctx := { Ctx.reset 0 with st := .run, pc := w64 probeVa, budget := 0xFFFFFFFF, task := 1, tvec := 0 }
  let k : Core := { Core.reset with ctx := ctx, image := some ⟨0, 0, 0, w64 probeVa, wideHeader, 0⟩ }
  { s with
    me := 0, core := k, agenda := .issue 0 :: s.agenda, released := true
    dies := Vector.ofFn fun i => if i.val = 0 then { s.dies[i] with rdy := BitVec.allOnes 64, actb := 0x1000 } else s.dies[i]
    mem := placeBytes (placeTables s.mem) probePa bs }

end Sys2Proof.Machine
end

