-- ==== Sys2Proof/Machine/Step.lean ====
section
/-!
DEFINITION. One step of the device, and a state whose next step fetches a given instruction.
-/
namespace Sys2Proof.Machine

/-- One step of the device (Machine/Issue.lean). -/
def step (s : State) : Host.Outcome State Fault Refusal := stepOf s

/-- `s` with the instruction whose bits are `w`, numbered as spec/opcode_table.json numbers them, placed where `step` fetches its next
instruction: the power-on boot, the launch and the mapping that bring a program to run stand in for by a running context (log 40). -/
def State.withFetchWord (s : State) (nbits w : Nat) : State := placeInstr s (bytesOfNat 32 (w % 2 ^ nbits))

end Sys2Proof.Machine
end

