-- ==== Sys2Proof/Safety.lean ====
section
/-!
DEFINITION. The terms claims are stated in: the canonical form of memory, what two states share, and what an instruction of the core in
focus may change.
-/
namespace Sys2Proof.Machine

/-- Memory is in its canonical form: locations rise strictly and no listed byte reads as an unlisted one does (log 5). -/
abbrev State.Canonical (s : State) : Prop := Memory.wf s.mem = true
/-- A step answers a next state in which `P` holds. -/
def Reaches (o : Host.Outcome State Fault Refusal) (P : State → Prop) : Prop := ∃ t, o = .next t ∧ P t
/-- A read of one byte of memory at its home point (R139). -/
def State.byte (s : State) (l : Nat) : Byte := s.homeByte l
/-- `t` differs from `s` at most in the context in focus. -/
def CtxOnly (s t : State) : Prop := t = s.updCtx fun _ => t.core.ctx
/-- Everything of a context but its pc, its registers, its open windows and its register error marks is as before. -/
def Ctx.SameBut (x y : Ctx) : Prop := y = { x with pc := y.pc, s := y.s, v := y.v, m := y.m, win := y.win, bad := y.bad, fstat := y.fstat }
/-- An open pin of the core's die maps an address of the context in focus, in its address context, to a leaf (R149). -/
def State.Pinned (s : State) (va : Word) (l : Leaf) : Prop :=
  ∃ p, s.pinOf s.myDie s.actx (addr54 va) = some p ∧ p.doomed = false ∧ p.leaf = l
/-- An access of `n` bytes at a global address meets plain memory and nothing that hinders it: a pin maps the page and grants the access (R149,
R354), the memory is homed on the core's own die and answers (R139), no task or engine word holds a line there (R240, R245), no
reduction of the line is under way (R160), nor a write-through that a commit of the line followed (R279), its use count is 0 (R145), the core's
L1D does not hold its line (R136), no byte is in error (R382, R383) and the access asks for no lock (R243). -/
structure State.Plain (s : State) (va : Word) (n : Nat) (acc : Acc) (l : Leaf) : Prop where
  global : isGlobal (addr54 va) = true
  pinned : s.Pinned va l
  page : 7 ≤ l.size ∧ l.pa % 128 = 0
  grants : l.grants s.core.ctx.mode acc = true
  memory : regionOf (l.at (addr54 va)) = .nearSram ∨ regionOf (l.at (addr54 va)) = .gddr
  home : paNode (l.at (addr54 va)) = s.node ∧ paDie (l.at (addr54 va)) = s.myDie
  answers : s.homeError s.myDie (l.at (addr54 va)) va acc.code = none
  free : (s.dieAt s.myDie).locks = [] ∧ (s.dieAt s.myDie).eo = []
  settled : ∀ r ∈ s.reds, r.loc / 128 ≠ l.at (addr54 va) / 128
  followed : ∀ w ∈ s.wts, w.freed.contains (l.at (addr54 va) / 128) = false
  uncounted : ∀ u ∈ (s.dieAt s.myDie).uses, u.line ≠ l.at (addr54 va) / 128
  cold : s.l1Find s.me.toNat false s.actx (addr54 va) = none
  clean : s.flips = [] ∧ s.poison = []
  lockFree : s.core.ctx.lockLines (addr54 va) n = []
/-- An access of `n` bytes at a local address of the core in focus meets memory at location `l`, in no error (R131, R383). -/
structure State.Local (s : State) (a n l : Nat) : Prop where
  here : isGlobal a = false
  window : s.localLoc s.me.toNat a n false = some l
  clean : s.flips = [] ∧ s.poison = []
/-- No store-buffer entry of the core overlaps the locations (R138). -/
def State.Unbuffered (s : State) (l n : Nat) : Prop := ∀ e ∈ s.core.sb, e.overlaps l n = false

/-- An access of `n` bytes at a virtual address meets memory at location `loc`: local, or plain global memory. -/
def State.Meets (s : State) (va : Word) (n : Nat) (acc : Acc) (loc : Nat) : Prop :=
  s.Local (addr54 va) n loc ∨ ∃ l, s.Plain va n acc l ∧ loc = l.at (addr54 va)
/-- A byte as the core in focus sees it: the bytes of its buffered stores, oldest first, over memory (R138). -/
def State.seen (s : State) (k : Nat) : Byte :=
  (s.core.sb.flatMap (·.bytes)).foldl (fun v b => if b.loc = k then b.merge v else v) (s.byte k)

/-- A read of `n` bytes of an ordered task meets plain memory in a line whose lock the task holds (R243); else as `Plain`. -/
structure State.Owned (s : State) (va : Word) (n : Nat) (acc : Acc) (l : Leaf) : Prop where
  global : isGlobal (addr54 va) = true
  pinned : s.Pinned va l ∧ s.Pinned (BitVec.ofNat 64 (addr54 va / 128 * 128)) l
  line : l.at (addr54 va / 128 * 128) / 128 = l.at (addr54 va) / 128
  grants : l.grants s.core.ctx.mode acc = true
  memory : regionOf (l.at (addr54 va)) = .nearSram ∨ regionOf (l.at (addr54 va)) = .gddr
  home : paNode (l.at (addr54 va)) = s.node ∧ paDie (l.at (addr54 va)) = s.myDie
  answers : s.homeError s.myDie (l.at (addr54 va)) va acc.code = none
  own : ∃ k ∈ (s.dieAt s.myDie).locks, k.line = l.at (addr54 va) / 128 ∧ k.task = s.core.ctx.task
  alone : (∀ k ∈ (s.dieAt s.myDie).locks, k.line = l.at (addr54 va) / 128 → k.task = s.core.ctx.task) ∧ (s.dieAt s.myDie).eo = []
  settled : ∀ r ∈ s.reds, r.loc / 128 ≠ l.at (addr54 va) / 128
  followed : ∀ w ∈ s.wts, w.freed.contains (l.at (addr54 va) / 128) = false
  uncounted : ∀ u ∈ (s.dieAt s.myDie).uses, u.line ≠ l.at (addr54 va) / 128
  clean : s.flips = [] ∧ s.poison = []
  ordered : s.core.ctx.cls = 2 ∧ s.core.ctx.sets = [] ∧ s.core.ctx.lockWait = []

/-- The image of a TCB at a virtual address is read as `t`: each of its words meets memory, unbuffered, and holds that word of `t` (R254). -/
def State.HoldsTcb (s : State) (va : Word) (t : Tcb) : Prop :=
  ∀ i : Fin 16, let a := addA va (BitVec.ofNat 64 (8 * i.val))
    ∃ loc, (s.Meets a 8 .tcb loc ∨ ∃ l, s.Owned a 8 .tcb l ∧ loc = l.at (addr54 a)) ∧ s.Unbuffered loc 8 ∧
      (spanOf loc 8).map s.byte = leBytes 8 (t.word i.val).toNat
/-- A TCB passes the checks of R350 for a creating instruction of kind `kind`: its image is aligned and read as `t`, KIND and CLASS agree with
R83, no reserved field is set, PRED is zero but for `join`, and ENTRY lies in the code of kernel `k` of the issuing launch. -/
structure State.TcbReady (s : State) (va : Word) (kind : Nat) (t : Tcb) (k : Kernel) : Prop where
  aligned : addr54 va % 128 = 0
  held : s.HoldsTcb va t
  kinds : t.kind = kind
  cls : if kind = 2 then t.cls = 2 else if kind = 3 then t.cls = 0 else t.cls < 2
  fields : t.reservedSet = false
  pred : kind = 4 ∨ t.pred = 0
  entry : (t.word 0).extractLsb' 0 2 = 0
  code : ∃ l n, s.launchOf s.me.toNat = some l ∧ l.kernelOf (addr54 (t.word 0)) = some (n, k)
/-- The task queue of a core holds fewer than 64 TCBs, none of them in the overflow area (R300). -/
def State.QueueRoom (s : State) (c : Nat) : Prop := (s.coreAt c).taskq.length < 64 ∧ ∀ e ∈ (s.coreAt c).taskq, e.slot = none
/-- A task queue takes a TCB without its overflow area: so do its entries, its input buffers and the messages it has accepted (R351). -/
def State.QueueTakes (s : State) (c : Nat) : Prop :=
  (s.coreAt c).taskq.length + (s.coreAt c).inbox.length + (s.net.filter (·.dst = c)).length < 64 ∧ ∀ e ∈ (s.coreAt c).taskq, e.slot = none
/-- A TCB has entered a task queue, behind all but those of the same cycle whose cause R300 puts after it. -/
def Entered (old new : List QTask) (t : Tcb) (lens : Option LensTag) : Prop :=
  ∃ a b e, old = a ++ b ∧ new = a ++ e :: b ∧ e.tcb = t ∧ e.lens = lens ∧ e.slot = none ∧ ∀ f ∈ b, f.since = e.since ∧ e.rank < f.rank
/-- `u` is `t` with the fields of R85 that core `c` writes for a creator whose own TCB is `x`: AGE, CREATOR, CSEQ, the inherited GANG, tile and
RTAG, and KIND. -/
structure Tcb.Stamped (t u x : Tcb) (c kind : Nat) (age : Word) (cseq : BitVec 16) : Prop where
  ages : u.word 1 = age
  kinds : u.kind = kind ∧ u.cls = t.cls
  inherits : bitsOf (u.word 2) 55 0 = bitsOf (x.word 2) 55 0
  creator : u.creator = c ∧ u.cseq = cseq.toNat
  succs : bitsOf (u.word 13) 15 0 = bitsOf (t.word 13) 15 0
  others : ∀ i, i < 16 → i ≠ 1 → i ≠ 2 → i ≠ 13 → u.word i = t.word i
/-- The word `w` with its register operands joined queue `q` of the core in focus (R187): behind the others, with the next sequence number;
nothing else changed but the pc and the lookahead window of the word. The window of a `mi.qry`, with its result register `rd`, ends when
the word completes (R69, R271). -/
structure State.Pushed (s t : State) (q : Nat) (la : La) (w : Instr) (ops : List Word) (rd : Option SReg := none) : Prop where
  last : ∃ e, t.core.queue q = s.core.queue q ++ [e] ∧ e.word = w ∧ e.ops = ops ∧ e.st = .queued ∧ e.task = s.core.ctx.task ∧
    e.seq = s.core.pushed.toList.getD q 0 + 1 ∧ e.seq = t.core.pushed.toList.getD q 0 ∧ e.rmode = s.core.ctx.rmode ∧
    (s.core.ctx.upcallCode = false → s.core.ctx.task ≠ 0 → e.gang = s.core.ctx.tcb.gang)
  others : ∀ p, p < 8 → p ≠ q → t.core.queue p = s.core.queue p ∧ t.core.pushed.toList.getD p 0 = s.core.pushed.toList.getD p 0
  pc : t.pc = pcAdd s.pc 32
  regs : (∀ r, t.readS r = s.readS r) ∧ (∀ r, t.readV r = s.readV r) ∧ (∀ r, t.readM r = s.readM r)
  window : rd = none → t.core.ctx.win = s.core.ctx.win ++ if la = 0 then [] else [⟨la.toNat + 1, .none, false, false⟩]
  result : ∀ r, rd = some r → t.core.ctx.win = s.core.ctx.win.map (·.dropS r) ++
    [⟨la.toNat + 1, .mirror r (t.core.pushed.toList.getD q 0).toNat, false, false⟩]
  rest : t.mem = s.mem ∧ t.dirty = s.dirty ∧ t.dies = s.dies ∧ t.others = s.others ∧ t.core.sb = s.core.sb ∧ t.core.seq = s.core.seq

/-- A Prism word of the core in focus for an end meets no check of R105, R201 and R374: its kernel declares the end, its tile has a partner there,
and its task is plain. -/
structure State.EndReady (s : State) (e : End) : Prop where
  image : ∃ i, s.core.image = some i ∧ i.declares e = true
  partner : s.hasPartner s.me.toNat e = true
  plain : s.core.ctx.speculative = false
  room : (s.core.queue (endCode e)).length < 8
/-- The operands of a multiply-accumulate word meet the limits of R190, R191, R195 to R197 and R204: `own` is the format of its role, `spa` and `spb` say
which operands are sparse, `lines` how many lines it streams. -/
structure State.MmaReady (s : State) (sma spa spb : Bool) (own sw lines k fa fb : Nat) (p str : Word) : Prop where
  counts : 0 < k ∧ str.toNat < 2 ^ 32
  codes : (prismFloat fa ∨ sma ∧ sparseLine fa) ∧ (prismFloat fb ∨ sma ∧ sparseLine fb) ∧ prismInt fa = false ∧ prismInt fb = false ∨
    prismInt fa ∧ prismInt fb
  pointer : (ptrCode p = 0 ∨ ptrCode p = own) ∧ blockOk (blockScaled (ptrCode p)) (ptrL p) = true
  sparse : (sma = true → spa = true ∨ spb = true) ∧ (sparseLine fa → spa) ∧ (sparseLine fb → spb)
  aligned : let al := if sparseLine own then 128 else if coded own then 2048 else max 1 (codeBits own / 8)
    addr54 p % al = 0 ∧ (1 < lines ∨ coded own → str.toNat % al = 0)
  blocks : 1 < lines → blockScaled (ptrCode p) → codeElems own str.toNat % 2 ^ ptrL p = 0
  region : (inOwnTcm s.me.toNat (addr54 p) ∨ inSpad (addr54 p) ∨ isGlobal (addr54 p)) ∧ (sw ≠ 0 → inSpad (addr54 p)) ∧
    (sparseLine own → isGlobal (addr54 p))
  groups : (spa ∧ ¬sparseLine fa ∨ spb ∧ ¬sparseLine fb) → k % 8 = 0

/-- Memory is canonical, only physical memory is held dirty, dirty bytes are listed in rising order (invariants of the model), and no watchpoint of
any core is armed. -/
structure State.Quiet (s : State) : Prop where
  canonical : s.Canonical
  physical : ∀ e ∈ s.dirty, isPhys e.1 = true
  sorted : s.dirty.Pairwise fun x y => x.1 < y.1
  unwatched : ∀ c ∈ s.liveCores, ∀ p ∈ (s.coreAt c).watch.toList, p.kind = 0
/-- A byte of memory after the bytes of a write event have performed at their home, in order (R139, R276). -/
def State.over (s : State) (bs : List SbByte) (k : Nat) : Byte := bs.foldl (fun v b => if b.loc = k then b.merge v else v) (s.byte k)
/-- The contexts of a core are its four, each once. -/
def Core.Whole (k : Core) : Prop := (k.ctxs.map (·.num)).Nodup ∧ ∀ n : CtxNum, ∃ x ∈ k.ctxs, x.num = n
/-- A core looks for work and nothing of R301 but its task queue, the commit queues, its deque and other cores' deques can give it any: no upcall is
pending, no pre-emption requested, no context of it wakes or is saved, and no task retired on it has still to decrement. -/
structure State.Seeks (s : State) (c : Nat) : Prop where
  whole : (s.coreAt c).Whole
  looks : (s.coreAt c).looks = true
  image : (s.coreAt c).image.isSome = true
  upcall : (s.coreAt c).pendUp = none
  preempt : (s.coreAt c).preempt = false
  wake : ∀ x ∈ (s.coreAt c).ctxs, x.st ≠ .wake ∧ ¬(x.st = .done ∧ x.restartMark = true)
  saved : ∀ v ∈ (s.dieAt (dieOf c)).saved, v.core ≠ c
  retired : ∀ r ∈ s.decs, r.core ≠ c
/-- Packets from die `a` reach die `b`: no bridge on the way has failed or is not ready (R328, R388). -/
def State.Linked (s : State) (a b : Nat) : Prop := s.linkFailed a b = false ∧ s.linkWaits a b = false

/-- The event ring of a core is enabled and not full (R211). -/
def State.RingRoom (s : State) (c : Nat) : Prop :=
  let e := (s.coreAt c).evq
  bitsOf e 23 20 ≠ 0 ∧ (bitsOf e 47 32 + 2 ^ 16 - bitsOf e 63 48) % 2 ^ 16 ≠ 2 ^ bitsOf e 23 20
/-- A record has entered the event ring of a core (R211): its 16 bytes are in the slot TAIL named, TAIL has moved on, and no other byte of memory
has changed. -/
structure State.Recorded (s t : State) (c : Nat) (lo hi : Word) : Prop where
  tail : bitsOf (t.coreAt c).evq 47 32 = (bitsOf (s.coreAt c).evq 47 32 + 1) % 2 ^ 16
  rest : bitsOf (t.coreAt c).evq 31 0 = bitsOf (s.coreAt c).evq 31 0 ∧ bitsOf (t.coreAt c).evq 63 48 = bitsOf (s.coreAt c).evq 63 48
  bytes : let e := (s.coreAt c).evq
    ∀ k, t.byte k = s.over (plainBytes (tcmLoc c (bitsOf e 16 4 * 16 + 16 * (bitsOf e 47 32 % 2 ^ bitsOf e 23 20)))
      (leBytes 8 lo.toNat ++ leBytes 8 hi.toNat)) k
/-- A task has started in a context, which is the one that issues on its core (R89). -/
structure State.Started (s t : State) (c : Nat) (n : CtxNum) (q : Tcb) : Prop where
  focus : (t.coreAt c).ctx.num = n
  run : (t.coreAt c).ctx.st = .run ∧ (t.coreAt c).ctx.mode = .task ∧ (t.coreAt c).waiting = false
  copy : (t.coreAt c).ctx.tcb = q ∧ (t.coreAt c).ctx.taskid = q.word 2 ∧ (t.coreAt c).ctx.age = q.word 1
  pc : (t.coreAt c).ctx.pc = q.word 0
  args : ∀ r : SReg, 3 ≤ r.toNat → r.toNat < 11 → (t.coreAt c).ctx.readS r = q.word (r.toNat + 1)
  zeros : ∀ r : SReg, r.toNat < 2 ∨ 11 ≤ r.toNat → (t.coreAt c).ctx.readS r = 0
  clear : (t.coreAt c).ctx.win = [] ∧ (t.coreAt c).ctx.log = [] ∧ (t.coreAt c).ctx.outbox = [] ∧ (t.coreAt c).ctx.rmode = 0 ∧
    (t.coreAt c).ctx.fstat = 0
  number : t.starts = s.starts + 1 ∧ (t.coreAt c).ctx.task = s.starts + 1

/-- An access of `n` bytes of an engine meets memory at location `l` (R218, R340): it is aligned, and local, or global memory homed on the
engine's die, which an open pin maps and grants and which answers; no task, other engine word, reduction or use count concerns it (R139, R145, R149,
R160, R240, R245). -/
structure State.EngMeets (s : State) (g : Eng) (va : Word) (n : Nat) (acc : Acc) (l : Nat) : Prop where
  aligned : addr54 va % n = 0
  clean : s.flips = [] ∧ s.poison = []
  place : isGlobal (addr54 va) = false ∧ g.loc = true ∧ s.localLoc g.core (addr54 va) n g.peer = some l ∨
    isGlobal (addr54 va) = true ∧ ∃ p, s.pinOf g.die g.actx (addr54 va) = some p ∧ p.doomed = false ∧ 7 ≤ p.leaf.size ∧ p.leaf.pa % 128 = 0 ∧
      p.leaf.grants g.mode acc = true ∧ l = p.leaf.at (addr54 va) ∧ isPhys l = true ∧ (regionOf l = .nearSram ∨ regionOf l = .gddr) ∧
      paNode l = s.node ∧ paDie l = g.die ∧ s.homeError g.die l va acc.code = none ∧ (s.dieAt g.die).locks = [] ∧
      (∀ e ∈ (s.dieAt g.die).eo, e.1 = l / 128 → e.2 = (g.core, g.cls)) ∧ (∀ r ∈ s.reds, r.loc / 128 ≠ l / 128) ∧
      ∀ u ∈ (s.dieAt g.die).uses, u.line ≠ l / 128
/-- The `n` bytes of an engine's memory from `va` on lie at the locations from `l` on, for its loads and its stores. -/
def State.EngArea (s : State) (g : Eng) (va : Word) (n l : Nat) : Prop :=
  ∀ acc, acc = .load ∨ acc = .store → ∀ j w, w ∈ [1, 2, 4, 8] → (addr54 va + j) % w = 0 → j + w ≤ n → s.EngMeets g (addA va (w64 j)) w acc (l + j)
/-- The bytes of a range of locations (R139). -/
def State.bytes (s : State) (l n : Nat) : List Byte := (spanOf l n).map s.byte
/-- A descriptor of one element, which each side gives a whole number of bytes and no scale (R217 to R219). -/
structure OneElement (d : Desc) : Prop where
  one : descDims d = 0 ∧ descSize d 0 = 1
  unscaled : ∀ x ∈ [dword d 0, dword d 1], blockScaled (ptrCode x) = false ∧ coded (ptrCode x) = false
  whole : 8 ≤ sideBits d (dword d 0) (dword d 1) ∧ 8 ≤ sideBits d (dword d 1) (dword d 0)
/-- The bytes that the copy of such a descriptor writes for the bytes it reads: the same ones where a side is raw or both have one format, else
the element converted in the mode that the descriptor, or RMODE, names (R219). -/
def oneOut (d : Desc) (rmode : Word) (bs : List Byte) : List Byte :=
  let p := dword d 0
  let q := dword d 1
  if ptrCode p = 0 ∨ ptrCode q = 0 ∨ ptrCode p = ptrCode q ∧ ptrL p = ptrL q then bs
  else
    let rm := bitsOf (dword d 2) 60 58
    let mode := modeOfCode (if rm = 7 then rmode else w64 rm)
    leBytes (sideBits d q p / 8) (copyConvert (sideFmt (ptrCode p)) (sideFmt (ptrCode q)) (natOfBytes bs) none mode ((dword d 2).getLsbD 57))

/-! ### The single rounding (R35 to R40) -/

/-- The distance of two exact values. -/
def Dy.dist (a b : Dy) : Dy := (a.add b.neg).abs
/-- The mode rounds to nearest; or it rounds a value of the sign towards zero. -/
def RMode.nearest (m : RMode) : Bool := m == .rne || m == .rna
@[inherit_doc RMode.nearest] def RMode.toZero (m : RMode) (neg : Bool) : Bool := m == .rz || m == .rdn && !neg || m == .rup && neg
/-- The value of magnitude `a`, rounded to the precision of a format with no bound above, exceeds its largest finite value (R37). -/
def Fmt.Overflows (f : Fmt) (m : RMode) (neg : Bool) (a : Dy) : Prop :=
  let half : Dy := ⟨2 * f.maxMant + 1, f.maxQ - 1⟩
  if m.nearest then half.lt a = true ∨ half.le a = true ∧ (m = .rna ∨ f.maxMant % 2 = 1)
  else if m.toZero neg then Dy.le ⟨f.maxMant + 1, f.maxQ⟩ a = true
  else Dy.lt ⟨f.maxMant, f.maxQ⟩ a = true
/-- The value of magnitude `a`, rounded to the precision of a format with no bound below, lies below its smallest normal value (R36). -/
def Fmt.Tiny (f : Fmt) (m : RMode) (neg : Bool) (a : Dy) : Prop :=
  let q : Int := -f.bias - f.mbits
  if m.nearest then a.lt ⟨2 ^ (f.mbits + 2) - 1, q - 1⟩ = true
  else if m.toZero neg then a.lt ⟨2 ^ (f.mbits + 1), q⟩ = true
  else a.le ⟨2 ^ (f.mbits + 1) - 1, q⟩ = true
/-- `z` is the one of a set of values that the mode gives for `x`, where `even` says that `z` wins ties to even (R35). -/
def RMode.Picks (m : RMode) (x z : Dy) (even : Bool) (w : Dy) : Prop :=
  match m with
  | .rz => z.abs.le x.abs = true ∧ (w.abs.le x.abs = true → w.abs.le z.abs = true)
  | .rdn => z.le x = true ∧ (w.le x = true → w.le z = true)
  | .rup => x.le z = true ∧ (x.le w = true → z.le w = true)
  | .rne => (z.dist x).le (w.dist x) = true ∧ ((w.dist x).le (z.dist x) = true → w.cmp z = .eq ∨ even = true)
  | .rna => (z.dist x).le (w.dist x) = true ∧ ((w.dist x).le (z.dist x) = true → w.abs.le z.abs = true)
/-- `r` with flags `fl` is the finite non-zero value `x` of the sign, rounded once to a format (R36, R37). -/
structure Fmt.Rounds (f : Fmt) (m : RMode) (sat neg : Bool) (x : Dy) (r : Nat) (fl : Flags) : Prop where
  overflow : f.Overflows m neg x.abs → fl = flagOF ||| flagNX ∧
    f.val r = if sat || f.special == .none || m.toZero neg then .fin neg f.maxMant f.maxQ else if f.special = .ieee then .inf neg else .nan
  finite : ¬f.Overflows m neg x.abs → ∃ n e, f.val r = .fin neg n e ∧
    (∀ y, y < 2 ^ f.width → ∀ b n' e', f.val y = .fin b n' e' → m.Picks x (Dy.ofFin neg n e) (r % 2 = 0) (Dy.ofFin b n' e')) ∧
    (fl.getLsbD 0 = true ↔ (Dy.ofFin neg n e).cmp x ≠ .eq) ∧ (fl.getLsbD 1 = true ↔ fl.getLsbD 0 = true ∧ f.Tiny m neg x.abs) ∧ fl.toNat < 4

/-- The destination register of an instruction that only computes on registers. -/
inductive RegDest where
  | s (r : SReg) | v (r : VReg) | m (r : MReg)
  deriving DecidableEq, Repr
/-- The instructions that only compute on registers, with their destination (R113 to R117, R166 to R177). -/
def regDest : Instr → Option RegDest
  | .add d _ _ | .sub d _ _ | .mul d _ _ | .mulh d _ _ | .mulhn d _ _ | .and d _ _ | .or d _ _ | .xor d _ _ | .sll d _ _
  | .srl d _ _ | .sra d _ _ | .rol d _ _ | .ror d _ _ | .min d _ _ | .max d _ _ | .minn d _ _ | .maxn d _ _ | .adda d _ _
  | .seq d _ _ | .sne d _ _ | .slt d _ _ | .sltn d _ _ | .sle d _ _ | .slen d _ _ => some (.s d)
  | .clz d _ | .ctz d _ | .pop d _ | .li d _ | .lis16 d _ | .lis32 d _ | .lis48 d _ => some (.s d)
  | .div d _ _ _ | .divn d _ _ _ | .rem d _ _ _ | .remn d _ _ _ | .sel d _ _ _ => some (.s d)
  | .addi d _ _ | .andi d _ _ | .ori d _ _ | .xori d _ _ | .slli d _ _ | .srli d _ _ | .srai d _ _ | .rori d _ _ | .slti d _ _
  | .sltin d _ _ | .addai d _ _ => some (.s d)
  | .vadd d _ _ _ _ | .vsub d _ _ _ _ | .vmul d _ _ _ _ | .vmulh d _ _ _ _ | .vmin d _ _ _ _ | .vmax d _ _ _ _ | .vand d _ _ _ _
  | .vor d _ _ _ _ | .vxor d _ _ _ _ | .vsll d _ _ _ _ | .vsrl d _ _ _ _ | .vsra d _ _ _ _ | .vadds d _ _ _ _
  | .vsubs d _ _ _ _ => some (.v d)
  | .vabs d _ _ _ | .vneg d _ _ _ | .vclz d _ _ _ | .vpop d _ _ _ => some (.v d)
  | .vfadd d _ _ _ _ _ | .vfsub d _ _ _ _ _ | .vfmul d _ _ _ _ _ | .vfdiv d _ _ _ _ _ | .vfmin d _ _ _ _ _ | .vfmax d _ _ _ _ _
  | .vfma d _ _ _ _ _ | .vfms d _ _ _ _ _ | .vfnma d _ _ _ _ _ | .vfnms d _ _ _ _ _ => some (.v d)
  | .vfsqrt d _ _ _ _ | .vfabs d _ _ _ _ | .vfneg d _ _ _ _ => some (.v d)
  | .vceq d _ _ _ _ | .vcne d _ _ _ _ | .vclt d _ _ _ _ | .vcle d _ _ _ _ | .vcgt d _ _ _ _ | .vcge d _ _ _ _ => some (.m d)
  | .vcvt d _ _ _ _ _ _ | .vq d _ _ _ _ _ | .vsx d _ _ => some (.v d)
  | .vqs d _ _ _ _ _ | .vrsum d _ _ _ | .vrmin d _ _ _ | .vrmax d _ _ _ | .vrand d _ _ _ | .vror d _ _ _ | .vrxor d _ _ _ => some (.s d)
  | .vperm d _ _ _ _ | .vbcast d _ _ _ | .vslup d _ _ _ _ | .vsldn d _ _ _ _ | .vzip d _ _ _ _ | .vunzip d _ _ _ _ | .vcompr d _ _ _
  | .vexpand d _ _ _ => some (.v d)
  | .mand d _ _ | .mor d _ _ | .mxor d _ _ | .mandn d _ _ | .mnot d _ | .mfrom d _ => some (.m d)
  | .mpop d _ | .mfirst d _ | .mto d _ => some (.s d)
  | _ => none
/-- The instructions among those that may raise FSTAT flags (R36): floating-point arithmetic, conversions, quantisation and sums. -/
def raisesFlags : Instr → Bool
  | .vfadd .. | .vfsub .. | .vfmul .. | .vfdiv .. | .vfma .. | .vfms .. | .vfnma .. | .vfnms .. | .vfsqrt .. | .vcvt .. | .vq ..
  | .vrsum .. => true
  | _ => false

end Sys2Proof.Machine
end

