-- ==== Sys2Proof/WellFormed.lean ====
section
/-!
DEFINITION. What the syntax admits but the encoding does not (R65): the codes that 03_encoding.md and the engine words'
entries reserve. A well-formed instruction has an encoding that decodes to it.
-/
namespace Sys2Proof

/-- The checks an instruction must meet to have an encoding. -/
def Instr.wf : Instr → Bool
  -- R60: `br s1` is `ret`; `blr` has a link other than `s0`
  | .br a => a ≠ 1
  | .blr _ l => l ≠ 0
  -- R62: RM code 4 only in 0x25
  | .vfadd _ _ _ _ _ r | .vfsub _ _ _ _ _ r | .vfmul _ _ _ _ _ r | .vfdiv _ _ _ _ _ r | .vfmin _ _ _ _ _ r
  | .vfmax _ _ _ _ _ r | .vfma _ _ _ _ _ r | .vfms _ _ _ _ _ r | .vfnma _ _ _ _ _ r | .vfnms _ _ _ _ _ r
  | .vfsqrt _ _ _ _ r | .vfabs _ _ _ _ r | .vfneg _ _ _ _ r => r ≠ .rna
  -- R169, R175: T4 codes 0 to 11
  | .vceq _ _ _ _ t | .vcne _ _ _ _ t | .vclt _ _ _ _ t | .vcle _ _ _ _ t | .vcgt _ _ _ _ t | .vcge _ _ _ _ t => !t.storageOnly
  | .vrsum _ _ _ t | .vrmin _ _ _ t | .vrmax _ _ _ t | .vrand _ _ _ t | .vror _ _ _ t | .vrxor _ _ _ t => !t.storageOnly
  -- R170: SAT is reserved with a target from T4 8 to 11
  | .vcvt _ _ x u _ _ r => r ≠ .rna && !(x && u.isWideFloat)
  -- R63: D + 1 must exist
  | .evr d => d ≠ 31
  -- R121: read-only registers
  | .csrw _ c => !c.readOnly
  | .csrs _ a c | .csrc _ a c => !c.readOnly || a = 0
  -- R204 to R208: format codes and reserved codes
  | .prMma _ _ _ _ _ _ _ _ _ _ _ fa fb => formatDefined fa && formatDefined fb
  | .prSma _ _ _ _ _ _ _ _ _ _ _ _ _ fa fb _ => formatDefined fa && formatDefined fb
  | .prOut _ _ _ _ _ _ sat rm _ _ _ ofmt _ _ _ _ => rm ≠ .rna && outFormat ofmt && !(sat && outFloat ofmt)
  | .prScb _ _ _ _ _ shift => shift.toNat < 25
  -- R229, R231
  | .gaGat _ _ esz _ _ _ _ => esz.toNat < 6
  | .gaPrb _ _ tl _ _ _ _ => 4 ≤ tl.toNat && tl.toNat ≠ 31
  | _ => true

/-- A device step has no encoding. -/
def Instr.encoded (i : Instr) : Bool := (encode i).length ≠ 0

end Sys2Proof
end

