-- ==== Sys2Proof/Certificates/Slice0/Obligations.lean ====
section
/-!
DEFINITION. The statements for the provers: what the rules of spec/ say the instructions and the machine do. Each docstring names the rules
it formalises; what rests on the model's own choices says so.
-/
open Sys2Proof Sys2Proof.Machine

/-- Every well-formed instruction of the opcode table, with every operand at every value its encoding admits, decodes from its own words:
a 32-bit instruction at any address, an engine word at an address that is a multiple of 32 (R49, R50 to R65). -/
def Obligations.DecodeEncode : Prop :=
  ∀ i : Instr, i.wf = true → i.encoded = true → ∀ (al : Bool) (rest : List W32), (al = true ∨ (encode i).length = 1) →
    decodeWords al (encode i ++ rest) = .ok i

/-- Words of several families, written out field by field from R50 to R64, R55 and R221, decode to the instruction they stand for. -/
def Obligations.DecodeSpecWords : Prop :=
  decodeWords false [0xE0000940] = .ok (.trap 37) ∧
  decodeWords false [0x00000000] = .ok (.add 0 0 0) ∧
  -- addi s3, s4, -1: 000010 00011 00100 1111111111111111
  decodeWords false [0b000010_00011_00100_1111111111111111] = .ok (.addi 3 4 0xFFFF) ∧
  -- beq s1, s2, +3: 010000 00001 00010 0000000000000011
  decodeWords false [0b010000_00001_00010_0000000000000011] = .ok (.beq 1 2 3) ∧
  -- ld.n64 s4, [s6, -8]: 011000 00100 00110 0000 000 011 111111
  decodeWords false [0b011000_00100_00110_0000_000_011_111111] = .ok (.ld 4 6 0 0 .n64 0x3F) ∧
  -- vadd v1, v2, v3 of n32 under m4: 100000 00001 00010 00011 100 110 00000
  decodeWords false [0b100000_00001_00010_00011_100_110_00000] = .ok (.vadd 1 2 3 4 .n32) ∧
  -- fence.dv: 110010 00000 00000 00000 00010 000000
  decodeWords false [0b110010_00000_00000_00000_00010_000000] = .ok (.fence .dv) ∧
  -- csrr s5, 0x100: 111001 00101 00000 0000000100000000
  decodeWords false [0b111001_00101_00000_0000000100000000] = .ok (.csrr 5 .tvec) ∧
  -- cp.nd DESC=s7, EVN=1: CLASS 4, OP 0, bit 9; slot 1 refers to s7
  decodeWords true [0b111111_0100_000000_0000_001000000000, 0x80000007, 0, 0, 0, 0, 0, 0] = .ok (.cpNd 0 true 7)

/-- A word is refused whose major opcode R57 does not allocate, an engine word off a 32-byte boundary, an FN of major opcode 0x00 above
0x1F or of 0x38 above 8, and `evr` with D = 31. Whatever is read as an instruction is well-formed and begins with exactly the words that encode
it, so that a word with a reserved field that is not zero, or with a reserved type, RM, level, selector, DK, CSR or other code, is read as none (R57, R58, R63 to
R65, R67, R207). -/
def Obligations.ReservedRefused : Prop :=
  ∀ (w : W32) (al : Bool) (rest : List W32),
    (w.extractLsb' 26 6 ∈ [0x01, 0x0E, 0x0F, 0x1F, 0x2D, 0x2E, 0x2F, 0x33, 0x34, 0x35, 0x36, 0x37, 0x3A, 0x3B, 0x3C, 0x3D, 0x3E] →
      ∃ e, decodeWords al (w :: rest) = .error e) ∧
    (w.extractLsb' 26 6 = 0x3F#6 → ∃ e, decodeWords false (w :: rest) = .error e) ∧
    (w.extractLsb' 26 6 = 0x00#6 → 0x20 ≤ (w.extractLsb' 0 6).toNat → ∃ e, decodeWords al (w :: rest) = .error e) ∧
    (w.extractLsb' 26 6 = 0x30#6 → w.extractLsb' 0 6 = 7#6 → w.extractLsb' 21 5 = 31#5 →
      ∃ e, decodeWords al (w :: rest) = .error e) ∧
    (w.extractLsb' 26 6 = 0x38#6 → 9 ≤ (w.extractLsb' 0 6).toNat → ∃ e, decodeWords al (w :: rest) = .error e) ∧
    (∀ (ws : List W32) (i : Instr), decodeWords al ws = .ok i → i.wf = true ∧ i.encoded = true ∧ (al = true ∨ (encode i).length = 1) ∧
      ∃ r, ws = encode i ++ r)

/-- When the words at the pc of a core that can issue decode to an instruction that no check stops, a step of the device that issues it is
`exec` of it on the state after the fetch; then its open windows have one instruction less to go (R69) and time passes, charged to the
context's BUDGET unless the instruction is `fres` (R129); the Facet counters that run see the step (R315), and nothing else follows it. The
step issues for the core in focus when the agenda says so, or when the agenda is empty and the core does not wait (log 1). -/
def Obligations.StepRunsDecoded : Prop :=
  (∀ (s u s1 : State) (l : List Move) (ws : List W32) (i : Instr),
      (s.agenda = .issue s.me :: l ∧ u = { s with agenda := l } ∨ s.agenda = [] ∧ s.core.waiting = false ∧ u = s) →
      u.canIssue = true → EvEnd.first u [evHeldWordReport u.me, evBudgetExpiry u.me] = .off → u.core.blocked false = false →
      fetchInstr u.ready = .ok ws s1 → decodeWords (s1.pc.toNat % 32 = 0) ws = .ok i → s1.obstacle i = none →
      step s = thenDo (exec i s1) fun t => s.sampleFacets (t.after i)) ∧
    (∀ (t : State) (i : Instr), t.core.waiting = false →
      t.after i = ((t.updCtx Ctx.ageWindows).noteIssue t.me.toNat).pass (match i with | .fres _ => false | _ => true)) ∧
    (∀ s t : State, (∀ p ∈ t.clusters, p.2.counts = false) → s.sampleFacets t = t) ∧
    (∀ (t : State) (c : Nat), (t.clusterAt (clusterOf c)).counts = false → t.noteIssue c = t)

/-- When the agenda names a device step, a step of the device is `exec` of it, after which the command queues note what they wait for (R294)
and the Facet counters see the step (R315); a register write may wait (R388, R393), the others do not. The agenda is the model's own (log 1). -/
def Obligations.StepTakesDeviceStep : Prop :=
  ∀ (s : State) (i : Instr) (l : List Move), s.agenda = .event i :: l → (∀ src a v, i ≠ .registerWrite src a v) →
    step s = thenDo (exec i { s with agenda := l }) fun t => s.sampleFacets t.noteQueues

/-- Before an instruction takes effect, a register at or above the kernel's count stops it first, then a barrier number at or above the
kernel's count, then its privilege in task mode, which for `hreq` depends on the request (R321); with none of these and no register in
error nothing stops it (R66, R112, R340). -/
def Obligations.ObstacleOrder : Prop :=
  ∀ (s : State) (i : Instr),
    (∀ r, tooHigh s.core.header i = some r → s.obstacle i = some { code := 0x002, detail := 64 * r.cls + r.num }) ∧
    (∀ n, tooHigh s.core.header i = none → barrierOf i = some n → hdrBars s.core.header ≤ n →
      s.obstacle i = some { code := 0x003, detail := n }) ∧
    (tooHigh s.core.header i = none → (∀ n, barrierOf i = some n → n < hdrBars s.core.header) →
      (∀ a, i ≠ .hreq a) → systemOnly i = true → s.core.ctx.mode = .task → s.obstacle i = some { code := 0x004 }) ∧
    (∀ a, i = .hreq a → tooHigh s.core.header i = none → s.hreqDenied a = true → s.obstacle i = some { code := 0x004 }) ∧
    (tooHigh s.core.header i = none → (∀ n, barrierOf i = some n → n < hdrBars s.core.header) →
      (systemOnly i = false ∨ s.core.ctx.mode = .system) → (∀ a, i = .hreq a → s.hreqDenied a = false) → s.badSource i = none →
      s.obstacle i = none)

/-- After reset the CSRs hold the values of R123, the registers of the die control and power blocks those of R302, R326, R327, R378, R379
and R384, the command queues are disabled, nothing is resident and the compute dies are held in reset (R329). Where the spec gives no
value the model's log does, and this statement is silent. -/
def Obligations.ResetValues : Prop :=
  let k := State.reset.core
  let x := k.ctx
  (x.rmode = 0 ∧ x.qmode = 0 ∧ x.fstat = 0 ∧ x.vprog = 0 ∧ x.fltinfo = 0 ∧ x.fltaddr = 0 ∧ x.upsrc = 0 ∧ x.mirth = 0 ∧
    x.mirrun = 0 ∧ x.tepc = 0 ∧ x.tcause = 0 ∧ x.tscr = 0) ∧
  (k.upcall = 0 ∧ k.evq = 0 ∧ k.mirhit = 0 ∧ k.mirmiss = 0 ∧ (∀ q : Fin 8, k.seq[q] = 0 ∧ k.queues[q] = []) ∧ k.image = none ∧
    k.sb = [] ∧ k.iris = .running ∧ ∀ j : Fin 4, k.watch[j].kind = 0) ∧
  (∀ d : Fin 4, State.reset.dies[d].cfront = BitVec.allOnes 64 ∧ State.reset.dies[d].scrub = 0x8000000000004000 ∧
    State.reset.dies[d].errc = 0 ∧ State.reset.dies[d].rslim = 0 ∧ State.reset.dies[d].rdy = 0 ∧ State.reset.dies[d].locks = [] ∧
    ∀ r : Fin 16, State.reset.dies[d].rbud[r] = 0xFFFF ∧ State.reset.dies[d].plim[r] = 0xFFFFFFFF ∧
      State.reset.dies[d].ecost[r] = BitVec.ofNat 64 r) ∧
  (∀ q : Fin 64, State.reset.cqs[q].en = false ∧ State.reset.cqs[q].wcnt = 0 ∧ State.reset.cqs[q].rcnt = 0) ∧
  State.reset.released = false ∧ State.reset.mem = []

/-- After reset the list of bytes that holds memory is in its canonical form (the model's own representation, log 5). -/
def Obligations.ResetCanonical : Prop :=
  State.reset.Canonical

/-- Whatever instruction or device step a step takes, from any state whose memory is in canonical form it reaches a state whose memory is in
canonical form: equal memories stay equal data (log 5). -/
def Obligations.StepKeepsCanonical : Prop :=
  ∀ s t : State, s.Canonical → step s = .next t → t.Canonical

/-- `s0` reads 0 and `m0` all ones, and writes of them are discarded; a register read after a write gives what was written, every other
register of the three files what it held; a write changes nothing outside the context in focus, nor its pc (R74). -/
def Obligations.RegisterLaws : Prop :=
  ∀ (s : State) (r q : SReg) (a b : VReg) (m n : MReg) (x : Word) (y : Vec),
    (s.readS 0 = 0 ∧ s.readM 0 = BitVec.allOnes 64) ∧
    (s.writeS r x).readS q = (if q = r ∧ r ≠ 0 then x else s.readS q) ∧
    (s.writeV a y).readV b = (if b = a then y else s.readV b) ∧
    (s.writeM m x).readM n = (if n = m ∧ m ≠ 0 then x else s.readM n) ∧
    (s.writeS r x).readV b = s.readV b ∧ (s.writeS r x).readM n = s.readM n ∧ (s.writeV a y).readS q = s.readS q ∧
    (s.writeV a y).readM n = s.readM n ∧ (s.writeM m x).readS q = s.readS q ∧ (s.writeM m x).readV b = s.readV b ∧
    (s.writeS 0 x = s ∧ s.writeM 0 x = s) ∧
    (CtxOnly s (s.writeS r x) ∧ s.core.ctx.SameBut (s.writeS r x).core.ctx ∧ (s.writeS r x).pc = s.pc) ∧
    (CtxOnly s (s.writeV a y) ∧ s.core.ctx.SameBut (s.writeV a y).core.ctx ∧ (s.writeV a y).pc = s.pc) ∧
    (CtxOnly s (s.writeM m x) ∧ s.core.ctx.SameBut (s.writeM m x).core.ctx ∧ (s.writeM m x).pc = s.pc)

/-- The result of a long-latency instruction with lookahead N (R69): at once when N is 0; otherwise an instruction of its window reads the
value held before, the result stands once the window of N instructions has passed (the instruction itself counts as the first issue) or
every window ends (R70), and a later write of the register by an instruction of the window discards it. -/
def Obligations.LookaheadResult : Prop :=
  ∀ (s : State) (d q : SReg) (v w : Word) (n : La), s.core.ctx.win = [] → d ≠ 0 → q ≠ 0 →
    (s.result 0 (.s d v) = s.writeS d v) ∧
    (n ≠ 0 →
      let t := s.result n (.s d v)
      (∀ p, t.readS p = s.readS p) ∧
      (∀ k, k ≤ n.toNat → ((Nat.repeat Ctx.ageWindows k t.core.ctx).closeWindows false).readS d = s.readS d) ∧
      ((Nat.repeat Ctx.ageWindows (n.toNat + 1) t.core.ctx).closeWindows false).readS d = v ∧
      (t.core.ctx.closeWindows true).readS d = v ∧
      (((t.writeS q w).core.ctx.closeWindows true).readS d = if q = d then w else v))

/-- Each instruction of R113 completes in every state and for every operand: its destination takes the value R113 gives (a write of `s0` is
discarded), the pc advances by 4 and nothing else changes, whichever registers coincide. `mulh` and `mulhn` give the high half of the
product, and the counts are described by the bits they count. -/
def Obligations.IntegerResults : Prop :=
  ∀ (s : State) (d a b : SReg),
    let x := s.readS a
    let y := s.readS b
    let gives := fun (i : Instr) (v : Word) => exec i s = .next ((s.writeS d v).advance 4)
    let sh := (y.extractLsb' 0 6).toNat
    (gives (.add d a b) (x + y) ∧ gives (.sub d a b) (x - y) ∧ gives (.mul d a b) (x * y) ∧
      gives (.and d a b) (x &&& y) ∧ gives (.or d a b) (x ||| y) ∧ gives (.xor d a b) (x ^^^ y)) ∧
    (gives (.sll d a b) (x <<< sh) ∧ gives (.srl d a b) (x >>> sh) ∧ gives (.sra d a b) (x.sshiftRight sh) ∧
      gives (.rol d a b) (x.rotateLeft sh) ∧ gives (.ror d a b) (x.rotateRight sh)) ∧
    (∃ v, gives (.mulh d a b) v ∧ v.toInt = x.toInt * y.toInt / 2 ^ 64) ∧
    (∃ v, gives (.mulhn d a b) v ∧ v.toNat = x.toNat * y.toNat / 2 ^ 64) ∧
    (∃ v, gives (.clz d a) v ∧ v.toNat ≤ 64 ∧ x.toNat < 2 ^ (64 - v.toNat) ∧ (v.toNat < 64 → 2 ^ (63 - v.toNat) ≤ x.toNat)) ∧
    (∃ v, gives (.ctz d a) v ∧ v.toNat ≤ 64 ∧ 2 ^ v.toNat ∣ x.toNat ∧ (v.toNat < 64 → x.getLsbD v.toNat = true)) ∧
    (∃ v, gives (.pop d a) v ∧ v.toNat = (List.range 64).countP fun i => x.getLsbD i) ∧
    (gives (.min d a b) (if x.toInt < y.toInt then x else y) ∧ gives (.max d a b) (if x.toInt < y.toInt then y else x) ∧
      gives (.minn d a b) (if x.toNat < y.toNat then x else y) ∧ gives (.maxn d a b) (if x.toNat < y.toNat then y else x)) ∧
    (gives (.seq d a b) (if x = y then 1 else 0) ∧ gives (.sne d a b) (if x = y then 0 else 1) ∧
      gives (.slt d a b) (if x.toInt < y.toInt then 1 else 0) ∧ gives (.sle d a b) (if x.toInt ≤ y.toInt then 1 else 0) ∧
      gives (.sltn d a b) (if x.toNat < y.toNat then 1 else 0) ∧ gives (.slen d a b) (if x.toNat ≤ y.toNat then 1 else 0))

/-- `div`, `rem`, `divn` and `remn` complete in every state, with their result delivered under their lookahead (R69): the quotient is truncated
toward zero, the remainder has the sign of the dividend and x = q y + r, and a zero divisor and the most negative number over -1 have
the fixed results of R115 and raise nothing. -/
def Obligations.DivisionResults : Prop :=
  ∀ (s : State) (d a b : SReg) (l : La),
    let x := s.readS a
    let y := s.readS b
    let gives := fun (i : Instr) (v : Word) => exec i s = .next ((s.result l (.s d v)).advance 4)
    (∃ q r, gives (.div d a b l) q ∧ gives (.rem d a b l) r ∧
      (y = 0 → q = BitVec.allOnes 64 ∧ r = x) ∧
      (x = BitVec.intMin 64 → y = BitVec.allOnes 64 → q = x ∧ r = 0) ∧
      (y ≠ 0 → ¬(x = BitVec.intMin 64 ∧ y = BitVec.allOnes 64) →
        q.toInt = x.toInt.tdiv y.toInt ∧ x.toInt = q.toInt * y.toInt + r.toInt ∧ r.toInt.natAbs < y.toInt.natAbs ∧
        (0 ≤ x.toInt → 0 ≤ r.toInt) ∧ (x.toInt ≤ 0 → r.toInt ≤ 0))) ∧
    (∃ q r, gives (.divn d a b l) q ∧ gives (.remn d a b l) r ∧
      (y = 0 → q = BitVec.allOnes 64 ∧ r = x) ∧
      (y ≠ 0 → x.toNat = q.toNat * y.toNat + r.toNat ∧ r.toNat < y.toNat))

/-- Each immediate instruction of R117 completes in every state: its destination takes the value of R117's table, the pc advances by 4 and nothing
else changes. `lis16`, `lis32` and `lis48` change only their own 16 bits of D. `sel` writes A if C is non-zero and B otherwise, all three read first (R114); `adda`
and `addai` keep bits 63:54 of A and add in bits 53:0 modulo 2^54 (R116). -/
def Obligations.ImmediateResults : Prop :=
  ∀ (s : State) (d a b c : SReg) (i : BitVec 16) (n : BitVec 6),
    let x := s.readS a
    let z := s.readS d
    let gives := fun (i : Instr) (v : Word) => exec i s = .next ((s.writeS d v).advance 4)
    (gives (.addi d a i) (x + i.signExtend 64) ∧ gives (.andi d a i) (x &&& i.setWidth 64) ∧ gives (.ori d a i) (x ||| i.setWidth 64) ∧
      gives (.xori d a i) (x ^^^ i.setWidth 64)) ∧
    (gives (.slli d a n) (x <<< n.toNat) ∧ gives (.srli d a n) (x >>> n.toNat) ∧ gives (.srai d a n) (x.sshiftRight n.toNat) ∧
      gives (.rori d a n) (x.rotateRight n.toNat)) ∧
    (gives (.slti d a i) (if x.toInt < (i.signExtend 64).toInt then 1 else 0) ∧
      gives (.sltin d a i) (if x.toNat < (i.signExtend 64).toNat then 1 else 0)) ∧
    gives (.li d i) (i.signExtend 64) ∧
    gives (.lis16 d i) (z.extractLsb' 32 32 ++ i ++ z.extractLsb' 0 16) ∧
    gives (.lis32 d i) (z.extractLsb' 48 16 ++ i ++ z.extractLsb' 0 32) ∧
    gives (.lis48 d i) (i ++ z.extractLsb' 0 48) ∧
    gives (.sel d a b c) (if s.readS c = 0 then s.readS b else x) ∧
    gives (.adda d a b) (x.extractLsb' 54 10 ++ (x.extractLsb' 0 54 + (s.readS b).extractLsb' 0 54)) ∧
    gives (.addai d a i) (x.extractLsb' 54 10 ++ (x.extractLsb' 0 54 + i.signExtend 54))

/-- A compare branch goes to pc + 4 x offset when its relation holds and to pc + 4 otherwise (R118); `b` and `bl` go to pc + 4 x offset, `bl`
leaving pc + 4 in `s1` (R119); the indirect branches go to the old value of A, the link register taking pc + 4 (R120), when A's bits 1:0
are zero, and otherwise take exception 0x005 with the branch's own pc, changing no link register (R120). Nothing else changes. The pc has
54 bits (log 24). -/
def Obligations.BranchResults : Prop :=
  ∀ (s : State) (a b l : SReg) (o : BitVec 16) (f : BitVec 25),
    let x := s.readS a
    let y := s.readS b
    let link := pcAdd s.pc 4
    let goes := fun (i : Instr) (c : Prop) [Decidable c] =>
      exec i s = .next (s.setPc (pcAdd s.pc (if c then o.signExtend 64 * 4 else 4)))
    (goes (.beq a b o) (x = y) ∧ goes (.bne a b o) (x ≠ y) ∧ goes (.blt a b o) (x.toInt < y.toInt) ∧ goes (.bge a b o) (y.toInt ≤ x.toInt) ∧
      goes (.bltn a b o) (x.toNat < y.toNat) ∧ goes (.bgen a b o) (y.toNat ≤ x.toNat)) ∧
    exec (.b f) s = .next (s.setPc (pcAdd s.pc (f.signExtend 64 * 4))) ∧
    exec (.bl f) s = .next ((s.writeS 1 link).setPc (pcAdd s.pc (f.signExtend 64 * 4))) ∧
    (x.extractLsb' 0 2 = 0 → exec (.br a) s = .next (s.setPc (pcMask x)) ∧
      exec (.blr a l) s = .next ((s.writeS l link).setPc (pcMask x))) ∧
    ((s.readS 1).extractLsb' 0 2 = 0 → exec .ret s = .next (s.setPc (pcMask (s.readS 1)))) ∧
    (x.extractLsb' 0 2 ≠ 0 → s.core.blocked true = false →
      let e : Exc := { code := 0x005, addr := x }
      exec (.blr a l) s = .next (s.takeExc e) ∧ exec (.br a) s = .next (s.takeExc e) ∧ (a = 1 → exec .ret s = .next (s.takeExc e)))

/-- An exception that no gang stop is due for is delivered as a trap: all open windows end (R70), FLTINFO and FLTADDR take the layouts of R337 and
R338 with DEL = 0, TEPC the faulting pc, TCAUSE its EXC, PSYS and CODE, the mode becomes system and the pc goes to TVEC (R125, R342); no
other register, special register or byte of memory changes. -/
def Obligations.TrapDelivery : Prop :=
  ∀ (s : State) (e : Exc),
    e.stop = false → pcMask s.core.ctx.tvec ≠ 0 → s.pc ≠ pcMask s.core.ctx.tvec → e.code < 1024 → e.acc < 16 → e.detail < 256 →
    (∀ k, e.lane = some k → k < 128) →
    let t := s.takeExc e
    let x := s.core.ctx.closeWindows true
    let y := t.core.ctx
    (y.tepc = s.pc ∧ y.pc = pcMask x.tvec ∧ y.mode = .system) ∧
    (y.tcause.getLsbD 63 = true ∧ y.tcause.getLsbD 62 = decide (x.mode = .system) ∧ y.tcause.extractLsb' 10 52 = 0 ∧
      (y.tcause.extractLsb' 0 10).toNat = e.code) ∧
    ((y.fltinfo.extractLsb' 54 10).toNat = e.code ∧ y.fltinfo.extractLsb' 52 2 = 0 ∧ (y.fltinfo.extractLsb' 48 4).toNat = e.acc ∧
      y.fltinfo.getLsbD 47 = e.lane.isSome ∧ (y.fltinfo.extractLsb' 40 7).toNat = e.lane.getD 0 ∧
      (y.fltinfo.extractLsb' 32 8).toNat = e.detail ∧ y.fltinfo.extractLsb' 0 32 = if e.boundary then 0 else x.ir) ∧
    (y.fltaddr.extractLsb' 0 54 = e.addr.extractLsb' 0 54 ∧ y.fltaddr.extractLsb' 54 10 = 0) ∧
    (CtxOnly s t ∧ (∀ r, y.readS r = x.readS r) ∧ (∀ r, y.readV r = x.readV r) ∧ (∀ r, y.readM r = x.readM r)) ∧
    (y.tvec = x.tvec ∧ y.tscr = x.tscr ∧ y.fstat = x.fstat ∧ y.rmode = x.rmode ∧ y.qmode = x.qmode ∧ y.vprog = x.vprog ∧ y.st = x.st ∧
      y.tcb = x.tcb ∧ y.budget = x.budget ∧ y.upsrc = x.upsrc ∧ y.mirth = x.mirth ∧ y.mirrun = x.mirrun ∧ y.taskid = x.taskid ∧ y.age = x.age ∧
      y.tile = x.tile)

/-- An exception that R341 delivers as a gang stop (forced, with TVEC zero, or raised at the handler's own address) sets FLTINFO with DEL = 2 and
FLTADDR, halts the core with its context still RUN at the faulting instruction, and sends an Iris halt with TSRC 0 and TCORE the
faulting core to every other core of its gang (R343). Mode, TEPC and TCAUSE stay, and no memory changes. -/
def Obligations.GangStopDelivery : Prop :=
  ∀ (s : State) (e : Exc),
    (e.stop = true ∨ pcMask s.core.ctx.tvec = 0 ∨ s.pc = pcMask s.core.ctx.tvec) → s.core.iris = .running →
    let t := s.takeExc e
    (t.core.iris = .halted ∧ t.core.ctx.st = s.core.ctx.st ∧ t.pc = s.pc ∧ t.core.ctx.mode = s.core.ctx.mode ∧
      t.core.ctx.tepc = s.core.ctx.tepc ∧ t.core.ctx.tcause = s.core.ctx.tcause) ∧
    (t.core.ctx.fltinfo = e.info 2 s.core.ctx.ir ∧ t.core.ctx.fltinfo.extractLsb' 52 2 = 2 ∧
      t.core.ctx.fltaddr.extractLsb' 0 54 = e.addr.extractLsb' 0 54) ∧
    (t.mem = s.mem ∧ t.dirty = s.dirty ∧ t.dies = s.dies ∧ t.others = s.others) ∧
    (s.core.image = none → t.signals = s.signals) ∧
    (∀ i, s.core.image = some i → t.signals = s.signals ++ ((t.gangCores i.gang).filter (· ≠ s.me.toNat)).map
      fun c => ⟨c, 0, 0, s.me.toNat, s.timeReg⟩)

/-- `trap n` completes when no `mi.qry` of the context is still to answer (R70): all windows end, TEPC takes pc + 4, TCAUSE EXC = 0, PSYS the old mode
and CODE n, the mode becomes system and the pc TVEC (R125). In system mode `rett` sets the pc to TEPC with bits 1:0 and 63:54 zero and
the mode to that of PSYS (R126); fault service of the context ends (R345) and its held words whose report it served resume (R365). -/
def Obligations.TrapAndReturn : Prop :=
  ∀ (s : State) (n : BitVec 10),
    (s.core.blocked true = false →
      exec (.trap n) s = .next (s.updCtx fun x0 =>
        let x := x0.closeWindows true
        { (x.mend (.csr .tepc)).mend (.csr .tcause) with
          tepc := pcAdd s.pc 4, pc := pcMask x.tvec, mode := .system
          tcause := 0#1 ++ BitVec.ofBool (x.mode = .system) ++ 0#52 ++ n })) ∧
    (s.core.ctx.mode = .system →
      exec .rett s = .next { s with core := { s.core with
        queues := s.core.queues.map fun q => q.map fun w => w.resume s.core.ctx.num
        ctx := { s.core.ctx with
          pc := pcMask s.core.ctx.tepc, mode := if s.core.ctx.tcause.getLsbD 62 then .system else .task
          excMode := false, reporting := false } } })

/-- In task mode `rett`, `tlbi`, every access to a CSR numbered 0x100 to 0x1FF, and an `hreq` with SEL other than 0 or OP other than 0 and 2 take the privilege exception 0x004
with none of their effect (R112, R321, R335). -/
def Obligations.PrivilegeTraps : Prop :=
  ∀ (s : State) (a b d : SReg) (c : Csr), s.core.ctx.mode = .task → s.core.blocked true = false →
    let e : Exc := { code := 0x004 }
    let closed := s.updCtx fun x => x.closeWindows true
    exec .rett s = .next (s.takeExc e) ∧ exec (.tlbi a b) s = .next (s.takeExc e) ∧
    (c.system = true → exec (.csrr d c) s = .next (closed.takeExc e) ∧ exec (.csrw a c) s = .next (closed.takeExc e) ∧
      exec (.csrs d a c) s = .next (closed.takeExc e) ∧ exec (.csrc d a c) s = .next (closed.takeExc e)) ∧
    ((s.readS a).extractLsb' 12 2 ≠ 0 ∨ (s.readS a).extractLsb' 14 2 = 1 ∨ (s.readS a).extractLsb' 14 2 = 3 →
      exec (.hreq a) s = .next (s.takeExc e))

/-- A CSR instruction completes when all windows of its context have ended (R122), in system mode for the registers 0x100 to 0x1FF (R112): it reads
the old value and writes the new one as R121 says, `csrs` and `csrc` with A = s0 only read; a value that breaks a reserved field or
code takes exception 0x00F and leaves the CSR as it was: one with a reserved RMODE or QMODE code or a reserved bit set, or an EVQ whose LOGN is
neither 0 nor 4 to 12 or whose ring is not aligned or lies outside its place in the TCM (R124). -/
def Obligations.CsrAccess : Prop :=
  ∀ (s : State) (d a : SReg) (c : Csr), s.core.blocked true = false → (c.system = true → s.core.ctx.mode = .system) →
    let u := s.updCtx fun x => x.closeWindows true
    let old := u.csr c
    exec (.csrr d c) s = .next ((u.writeS d old).advance 4) ∧
    (u.csrOk c (u.readS a) = true → exec (.csrw a c) s = .next ((u.setCsr c (u.readS a)).advance 4)) ∧
    (a ≠ 0 → u.csrOk c (old ||| u.readS a) = true →
      exec (.csrs d a c) s = .next (((u.setCsr c (old ||| u.readS a)).writeS d old).advance 4)) ∧
    (a ≠ 0 → u.csrOk c (old &&& ~~~u.readS a) = true →
      exec (.csrc d a c) s = .next (((u.setCsr c (old &&& ~~~u.readS a)).writeS d old).advance 4)) ∧
    (exec (.csrs d 0 c) s = .next ((u.writeS d old).advance 4) ∧ exec (.csrc d 0 c) s = .next ((u.writeS d old).advance 4)) ∧
    (let e : Exc := { code := 0x00F }
    (u.csrOk c (u.readS a) = false → exec (.csrw a c) s = .next (u.takeExc e)) ∧
      (a ≠ 0 → u.csrOk c (old ||| u.readS a) = false → exec (.csrs d a c) s = .next (u.takeExc e)) ∧
      (a ≠ 0 → u.csrOk c (old &&& ~~~u.readS a) = false → exec (.csrc d a c) s = .next (u.takeExc e))) ∧
    (∀ v : Word, (u.csrOk .rmode v = true ↔ v.toNat ≤ 4) ∧ (u.csrOk .qmode v = true ↔ v.toNat ≤ 1) ∧ (u.csrOk .fstat v = true ↔ v.toNat < 32) ∧
      (u.csrOk .vprog v = true ↔ v.toNat < 128) ∧ (u.csrOk .mirth v = true ↔ v.toNat < 2 ^ 32) ∧ (u.csrOk .mirrun v = true ↔ v.toNat < 256) ∧
      (u.csrOk .upcall v = true ↔ v.toNat < 2 ^ 54 ∧ v.toNat % 4 = 0) ∧ (u.csrOk .tvec v = true ↔ v.toNat < 2 ^ 54 ∧ v.toNat % 4 = 0) ∧
      (u.csrOk .tcause v = true ↔ v.toNat % 2 ^ 62 < 1024) ∧
      (let n := v.toNat / 2 ^ 20 % 16
      let base := v.toNat % 2 ^ 17
      let top := match s.core.image with
        | some i => 0x1E000 - i.nctx * i.logb
        | none => 0x1E000
      u.csrOk .evq v = true ↔ v.toNat / 2 ^ 24 % 256 = 0 ∧ v.toNat / 2 ^ 17 % 8 = 0 ∧ v.toNat % 16 = 0 ∧
        (n = 0 ∨ 4 ≤ n ∧ n ≤ 12 ∧ base % (16 * 2 ^ n) = 0 ∧ s.tcmbOf s.me.toNat ≤ base ∧ base + 16 * 2 ^ n ≤ top)) ∧
      (c ≠ .rmode → c ≠ .qmode → c ≠ .fstat → c ≠ .vprog → c ≠ .mirth → c ≠ .mirrun → c ≠ .upcall → c ≠ .tvec → c ≠ .tcause → c ≠ .evq →
        u.csrOk c v = true))

/-- A write of a writable CSR leaves the value written in it, except EVQ's TAIL, which only hardware changes; every other CSR, register and byte of
memory keeps its value (R121, R124). -/
def Obligations.CsrReadBack : Prop :=
  ∀ (s : State) (c e : Csr) (v : Word), c.readOnly = false →
    let t := s.setCsr c v
    (e ≠ c → t.csr e = s.csr e) ∧
    (c ≠ .evq → t.csr c = v) ∧
    (c = .evq → (t.csr c).extractLsb' 32 16 = (s.csr c).extractLsb' 32 16 ∧ (t.csr c).extractLsb' 0 32 = v.extractLsb' 0 32 ∧
      (t.csr c).extractLsb' 48 16 = v.extractLsb' 48 16) ∧
    (∀ r, t.readS r = s.readS r) ∧ (∀ r, t.readV r = s.readV r) ∧ (∀ r, t.readM r = s.readM r) ∧ t.pc = s.pc ∧
    t.mem = s.mem ∧ t.dies = s.dies ∧ t.core.sb = s.core.sb

/-- `wfe` completes when the event queue holds an unread record, a context of the core has entered WAKE since it issued, or a halt has reached the
core (R127). In upcall code `fret` frees its context with UPSRC = 0 and the core comes to an activation boundary (R128), and `fres` frees
it and makes the WAKE context it names RUN, whose `tch` is an acquire at device scope (R129, R278). Outside upcall code `fret` and `fres` take the resume-state exception 0x010, and so
does `tend` in upcall code (R128). -/
def Obligations.WaitAndUpcallEnds : Prop :=
  ∀ (s : State) (a : SReg),
    let done := (s.updCtx fun x => { x with wfeOn := false, woke := false }).advance 4
    (evqHead s.core.evq ≠ evqTail s.core.evq ∨ s.core.iris ≠ .running ∨ (s.core.ctx.wfeOn = true ∧ s.core.ctx.woke = true) →
      exec .wfe s = .next done) ∧
    (s.core.ctx.upcallCode = true → s.core.blocked true = false →
      exec .fret s = .next ((s.updCtx fun x => { x.closeWindows true with st := .free, upsrc := 0, excMode := false }).boundary s.me.toNat) ∧
        exec .tend s = .next (s.takeExc { code := 0x010 })) ∧
    (s.core.ctx.upcallCode = false → s.core.blocked true = false →
      exec .fret s = .next (s.takeExc { code := 0x010 }) ∧ exec (.fres a) s = .next (s.takeExc { code := 0x010 })) ∧
    (∀ n : CtxNum, s.core.ctx.upcallCode = true → s.core.blocked true = false → s.readS a = n.setWidth 64 →
      n ≠ s.core.ctx.num → (s.core.getCtx n).st = .wake → (s.core.getCtx n).restartMark = false →
      let k := { s.core with ctx := { s.core.ctx.closeWindows true with st := .free, upsrc := 0, excMode := false } }
      let u := ({ s with core := k.updCtx n fun x => { x with st := .run } } : State).acquireCopies s.myDie false
      exec (.fres a) s = .next { u with core := u.core.focus n })

/-- `hreq` sends its signal to every core of the partition it names, with TSRC 0, TCORE the issuing core and TTIME its issue time, and completes; in
task mode only SEL 0 with OP 0 or 2 is allowed (R321). `tmark` does nothing with LOGN 0; otherwise it counts a record in TRCNT, outside
the store buffer, and writes it at its place in the trace ring: the activation identifier, the value and TIME, behind the marks before it, here when none of
this cycle is of a core of a higher index (R323). -/
def Obligations.SignalsAndMarks : Prop :=
  ∀ (s : State) (a : SReg),
    let v := s.readS a
    let op := (v.extractLsb' 14 2).toNat
    let sel := (v.extractLsb' 12 2).toNat
    let gid := (v.extractLsb' 0 12).toNat
    (v.extractLsb' 16 48 = 0 → op ≠ 3 → (sel = 1 ∨ (sel = 2 ∧ gid < 4) ∨ gid = 0) →
      (s.core.ctx.mode = .system ∨ (sel = 0 ∧ (op = 0 ∨ op = 2))) →
      let sent := (s.partition sel gid).map fun c => Signal.mk c op 0 s.me.toNat s.timeReg
      exec (.hreq a) s = .next ({ s with signals := s.signals ++ sent }.advance 4)) ∧
    (((s.dieAt s.myDie).trctl.extractLsb' 0 5).toNat = 0 → exec (.tmark a) s = .next (s.advance 4)) ∧
    (((s.dieAt s.myDie).trctl.extractLsb' 0 5).toNat ≠ 0 → ∃ t, exec (.tmark a) s = .next t ∧ t.pc = pcAdd s.pc 4 ∧
      (t.dieAt s.myDie).trcnt = (s.dieAt s.myDie).trcnt + 1 ∧ t.core.sb = s.core.sb ∧ (∀ r, t.readS r = s.readS r) ∧
      (let d := s.dieAt s.myDie
      let cnt := d.trcnt.toNat
      let at_ := fun (i : Nat) => bitsOf d.trctl 51 12 * 4096 + 64 * (i % 2 ^ bitsOf d.trctl 4 0)
      let x := s.core.ctx
      let rec_ : List Word := [x.tcb.word 0, x.tcb.word 1, x.tcb.word 2, BitVec.ofNat 64 (4096 * x.num.toNat + s.me.toNat), v, s.timeReg, 0, 0]
      let word := fun (a : Nat) => BitVec.ofNat 64 (natOfBytes ((spanOf a 8).map s.byte))
      at_ cnt + 64 ≤ 2 ^ 52 → (cnt = 0 ∨ word (at_ (cnt - 1) + 40) ≠ s.timeReg ∨ (word (at_ (cnt - 1) + 24)).toNat % 4096 ≤ s.me.toNat) →
        ∀ k, t.byte k = s.over (plainBytes (at_ cnt) (rec_.flatMap fun w => leBytes 8 w.toNat)) k))

/-- In system mode, once the core's earlier stores are visible at device scope, and with every die within reach (R328, R388, R393), `tlbi` completes: every TLB entry of every slice of the device that
it names is gone and every other stays, global pages only with INCG, and a pinned entry stays until its pin window ends (R130). -/
def Obligations.TlbiEffect : Prop :=
  ∀ (s : State) (a b : SReg), s.core.ctx.mode = .system → s.core.sb = [] → s.unacked s.me.toNat false = false →
    (∀ h, h < 4 → h ≠ s.myDie → s.tripFailed s.myDie h = false ∧ s.tripWaits s.myDie h = false ∧ s.inReset s.myDie h = false) →
    ∃ t, exec (.tlbi a b) s = .next t ∧ t.pc = pcAdd s.pc 4 ∧ (∀ r, t.readS r = s.readS r) ∧ t.mem = s.mem ∧
      ∀ (d : Fin 4) (e : TlbEntry),
        let o := s.readS b
        let names := (if e.leaf.glob then o.getLsbD 9 = true else e.actx = (o.extractLsb' 0 8).toNat) ∧
          (o.getLsbD 8 = true ∨ inPage (addr54 (s.readS a)) e.va e.leaf.size = true)
        (e ∈ t.dies[d].tlb ↔ e ∈ s.dies[d].tlb ∧ ¬names) ∧
        (∀ p ∈ s.dies[d].pins, ∃ q ∈ t.dies[d].pins, q.va = p.va ∧ q.leaf = p.leaf ∧ q.until_ = p.until_)

/-- `wpa` with kind `stop`, `gang` or `rec` arms watchpoint i with the physical and virtual range of its operands, when the range is not empty, lies
in one 64 KiB page of global memory, a pin maps it readable and its home is within reach; kind 0 disarms it. Nothing else changes but the pc (R322). -/
def Obligations.WatchpointArms : Prop :=
  ∀ (s : State) (a b : SReg) (i : BitVec 2) (l : Leaf),
    let v := addr54 (s.readS a)
    let n := (s.readS b).toNat
    let armed := fun (kind pa va len : Nat) =>
      ({ s with core := { s.core with watch := s.core.watch.set i.toNat ⟨kind, pa, va, len⟩ i.isLt } } : State).advance 4
    (s.Pinned (s.readS a) l → l.grants s.core.ctx.mode .load = true → (regionOf (l.at v) = .nearSram ∨ regionOf (l.at v) = .gddr) →
      (paNode (l.at v) = s.node → s.tripWaits s.myDie (paDie (l.at v)) = false) → isGlobal v = true → 0 < n → n ≤ 65536 →
      v / 65536 = (v + n - 1) / 65536 →
      exec (.wpaStop a b i) s = .next (armed 1 (l.at v) v n) ∧ exec (.wpaGang a b i) s = .next (armed 2 (l.at v) v n) ∧
      exec (.wpaRec a b i) s = .next (armed 3 (l.at v) v n)) ∧
    exec (.wpaOff i) s = .next (armed 0 0 0 0)

/-- When a byte performs at its home point, reading it there gives it (merged under its nibble mask) and every other byte of memory reads as before;
memory stays in canonical form. The premise that only physical memory is held dirty by the slices is the model's invariant. -/
def Obligations.PerformedBytes : Prop :=
  ∀ (s : State) (b : SbByte), s.Canonical → (∀ c ∈ s.dirty, isPhys c.1 = true) →
    (s.performByte b).Canonical ∧ (∀ c ∈ (s.performByte b).dirty, isPhys c.1 = true) ∧
    ∀ k, (s.performByte b).byte k = if k = b.loc then b.merge (s.byte k) else s.byte k

/-- A local access of a core reaches its TCM below TCMB, its cluster's scratchpad below SPADB, its own peer window, and, for a store, the peer windows of
its cluster's other cores below their TCMB; every other local address is out of bounds, and the TCMs of two cores share no byte (R131). -/
def Obligations.LocalWindows : Prop :=
  ∀ (s : State) (c a n : Nat) (peer : Bool), c < 4096 → 0 < n →
    (a < 0x20000 → s.localLoc c a n peer = if a + n ≤ s.tcmbOf c then some (tcmLoc c a) else none) ∧
    (0x100000 ≤ a → a < 0x180000 →
      s.localLoc c a n peer = if a - 0x100000 + n ≤ s.spadbOf c then some (spadLoc (clusterOf c) (a - 0x100000)) else none) ∧
    (∀ p off, p < 4 → off < 0x20000 → a = 0x200000 + 0x20000 * p + off →
      s.localLoc c a n peer = if (p = peerOf c ∨ peer = true) ∧ off + n ≤ s.tcmbOf (clusterCore (clusterOf c) p)
        then some (tcmLoc (clusterCore (clusterOf c) p) off) else none) ∧
    ((0x20000 ≤ a ∧ a < 0x100000 ∨ 0x180000 ≤ a ∧ a < 0x200000 ∨ 0x280000 ≤ a) → s.localLoc c a n peer = none) ∧
    (∀ c' o o', c' < 4096 → o < 0x20000 → o' < 0x20000 → tcmLoc c o = tcmLoc c' o' → c = c' ∧ o = o')

/-- The swizzle of mode m replaces bits 6:2 of an address by their XOR with bits 10+m:6+m and changes nothing else; mode 0 changes nothing (R71). -/
def Obligations.SwizzleLaw : Prop :=
  ∀ (a m : Nat), a < 2 ^ 54 → m < 8 →
    (swz a 0 = a) ∧
    (m ≠ 0 → swz a m / 128 = a / 128 ∧ swz a m % 4 = a % 4 ∧
      ∀ i, i < 5 → (swz a m).testBit (2 + i) = (a.testBit (2 + i) ^^ a.testBit (6 + m + i)))

/-- A load completes when its address is naturally aligned (and lies in the scratchpad window if it is swizzled): from local memory, from
global memory that a pin maps and nothing hinders, and, with 8 bytes and in system mode, from a register of the control window. D takes the value,
sign-extended for an `i` type, under its lookahead, the two words exchanged where the swizzle says so; nothing else changes but the pc and the core's L1D,
which takes the line of a global load that missed it (R131, R136, R155, R71). A hinted
load gives what a load gives; its use count and dead flag act only on a global line, at the slice that serves it, after its data are read (R145, R156). -/
def Obligations.LoadResults : Prop :=
  ∀ (s : State) (d a : SReg) (l : La) (w : BitVec 3) (z : MemType) (o : BitVec 6) (k : BitVec 4) (e : Bool) (oh : BitVec 4),
    let n := memSize z
    let va := addA (s.readS a) (o.signExtend 64 * BitVec.ofNat 64 n)
    let b := swz (addr54 va) w.toNat
    let q : Word := BitVec.ofNat 64 (if n = 8 then b / 8 * 8 else b)
    let gives := fun (u : State) (bs : List Byte) =>
      exec (.ld d a l w z o) s =
        .next ((u.result l (.s d (loadValue z (natOfBytes (exchange (n = 8 && decide (b / 4 % 2 = 1)) bs))))).advance 4)
    let filled := fun (p : Word) (f : Leaf) => s.l1Fill s.me.toNat false s.actx (addr54 p) (f.at (addr54 p)) f
    let qh : Word := BitVec.ofNat 64 (addr54 (addA (s.readS a) (oh.signExtend 64 * BitVec.ofNat 64 n)))
    (addr54 va % n = 0 → (w = 0 ∨ (0x100000 ≤ addr54 va ∧ addr54 va < 0x180000)) →
    (∀ loc, s.Local (addr54 q) n loc → s.Unbuffered loc n → gives s ((spanOf loc n).map s.mem.read)) ∧
    (∀ f, s.Plain q n .load f → s.Unbuffered (f.at (addr54 q)) n → gives (filled q f) ((spanOf (f.at (addr54 q)) n).map s.byte)) ∧
    (∀ f, n = 8 → s.core.ctx.mode = .system → s.Pinned q f → isGlobal (addr54 q) = true → f.grants .system .load = true →
      s.l1Find s.me.toNat false s.actx (addr54 q) = none → paNode (f.at (addr54 q)) = s.node →
      regionOf (f.at (addr54 q)) = .control → s.Unbuffered (f.at (addr54 q)) n → s.agenda.any Move.isRegWrite = false →
      s.homeError s.myDie (f.at (addr54 q)) q 2 = none →
      gives s (leBytes 8 (s.controlRead (paDie (f.at (addr54 q))) (paLoc (f.at (addr54 q)) % 2 ^ 24)).toNat))) ∧
    (addr54 qh % n = 0 →
      (∀ loc, s.Local (addr54 qh) n loc → s.Unbuffered loc n →
        exec (.ldHinted d a l k e z oh) s = .next ((s.result l (.s d (loadValue z (natOfBytes ((spanOf loc n).map s.mem.read))))).advance 4)) ∧
      (∀ f, s.Plain qh n .load f → s.Unbuffered (f.at (addr54 qh)) n →
        exec (.ldHinted d a l k e z oh) s = .next ((((filled qh f).hint s.myDie (f.at (addr54 qh)) k.toNat e).result l
          (.s d (loadValue z (natOfBytes ((spanOf (f.at (addr54 qh)) n).map s.byte))))).advance 4)))

/-- A store completes when its address is naturally aligned (and lies in the scratchpad window if it is swizzled) and the store buffer has room: an
entry with the low bytes of D, at the location the address names, joins the buffer behind the earlier ones; no byte of memory, register
or flag changes. An 8-byte store of system mode to the control window becomes a register write (R131, R138, R144, R155, R325); a watchpoint of the core that it
meets stops the core after it (R319). -/
def Obligations.StoreResults : Prop :=
  ∀ (s : State) (d a : SReg) (w : BitVec 3) (z : MemType) (o : BitVec 6),
    let n := memSize z
    let va := addA (s.readS a) (o.signExtend 64 * BitVec.ofNat 64 n)
    let b := swz (addr54 va) w.toNat
    let q : Word := BitVec.ofNat 64 (if n = 8 then b / 8 * 8 else b)
    let bs := exchange (n = 8 && decide (b / 4 % 2 = 1)) (leBytes n (s.readS d).toNat)
    let x := s.core.ctx
    let enters := fun (kind : SbKind) (loc : Nat) =>
      exec (.st d a w z o) s = .next
        (({ s with core := { s.core with
          sb := s.core.sb ++ [⟨kind, q, loc, plainBytes loc bs, x.num, x.task, false, [], s.core.sbCount, aidOf s.me.toNat x⟩]
          sbCount := s.core.sbCount + 1 } } : State).advance 4 |>.watchStop (s.core.watchKind q n))
    addr54 va % n = 0 → (w = 0 ∨ (0x100000 ≤ addr54 va ∧ addr54 va < 0x180000)) → s.core.sb.length < 16 →
    (∀ loc, isGlobal (addr54 q) = false → s.localLoc s.me.toNat (addr54 q) n true = some loc → enters .store loc) ∧
    (∀ f, s.Plain q n .store f → enters .store (f.at (addr54 q))) ∧
    (∀ f, n = 8 → x.mode = .system → s.Pinned q f → isGlobal (addr54 q) = true → f.grants .system .store = true → f.at (addr54 q) < 2 ^ 52 →
      regionOf (f.at (addr54 q)) = .control → enters (.control true (s.readS d)) (f.at (addr54 q)))

/-- A store to local memory leaves every byte of memory as it was and enters the store buffer; a later load of the same bytes by the same core is given
the value from the buffer (R138). -/
def Obligations.StoreThenLoad : Prop :=
  ∀ (s : State) (d e a : SReg) (z : MemType) (o : BitVec 6) (loc : Nat),
    let n := memSize z
    let va := addA (s.readS a) (o.signExtend 64 * BitVec.ofNat 64 n)
    let q : Word := BitVec.ofNat 64 (addr54 va)
    addr54 va % n = 0 → s.core.sb.length < 16 → s.Local (addr54 q) n loc →
    s.localLoc s.me.toNat (addr54 q) n true = some loc →
    ∃ t, exec (.st d a 0 z o) s = .next t ∧ (∀ k, t.byte k = s.byte k) ∧
      exec (.ld e a 0 0 z o) t = .next ((t.writeS e (loadValue z ((s.readS d).toNat % 2 ^ (8 * n)))).advance 4)

/-- A swizzled access outside the scratchpad window takes 0x008, an access that is not naturally aligned 0x006, a load outside the local windows 0x007, a
load of a page that is not present, without a pin or a line in the L1D, 0x009 and a store a leaf does not grant 0x00A, each with the ACC of R337 and none of the
access's effect (R72, R131, R150, R335). -/
def Obligations.AccessFaults : Prop :=
  ∀ (s : State) (d a : SReg) (l : La) (w : BitVec 3) (z : MemType) (o : BitVec 6), s.core.blocked true = false →
    let n := memSize z
    let va := addA (s.readS a) (o.signExtend 64 * BitVec.ofNat 64 n)
    let q : Word := BitVec.ofNat 64 (addr54 va)
    (w ≠ 0 → ¬(0x100000 ≤ addr54 va ∧ addr54 va < 0x180000) →
      exec (.ld d a l w z o) s = .next (s.takeExc { code := 0x008, addr := va, acc := 2, detail := w.toNat }) ∧
      exec (.st d a w z o) s = .next (s.takeExc { code := 0x008, addr := va, acc := 3, detail := w.toNat })) ∧
    (w = 0 → addr54 va % n ≠ 0 →
      exec (.ld d a l w z o) s = .next (s.takeExc { code := 0x006, addr := va, acc := 2 }) ∧
      exec (.st d a w z o) s = .next (s.takeExc { code := 0x006, addr := va, acc := 3 })) ∧
    (w = 0 → addr54 va % n = 0 → isGlobal (addr54 q) = false → s.localLoc s.me.toNat (addr54 q) n false = none →
      exec (.ld d a l w z o) s = .next (s.takeExc { code := 0x007, addr := q, acc := 2 })) ∧
    (w = 0 → addr54 va % n = 0 → isGlobal (addr54 q) = true → s.l1Find s.me.toNat false s.actx (addr54 q) = none →
      translate s.myDie s.actx q .load s.core.ctx.task s = .ok .absent s → s.pinEnded s.myDie s.actx (addr54 q) = false →
      exec (.ld d a l w z o) s = .next (s.takeExc { code := 0x009, addr := q, acc := 2 })) ∧
    (∀ f, w = 0 → addr54 va % n = 0 → isGlobal (addr54 q) = true → s.Pinned q f → f.grants s.core.ctx.mode .store = false →
      (regionOf (f.at (addr54 q)) = .nearSram ∨ regionOf (f.at (addr54 q)) = .gddr) →
      exec (.st d a w z o) s = .next (s.takeExc { code := 0x00A, addr := q, acc := 3 }))

/-- A scalar atomic at an aligned address, once the core's earlier stores have left, reads the old value at its memory, writes the function's result there in
one step, and gives the old value to D under its lookahead; every other byte of memory reads as before. It holds for local memory and for
global memory homed on the core's die, in both scopes (R159). -/
def Obligations.AtomicResults : Prop :=
  ∀ (s : State) (d a b : SReg) (l : La) (z : MemW) (c : AScope),
    let n := memBytes z
    let va := s.readS a
    let y := (s.readS b).toNat % 2 ^ (8 * n)
    let cmp := (s.readS d).toNat % 2 ^ (8 * n)
    let sg := fun (x : Nat) => (BitVec.ofNat (8 * n) x).toInt
    let gives := fun (i : Instr) (loc : Nat) (f : Nat → Nat) =>
      let old := natOfBytes ((spanOf loc n).map s.byte)
      ∃ t, exec i s = .next t ∧ t.core.ctx = ((s.result l (.s d (BitVec.ofNat 64 old))).advance 4).core.ctx ∧
        ∀ k, t.byte k = if loc ≤ k ∧ k < loc + n then BitVec.ofNat 8 (f old / 2 ^ (8 * (k - loc))) else s.byte k
    addr54 va % n = 0 → s.core.sb = [] → s.Canonical → (∀ e ∈ s.dirty, isPhys e.1 = true) → s.core.watchKind va n = none →
    ∀ loc, (s.Local (addr54 va) n loc ∨
        ∃ f, s.Plain va n .atomic f ∧ loc = f.at (addr54 va) ∧ loc < 2 ^ 52 ∧ (∀ k ∈ s.liveCores, ∀ p ∈ (s.coreAt k).watch.toList, p.kind = 0)) →
      gives (.amoSwap d a b l z c) loc (fun _ => y) ∧
      gives (.amoCas d a b l z c) loc (fun old => if old = cmp then y else old) ∧
      gives (.amoAdd d a b l z c) loc (fun old => (old + y) % 2 ^ (8 * n)) ∧
      gives (.amoAnd d a b l z c) loc (fun old => old &&& y) ∧ gives (.amoOr d a b l z c) loc (fun old => old ||| y) ∧
      gives (.amoXor d a b l z c) loc (fun old => old ^^^ y) ∧
      gives (.amoMax d a b l z c) loc (fun old => if sg old < sg y then y else old) ∧
      gives (.amoMin d a b l z c) loc (fun old => if sg y < sg old then y else old) ∧
      gives (.amoMaxn d a b l z c) loc (fun old => max old y) ∧ gives (.amoMinn d a b l z c) loc (fun old => min old y)

/-- A reduction at an aligned global address whose page a pin maps writable joins the store buffer with its function and operand; it writes no register
and no byte of memory changes until it is applied (R160). -/
def Obligations.ReductionResults : Prop :=
  ∀ (s : State) (a b : SReg) (z : MemW) (f : Leaf),
    let n := memBytes z
    let va := s.readS a
    let loc := f.at (addr54 va)
    let x := s.core.ctx
    let enters := fun (i : Instr) (fn : RedFn) =>
      exec i s = .next (({ s with core := { s.core with
        sb := s.core.sb ++ [⟨.red fn z (BitVec.ofNat 64 ((s.readS b).toNat % 2 ^ (8 * n))), va, loc, plainBytes loc (List.replicate n 0), x.num,
          x.task, false, [], s.core.sbCount, aidOf s.me.toNat x⟩]
        sbCount := s.core.sbCount + 1 } } : State).advance 4)
    addr54 va % n = 0 → isGlobal (addr54 va) = true → s.Pinned va f → f.grants x.mode .red = true →
    (regionOf loc = .nearSram ∨ regionOf loc = .gddr) → x.speculative = false → s.core.sb.length < 16 →
    enters (.redAdd a b z) .add ∧ enters (.redAnd a b z) .and ∧ enters (.redOr a b z) .or ∧ enters (.redXor a b z) .xor ∧
      enters (.redMax a b z) .max ∧ enters (.redMin a b z) .min ∧ enters (.redMaxn a b z) .maxn ∧ enters (.redMinn a b z) .minn ∧
      enters (.redFadd a b z) .fadd ∧ enters (.redFmax a b z) .fmax ∧ enters (.redFmin a b z) .fmin

/-- A touch of a local address only checks it; a touch of a mapped page the context may read or execute pins it in every slice of the die for 256 cycles
(R149, R157). A prefetch of any address, also of one whose page is absent, not readable or homed elsewhere, completes, changes no register and no memory and raises
nothing; of a page homed on the die it may put a line into the core's L1D (R157, R357). -/
def Obligations.TouchAndPrefetch : Prop :=
  ∀ (s : State) (a : SReg) (l : La) (o : BitVec 6),
    let va := addA (s.readS a) (o.signExtend 64 * 8)
    (∀ loc, isGlobal (addr54 va) = false → s.localLoc s.me.toNat (addr54 va) 1 false = some loc →
      exec (.tch a l o) s = .next ((s.result l .none).advance 4)) ∧
    (∀ f, isGlobal (addr54 va) = true → s.core.ctx.failNotice = false → s.Pinned va f → f.grants s.core.ctx.mode .touch = true →
      regionOf (f.at (addr54 va)) ≠ .control →
      let t := ((s.pin s.myDie s.actx (addr54 va) f).result l .none).advance 4
      exec (.tch a l o) s = .next t ∧
      ∃ p ∈ (t.dieAt t.myDie).pins, p.actx = s.actx ∧ p.leaf = f ∧ inPage (addr54 va) p.va f.size = true ∧ p.until_ = s.time + 256) ∧
    (isGlobal (addr54 va) = false → exec (.pfL1 a o) s = .next (s.advance 4) ∧ exec (.pfSl a o) s = .next (s.advance 4)) ∧
    (∀ f, s.Pinned va f → paDie (f.at (addr54 va)) = s.myDie →
      (exec (.pfL1 a o) s = .next (s.advance 4) ∨
        exec (.pfL1 a o) s = .next ((s.l1Fill s.me.toNat false s.actx (addr54 va) (f.at (addr54 va)) f).advance 4)) ∧
      exec (.pfSl a o) s = .next (s.advance 4)) ∧
    (∀ i, i = .pfL1 a o ∨ i = .pfSl a o → Reaches (exec i s) fun t => t.core = (s.advance 4).core ∧ t.mem = s.mem ∧ t.dirty = s.dirty ∧
      t.wts = s.wts ∧ t.reds = s.reds ∧ t.others = s.others ∧ t.signals = s.signals)

/-- A touch that finds its page not present, in task mode outside upcall code with UPCALL.ENTRY set, parks its context with FLTINFO.DEL 1, ACC 5 and CODE
0x014, queues a page-fault record before those of the same cycle of cores with larger indices, and the upcall starts in the lowest FREE context with the address in `s3` and the parked context in `s4`
(R151). In system mode, in upcall code or with no entry it takes 0x014 as an exception (R341). -/
def Obligations.TouchPageFault : Prop :=
  ∀ (s : State) (a : SReg) (l : La) (o : BitVec 6) (m : CtxNum),
    let va := addA (s.readS a) (o.signExtend 64 * 8)
    isGlobal (addr54 va) = true → s.core.ctx.failNotice = false → translate s.myDie s.actx va .touch s.core.ctx.task s = .ok .absent s →
    s.core.blocked true = false → s.core.iris = .running → s.core.ctx.st = .run →
    (s.core.ctxs.map (·.num)).Nodup → (∃ y ∈ s.core.rest, y.num = m) → s.core.freeCtx = some m →
    (s.core.ctx.mode = .task → s.core.ctx.upcallCode = false → s.core.upcall.extractLsb' 2 52 ≠ 0 →
      ∃ t, exec (.tch a l o) s = .next t ∧
        (let y := t.core.getCtx s.core.ctx.num
        y.st = .park ∧ y.pc = s.pc ∧ y.fltinfo.extractLsb' 54 10 = 0x014 ∧ y.fltinfo.extractLsb' 52 2 = 1 ∧
          y.fltinfo.extractLsb' 48 4 = 5 ∧ y.fltaddr.extractLsb' 0 54 = va.extractLsb' 0 54) ∧
        (t.core.ctx.num = m ∧ t.core.ctx.st = .run ∧ t.core.ctx.mode = .task ∧ t.pc = s.core.upcall &&& 0x003FFFFFFFFFFFFC ∧
          t.core.ctx.upsrc = 2 ^ 63 + s.core.ctx.num.setWidth 64 ∧ t.readS 3 = va &&& 0x003FFFFFFFFFFFFF ∧
          t.readS 4 = s.core.ctx.num.setWidth 64) ∧
        ∃ l r, (s.dieAt s.myDie).pfq = l ++ r ∧
          (t.dieAt s.myDie).pfq = l ++ pageFaultRecord va s.actx s.me.toNat s.core.ctx.num s.time :: r ∧
          ∀ e ∈ r, e.sent = s.time ∧ s.me.toNat < e.sender) ∧
    (s.core.ctx.mode = .system ∨ s.core.ctx.upcallCode = true ∨ s.core.upcall.extractLsb' 2 52 = 0 →
      exec (.tch a l o) s = .next (s.takeExc { code := 0x014, addr := va, acc := 5 }))

/-- Cache maintenance over an empty range, and over a range in one page that a pin maps, completes. After a clean no store-buffer
entry of the core writes the range, widened to whole lines, no slice at its level holds a byte of it dirty, and no byte that the core sees has changed. After an invalidate, and
after a clean and invalidate, the core's L1D and L1I hold no line of it, nor do the slices at its level or the L1Ds before them, and the core fetches no old code word of it whose
new one is visible to its die (R137); an invalidate discards nothing outside the range. No register changes. A range that is too long or leaves the address space takes
the bounds fault (R158). -/
def Obligations.CacheMaintenance : Prop :=
  ∀ (s : State) (a b : SReg) (l : La) (v : Level),
    let lo := addr54 (s.readS a)
    let n := (s.readS b).toNat
    let g := if v = .l1 then 32 else 128
    let frame := fun (t : State) => t.core.ctx = ((s.result l .none).advance 4).core.ctx
    (n = 0 → exec (.cmoCln a b l v) s = .next ((s.result l .none).advance 4) ∧ exec (.cmoInv a b l v) s = .next ((s.result l .none).advance 4) ∧
      exec (.cmoCli a b l v) s = .next ((s.result l .none).advance 4)) ∧
    (∀ f, 0 < n → n ≤ 2 ^ 32 → lo + n ≤ 2 ^ 54 → lo / 65536 = (lo + n - 1) / 65536 → isGlobal lo = true →
      let first := lo / g * g
      let len := (lo + n + g - 1) / g * g - first
      let pa := f.at first
      let p : Word := BitVec.ofNat 64 first
      let own := fun (d : Nat) => v = .home ∨ v = .slice ∧ d = s.myDie
      s.Pinned p f → (∀ c, c = .cmoRead ∨ c = .cmoWrite → f.grants s.core.ctx.mode c = true) → (regionOf pa = .nearSram ∨ regionOf pa = .gddr) →
      paNode pa = s.node → (∀ k, pa ≤ k → k < pa + len → s.homeError s.myDie k p 6 = none) →
      (v = .home → ∀ h, h < 4 → h ≠ s.myDie → s.tripFailed s.myDie h = false ∧ s.tripWaits s.myDie h = false ∧ s.inReset s.myDie h = false) →
      (∀ d ∈ s.dies.toList, d.locks = []) → s.wts = [] → s.Canonical → s.dirty.Pairwise (fun x y => x.1 < y.1) →
      let leaves := s.core.sb = [] ∨ s.core.iris = .running ∧ (∀ k ∈ s.liveCores, ∀ w ∈ (s.coreAt k).watch.toList, w.kind = 0) ∧
        ∀ e ∈ s.core.sb, e.kind = .store ∧ e.lanes = [] ∧ s.entryReady s.myDie e = true ∧ isPhys e.loc = true ∧
          ∀ b ∈ e.bytes, isPhys b.loc = true ∧ paNode b.loc = s.node ∧ paDie b.loc = s.myDie
      let left := fun (t : State) => (∃ j, t.core.sb = s.core.sb.drop j) ∧ ∀ e ∈ t.core.sb, e.overlaps pa len = false
      let cleaned := fun (t : State) => own (paDie pa) → ∀ c ∈ t.dirty, inRange c.1 pa len = false
      let gone := fun (t : State) => (∀ e ∈ (t.dieAt s.myDie).l1, e.core = s.me.toNat → e.actx = s.actx → inRange (32 * e.line) first len = false) ∧
        (∀ d, d < 4 → own d → (∀ e ∈ (t.dieAt d).l1, e.code = false → inRange (e.pa / 128 * 128) pa len = false) ∧
          ∀ c ∈ (t.dieAt d).copies, inRange c.1 pa len = false) ∧
        ∀ e ∈ t.stale, inRange e.loc pa len = true →
          BitVec.ofNat 32 (natOfBytes ((spanOf e.loc 4).map (t.view s.myDie))) ≠ e.old → s.me.toNat ∈ e.fresh
      (leaves → Reaches (exec (.cmoCln a b l v) s) fun t => frame t ∧ left t ∧ cleaned t ∧ ∀ k, t.seen k = s.seen k) ∧
      (Reaches (exec (.cmoInv a b l v) s) fun t => frame t ∧ t.core.sb = s.core.sb ∧ cleaned t ∧ gone t ∧
        ∀ k, inRange k pa len = false → t.byte k = s.byte k) ∧
      (leaves → Reaches (exec (.cmoCli a b l v) s) fun t => frame t ∧ left t ∧ cleaned t ∧ gone t ∧ ∀ k, t.seen k = s.seen k)) ∧
    ((2 ^ 32 < n ∨ 2 ^ 54 < lo + n) → s.core.blocked true = false → ∀ i, i = .cmoCln a b l v ∨ i = .cmoInv a b l v ∨ i = .cmoCli a b l v →
      exec i s = .next (s.takeExc { code := 0x007, addr := s.readS a, acc := 6 }))

/-- Each instruction of major opcode 0x20 completes in every state: an active lane of D takes the exact result of R166's table modulo 2^w (saturated for
`vadds` and `vsubs`), an inactive lane keeps D's element, the pc advances by 4 and nothing else changes, whichever registers coincide (R161, R162, R166). -/
def Obligations.VectorIntegers : Prop :=
  ∀ (s : State) (d a b : VReg) (k : MReg) (t : IntTy),
    let w := elemWidth (intElem t)
    let sg := elemSigned (intElem t)
    let val := fun (x : Nat) => if sg then (BitVec.ofNat w x).toInt else (x : Int)
    let lo : Int := if sg then -(2 ^ (w - 1)) else 0
    let hi : Int := if sg then 2 ^ (w - 1) - 1 else 2 ^ w - 1
    let gives := fun (i : Instr) (F : Nat → Nat → Int) =>
      ∃ v, exec i s = .next ((s.writeV d v).advance 4) ∧
        ∀ j, j < 512 / w → (lane v w j : Int) =
          if laneActive (s.readM k) (512 / w) j then F (lane (s.readV a) w j) (lane (s.readV b) w j) % 2 ^ w else lane (s.readV d) w j
    (gives (.vadd d a b k t) (fun x y => val x + val y) ∧ gives (.vsub d a b k t) (fun x y => val x - val y) ∧
      gives (.vmul d a b k t) (fun x y => val x * val y) ∧ gives (.vmulh d a b k t) (fun x y => val x * val y / 2 ^ w)) ∧
    (gives (.vmin d a b k t) (fun x y => min (val x) (val y)) ∧ gives (.vmax d a b k t) (fun x y => max (val x) (val y)) ∧
      gives (.vadds d a b k t) (fun x y => max lo (min hi (val x + val y))) ∧
      gives (.vsubs d a b k t) (fun x y => max lo (min hi (val x - val y)))) ∧
    (gives (.vand d a b k t) (fun x y => (x &&& y : Nat)) ∧ gives (.vor d a b k t) (fun x y => (x ||| y : Nat)) ∧
      gives (.vxor d a b k t) (fun x y => (x ^^^ y : Nat))) ∧
    (gives (.vsll d a b k t) (fun x y => x * 2 ^ (y % w)) ∧ gives (.vsrl d a b k t) (fun x y => (x / 2 ^ (y % w) : Nat)) ∧
      gives (.vsra d a b k t) (fun x y => (BitVec.ofNat w x).toInt / 2 ^ (y % w))) ∧
    (gives (.vabs d a k t) (fun x _ => (val x).natAbs) ∧ gives (.vneg d a k t) (fun x _ => - val x) ∧
      gives (.vpop d a k t) (fun x _ => ((List.range w).countP fun j => x.testBit j : Nat)) ∧
      gives (.vclz d a k t) (fun x _ => ((List.range w).countP fun j => decide (x < 2 ^ j) : Nat)))

/-- Each instruction of major opcodes 0x21 and 0x22 completes in every state: an active lane of D takes the operation's result on the lanes of A, B and, for
the fused forms, D, rounded once in the mode of RM; FSTAT gains exactly the flags that active lanes raise; an inactive lane keeps D's
element and raises none; nothing else changes but the pc (R162, R164, R167, R168). -/
def Obligations.VectorFloats : Prop :=
  ∀ (s : State) (d a b : VReg) (k : MReg) (t : FloatTy) (r : Rm),
    let g := floatFmt t
    let w := g.width
    let m := s.modeOf r
    let gives := fun (i : Instr) (F : Nat → Nat → Nat → Nat × Flags) =>
      let at_ := fun (j : Nat) => F (lane (s.readV a) w j) (lane (s.readV b) w j) (lane (s.readV d) w j)
      ∃ v fl, exec i s = .next (((s.writeV d v).raiseFlags fl).advance 4) ∧
        (∀ j, j < 512 / w → lane v w j = if laneActive (s.readM k) (512 / w) j then (at_ j).1 % 2 ^ w else lane (s.readV d) w j) ∧
        ∀ f, fl.getLsbD f = (List.range (512 / w)).any fun j => laneActive (s.readM k) (512 / w) j && (at_ j).2.getLsbD f
    (gives (.vfadd d a b k t r) (fun x y _ => fpAdd g m (g.val x) (g.val y)) ∧
      gives (.vfsub d a b k t r) (fun x y _ => fpAdd g m (g.val x) (g.val y).neg) ∧
      gives (.vfmul d a b k t r) (fun x y _ => fpMul g m (g.val x) (g.val y)) ∧
      gives (.vfdiv d a b k t r) (fun x y _ => fpDiv g m (g.val x) (g.val y))) ∧
    (gives (.vfmin d a b k t r) (fun x y _ => (fpMinMax g false x y, 0)) ∧ gives (.vfmax d a b k t r) (fun x y _ => (fpMinMax g true x y, 0))) ∧
    (gives (.vfma d a b k t r) (fun x y z => fpFma g m (g.val x) (g.val y) (g.val z)) ∧
      gives (.vfms d a b k t r) (fun x y z => fpFma g m (g.val x) (g.val y) (g.val z).neg) ∧
      gives (.vfnma d a b k t r) (fun x y z => fpFma g m (g.val x).neg (g.val y) (g.val z).neg) ∧
      gives (.vfnms d a b k t r) (fun x y z => fpFma g m (g.val x).neg (g.val y) (g.val z))) ∧
    (gives (.vfsqrt d a k t r) (fun x _ _ => fpSqrt g m (g.val x)) ∧
      gives (.vfabs d a k t r) (fun x _ _ => (if g.val x = .nan then g.nan else x % 2 ^ (w - 1), 0)) ∧
      gives (.vfneg d a k t r) (fun x _ _ => (if g.val x = .nan then g.nan else x + 2 ^ (w - 1), 0)))

/-- A compare completes in every state: bit j of the mask it writes is 1 exactly when lane j is active and the relation holds, false with a NaN operand
except for `vcne` (R169). The mask instructions complete with the results of R177. Nothing else changes but the pc. -/
def Obligations.VectorCompares : Prop :=
  (∀ (s : State) (d : MReg) (a b : VReg) (k : MReg) (t : ElemTy),
      let w := elemWidth t
      let gives := fun (i : Instr) (R : Option Ordering → Prop) =>
        ∃ v, exec i s = .next ((s.writeM d v).advance 4) ∧
          ∀ j, v.getLsbD j = true ↔ j < 512 / w ∧ j < 64 ∧ laneActive (s.readM k) (512 / w) j = true ∧
            R ((elemVal t (lane (s.readV a) w j)).cmp (elemVal t (lane (s.readV b) w j)))
      gives (.vceq d a b k t) (· = some .eq) ∧ gives (.vcne d a b k t) (· ≠ some .eq) ∧ gives (.vclt d a b k t) (· = some .lt) ∧
        gives (.vcle d a b k t) (fun o => o = some .lt ∨ o = some .eq) ∧ gives (.vcgt d a b k t) (· = some .gt) ∧
        gives (.vcge d a b k t) (fun o => o = some .gt ∨ o = some .eq)) ∧
    (∀ (s : State) (d a b : MReg) (e : SReg),
      let x := s.readM a
      exec (.mand d a b) s = .next ((s.writeM d (x &&& s.readM b)).advance 4) ∧
      exec (.mor d a b) s = .next ((s.writeM d (x ||| s.readM b)).advance 4) ∧
      exec (.mxor d a b) s = .next ((s.writeM d (x ^^^ s.readM b)).advance 4) ∧
      exec (.mandn d a b) s = .next ((s.writeM d (x &&& ~~~s.readM b)).advance 4) ∧
      exec (.mnot d a) s = .next ((s.writeM d (~~~x)).advance 4) ∧
      exec (.mfrom d e) s = .next ((s.writeM d (s.readS e)).advance 4) ∧ exec (.mto e a) s = .next ((s.writeS e x).advance 4) ∧
      (∃ v, exec (.mpop e a) s = .next ((s.writeS e v).advance 4) ∧ v.toNat = (List.range 64).countP fun j => x.getLsbD j) ∧
      (∃ v, exec (.mfirst e a) s = .next ((s.writeS e v).advance 4) ∧ v.toNat ≤ 64 ∧ (∀ j, j < v.toNat → x.getLsbD j = false) ∧
        (v.toNat < 64 → x.getLsbD v.toNat = true)))

/-- The single rounding of floating-point results and conversions gives, of the format's finite values, the one that the mode names for the exact value, with NX when it
differs and UF when it is also tiny after rounding, or the overflow table's result with OF and NX (R36, R37, R40); a conversion to an integer rounds so to an
integer and saturates with NV (R39). `vcvt`, `vq` and `vsx` complete in every state with the converted or quantised elements in the active lanes, D's in the inactive ones and zero from
element n on, and the flags of the active lanes (R170, R173, R174); `vqs` completes with the amax word of B's part and the active lanes, or with QMODE.SEARCH
of the active lanes alone (R171, R172); the reductions complete with the active lanes combined in ascending order, with the identity when there is none, and a
lone lane returned as it is, a NaN as the canonical NaN (R175). Nothing else changes but the pc. -/
def Obligations.ConvertAndQuantise : Prop :=
  ∀ (s : State) (d a : VReg) (e b : SReg) (x : Bool) (u t : ElemTy) (k : MReg) (q : QuantTy) (r : Rm),
    let act := fun (n j : Nat) => laneActive (s.readM k) n j
    let gives := fun (i : Instr) (n w : Nat) (F : Nat → Nat × Flags) =>
      ∃ v fl, exec i s = .next (((s.writeV d v).raiseFlags fl).advance 4) ∧
        (∀ j, lane v w j = if j < n then (if act n j then (F j).1 % 2 ^ w else lane (s.readV d) w j) else 0) ∧
        ∀ f, fl.getLsbD f = (List.range n).any fun j => act n j && (F j).2.getLsbD f
    (∀ (g : Fmt) (m : RMode) (sat neg : Bool) (mag : Nat) (p : Int), g ∈ [fmtF64, fmtF32, fmtF16, fmtBf16, fmtE4m3, fmtE5m2, fmtE2m1] →
      let one := fun (mag : Nat) (p : Int) (sticky : Bool) => g.round m sat neg mag p sticky
      (mag ≠ 0 → g.Rounds m sat neg (Dy.ofFin neg mag p) (one mag p false).1 (one mag p false).2) ∧ one 0 p false = (g.signBit neg, 0) ∧
        (2 ^ (g.mbits + 2) ≤ mag → one mag p true = one (2 * mag + 1) (p - 1) false) ∧
        (∀ z, elemFmt u = some g → t ≠ u → elemVal t z = .fin neg mag p → convertElem t u m sat z = one mag p false) ∧
        (elemFmt u = none → (elemFmt t).isSome = true → ∀ z, elemVal t z = .fin neg mag p → ∃ i : Int, let w := elemWidth u
          (∀ j : Int, m.Picks (Dy.ofFin neg mag p) ⟨i, 0⟩ (i % 2 = 0) ⟨j, 0⟩) ∧
            convertElem t u m sat z = if i < intMin (elemSigned u) w ∨ intMax (elemSigned u) w < i then (wrapInt w (clampInt (elemSigned u) w i), flagNV)
              else (wrapInt w i, if (Dy.ofFin neg mag p).cmp ⟨i, 0⟩ = .eq then 0 else flagNX))) ∧
    gives (.vcvt d a x u k t r) (512 / max (elemWidth t) (elemWidth u)) (elemWidth u)
      (fun j => convertElem t u (s.modeOf r) x (lane (s.readV a) (elemWidth t) j)) ∧
    gives (.vq d a b k q r) 16 (elemWidth (quantElem q))
      (fun j => quantOne (fmtF32.val (lane (s.readV a) 32 j)) ((s.readS b).toNat % 256) q (s.quantModeOf r)) ∧
    (∃ v, exec (.vsx d a k) s = .next ((s.writeV d v).advance 4) ∧ ∀ j, lane v 32 j = if j < 16 then
      (if act 16 j then (convertFloat fmtF32 .rne false (e8m0Val (lane (s.readV a) 8 j))).1 % 2 ^ 32 else lane (s.readV d) 32 j) else 0) ∧
    (∃ v : Word, exec (.vqs e a b k q r) s = .next ((s.writeS e v).advance 4) ∧
      let part := s.readS b
      let xs := ((List.range 16).filter (act 16)).map (lane (s.readV a) 32)
      let am := (v.extractLsb' 32 31).toNat
      let old := (part.extractLsb' 32 31).toNat
      let search := s.core.ctx.qmode.getLsbD 0
      (v.getLsbD 63 = true ↔ (∃ z ∈ xs, isFinite (fmtF32.val z) = false) ∨
        search = false ∧ (part.getLsbD 63 = true ∨ isFinite (fmtF32.val old) = false)) ∧
      (∀ z ∈ xs, isFinite (fmtF32.val z) = true → z % 2 ^ 31 ≤ am) ∧ (search = false → isFinite (fmtF32.val old) = true → old ≤ am) ∧
      (am = 0 ∨ (search = false ∧ am = old) ∨ ∃ z ∈ xs, isFinite (fmtF32.val z) = true ∧ am = z % 2 ^ 31) ∧
      v.extractLsb' 29 3 = q.code ∧ v.extractLsb' 8 21 = 0 ∧
      v.extractLsb' 0 8 = BitVec.ofNat 8 (if search && !v.getLsbD 63 && decide (am ≠ 0) then searchCode (xs.map fmtF32.val) q (s.quantModeOf r)
        else codeOf (v.getLsbD 63) (fmtF32.val am).dy q)) ∧
    (let w := elemWidth t
      let m := modeOfCode s.core.ctx.rmode
      let val := intOf (elemSigned t) w
      let red := fun (i : Instr) (ident : Nat) (f : Nat → Nat → Nat × Flags) =>
        let res : Nat × Flags := match ((List.range (512 / w)).filter (act (512 / w))).map (lane (s.readV a) w) with
          | [] => (ident, 0)
          | [y] => (match elemFmt t with | some g => if g.val y = .nan then g.nan else y | none => y, 0)
          | y :: ys => ys.foldl (fun p z => ((f p.1 z).1, p.2 ||| (f p.1 z).2)) (y, 0)
        exec i s = .next (((s.writeS e (extendElem t res.1)).raiseFlags res.2).advance 4)
      red (.vrand e a k t) (2 ^ w - 1) (fun y z => (y &&& z, 0)) ∧ red (.vror e a k t) 0 (fun y z => (y ||| z, 0)) ∧
      red (.vrxor e a k t) 0 (fun y z => (y ^^^ z, 0)) ∧
      (∀ g, elemFmt t = some g → red (.vrsum e a k t) 0 (fun y z => fpAdd g m (g.val y) (g.val z)) ∧
        red (.vrmin e a k t) (g.infinity false) (fun y z => (fpMinMax g false y z, 0)) ∧
        red (.vrmax e a k t) (g.infinity true) (fun y z => (fpMinMax g true y z, 0))) ∧
      (elemFmt t = none → red (.vrsum e a k t) 0 (fun y z => ((y + z) % 2 ^ w, 0)) ∧
        red (.vrmin e a k t) (if elemSigned t then 2 ^ (w - 1) - 1 else 2 ^ w - 1) (fun y z => (if val z < val y then z else y, 0)) ∧
        red (.vrmax e a k t) (if elemSigned t then 2 ^ (w - 1) else 0) (fun y z => (if val y < val z then z else y, 0))))

/-- Each permute completes in every state with the lanes of R176's table, all sources read before D is written; inactive lanes keep D's element, except for
`vcompr` and `vexpand`, whose mask selects. Nothing else changes but the pc. -/
def Obligations.Permutes : Prop :=
  ∀ (s : State) (d a b : VReg) (c : SReg) (k : MReg) (e : ElemSize),
    let w := esBits e
    let n := 512 / w
    let act := fun j => laneActive (s.readM k) n j
    let A := lane (s.readV a) w
    let B := lane (s.readV b) w
    let sh := min (s.readS c).toNat n
    let gives := fun (i : Instr) (F : Nat → Nat) =>
      ∃ v, exec i s = .next ((s.writeV d v).advance 4) ∧ ∀ j, j < n → lane v w j = if act j then F j else lane (s.readV d) w j
    gives (.vperm d a b k e) (fun j => A (B j % n)) ∧
    gives (.vbcast d c k e) (fun _ => (s.readS c).toNat % 2 ^ w) ∧
    gives (.vslup d a c k e) (fun j => if sh ≤ j then A (j - sh) else 0) ∧
    gives (.vsldn d a c k e) (fun j => if j + sh < n then A (j + sh) else 0) ∧
    gives (.vzip d a b k e) (fun j => if j % 2 = 0 then A (j / 2) else B ((j - 1) / 2)) ∧
    gives (.vunzip d a b k e) (fun j => if 2 * j < n then A (2 * j) else B (2 * j - n)) ∧
    (∃ v, exec (.vcompr d a k e) s = .next ((s.writeV d v).advance 4) ∧
      ∀ j, j < n → lane v w j = (((List.range n).filter act).map A).getD j 0) ∧
    (∃ v, exec (.vexpand d a k e) s = .next ((s.writeV d v).advance 4) ∧
      ∀ j, j < n → lane v w j = if act j then A ((List.range j).countP act) else 0)

/-- An integer, immediate, compare, select, quotient, vector or mask instruction changes no register but its destination, no flag unless it is one that
raises flags, and then it only sets them, and no byte of memory; its pc goes to the next word (R36, R73, R113, R117, R164, R166 to R177). -/
def Obligations.RegisterOnlyFrame : Prop :=
  ∀ (s t : State) (i : Instr) (dst : RegDest), regDest i = some dst → exec i s = .next t →
    (CtxOnly s t ∧ s.core.ctx.SameBut t.core.ctx ∧ t.pc = pcAdd s.pc 4) ∧
    (∀ q, dst ≠ .s q → t.readS q = s.readS q) ∧ (∀ q, dst ≠ .v q → t.readV q = s.readV q) ∧ (∀ q, dst ≠ .m q → t.readM q = s.readM q) ∧
    (raisesFlags i = false → t.core.ctx.fstat = s.core.ctx.fstat) ∧
    (∀ f, s.core.ctx.fstat.getLsbD f = true → t.core.ctx.fstat.getLsbD f = true) ∧
    (∀ k, t.byte k = s.byte k)

/-- A typed load or a local gather whose active lanes from VPROG on meet memory completes: those lanes of D take the element at their address, converted from
the memory format, the others keep theirs, under the lookahead; VPROG becomes 0; no other register and no byte of memory changes (R178,
R179, R181). -/
def Obligations.VectorLoads : Prop :=
  ∀ (s : State) (d : VReg) (a b : SReg) (x : VReg) (k : MReg) (l : La) (t : ElemTy) (z : MemW) (e : MemFmt) (loc : Nat → Nat),
    let vp := s.core.ctx.vprog.toNat
    let frame := fun (u : State) => u.pc = pcAdd s.pc 4 ∧ u.core.ctx.vprog = 0 ∧ (∀ r, u.readS r = s.readS r) ∧
      (∀ r, r ≠ d → u.readV r = s.readV r) ∧ (∀ r, u.readM r = s.readM r) ∧ u.core.sb = s.core.sb ∧ ∀ j, u.byte j = s.byte j
    s.core.ctx.win = [] → s.core.ctx.vecOld = none → (∀ c ∈ s.dirty, isPhys c.1 = true) →
    (let p := s.readS a
      let st := s.readS b
      let sz := max 1 (e.width / 8)
      let n := 512 / elemWidth t
      let raw := fun (i : Nat) =>
        let v := natOfBytes ((spanOf (loc i) sz).map s.byte)
        if e.width = 4 then v / 2 ^ (4 * (i % 2)) % 16 else v
      let elem := fun (i : Nat) => fromMem e t (modeOfCode s.core.ctx.rmode) (raw i)
      (ptrCode p = 0 ∧ e = .elem t ∨ ptrCode p ≠ 0 ∧ ∃ sc, fmtOfCode (ptrCode p) = some (e, sc) ∧ blockOk sc (ptrL p) = true) →
      (e.width = 4 → st = 0) →
      (∀ i, vp ≤ i → i < n → laneActive (s.readM k) n i = true → addr54 (laneAddr p st e i) % sz = 0 ∧
        s.Meets (laneAddr p st e i) sz .load (loc i) ∧ s.Unbuffered (loc i) sz) →
      ∃ u, exec (.vld d a b k l t) s = .next u ∧ frame u ∧
        (∀ i, i < n → lane ((u.core.ctx.closeWindows true).readV d) (elemWidth t) i =
          if vp ≤ i ∧ laneActive (s.readM k) n i = true then (elem i).1 % 2 ^ elemWidth t else lane (s.readV d) (elemWidth t) i)) ∧
    (let nb := memBytes z
      let n := 64 / nb
      let va := fun (i : Nat) => addA (s.readS a) (BitVec.ofNat 64 (lane (s.readV x) (8 * nb) i * nb))
      (∀ i, vp ≤ i → i < n → laneActive (s.readM k) n i = true → addr54 (va i) % nb = 0 ∧ s.Local (addr54 (va i)) nb (loc i) ∧
        s.Unbuffered (loc i) nb) →
      ∃ u, exec (.vgath d a x k l z) s = .next u ∧ frame u ∧
        ∀ i, i < n → lane ((u.core.ctx.closeWindows true).readV d) (8 * nb) i =
          if vp ≤ i ∧ laneActive (s.readM k) n i = true then natOfBytes ((spanOf (loc i) nb).map s.byte) else lane (s.readV d) (8 * nb) i)

/-- On a running core a typed store whose active lanes meet local or plain global memory, or a local scatter, completes: their elements, converted to the memory format, are stored in ascending
lane order, 4-bit ones under their nibble mask, so that the core sees them, and for a scatter they have performed; no other byte changes and
no register (R138, R178, R180, R181). -/
def Obligations.VectorStores : Prop :=
  ∀ (s : State) (d : VReg) (a b : SReg) (x : VReg) (k : MReg) (l : La) (t : ElemTy) (z : MemW) (e : MemFmt) (loc : Nat → Nat),
    let frame := fun (u : State) => u.pc = pcAdd s.pc 4 ∧ u.core.ctx.vprog = 0 ∧ (∀ r, u.readS r = s.readS r) ∧
      (∀ r, u.readV r = s.readV r) ∧ (∀ r, u.readM r = s.readM r)
    let merged := fun (old : Byte) (bs : List SbByte) (j : Nat) => bs.foldl (fun v c => if c.loc = j then c.merge v else v) old
    s.core.sb = [] → s.core.iris = .running → s.Canonical → (∀ c ∈ s.dirty, isPhys c.1 = true) → s.core.ctx.vprog = 0 →
    s.core.ctx.vecOld = none →
    (let p := s.readS a
      let st := s.readS b
      let sz := max 1 (e.width / 8)
      let n := 512 / elemWidth t
      let elem := fun (i : Nat) => (toMem t e (modeOfCode s.core.ctx.rmode) (lane (s.readV d) (elemWidth t) i)).1
      let bytes := fun (i : Nat) => if e.width = 4
        then [⟨loc i, BitVec.ofNat 8 (elem i * 2 ^ (4 * (i % 2))), if i % 2 = 0 then 0x0F else 0xF0⟩]
        else plainBytes (loc i) (leBytes sz (elem i))
      (ptrCode p = 0 ∧ e = .elem t ∨ ptrCode p ≠ 0 ∧ ∃ sc, fmtOfCode (ptrCode p) = some (e, sc) ∧ blockOk sc (ptrL p) = true) →
      (e.width = 4 → st = 0) →
      (∀ i, i < n → laneActive (s.readM k) n i = true → let q := laneAddr p st e i
        addr54 q % sz = 0 ∧ (isGlobal (addr54 q) = false ∧ s.localLoc s.me.toNat (addr54 q) sz true = some (loc i) ∨
          s.Quiet ∧ ∃ f, s.Plain q sz .store f ∧ loc i = f.at (addr54 q) ∧ loc i < 2 ^ 52)) →
      ∃ u, exec (.vst d a b k t) s = .next u ∧ frame u ∧
        ∀ j, u.seen j = merged (s.seen j) (((List.range n).filter (laneActive (s.readM k) n)).flatMap bytes) j) ∧
    (let nb := memBytes z
      let n := 64 / nb
      let va := fun (i : Nat) => addA (s.readS a) (BitVec.ofNat 64 (lane (s.readV x) (8 * nb) i * nb))
      (∀ i, i < n → laneActive (s.readM k) n i = true → addr54 (va i) % nb = 0 ∧ isGlobal (addr54 (va i)) = false ∧
        s.localLoc s.me.toNat (addr54 (va i)) nb true = some (loc i)) →
      ∃ u, exec (.vscat d a x k l z) s = .next u ∧ frame u ∧ u.core.sb = [] ∧
        ∀ j, u.byte j = merged (s.byte j) (((List.range n).filter (laneActive (s.readM k) n)).flatMap fun i =>
          plainBytes (loc i) (leBytes nb (lane (s.readV d) (8 * nb) i))) j)

/-- A vector atomic whose active lanes meet local or plain global memory at places that do not overlap completes, once the core's earlier stores have left: each active lane
reads its old value into D, under the lookahead, and leaves the function's result of it and of D's element there; no other byte and no other
register changes (R182). -/
def Obligations.VectorAtomics : Prop :=
  ∀ (s : State) (d : VReg) (a : SReg) (b : VReg) (k : MReg) (l : La) (loc : Nat → Nat),
    let gives := fun (i : Instr) (nb : Nat) (F : Nat → Nat → Nat) =>
      let n := 64 / nb
      let act := fun (j : Nat) => laneActive (s.readM k) n j
      let va := fun (j : Nat) => addA (s.readS a) (BitVec.ofNat 64 (lane (s.readV b) (8 * nb) j * nb))
      let old := fun (j : Nat) => natOfBytes ((spanOf (loc j) nb).map s.byte)
      (∀ j, j < n → act j = true → addr54 (va j) % nb = 0 ∧ (s.Local (addr54 (va j)) nb (loc j) ∨
        s.Quiet ∧ ∃ f, s.Plain (va j) nb .atomic f ∧ loc j = f.at (addr54 (va j)) ∧ loc j < 2 ^ 52)) →
      (∀ i j, i < n → j < n → i ≠ j → act i = true → act j = true → loc i + nb ≤ loc j ∨ loc j + nb ≤ loc i) →
      ∃ u, exec i s = .next u ∧ u.pc = pcAdd s.pc 4 ∧ u.core.ctx.vprog = 0 ∧ (∀ r, u.readS r = s.readS r) ∧
        (∀ r, r ≠ d → u.readV r = s.readV r) ∧ (∀ r, u.readM r = s.readM r) ∧
        (∀ j, j < n → lane ((u.core.ctx.closeWindows true).readV d) (8 * nb) j = if act j then old j else lane (s.readV d) (8 * nb) j) ∧
        (∀ j, j < n → act j = true → natOfBytes ((spanOf (loc j) nb).map u.byte) = F (old j) (lane (s.readV d) (8 * nb) j) % 2 ^ (8 * nb)) ∧
        (∀ q, (∀ j, j < n → act j = true → ¬(loc j ≤ q ∧ q < loc j + nb)) → u.byte q = s.byte q)
    let sg := fun (x : Nat) => (BitVec.ofNat 32 x).toInt
    s.core.ctx.win = [] → s.core.ctx.vecOld = none → s.core.sb = [] → s.Canonical → (∀ c ∈ s.dirty, isPhys c.1 = true) →
    s.core.ctx.vprog = 0 → gives (.vamoAdd32 d a b k l) 4 (fun o y => o + y) ∧ gives (.vamoAdd64 d a b k l) 8 (fun o y => o + y) ∧
    gives (.vamoMax32 d a b k l) 4 (fun o y => if sg o < sg y then y else o) ∧
    gives (.vamoMin32 d a b k l) 4 (fun o y => if sg y < sg o then y else o) ∧
    gives (.vamoMaxn32 d a b k l) 4 max ∧ gives (.vamoMinn32 d a b k l) 4 min ∧
    gives (.vamoFadd32 d a b k l) 4 (fun o y => (fpAdd fmtF32 .rne (fmtF32.val o) (fmtF32.val y)).1) ∧
    gives (.vamoFmax32 d a b k l) 4 (fpMinMax fmtF32 true) ∧ gives (.vamoFmin32 d a b k l) 4 (fpMinMax fmtF32 false) ∧
    gives (.vamoSwap32 d a b k l) 4 (fun _ y => y) ∧ gives (.vamoSwap64 d a b k l) 8 (fun _ y => y)

/-- A push writes the TCB into slot BOTTOM of a deque that holds fewer than 63, then BOTTOM + 1; it leaves TOP, the TCBs below BOTTOM and every other byte of
memory as they were; a pop then takes that TCB back, and a steal takes the TCB at TOP and moves TOP (R99, R100, R101). Counters below 2^63 are assumed: beyond
them the slot numbers of R99 do not run on. -/
def Obligations.DequeLaws : Prop :=
  ∀ (s : State) (c : Nat) (t : Tcb), s.Canonical → (∀ e ∈ s.dirty, isPhys e.1 = true) →
    (s.dequeTop c).toNat ≤ (s.dequeBottom c).toNat → (s.dequeBottom c).toNat < 2 ^ 63 → s.dequeOk c = true →
    let b := s.dequeBottom c
    let u := s.dequePush c t
    (s.dequeLen c < 63 →
      (u.dequeTop c = s.dequeTop c ∧ u.dequeBottom c = b + 1 ∧ u.dequeTcb c b = t) ∧
      (∀ i : Word, (s.dequeTop c).toNat ≤ i.toNat → i.toNat < b.toNat → u.dequeTcb c i = s.dequeTcb c i) ∧
      (∀ k, ¬(dequeSlot c b ≤ k ∧ k < dequeSlot c b + 128) → ¬(tcmLoc c 0x1E008 ≤ k ∧ k < tcmLoc c 0x1E010) → u.byte k = s.byte k) ∧
      ∃ v, u.dequePop c = some (t, v) ∧ v.dequeLen c = s.dequeLen c) ∧
    (s.dequeLen c = 0 ↔ s.dequePop c = none) ∧
    (0 < s.dequeLen c → ∃ v, s.dequeSteal c = some (s.dequeTcb c (s.dequeTop c), v) ∧ v.dequeTop c = s.dequeTop c + 1 ∧
      v.dequeBottom c = b ∧ v.dequeLen c = s.dequeLen c - 1)

/-- With a TCB image that passes the checks of R350 each creating instruction completes: the hardware writes the fields of R85 and KIND, CSEQ counts one,
and the TCB goes where its instruction sends it: `spawn` to slot BOTTOM of the deque, or to the task queue when the deque holds 63 (R255); `join` writes words
1, 2 and 13 of its image in memory and enqueues it when PRED is 0 (R257); `tenq` to the commit queue, here not full (R258, R379); `msg`, once its receiver has room, to the message
network with the RTAG of S(B) (R259, R351). In a guarded or ordered task the image of each of the four joins the outbox instead, and nothing else is done yet (R248); a seventeenth entry takes 0x048 (R376); an image that is not aligned takes
0x012 with DETAIL 1 (R350). -/
def Obligations.TaskCreation : Prop :=
  ∀ (s : State) (a b : SReg) (t : Tcb) (kn : Kernel),
    let va := s.readS a
    let x := s.core.ctx
    let c := s.me.toNat
    let made := fun (i : Instr) (kind : Nat) (age : Word) (P : Tcb → State → Prop) =>
      ∃ u w, exec i s = .next w ∧ t.Stamped u x.tcb c kind age s.core.cseq ∧ w.pc = pcAdd s.pc 4 ∧ w.core.cseq = s.core.cseq + 1 ∧
        (∀ r, w.readS r = s.readS r) ∧ P u w
    s.Canonical → (∀ e ∈ s.dirty, isPhys e.1 = true) → (∀ k ∈ s.liveCores, ∀ p ∈ (s.coreAt k).watch.toList, p.kind = 0) →
    (s.TcbReady va 1 t kn → x.speculative = false → s.dequeOk c = true →
      (s.dequeLen c < 63 → made (.spawn a) 1 (BitVec.ofNat 64 s.time) fun u w =>
        w.dequeBottom c = s.dequeBottom c + 1 ∧ w.dequeTop c = s.dequeTop c ∧ w.dequeTcb c (s.dequeBottom c) = u) ∧
      (s.dequeLen c = 63 → s.QueueTakes c → made (.spawn a) 1 (BitVec.ofNat 64 s.time) fun u w =>
        Entered s.core.taskq w.core.taskq u none ∧ ∀ k, w.byte k = s.byte k)) ∧
    (∀ f, s.TcbReady va 4 t kn → x.speculative = false → isGlobal (addr54 va) = true → s.core.sb = [] → s.unacked c false = false →
      s.Pinned va f → f.grants x.mode .tcbWrite = true → let pa := f.at (addr54 va)
      s.hardWaits s.myDie pa x.task = false → (t.pred = 0 → s.QueueTakes c) →
      made (.join a) 4 (BitVec.ofNat 64 s.time) fun u w =>
        (∀ i, i = 1 ∨ i = 2 ∨ i = 13 → (spanOf (pa + 8 * i) 8).map w.byte = leBytes 8 (u.word i).toNat) ∧
        (∀ k, (∀ i, i = 1 ∨ i = 2 ∨ i = 13 → ¬(pa + 8 * i ≤ k ∧ k < pa + 8 * i + 8)) → w.byte k = s.byte k) ∧
        (t.pred = 0 → Entered s.core.taskq w.core.taskq u none ∧ w.joined = s.joined) ∧
        (t.pred ≠ 0 → w.core.taskq = s.core.taskq ∧ w.joined = pa :: s.joined)) ∧
    (s.TcbReady va 2 t kn → x.speculative = false → bitsOf (kn.hdr.toList.getD 4 0) 63 32 ≠ 0 →
      ((s.dieAt s.myDie).ordered.filter (·.cluster = clusterOf c)).length < 64 →
      made (.tenq a b) 2 (s.readS b) fun u w => ∃ l, (w.dieAt s.myDie).ordered = (s.dieAt s.myDie).ordered ++ [⟨clusterOf c, l, u, 0⟩] ∧
        ∀ k, w.byte k = s.byte k) ∧
    (let y := s.readS b
    s.TcbReady va 3 t kn → x.speculative = false → s.core.sb = [] → s.unacked c false = false → y.extractLsb' 32 32 = 0 →
      y.extractLsb' 12 4 = 0 → s.messageOk (y.extractLsb' 0 12).toNat (t.word 0) = true → s.accepts (y.extractLsb' 0 12).toNat = true →
      made (.msg a b) 3 (BitVec.ofNat 64 s.time) fun u w => ∃ m, w.net = s.net ++ [m] ∧ m.src = c ∧ m.ctxn = x.num ∧
        m.dst = (y.extractLsb' 0 12).toNat ∧ bitsOf (m.tcb.word 2) 15 0 = (y.extractLsb' 16 16).toNat ∧
        bitsOf (m.tcb.word 2) 63 16 = bitsOf (u.word 2) 63 16 ∧ ∀ i, i ≠ 2 → m.tcb.word i = u.word i) ∧
    (let y := s.readS b
    let kept := fun (u : State) => u.mem = s.mem ∧ u.dirty = s.dirty ∧ u.net = s.net ∧ u.joined = s.joined ∧ u.core.taskq = s.core.taskq ∧
      ∀ d, (u.dieAt d).ordered = (s.dieAt d).ordered
    let placed := fun (i : Instr) (e : OutEntry) =>
      (x.outbox.length < 16 → Reaches (exec i s) fun u => kept u ∧ u.core.cseq = s.core.cseq ∧
        u.core.ctx = ((s.updCtx fun z => { z with outbox := z.outbox ++ [e] }).advance 4).core.ctx) ∧
      (16 ≤ x.outbox.length → s.core.blocked true = false → Reaches (exec i s) fun u => kept u ∧
        u.core.ctx = (s.takeExc { code := 0x048, addr := va }).core.ctx)
    x.speculative = true →
      (s.TcbReady va 1 t kn → placed (.spawn a) ⟨.spawn, t, va, 0⟩) ∧
      (s.TcbReady va 4 t kn → isGlobal (addr54 va) = true → placed (.join a) ⟨.join, t, va, 0⟩) ∧
      (s.TcbReady va 2 t kn → bitsOf (kn.hdr.toList.getD 4 0) 63 32 ≠ 0 → placed (.tenq a b) ⟨.tenq, t, va, y⟩) ∧
      (s.TcbReady va 3 t kn → y.extractLsb' 32 32 = 0 → y.extractLsb' 12 4 = 0 → s.messageOk (y.extractLsb' 0 12).toNat (t.word 0) = true →
        placed (.msg a b) ⟨.msg, t, va, y⟩)) ∧
    (addr54 va % 128 ≠ 0 → s.core.blocked true = false →
      let e : Exc := { code := 0x012, addr := va, detail := 1 }
      exec (.spawn a) s = .next (s.takeExc e) ∧ exec (.join a) s = .next (s.takeExc e) ∧ exec (.tenq a b) s = .next (s.takeExc e) ∧
        exec (.msg a b) s = .next (s.takeExc e))

/-- `popd` gives 0 and changes nothing else in a guarded or ordered task, with a full absorb list or an empty deque; otherwise the TCB it takes is written to the
buffer, its retirement is absorbed and D is 1 (R256). `aset` declares or removes its set (R260). `tend`, once the task's engine words and store-buffer
entries are gone, frees the context of a plain task, or of a guarded one with an empty outbox, and queues its own decrements and then the absorbed ones in
pop order (R97, R261); it leaves the context of an ordered task DONE. `evr` gives the oldest record to D and D + 1 and moves HEAD (R214). `ewt` completes when
no word of the context is left in the queue, or the queue has completed word n, and waits otherwise (R215). -/
def Obligations.TaskControl : Prop :=
  ∀ (s : State) (d a b : SReg) (i : BitVec 3) (q : QueueId),
    let x := s.core.ctx
    let c := s.me.toNat
    (∀ l, addr54 (s.readS d) % 128 = 0 → s.localLoc c (addr54 (s.readS d)) 128 false = some l → tcmLoc c 0 ≤ l → l < tcmLoc c 0x20000 →
      (x.speculative = true ∨ 16 ≤ x.absorb.length ∨ s.dequeOk c = true ∧ s.dequeTop c = s.dequeBottom c →
        exec (.popd d) s = .next ((s.writeS d 0).advance 4)) ∧
      (∀ t p, x.speculative = false → x.absorb.length < 16 → s.dequeOk c = true → s.core.sb = [] → s.dequePop c = some (t, p) →
        exec (.popd d) s = .next ((((p.performBytes (s.ctxWriter c x (s.readS d)) (plainBytes l t.bytes)).updCtx fun y =>
          { y with absorb := y.absorb ++ [⟨t.word 3, t.word 12, t.word 13⟩] }).writeS d 1).advance 4))) ∧
    (let base := s.readS a
    let len := (s.readS b).toNat
    x.cls = 1 → (∀ t ∈ x.sets, t.idx = i.toNat → t.acquired = false) →
      (len = 0 ∨ (addr54 base + len - 1) / 128 - addr54 base / 128 < 64) →
      exec (.aset a b i) s = .next ((s.updCtx fun y =>
        { y with sets := y.sets.filter (·.idx ≠ i.toNat) ++ if len = 0 then [] else [⟨i.toNat, base, len, false⟩] }).advance 4)) ∧
    (let items := fun (w3 w12 w13 : Word) =>
        (if w3.extractLsb' 0 47 = 0 then [] else [DecItem.target (BitVec.ofNat 64 ((w3.extractLsb' 0 47).toNat * 128))]) ++
          if w13.extractLsb' 0 16 = 0 then [] else [DecItem.succs w12 (w13.extractLsb' 0 16).toNat]
    let all := items (x.tcb.word 3) (x.tcb.word 12) (x.tcb.word 13) ++ x.absorb.flatMap fun r => items r.word3 r.word12 r.word13
    let ends := fun (t : State) => t.core.ctx.st = .free ∧ t.core.rest = s.core.rest ∧
        t.decs = s.decs ++ (if all = [] then [] else [⟨c, x.num, x.task, x.tcb.gang, s.actx, all, false⟩]) ∧ t.mem = s.mem ∧ t.core.sb = s.core.sb
    x.upcallCode = false → s.core.blocked true = false → (∀ w ∈ s.core.queues.toList.flatten, w.task ≠ x.task) →
      (∀ e ∈ s.core.sb, e.task ≠ x.task) →
      (x.speculative = false → ∃ t, exec .tend s = .next t ∧ ends t) ∧
      (x.cls = 1 → x.outbox = [] → ∃ t, exec .tend s = .next t ∧ ends t ∧ ∀ y ∈ t.dies.toList, ∀ k ∈ y.locks, k.task ≠ x.task) ∧
      (x.cls = 2 → ∃ t, exec .tend s = .next t ∧ t.core.ctx.st = .done ∧ t.decs = s.decs ∧ t.mem = s.mem)) ∧
    (let e := s.core.evq
    let o := bitsOf e 16 4 * 16 + 16 * (bitsOf e 63 48 % 2 ^ bitsOf e 23 20)
    bitsOf e 23 20 ≠ 0 → bitsOf e 63 48 ≠ bitsOf e 47 32 → s.flips = [] → s.poison = [] →
      ∃ t, exec (.evr d) s = .next t ∧
        (let v := fun (n : Nat) => BitVec.ofNat 64 (natOfBytes ((spanOf (tcmLoc c (o + n)) 8).map s.mem.read));
        t.core.ctx = (((s.writeS d (v 0)).writeS (d + 1) (v 8)).advance 4).core.ctx) ∧
        bitsOf t.core.evq 63 48 = (bitsOf e 63 48 + 1) % 2 ^ 16 ∧ bitsOf t.core.evq 47 0 = bitsOf e 47 0 ∧ t.mem = s.mem) ∧
    (let words := s.core.queue (queueCode q)
    let n := (s.readS a).extractLsb' 0 32
    (a = 0 → ((∀ w ∈ words, w.ctxn ≠ x.num) → exec (.ewt a q) s = .next (s.advance 4))) ∧
      (a ≠ 0 → (words = [] ∨ (s.core.seq.toList.getD (queueCode q) 0 - n).toNat < 2 ^ 31 → exec (.ewt a q) s = .next (s.advance 4))) ∧
      (a = 0 → (∃ w ∈ words, w.ctxn = x.num) → exec (.ewt a q) s = .next { s with core := { s.core with waiting := true } }))

/-- `bar.arv` with a lead below 3, once the earlier stores have left (and at gang scope are visible), counts one arrival and changes no other; with lead 3 it waits
(R234). `bar.wt` completes when every member has reached the core's phase: an acquire, which brings the writes that the die shows into the core's order (R279) and
at gang scope drops the die's copies of lines homed elsewhere; otherwise it waits (R235, R236). `bar.max` arrives, and when the others have arrived gives D the unsigned maximum of the members' contributions to the phase (R237). A fence completes
when the store buffer is drained and its write-throughs are acknowledged, with the acquire of its scope; `fence.acq` and the die-scope `fence.rel` complete
at once (R239). -/
def Obligations.BarriersAndFences : Prop :=
  ∀ (s : State) (d a : SReg) (g : Bool) (n : BitVec 4) (f : FScope),
    let p := s.core.arrivals g n.toNat
    let c := s.me.toNat
    let drained := s.core.sb = [] ∧ (g = true → s.unacked c false = false)
    let arrived := fun (t : State) => t.core.arrivals g n.toNat = p + 1 ∧
      (∀ h (m : BitVec 4), (h, m) ≠ (g, n) → t.core.arrivals h m.toNat = s.core.arrivals h m.toNat) ∧ t.pc = pcAdd s.pc 4 ∧ t.mem = s.mem
    (s.lead g n.toNat < 3 → drained → ∃ t, exec (.barArv g n) s = .next t ∧ arrived t ∧ t.core.ctx = (s.advance 4).core.ctx) ∧
    (3 ≤ s.lead g n.toNat → exec (.barArv g n) s = .next { s with core := { s.core with waiting := true } }) ∧
    ((∀ m ∈ s.members g n.toNat, p ≤ (s.coreAt m).arrivals g n.toNat) →
      let u := s.acquireOrder c
      exec (.barWt g n) s = .next ((if g then u.acquireCopies s.myDie false else u).advance 4)) ∧
    ((∃ m ∈ s.members g n.toNat, (s.coreAt m).arrivals g n.toNat < p) →
      exec (.barWt g n) s = .next { s with core := { s.core with waiting := true } }) ∧
    (let con := fun (m : Nat) => if m = c then (s.readS a).toNat else
        match (s.contribOf m ((s.core.image.map (·.gang)).getD 0)).find? fun t => t.key = (if g then 16 + n.toNat else n.toNat) && t.phase = p + 1 with
        | some t => t.val.toNat
        | none => 0
    s.vprogOf = 0 → s.lead g n.toNat < 3 → drained → (∀ t ∈ s.core.contrib, t.phase ≤ s.core.arrivals (decide (16 ≤ t.key)) (t.key % 16)) →
      (∀ m ∈ s.members g n.toNat, m ≠ c → p + 1 ≤ (s.coreAt m).arrivals g n.toNat) →
      ∃ t v, exec (.barMax d a g n) s = .next t ∧ arrived t ∧ t.vprogOf = 0 ∧ (d ≠ 0 → t.readS d = v) ∧ (∀ r, r ≠ d → t.readS r = s.readS r) ∧
        (∀ m ∈ s.members g n.toNat, con m ≤ v.toNat) ∧ (v = 0 ∨ ∃ m ∈ s.members g n.toNat, con m = v.toNat)) ∧
    (let u := s.acquireOrder c
    let acquired := match f with
        | .cl | .di => u
        | .dv => u.acquireCopies s.myDie false
        | .sy => u.acquireCopies s.myDie true
    let acked := (f = .dv ∨ f = .sy) → s.unacked c (f = .sy) = false
    (s.core.sb = [] → acked → exec (.fence f) s = .next (acquired.advance 4)) ∧ exec (.fenceAcq f) s = .next (acquired.advance 4) ∧
      (f = .cl ∨ f = .di → exec (.fenceRel f) s = .next (s.advance 4)) ∧
      (s.core.sb = [] → acked → exec (.fenceRel f) s = .next (s.advance 4))) ∧
    (∀ e ∈ ((s.acquireCopies s.myDie false).dieAt s.myDie).copies, paNode e.1 = s.node → s.pendingHere s.myDie e.1 = true)

/-- `pr.mma`, `pr.sma`, `pr.mdl`, `pr.acz`, `pr.out` and `pr.scb` complete for a declared end with a partner and room in its queue, in a plain task, when their operands
meet the limits their entries state: the word joins the end queue with the values of its registers read at issue, under the next sequence number (R187, R204 to
R208); nothing else changes but the pc and its window. For each of them a guarded or ordered task takes 0x04A with DETAIL 0x3F (R374), an end that the core's image does
not declare, or at which its tile has no partner, takes a bounds fault (R105, R201), and a full queue makes the push wait (R187). K = 0 and broken combinations of fields (BOTH with BANK, SPA and SPB both 0) take 0x043 with DETAIL 1 (R65, R359; the DETAIL of a combination is the
model's reading, log 61). -/
def Obligations.PrismPushes : Prop :=
  ∀ (s : State) (e : End) (la : La) (role : Role) (bank evn add clr sat both spa spb : Bool) (rm : Rm) (dk : Dk) (sw : BitVec 3) (p q : SReg) (str nc : EOp)
    (m n : BitVec 4) (k : BitVec 16) (fa fb of : BitVec 6) (moff : BitVec 12) (len : BitVec 13) (osc : BitVec 8) (sh : BitVec 5),
    let v := s.readS p
    let x := s.slotVal str
    let y := s.slotVal nc
    let lines := match role with | .a => m.toNat + 1 | .b => n.toNat + 1
    let own := match role with | .a => fa.toNat | .b => fb.toNat
    let plain := s.core.ctx.speculative = false ∧ s.core.blocked true = false
    let pushes := fun (w : Instr) (ops : List Word) (ok : Prop) =>
      (s.EndReady e → ok → ∃ t, exec w s = .next t ∧ s.Pushed t (endCode e) la w ops) ∧
      (s.core.ctx.speculative = true → s.core.blocked true = false → exec w s = .next (s.takeExc { code := 0x04A, detail := 0x3F })) ∧
      (plain → ok → (∀ i, s.core.image = some i → i.declares e = false ∨ s.hasPartner s.me.toNat e = false) →
        exec w s = .next (s.takeExc { code := 0x007 })) ∧
      (s.core.ctx.speculative = false → ok → (∃ i, s.core.image = some i ∧ i.declares e = true) → s.hasPartner s.me.toNat e = true →
        8 ≤ (s.core.queue (endCode e)).length → exec w s = .next { s with core := { s.core with waiting := true } })
    let sz := max 1 (outBits of.toNat / 8)
    pushes (.prMma e la role bank evn sw p str m n k fa fb) [v, x]
        (s.MmaReady false false false own sw.toNat lines k.toNat fa.toNat fb.toNat v x) ∧
    pushes (.prSma e la role bank evn spa spb sw p str m n k fa fb moff) [v, x]
        (s.MmaReady true spa spb own sw.toNat lines k.toNat fa.toNat fb.toNat v x) ∧
    pushes (.prMdl e la evn p len moff) [v] (len.toNat % 8 = 0 ∧ 8 ≤ len.toNat ∧ moff.toNat + len.toNat ≤ 4096 ∧
        (inOwnTcm s.me.toNat (addr54 v) ∨ inSpad (addr54 v))) ∧
    pushes (.prAcz e la bank evn both) [] ((both && bank) = false) ∧
    pushes (.prOut e la bank evn add clr sat rm dk p str of m n osc nc) [v, x, y] (x.toNat < 2 ^ 32 ∧ y.toNat < 2 ^ 12 ∧ addr54 v % sz = 0 ∧
        (0 < m.toNat → x.toNat % sz = 0) ∧ (outBits of.toNat = 4 → n.toNat % 2 = 1)) ∧
    pushes (.prScb e la evn p q sh) [v, s.readS q] (inOwnTcm s.me.toNat (addr54 v) ∨ isGlobal (addr54 v)) ∧
    (plain →
      (k = 0 → exec (.prMma e la role bank evn sw p str m n k fa fb) s = .next (s.takeExc { code := 0x043, detail := 1 })) ∧
      (both = true → bank = true → exec (.prAcz e la bank evn both) s = .next (s.takeExc { code := 0x043, detail := 1 })) ∧
      (0 < k.toNat → x.toNat < 2 ^ 32 → exec (.prSma e la role bank evn false false sw p str m n k fa fb moff) s =
        .next (s.takeExc { code := 0x043, detail := 1 })))

/-- Outside guarded and ordered tasks `cp.nd`, `cp.pull`, `kick`, `ga.gat`, `ga.upd`, `ga.prb`, `mi.cfg`, `mi.qry`, `mi.put` and `mi.clr` complete when their queue has
room and their operands meet the limits of R217 to R231 and R269 to R273: the word joins the queue with the values of its registers read at issue, under the next
sequence number; nothing else changes but the pc and its window, which for `mi.qry` ends when the word completes (R187, R209, R271, R69). A full queue makes the
word wait (R187). In a guarded or ordered task each of them takes 0x04A (R374); a value or pointer that breaks a stated limit, or a broken combination of fields, takes 0x043 with the DETAIL of R359 and the word does
not enter its queue (R65; the DETAIL of a combination is the model's reading, log 61). -/
def Obligations.EnginePushes : Prop :=
  ∀ (s : State) (la : La) (evn any : Bool) (a b d rd : SReg) (pi : BitVec 3) (x y : EOp) (kt : KOp) (tag nslot : BitVec 16) (pipe : BitVec 3) (units : BitVec 13) (esz : BitVec 3)
    (op : GaOp) (ty : GaTy) (tl : BitVec 5) (osz isz : BitVec 6) (mode : MiMode),
    let va := s.readS a
    let vb := s.readS b
    let vd := s.readS d
    let n := s.slotVal x
    let st := s.slotVal y
    let c := s.me.toNat
    let pushes := fun (q : Nat) (w : Instr) (ops : List Word) (r : Option SReg) =>
      ((s.core.queue q).length < 8 → ∃ t, exec w s = .next t ∧ s.Pushed t q la w ops r) ∧
      (8 ≤ (s.core.queue q).length → exec w s = .next { s with core := { s.core with waiting := true } })
    let recv := ∃ i e, s.core.image = some i ∧ pipeEntry i.hdr pipe.toNat = some e ∧ e.getLsbD 31 = false
    let table := fun (al third : Nat) (esz : Nat) => 0 < n.toNat ∧ n.toNat ≤ 2 ^ 20 ∧ addr54 va % al = 0 ∧ addr54 vb % esz = 0 ∧ addr54 vd % third = 0 ∧
      anySide (addr54 va) = true ∧ isGlobal (addr54 vb) = true ∧ anySide (addr54 vd) = true
    let kick := 0 < n.toNat ∧ n.toNat < 2 ^ 24 ∧ (s.kickVal kt).toNat < 2 ^ 28
    let keyed := va.toNat < 2 ^ 48 ∧ st.toNat < 2 ^ 32 ∧ 0 < n.toNat ∧ n.toNat ≤ 4096
    (s.core.ctx.speculative = false →
      (addr54 va % 128 = 0 → ownSide c (addr54 va) = true → pushes 4 (.cpNd la evn a) [va] none) ∧
      (anySide (addr54 va) = true → pushes 4 (.cpPullTake la evn ⟨any, 0⟩ a tag) [va] none) ∧
      (units ≠ 0 → recv → pushes 4 (.cpPullRelease la evn ⟨false, pipe⟩ units) [] none) ∧
      (∀ r j rx, kick → s.pipeTo c pipe.toNat = some (r, j, rx) → bitsOf (s.kickVal kt) 27 16 = 0 → n.toNat ≤ 64 * rx →
        pushes 7 (.kickPipe la pipe a x kt) [va, n, s.kickVal kt] none) ∧
      (kick → s.good (bitsOf (s.kickVal kt) 27 16) = true → pushes 7 (.kickManual la pipe a x kt) [va, n, s.kickVal kt] none) ∧
      (table 4 (min (gatSize esz) 8) (gatSize esz) → pushes 5 (.gaGat la evn esz a b d x) [va, vb, vd, n] none) ∧
      (table 4 (gaTySize ty) (gaTySize ty) → pushes 5 (.gaUpd la evn op ty a b d x) [va, vb, vd, n] none) ∧
      (table 8 4 (16 * 2 ^ tl.toNat) → pushes 5 (.gaPrb la evn tl a b d x) [va, vb, vd, n] none) ∧
      (addr54 va % 4096 = 0 → isGlobal (addr54 va) = true → pushes 6 (.miCfg la evn a osz isz nslot) [va] none) ∧
      (keyed → 0x11 ≤ ptrCode vb → ptrCode vb ≤ 0x16 → ptrL vb = 0 → addr54 vb % max 1 (mirrorBits (ptrCode vb) / 8) = 0 → addr54 vd % 4 = 0 →
        (mirrorBits (ptrCode vb) = 4 → n.toNat % 2 = 0) →
        pushes 6 (.miQry la mode evn rd a y b x d) [va, st, vb, n, vd] (some rd)) ∧
      (keyed → n.toNat % 4 = 0 → addr54 vb % 4 = 0 → pushes 6 (.miPut la evn a y b x) [va, st, vb, n] none) ∧
      (va.toNat < 2 ^ 48 → pushes 6 (.miClrKey la evn a) [va] none) ∧ pushes 6 (.miClrAll la evn) [] none) ∧
    (s.core.ctx.speculative = true → s.core.blocked true = false →
      ∀ w ∈ ([.cpNd la evn a, .cpPullTake la evn ⟨any, pi⟩ a tag, .cpPullRelease la evn ⟨any, pi⟩ units, .kickPipe la pipe a x kt, .kickManual la pipe a x kt,
        .gaGat la evn esz a b d x, .gaUpd la evn op ty a b d x, .gaPrb la evn tl a b d x, .miCfg la evn a osz isz nslot,
        .miQry la mode evn rd a y b x d, .miPut la evn a y b x, .miClrKey la evn a, .miClrAll la evn] : List Instr),
      exec w s = .next (s.takeExc { code := 0x04A, detail := 0x3F })) ∧
    (s.core.ctx.speculative = false → s.core.blocked true = false →
      (addr54 va % 128 ≠ 0 → exec (.cpNd la evn a) s = .next (s.takeExc { code := 0x043, addr := va, detail := 3 })) ∧
      (n = 0 → exec (.gaGat la evn esz a b d x) s = .next (s.takeExc { code := 0x043, addr := n, detail := 1 })) ∧
      (2 ^ 48 ≤ va.toNat → exec (.miClrKey la evn a) s = .next (s.takeExc { code := 0x043, addr := va, detail := 1 })) ∧
      (pi ≠ 0 → exec (.cpPullTake la evn ⟨any, pi⟩ a tag) s = .next (s.takeExc { code := 0x043, detail := 1 })) ∧
      (exec (.cpPullRelease la evn ⟨true, pipe⟩ units) s = .next (s.takeExc { code := 0x043, detail := 1 })) ∧
      (kick → bitsOf (s.kickVal kt) 27 16 ≠ 0 → exec (.kickPipe la pipe a x kt) s = .next (s.takeExc { code := 0x043, addr := s.kickVal kt, detail := 1 })))

/-- The oldest store-buffer entry of a running core leaves: a store performs at its local memory or at its home in the die, or goes on as a write-through
to another home, and the lanes of a `vst` are writes of their own; a reduction is accepted; a control store becomes a register write (R138, R280). A write-through performs at its home, or is kept while that is
unavailable, and kept writes are sent again (R280, R386). A reduction rewrites its element (R160). An ended pin leaves its page in every slice's TLB unless a
`tlbi` removed it (R149, R130). A completed long-latency instruction writes its register when its window has ended and no later write discarded it (R69). A
register write of the die control block keeps the writable bits (R325, R326). -/
def Obligations.MemorySteps : Prop :=
  ∀ s : State, s.Quiet →
    (∀ (c : CoreId) e es, let k := s.coreAt c.toNat
      k.iris = .running → k.sb = e :: es → (s.focus c).sbReady = true →
      Reaches (exec (.storeBufferLeave c) s) fun t => (t.coreAt c.toNat).sb = es ∧ t.me = s.me ∧
        (let writes := if e.lanes.isEmpty then [e.bytes] else e.lanes
        let here := fun (l : Nat) => paNode l = s.node ∧ paDie l = dieOf c.toNat
        e.kind = .store →
          (isPhys e.loc = false ∨ (∀ b ∈ writes.flatten, isPhys b.loc = true ∧ here b.loc) →
            t.wts = s.wts ∧ ∀ l, t.byte l = s.over writes.flatten l) ∧
          (isPhys e.loc = true → (∀ b ∈ writes.flatten, ¬here b.loc) → (∀ l, t.byte l = s.byte l) ∧
            ∃ ws, t.wts = s.wts ++ ws ∧ ws.map (·.bytes.map (·.loc)) = (writes.filter (!·.isEmpty)).map (·.map (·.loc)) ∧
              ∀ w ∈ ws, w.die = dieOf c.toNat ∧ w.held = false)) ∧
        (∀ f w x, e.kind = .red f w x → ∃ r, t.reds = s.reds ++ [r] ∧ r.loc = e.loc ∧ r.op = .red f w x ∧
          r.held = false ∧ ∀ l, t.byte l = s.byte l) ∧
        (∀ u x, e.kind = .control u x → s.agenda = [] → paNode e.loc = s.node → t.agenda = [.event (.registerWrite (some c) e.loc x)] ∧ ∀ l, t.byte l = s.byte l)) ∧
    (∀ i w, s.wts[i]? = some w → w.held = false → s.mayArrive i = true →
      ((∀ b ∈ w.bytes, s.reachable w.die b.loc = true ∧ paNode b.loc = s.node) →
        Reaches (exec (.writeThroughArrival i) s) fun t => t.wts = s.wts.eraseIdx i ∧ ∀ l, t.byte l = s.over w.bytes l) ∧
      ((∃ b ∈ w.bytes, s.reachable w.die b.loc = false) →
        exec (.writeThroughArrival i) s = .next { s with wts := s.wts.modify i fun w => { w with held := true } })) ∧
    (∀ i r, s.reds[i]? = some r → r.held = false → s.heldAtHome r.loc 0 = false → s.engineOwned (paDie r.loc) r.loc = false →
      s.wtHere r.die r.loc = false → s.reachable r.die r.loc = true → paNode r.loc = s.node → (s.reds.filter fun x => x.loc / 128 = r.loc / 128) = [r] →
      ∀ fn w x, r.op = .red fn w x → s.flips = [] → let n := memBytes w
      let old := natOfBytes ((spanOf r.loc n).map s.byte)
      Reaches (exec (.reductionApply i) s) fun t => (t.reds = s.reds.filter fun x => x.loc / 128 ≠ r.loc / 128) ∧
        ∀ l, t.byte l = s.over (plainBytes r.loc (leBytes n (redOp fn w old (x.toNat % 2 ^ (8 * n))))) l) ∧
    (∀ i, (∀ w, s.wts[i]? = some w → w.held = true → (∀ b ∈ w.bytes, s.reachable w.die b.loc = true) →
        exec (.heldWriteResend i) s = .next { s with wts := s.wts.modify i fun w => { w with held := false, sent := s.time, tries := 0 } }) ∧
      (∀ r, s.reds[i]? = some r → r.held = true → s.reachable r.die r.loc = true →
        exec (.heldWriteResend (s.wts.length + i)) s = .next { s with reds := s.reds.modify i fun r => { r with held := false, sent := s.time, tries := 0 } }) ∧
      (∀ r, s.refused[i]? = some r → r.sent = false → r.again ≤ s.time →
        exec (.sliceRetry i) s = .next { s with refused := s.refused.modify i fun r => { r with sent := true } })) ∧
    (∀ (d : DieId) i p, (s.dieAt d.toNat).pins[i]? = some p → p.until_ < s.time →
      Reaches (exec (.pinWindowExpiry d i) s) fun t => (t.dieAt d.toNat).pins = (s.dieAt d.toNat).pins.eraseIdx i ∧ t.mem = s.mem ∧
        if p.doomed then (t.dieAt d.toNat).tlb = (s.dieAt d.toNat).tlb else
          ∀ n, n < 96 → (⟨n, p.actx, p.va, p.leaf⟩ : TlbEntry) ∈ (t.dieAt d.toNat).tlb) ∧
    (∀ (c : CoreId) i w, let x := (s.coreAt c.toNat).ctx
      x.win[i]? = some w → x.st = .run → w.done = false → w.awaits = false →
      Reaches (exec (.longLatencyCompletion c i) s) fun t => let y := (t.coreAt c.toNat).ctx
        y.pc = x.pc ∧ t.mem = s.mem ∧
        (w.left ≠ 0 → y.win[i]? = some { w with done := true } ∧ y.s = x.s ∧ y.v = x.v) ∧
        (w.left = 0 → y.win = x.win.eraseIdx i ∧
          (w.dropped = true ∨ w.dest = .none → y.s = x.s ∧ y.v = x.v) ∧
          (∀ r v, w.dropped = false → w.dest = .s r v → (r ≠ 0 → y.readS r = v) ∧ (∀ q, q ≠ r → y.readS q = x.readS q) ∧ y.v = x.v) ∧
          ∀ r v, w.dropped = false → w.dest = .v r v → y.readV r = v ∧ (∀ q, q ≠ r → y.readV q = x.readV q) ∧ y.s = x.s)) ∧
    (∀ src a o v, paNode a = s.node → paLoc a = 0x3F00000000 + o → s.writeWaits src a = false →
      let puts := fun f => exec (.registerWrite src a v) s = .next (s.updDie (paDie a) f)
      (o = 0 → puts fun x => { x with actb := v &&& 0x000FFFFFFFFFF000 }) ∧ (o = 0x08 → puts fun x => { x with pscore := v &&& 0x3FF }) ∧
        (o = 0x10 → puts fun x => { x with hcsb := v &&& 0x000FFFFFFFFFF000 }) ∧ (o = 0x18 → puts fun x => { x with hcsn := v &&& 0xFFFFF }) ∧
        (o = 0x20 → puts fun x => { x with savb := v &&& 0x000FFFFFFFFFF000 }) ∧
        (o = 0x28 → puts fun x => { x with ovfb := v &&& 0x000FFFFFFFFFF000 }) ∧ (o = 0x30 → puts fun x => { x with ovfn := v &&& 0xFFFF }) ∧
        (o = 0x50 → puts fun x => { x with rslim := v &&& 0xFFFF }) ∧ (o = 0x78 → puts fun x => x))

/-- An event record enters the ring of its core, running and not full: 16 bytes in the slot TAIL names, and TAIL moves on; a full ring makes it wait (R211). A
page-fault record goes to the page-service core (R152), and the notice back makes the PARK context WAKE, with FAIL noted (R153). The notice of a `kick`, once
the stores before it are visible, enters the kick register of the receiver's cluster, or is refused when that holds eight, and sent again (R222, R223). A pull
copies the sender's bytes into the pipe's ring in the scratchpad, takes the units, writes the arrival record and sends the acknowledgement (R224), which
completes the `kick` and gives the sender its record (R225). That a notice before its record is kept, and that a pull may move its data in several
steps, are the model's (R152, R360). -/
def Obligations.NoticesAndRecords : Prop :=
  ∀ s : State, s.Quiet →
    (∀ (c : CoreId) r rs, (s.coreAt c.toNat).recq = r :: rs → (s.coreAt c.toNat).iris = .running →
      (s.RingRoom c.toNat → s.completesBelow c.toNat 8 = false → Reaches (exec (.eventRecordWrite c) s) fun t => (t.coreAt c.toNat).recq = rs ∧ s.Recorded t c.toNat r.lo r.hi) ∧
      (bitsOf (s.coreAt c.toNat).evq 23 20 ≠ 0 → ¬s.RingRoom c.toNat → exec (.eventRecordWrite c) s = .next s)) ∧
    (∀ (d : DieId) r rs, let c := coreOfIndex d.toNat (bitsOf (s.dieAt d.toNat).pscore 9 0)
      (s.dieAt d.toNat).pfq = r :: rs → (s.coreAt c).iris = .running → (s.coreAt c).recq = [] → s.RingRoom c → s.completesBelow c 8 = false →
      (∀ k, ∀ y ∈ (s.coreAt k).ctxs, y.noted = false) → (∀ y ∈ s.dies.toList, ∀ v ∈ y.saved, v.ctx.noted = false) →
      Reaches (exec (.pageFaultRecordWrite d) s) fun t => (t.dieAt d.toNat).pfq = rs ∧ s.Recorded t c r.lo r.hi) ∧
    (∀ (c : CoreId) (v : Word) x, (s.coreAt c.toNat).Whole → x ∈ (s.coreAt c.toNat).ctxs → x.num = v.extractLsb' 0 2 → x.st = .park →
      ((s.coreAt c.toNat).iris = .running → Reaches (exec (.prnWrite c v) s) fun t => let y := (t.coreAt c.toNat).getCtx x.num
        (s.recordWaits c.toNat x.num = false → y.st = .wake) ∧ (s.recordWaits c.toNat x.num = true → y.st = .park ∧ y.noted = true) ∧
          y.failNotice = v.getLsbD 2 ∧ y.pc = x.pc ∧ y.s = x.s ∧ t.mem = s.mem) ∧
      ((s.coreAt c.toNat).iris ≠ .running →
        exec (.prnWrite c v) s = .next (s.updCore c.toNat fun k => { k with notices := k.notices ++ [v] }))) ∧
    (∀ (c : CoreId) w n, s.headWord c.toNat 7 = some w → s.noticeOf c.toNat w = some n → s.Linked (dieOf c.toNat) (dieOf n.rcv.toNat) →
      let k := clusterOf n.rcv.toNat
      let sent := fun (i : Instr) => Reaches (exec i s) fun t => (t.clusterAt k).kick = (s.clusterAt k).kick ++ [n] ∧
        t.headWord c.toNat 7 = some { w with st := .sent } ∧ t.mem = s.mem
      (w.st = .queued → (s.coreAt c.toNat).iris ≠ .halted → s.storesLeft c.toNat w = true → s.unacked c.toNat false = false →
        ((s.clusterAt k).kick.length < 8 → sent (.kickNoticeArrival c)) ∧
        (8 ≤ (s.clusterAt k).kick.length → Reaches (exec (.kickNoticeArrival c) s) fun t => (t.clusterAt k).kick = (s.clusterAt k).kick ∧
          t.headWord c.toNat 7 = some { w with st := .started })) ∧
      (w.st = .started → (s.clusterAt k).kick.length < 8 → sent (.kickNoticeResend c))) ∧
    (∀ (k : ClusterId) n w i, let c := n.rcv.toNat
      let f := n.snd.toNat
      let u := (n.len + 63) / 64
      let ring := findD (⟨0, 0⟩ : Ring) i (s.coreAt c).rings
      let area := s.pipeArea c i
      (s.clusterAt k.toNat).kick = [n] → n.pipe = some i → s.headWord f 7 = some w → w.st = .sent → w.seq = n.seq →
      (∀ p, p < 4 → s.headWord (clusterCore k.toNat p) 4 = none) → 0 < area.2 →
      (n.unit = none → (s.coreAt c).iris = .running → u ≤ ring.free →
        Reaches (exec (.pipePull k) s) fun t => t.mem = s.mem ∧ findD (⟨0, 0⟩ : Ring) i (t.coreAt c).rings = { ring with free := ring.free - u } ∧
          (t.clusterAt k.toNat).kick = [{ n with start := some (n.start.getD s.time), unit := some ring.wp }]) ∧
      (∀ first, n.unit = some first → first < area.2 → i < 8 → w.pos ≤ n.len → addr54 n.src + n.len ≤ s.tcmbOf f → s.tcmbOf f ≤ 0x20000 →
        n.len ≤ 64 * area.2 → 64 * (area.1 + area.2) ≤ 0x80000 → s.flips = [] → s.poison = [] →
        s.tripFailed (dieOf c) (dieOf f) = false → s.tripWaits (dieOf c) (dieOf f) = false →
        let m := s.pullLen (n.len - w.pos)
        let at_ := fun j => spadLoc k.toNat (64 * area.1 + (64 * first + j) % (64 * area.2))
        Reaches (exec (.pipePull k) s) fun t =>
          (∀ j, w.pos ≤ j → j < w.pos + m → t.byte (at_ j) = s.byte (tcmLoc f (addr54 n.src + j))) ∧
          (∀ l, (∀ j, w.pos ≤ j → j < w.pos + m → l ≠ at_ j) → t.byte l = s.byte l) ∧
          t.headWord f 7 = some { w with pos := w.pos + m } ∧
          (w.pos + m < n.len → (t.clusterAt k.toNat).kick = [n] ∧ t.acks = s.acks ∧ (t.coreAt c).recq = (s.coreAt c).recq) ∧
          (w.pos + m = n.len → (t.clusterAt k.toNat).kick = [] ∧
            findD (⟨0, 0⟩ : Ring) i (t.coreAt c).rings = { ring with wp := (first + u) % area.2 } ∧
            (∃ a, t.acks = s.acks ++ [a] ∧ a.snd = f ∧ a.seq = n.seq ∧ a.tag = n.tag ∧ a.len = n.len ∧ a.sender = c) ∧
            ∃ r, (t.coreAt c).recq = insertRec r (s.coreAt c).recq ∧ bitsOf r.hi 63 56 = 4 ∧ bitsOf r.lo 63 48 = n.tag.toNat ∧
              bitsOf r.lo 31 0 = n.len))) ∧
    (∀ i a w, s.acks[i]? = some a → s.recordHere a.sender (BitVec.ofNat 64 (4 * 2 ^ 56 + 2 ^ 44 * a.snd + a.seq.toNat)) = false →
      s.visible a.sender 1 = true → s.Linked (dieOf a.sender) (dieOf a.snd) → (s.coreAt a.snd).image.isSome = true →
      (s.coreAt a.snd).iris = .running → (s.coreAt a.snd).recq = [] → s.RingRoom a.snd → s.completesBelow a.snd 8 = false →
      s.headWord a.snd 7 = some w → w.seq = a.seq →
      Reaches (exec (.pullAckArrival i) s) fun t => t.acks = s.acks.eraseIdx i ∧ (t.coreAt a.snd).queue 7 = ((s.coreAt a.snd).queue 7).drop 1 ∧
        (t.coreAt a.snd).seq.toList.getD 7 0 = a.seq ∧
        s.Recorded t a.snd (BitVec.ofNat 64 (2 ^ 48 * a.tag.toNat + a.len)) (BitVec.ofNat 64 (3 * 2 ^ 56 + 2 ^ 44 * a.sender + a.seq.toNat)))

/-- A core with nothing to resume starts the head of its task queue, else the bottom TCB of its deque, else steals the top TCB of the victim in its cluster
(R301, R101); a start loads the context from the TCB (R89). A core at its pre-emption point saves its earliest parked context into a freed slot (R95, R94). A
decrement lowers PRED, and the last one of a joined TCB puts it into the task queue (R97). A message enters its receiver's task queue, or its input buffers
while that is not running (R259, R309). A free line is locked, and one an older task holds makes the request wait (R243). The frontier shows the smallest AGE
uncommitted (R252, R379); a DONE ordered task then commits (R250). The oldest waiting ordered task takes the context of a younger one (R253). The first
expiry of BUDGET gives the grace allowance and takes 0x011, the second stops the gang (R349). -/
def Obligations.SchedulingSteps : Prop :=
  ∀ s : State, s.Quiet →
    (∀ (c : CoreId) n, s.Seeks c.toNat → (s.coreAt c.toNat).freeCtx = some n →
      (∀ t ts, (s.coreAt c.toNat).taskq = t :: ts → s.QueueRoom c.toNat → Reaches (exec (.selectNextWork c) s) fun u =>
        s.Started u c.toNat n t.tcb ∧ (u.coreAt c.toNat).taskq = ts ∧ u.mem = s.mem) ∧
      ((s.coreAt c.toNat).taskq = [] → (s.dieAt (dieOf c.toNat)).ordered = [] → s.dequeOk c.toNat = true →
        (∀ q p, s.dequePop c.toNat = some (q, p) → Reaches (exec (.selectNextWork c) s) fun u => s.Started u c.toNat n q ∧ u.mem = p.mem) ∧
        ∀ v, s.dequePop c.toNat = none → v ∈ s.liveCores → v ≠ c.toNat → clusterOf v = clusterOf c.toNat → s.sameImage c.toNat v = true →
          (∀ w ∈ s.liveCores, w ≠ c.toNat → clusterOf w = clusterOf c.toNat → s.sameImage c.toNat w = true → w = v) → s.dequeOk v = true →
          s.dequeTop v ≠ s.dequeBottom v →
          Reaches (exec (.steal c) s) fun u => s.Started u c.toNat n (s.dequeTcb v (s.dequeTop v)) ∧ u.dequeTop v = s.dequeTop v + 1 ∧
            u.dequeBottom v = s.dequeBottom v ∧ (u.coreAt c.toNat).victims.toList.getD 0 none = some v)) ∧
    (∀ (c : CoreId) n i, let k := s.coreAt c.toNat
      let d := dieOf c.toNat
      let x := k.getCtx n
      let b := s.slotAddr d i
      k.Whole → k.yields = true → k.oldestParked = some n → s.freeSlot d = some i → b + 3072 ≤ 2 ^ 52 →
      Reaches (exec (.contextSaveSlotWait c) s) fun t => ((t.coreAt c.toNat).getCtx n).st = .free ∧
        (∃ v, (t.dieAt d).saved = (s.dieAt d).saved ++ [v] ∧ v.core = c.toNat ∧ v.slot = i ∧ v.ctx = x ∧ v.arrived = decide (x.st = .wake)) ∧
        (∀ r : SReg, (spanOf (b + 8 * r.toNat) 8).map t.byte = leBytes 8 (x.readS r).toNat) ∧
        (∀ r : VReg, (spanOf (b + 0x100 + 64 * r.toNat) 64).map t.byte = leBytes 64 (x.readV r).toNat) ∧
        (spanOf (b + 0x9C0) 8).map t.byte = leBytes 8 x.pc.toNat ∧ ∀ l, l < b ∨ b + 3072 ≤ l → t.byte l = s.byte l) ∧
    (∀ i r a is pa, s.decs[i]? = some r → r.items = .target a :: is → r.held = false → s.unacked r.core false = false →
      (∀ e ∈ (s.coreAt r.core).sb, e.task ≠ r.task) → a.toNat % 128 = 0 → (s.hardAddr (dieOf r.core) r.actx .task a .tcbWrite 0).2 = .ok pa → s.flips = [] →
      isPhys (pa + 127) = true → s.hardWaits (dieOf r.core) pa 0 = false → s.poison = [] →
      let q := tcbOf ((spanOf pa 128).map s.byte)
      let u := fun (t : State) => tcbOf ((spanOf pa 128).map t.byte)
      let counted := fun (t : State) => (∀ l, l < pa ∨ pa + 128 ≤ l → t.byte l = s.byte l) ∧ (u t).pred = q.pred - 1 ∧
        bitsOf ((u t).word 3) 46 0 = bitsOf (q.word 3) 46 0 ∧ (∀ j, j ≠ 3 → (u t).word j = q.word j) ∧
        t.decs = if is = [] then s.decs.eraseIdx i else s.decs.modify i fun r => { r with items := is }
      (1 < q.pred → Reaches (exec (.predDecrement i) s) counted) ∧
      (q.pred = 1 → s.joined.contains pa = true → s.QueueTakes r.core → Reaches (exec (.predDecrement i) s) fun t => counted t ∧
        ∃ e, Entered (s.coreAt r.core).taskq (t.coreAt r.core).taskq e (s.lensTag r.core s.time) ∧ e.pred = 0 ∧
          ∀ j, j ≠ 3 → e.word j = q.word j)) ∧
    (∀ i m, s.net[i]? = some m → (∀ e ∈ s.net.take i, ¬(e.src = m.src ∧ e.dst = m.dst)) → s.Linked (dieOf m.src) (dieOf m.dst) →
      (s.coreAt m.dst).image.map (·.gang) = some m.gang →
      ((s.coreAt m.dst).iris = .running → s.QueueRoom m.dst →
        (s.coreAt m.dst).taskq.length + (s.coreAt m.dst).inbox.length + (s.net.filter (·.dst = m.dst)).length ≤ 64 → Reaches (exec (.messageArrival i) s) fun t =>
        Entered (s.coreAt m.dst).taskq (t.coreAt m.dst).taskq m.tcb (s.lensTag m.src m.sent) ∧ t.net = s.net.eraseIdx i ∧ t.mem = s.mem) ∧
      ((s.coreAt m.dst).iris ≠ .running → Reaches (exec (.messageArrival i) s) fun t => t.net = s.net.eraseIdx i ∧ t.mem = s.mem ∧
        ∃ e, (t.coreAt m.dst).inbox = (s.coreAt m.dst).inbox ++ [e] ∧ e.tcb = m.tcb ∧ e.lens = s.lensTag m.src m.sent)) ∧
    (∀ (c : CoreId) sl ln, let d := dieOf c.toNat
      let x := (s.coreAt c.toNat).ctx
      x.st = .run → x.lockWait = [(sl, ln)] →
      ((∀ k ∈ (s.dieAt d).locks, k.line ≠ ln) → ((s.dieAt d).locks.filter fun k => k.slice = sl).length < 256 →
        (∀ r ∈ s.reds, r.loc / 128 ≠ ln) →
        exec (.lockRequest c) s = .next (s.updDie d fun y => { y.dropL1 ln with locks := ⟨ln, sl, x.task⟩ :: y.locks })) ∧
      (∀ k p, (s.dieAt d).locks.find? (fun k => decide (k.line = ln)) = some k → k.task ≠ x.task → s.findTask k.task = some p →
        x.tcb.older p.2.tcb = false → exec (.lockRequest c) s = .next s)) ∧
    (∀ d : DieId, (s.dieAt d.toNat).frontAt < s.time / 64 → Reaches (exec (.commitFrontierSample d) s) fun t => let y := t.dieAt d.toNat
      (s.uncommitted d.toNat = [] → y.cfront = BitVec.allOnes 64 ∧ y.cfhold = 0) ∧
      (s.uncommitted d.toNat ≠ [] → ∃ p ∈ s.uncommitted d.toNat, y.cfront = p.1.word 1 ∧ (p.2.2 < 4096 → y.cfhold.getLsbD 63 = true ∧ bitsOf y.cfhold 11 0 = p.2.2) ∧
        ∀ q ∈ s.uncommitted d.toNat, p.1.age ≤ q.1.age)) ∧
    (∀ (c : CoreId) n, let k := s.coreAt c.toNat
      let x := k.getCtx n
      k.Whole → x.st = .done → x.restartMark = false → x.cls = 2 → x.outbox = [] → (∀ e ∈ k.sb, e.task ≠ x.task) → (∀ q ∈ s.uncommitted (dieOf c.toNat), q.1.older x.tcb = false) →
      (s.dieAt (dieOf c.toNat)).cfront = x.tcb.word 1 →
      Reaches (exec (.orderedCommit c n) s) fun t => ((t.coreAt c.toNat).getCtx n).st = .free ∧ t.mem = s.mem ∧
        ∀ y ∈ t.dies.toList, ∀ l ∈ y.locks, l.task ≠ x.task) ∧
    (∀ (k : ClusterId) o c, let d := k.toNat / 256
      let x := (s.coreAt c).ctx
      (s.dieAt d).ordered = [o] → o.cluster = k.toNat → o.restarts = 0 → c ∈ s.liveCores → dieOf c = d → s.good c = true → (s.coreAt c).iris = .running →
      (s.coreAt c).image.map (·.launch) = some o.launch → (s.coreAt c).freeCtx = none → (s.coreAt c).Whole → x.cls = 2 → x.st = .run →
      (∀ v ∈ s.liveCores, v ≠ c → (s.coreAt v).image.map (·.launch) ≠ some o.launch) → (∀ y ∈ (s.coreAt c).rest, y.cls ≠ 2) → (s.coreAt c).sb = [] →
      (∀ v ∈ s.liveCores, dieOf v = d → ∀ y ∈ (s.coreAt v).ctxs, ¬(y.st = .done ∧ y.restartMark = true)) →
      (∀ q ∈ s.uncommitted d, q.1.older o.tcb = false) →
      Reaches (exec (.orderedContextWound k) s) fun t => s.Started t c x.num o.tcb ∧
        (t.dieAt d).ordered = [⟨clusterOf c, o.launch, x.tcb, x.restarts + 1⟩]) ∧
    (∀ c : CoreId, let k := s.coreAt c.toNat
      let x := k.ctx
      x.budget = 0 → x.mode = .task → x.upcallCode = false → x.st = .run → k.iris = .running → k.waiting = false → k.blocked true = false →
      (x.grace = false → pcMask x.tvec ≠ 0 → x.pc ≠ pcMask x.tvec → Reaches (exec (.budgetExpiry c) s) fun t => let y := (t.coreAt c.toNat).ctx
        y.grace = true ∧ y.budget = 65536 ∧ y.mode = .system ∧ y.pc = pcMask x.tvec ∧ y.tepc = x.pc ∧ bitsOf y.tcause 9 0 = 0x011 ∧
          bitsOf y.fltinfo 63 54 = 0x011) ∧
      (x.grace = true → Reaches (exec (.budgetExpiry c) s) fun t => (t.coreAt c.toNat).iris = .halted ∧
        bitsOf (t.coreAt c.toNat).ctx.fltinfo 63 54 = 0x011 ∧ bitsOf (t.coreAt c.toNat).ctx.fltinfo 53 52 = 2))

/-- The engines of a cluster start the head words of its cores: a gather word starts, a release returns its units or is held with DETAIL 0x87, a Mirror word
without a configuration is held with 0x045 (R209, R226, R373). Two paired words that agree start and another gang's Prism state is cleared first; words that do
not are both held with 0x040 (R188, R186, R367). `pr.acz` clears its banks (R206). A K-step adds to each element of the bank its products (R42, R191). A finished
word leaves its queue, SEQ takes its number, the window of a `mi.qry` ends with RES, and its record is written if asked for (R187, R213, R271). A held word is reported to its RUN context by a trap (R361), and
abandoned by EFR with RES all ones (R365). A gather of a null index
gives zeros and counts it, unless the engine reads another entry of the list first, and results are written once the last entry is settled (R228, R229). A
gather of another index takes the table's element, an update applies its function to it, and a probe ends at its key, at an empty bucket or after the last one
(R229 to R231). `cp.nd` reads and checks its descriptor; of one unscaled element it writes the bytes read, or converts them (R217 to R219). `pr.mdl` loads
the side memory, `pr.out` delivers an accumulator to a TCM and `pr.scb` sets the scale bases and empties the cache (R199, R200, R205, R208). `mi.cfg` sets
the configuration and zeroes counters and headers; `mi.qry` hits or re-anchors its slot and counts; `mi.put` stores the output; `mi.clr` resets headers
(R262 to R273). -/
def Obligations.EngineSteps : Prop :=
  ∀ s : State, s.Quiet →
    (∀ (k : ClusterId) (i : Fin 4) w, let c := clusterCore k.toNat i
      let alone := fun q => ∀ j : Fin 4, j ≠ i → s.headWord (clusterCore k.toNat j) q = none
      w.st = .queued → (s.coreAt c).iris ≠ .halted → s.storesLeft c w = true →
      (s.headWord c 5 = some w → alone 5 → isGlobal (addr54 (w.ops.getD 2 0)) = false →
        Reaches (exec (.engineWordStart k .gather) s) fun t => t.headWord c 5 = some { w with st := .started, begun := true } ∧ t.mem = s.mem) ∧
      (∀ la evn any p u, let r := findD (⟨0, 0⟩ : Ring) p.toNat (s.coreAt c).rings
        s.headWord c 4 = some w → alone 4 → (s.clusterAt k.toNat).kick = [] → w.word = .cpPullRelease la evn ⟨any, p⟩ u →
        (r.free + u.toNat ≤ (s.pipeArea c p.toNat).2 → Reaches (exec (.engineWordStart k .copy) s) fun t =>
          t.headWord c 4 = some { w with st := .finished 0 } ∧
            findD (⟨0, 0⟩ : Ring) p.toNat (t.coreAt c).rings = { r with free := r.free + u.toNat } ∧ t.mem = s.mem) ∧
        ((s.pipeArea c p.toNat).2 < r.free + u.toNat → Reaches (exec (.engineWordStart k .copy) s) fun t =>
          t.headWord c 4 = some { w with st := .held 0x043 0 0x87 0 false } ∧ t.mem = s.mem)) ∧
      (∀ la evn a, s.headWord c 6 = some w → alone 6 → (s.clusterAt (clusterOf c)).mirror = none → w.word = .miClrKey la evn a →
        Reaches (exec (.engineWordStart k .mirror) s) fun t => t.headWord c 6 = some { w with st := .held 0x045 0 1 0 false, begun := true } ∧ t.mem = s.mem)) ∧
    (∀ p c e d f a b, prismEnds p = some ((c, e), (d, f)) → s.headWord c (endCode e) = some a → s.headWord d (endCode f) = some b →
      a.st = .queued → b.st = .queued → (s.coreAt c).iris ≠ .halted → (s.coreAt d).iris ≠ .halted →
      ∀ e1 l1 r1 b1 v1 w1 p1 t1 m1 n1 k1 fa1 fb1 e2 l2 r2 b2 v2 w2 p2 t2 m2 n2 k2 fa2 fb2,
        a.word = .prMma e1 l1 r1 b1 v1 w1 p1 t1 m1 n1 k1 fa1 fb1 → b.word = .prMma e2 l2 r2 b2 v2 w2 p2 t2 m2 n2 k2 fa2 fb2 →
        let agree := r1 ≠ r2 ∧ b1 = b2 ∧ m1 = m2 ∧ n1 = n2 ∧ k1 = k2 ∧ fa1 = fa2 ∧ fb1 = fb2 ∧ a.gang = b.gang
        (agree → Reaches (exec (.prismPairing p) s) fun t => t.headWord c (endCode e) = some { a with st := .started, pos := 0, begun := true } ∧
          t.headWord d (endCode f) = some { b with st := .started, pos := 0, begun := true } ∧ (t.prismAt p.toNat).gang = some a.gang ∧
          ((s.prismAt p.toNat).gang = some a.gang → t.prismAt p.toNat = s.prismAt p.toNat) ∧
          ((s.prismAt p.toNat).gang ≠ some a.gang → (t.prismAt p.toNat).acc0 = Vector.replicate 256 0 ∧
            (t.prismAt p.toNat).acc1 = Vector.replicate 256 0)) ∧
        (¬agree → Reaches (exec (.prismPairing p) s) fun t => t.mem = s.mem ∧ ∃ n, 0 < n ∧
          t.headWord c (endCode e) = some { a with st := .held 0x040 0 n 0 false } ∧
          t.headWord d (endCode f) = some { b with st := .held 0x040 0 n 0 false })) ∧
    (∀ (c : CoreId) e d w la bank evn both, let p := prismOf c.toNat e
      neighbour c.toNat e = some d → s.headWord c.toNat (endCode e) = some w → w.word = .prAcz e la bank evn both → w.st = .queued →
      (s.coreAt c.toNat).iris ≠ .halted → s.storesLeft c.toNat w = true → s.headWord d (endCode (oppositeEnd e)) = none →
      Reaches (exec (.prismSingleEndStart c e) s) fun t => t.headWord c.toNat (endCode e) = some { w with st := .finished 0 } ∧
        (both = true ∨ bank = false → (t.prismAt p).acc0 = Vector.replicate 256 0) ∧ (both = true ∨ bank = true → (t.prismAt p).acc1 = Vector.replicate 256 0) ∧
        ((s.prismAt p).gang = some w.gang → both = false → if bank then (t.prismAt p).acc0 = (s.prismAt p).acc0 else (t.prismAt p).acc1 = (s.prismAt p).acc1)) ∧
    (∀ p c e d f a b x y as bs s1 s2, prismEnds p = some ((c, e), (d, f)) → s.headWord c (endCode e) = some a → s.headWord d (endCode f) = some b →
      mmaWord a.word = some x → mmaWord b.word = some y → a.st = .started → b.st = .started → s.storesLeft c a = true → s.storesLeft d b = true →
      let l := x.stepLen
      let n := min l (x.k - l * a.pos)
      fetch (a.eng c (endCode e) 4) a x p.toNat 0 (l * a.pos) n s = .ok as s1 → fetch (b.eng d (endCode f) 4) b y p.toNat 1 (l * a.pos) n s1 = .ok bs s2 →
      s2.flips = [] → s2.poison = [] → Reaches (exec (.prismStep p) s) fun t =>
        let st := if x.k ≤ l * (a.pos + 1) then WordState.finished 0 else .started
        let rows := match x.role with | .a => as | .b => bs
        let cols := match x.role with | .a => bs | .b => as
        let acc := fun (r : Prism) => if x.bank then r.acc1 else r.acc0
        let rest := fun (r : Prism) => if x.bank then r.acc0 else r.acc1
        t.mem = s2.mem ∧ rest (t.prismAt p.toNat) = rest (s2.prismAt p.toNat) ∧
        (∀ i : Fin 256, (acc (t.prismAt p.toNat))[i] = match rows[i.val / 16]?, cols[i.val % 16]? with
          | some u, some v => accStep (acc (s2.prismAt p.toNat))[i] u v
          | _, _ => (acc (s2.prismAt p.toNat))[i]) ∧
        ∃ a' b', s2.headWord c (endCode e) = some a' ∧ t.headWord c (endCode e) = some { a' with pos := a.pos + 1, st := st } ∧
          s2.headWord d (endCode f) = some b' ∧ t.headWord d (endCode f) = some { b' with pos := a.pos + 1, st := st }) ∧
    (∀ (c : CoreId) q w res, let n := queueCode q
      let popped := fun (t : State) => (t.coreAt c.toNat).queue n = ((s.coreAt c.toNat).queue n).drop 1 ∧
        (t.coreAt c.toNat).seq.toList.getD n 0 = w.seq ∧ (∀ m, m ≠ n → (t.coreAt c.toNat).queue m = (s.coreAt c.toNat).queue m) ∧
        ∀ la mode evn rd a b p x o (j : Nat) v, w.word = .miQry la mode evn rd a b p x o → (s.coreAt c.toNat).Whole →
          ((s.coreAt c.toNat).getCtx w.ctxn).win[j]? = some v → v.dest = .mirror rd w.seq.toNat →
          ((t.coreAt c.toNat).getCtx w.ctxn).win[j]? = some { v with dest := .s rd res, done := true }
      s.headWord c.toNat n = some w → w.st = .finished res → kindOf w.word ≠ 4 → s.visible c.toNat (kindOf w.word) = true → w.paired = false ∨ res ≠ 0 →
      (evnOf w.word = false → Reaches (exec (.engineWordCompletion c q) s) fun t => popped t ∧ t.mem = s.mem) ∧
      (evnOf w.word = true → s.completesBelow c.toNat n = false → s.RingRoom c.toNat → Reaches (exec (.engineWordCompletion c q) s) fun t => popped t ∧
        s.Recorded t c.toNat res (BitVec.ofNat 64 (2 ^ 56 + 2 ^ 44 * c.toNat + 2 ^ 40 * n + 2 ^ 34 * opOf w.word + 2 ^ 32 * w.ctxn.toNat + w.seq.toNat)))) ∧
    (∀ (c : CoreId) q w code acc det addr, let k := s.coreAt c.toNat
      let x := k.ctx
      k.unreported = [(q, w)] → w.st = .held code acc det addr false → w.ctxn = x.num → x.st = .run → x.reporting = false → k.iris = .running →
      k.waiting = false → k.blocked true = false → pcMask x.tvec ≠ 0 → x.pc ≠ pcMask x.tvec →
      Reaches (exec (.heldWordReport c) s) fun t => let y := (t.coreAt c.toNat).ctx
        bitsOf y.tcause 9 0 = code % 1024 ∧ bitsOf y.fltinfo 63 54 = code % 1024 ∧ bitsOf y.fltinfo 31 0 = w.slot0.toNat ∧
          addr54 y.fltaddr = addr54 addr ∧ y.tepc = x.pc ∧ y.pc = pcMask x.tvec ∧ y.mode = .system ∧ y.reporting = true ∧
          (s.headWord c.toNat q = some w → t.headWord c.toNat q = some { w with st := .held code acc det addr true })) ∧
    (∀ (c : CoreId) q w code acc det addr r, s.headWord c.toNat (queueCode q) = some w → w.st = .held code acc det addr r → queueCode q ≠ 7 →
      w.paired = false → Reaches (exec (.efrAbort c q) s) fun t =>
        t.headWord c.toNat (queueCode q) = some { w with st := .finished (BitVec.allOnes 64) } ∧ t.mem = s.mem ∧
          (t.dieAt (dieOf c.toNat)).eo = (s.dieAt (dieOf c.toNat)).eo) ∧
    (∀ (k : ClusterId) (i : Fin 4) w la evn esz a b d x, let c := clusterCore k.toNat i
      let e := gatSize esz
      let idx := addr54 (w.ops.getD 0 0)
      let dst := addr54 (w.ops.getD 2 0)
      let n := (w.ops.getD 3 0).toNat
      s.headWord c 5 = some w → (∀ j : Fin 4, j ≠ i → s.headWord (clusterCore k.toNat j) 5 = none) → w.word = .gaGat la evn esz a b d x →
      w.st = .started → w.wrote < n → s.tcmbOf c ≤ 0x20000 →
      (w.pos < n → w.read = [] ∨ w.read = [(w.pos, 0xFFFFFFFF)] → idx % 4 = 0 → idx + 4 * n ≤ s.tcmbOf c → s.flips = [] → s.poison = [] →
        (spanOf (tcmLoc c (idx + 4 * w.pos)) 4).map s.byte = [0xFF, 0xFF, 0xFF, 0xFF] →
        Reaches (exec (.sliceAgentMessage k) s) fun t => t.mem = s.mem ∧ ∃ v, t.headWord c 5 = some v ∧ v.wrote = w.wrote ∧ v.st = .started ∧
          (aheadEntry w n s.fv = none → v.pos = w.pos + 1 ∧ v.res = w.res + 1 ∧ v.out = w.out ++ [List.replicate e 0]) ∧
          ∀ i, aheadEntry w n s.fv = some i → v.pos = w.pos ∧ v.res = w.res ∧ v.out = w.out ∧
            v.read = (i, BitVec.ofNat 64 (natOfBytes ((spanOf (tcmLoc c (idx + 4 * i)) 4).map s.byte))) :: w.read) ∧
      (∀ bs, n ≤ w.pos → w.out[w.wrote]? = some bs → bs.length = e → dst % e = 0 → dst + e * n ≤ s.tcmbOf c →
        Reaches (exec (.sliceAgentMessage k) s) fun t => (∀ l, t.byte l = s.over (plainBytes (tcmLoc c (dst + e * w.wrote)) bs) l) ∧
          ∃ v, t.headWord c 5 = some v ∧ v.wrote = w.wrote + 1 ∧ v.out = w.out ∧
            v.st = if w.wrote + 1 = n then .finished w.res else .started)) ∧
    (∀ (k : ClusterId) (i : Fin 4) w x, let c := clusterCore k.toNat i
      let g := w.eng c 5 2
      let table := w.ops.getD 1 0
      let n := (w.ops.getD 3 0).toNat
      let entry := fun (sz : Nat) => x.toNat < 2 ^ (8 * sz) ∧ x.toNat ≠ 2 ^ (8 * sz) - 1 ∧ (w.read = [(w.pos, x)] ∨ w.read = [] ∧
        ∃ l, s.EngMeets g (addA (w.ops.getD 0 0) (w64 (sz * w.pos))) sz .load l ∧ s.bytes l sz = leBytes sz x.toNat)
      let settled := fun (res : Word) (out : List (List Byte)) (st : WordState) (t : State) => ∃ v, t.headWord c 5 = some v ∧ v.pos = w.pos + 1 ∧
        v.res = res ∧ v.out = w.out ++ out ∧ v.wrote = w.wrote ∧ v.probe = 0 ∧ v.st = st
      let reads := fun (P : State → Prop) => Reaches (exec (.sliceAgentMessage k) s) fun t => t.mem = s.mem ∧ t.dirty = s.dirty ∧ P t
      s.headWord c 5 = some w → (∀ j : Fin 4, j ≠ i → s.headWord (clusterCore k.toNat j) 5 = none) → w.st = .started → w.pos < n →
      aheadEntry w n s.fv = none →
      (∀ la evn esz a b d y l, w.word = .gaGat la evn esz a b d y → entry 4 → w.wrote < n →
        s.EngMeets (tableEng g 2) (addA table (w64 (x.toNat * gatSize esz))) (gatSize esz) .load l →
        reads (settled w.res [s.bytes l (gatSize esz)] .started)) ∧
      (∀ la evn op ty a b d y v l, let sz := gaTySize ty
        w.word = .gaUpd la evn op ty a b d y → entry 4 → s.EngMeets g (addA (w.ops.getD 2 0) (w64 (w.pos * sz))) sz .load v →
        s.EngMeets (tableEng g 5) (addA table (w64 (x.toNat * sz))) sz .atomic l → Reaches (exec (.sliceAgentMessage k) s) fun t =>
          settled w.res [] (if w.pos + 1 = n then .finished 0 else .started) t ∧
          ∀ m, t.byte m = s.over (plainBytes l (leBytes sz (gaApply op ty (natOfBytes (s.bytes l sz)) (natOfBytes (s.bytes v sz))))) m) ∧
      (∀ la evn tl a b d y l, let at_ := (x.toNat * 0x9E3779B97F4A7C15 % 2 ^ 64 / 2 ^ (64 - tl.toNat) + w.probe) % 2 ^ tl.toNat
        let key := BitVec.ofNat 64 (natOfBytes (s.bytes l 8))
        w.word = .gaPrb la evn tl a b d y → entry 8 → w.wrote < n → s.EngMeets (tableEng g 2) (addA table (w64 (16 * at_))) 16 .load l →
        (key = x → reads (settled w.res [s.bytes (l + 8) 4] .started)) ∧
        (key ≠ x → key = BitVec.allOnes 64 ∨ 2 ^ tl.toNat ≤ w.probe + 1 → reads (settled (w.res + 1) [List.replicate 4 0xFF] .started)) ∧
        (key ≠ x → key ≠ BitVec.allOnes 64 → w.probe + 1 < 2 ^ tl.toNat → reads fun t => ∃ v, t.headWord c 5 = some v ∧ v.pos = w.pos ∧
          v.out = w.out ∧ v.probe = w.probe + 1 ∧ v.st = .started))) ∧
    (∀ ty old v, gaApply .rep ty old v = v ∧ (ty ≠ .f32 → ty ≠ .f64 → gaApply .add ty old v = (old + v) % 2 ^ (8 * gaTySize ty)) ∧
      gaApply .max .n32 old v = (if old < v then v else old) ∧ gaApply .min .n64 old v = (if v < old then v else old) ∧
      gaApply .max .i32 old v = (if intOf true 32 old < intOf true 32 v then v else old) ∧
      gaApply .min .i64 old v = (if intOf true 64 v < intOf true 64 old then v else old) ∧
      gaApply .add .f32 old v = (fpAdd fmtF32 .rne (fmtF32.val old) (fmtF32.val v)).1 ∧ gaApply .max .f64 old v = fpMinMax fmtF64 true old v) ∧
    (∀ (k : ClusterId) (i : Fin 4) w la evn a, let c := clusterCore k.toNat i
      let g := w.eng c 4 1
      s.headWord c 4 = some w → (∀ j : Fin 4, j ≠ i → s.headWord (clusterCore k.toNat j) 4 = none) → (s.clusterAt k.toNat).kick = [] →
      w.word = .cpNd la evn a → s.storesLeft c w = true →
      (∀ l, let d := (tcbOf (s.bytes l 128)).toList
        let p := w.ops.getD 0 0
        w.st = .queued → (s.coreAt c).iris ≠ .halted → s.EngMeets g p 128 .load l →
        (∀ j, descBad d = some j → Reaches (exec (.engineWordStart k .copy) s) fun t =>
          t.headWord c 4 = some { w with st := .held 0x044 0 j (w64 (addr54 p)) false } ∧ t.mem = s.mem) ∧
        (descBad d = none → (s.ownLines c 4 w.actx (copyLines d w.pos)).isSome = true → Reaches (exec (.engineWordStart k .copy) s) fun t =>
          t.headWord c 4 = some { w with st := .started, desc := d, begun := true } ∧ t.mem = s.mem ∧ t.dirty = s.dirty)) ∧
      (∀ lp lq, let n := sideBits w.desc (dword w.desc 0) (dword w.desc 1) / 8
        w.st = .started → w.pos = 0 → OneElement w.desc → s.EngMeets g (dword w.desc 0) n .load lp →
        s.EngMeets g (dword w.desc 1) (sideBits w.desc (dword w.desc 1) (dword w.desc 0) / 8) .store lq →
        Reaches (exec (.engineWordStart k .copy) s) fun t => t.headWord c 4 = some { w with pos := 1, st := .finished 0 } ∧
          ∀ l, t.byte l = s.over (plainBytes lq (oneOut w.desc w.rmode (s.bytes lp n))) l)) ∧
    (∀ (c : CoreId) e d w, let p := prismOf c.toNat e
      let i := endIndex e
      let g := { w.eng c.toNat (endCode e) 4 with peer := false }
      let at_ := w.ops.getD 0 0
      let ends := fun (P : State → Prop) => Reaches (exec (.prismSingleEndStart c e) s) fun t =>
        (∃ v, t.headWord c.toNat (endCode e) = some v ∧ v.st = .finished 0) ∧ P t
      neighbour c.toNat e = some d → s.headWord c.toNat (endCode e) = some w → w.st = .queued → (s.coreAt c.toNat).iris ≠ .halted →
      s.storesLeft c.toNat w = true → s.headWord d (endCode (oppositeEnd e)) = none → w.pos = 0 → (s.prismAt p).gang = some w.gang →
      s.flips = [] → s.poison = [] →
      (∀ e1 la evn a len moff l, w.word = .prMdl e1 la evn a len moff → s.EngArea g at_ len.toNat l → ends fun t =>
        t.prismAt p = s.prismAt p ∧ ∀ m, t.byte m = s.over (plainBytes (sideLoc p (4096 * i + moff.toNat)) (s.bytes l len.toNat)) m) ∧
      (∀ e1 la (bank : Bool) evn (add clr : Bool) sat rm dk a b ofmt m n osc nc, let to_ := bitsOf (w.ops.getD 2 0) 11 0
        let l := tcmLoc to_ (addr54 at_)
        let sz := outBits ofmt.toNat / 8
        let r := s.prismAt p
        let acc := (if bank then r.acc1 else r.acc0)[0]
        let old := if add then some (natOfBytes (s.bytes l sz)) else none
        let left := fun (b : Bool) (v : Vector W32 256) => if clr ∧ bank = b then Vector.replicate 256 0 else v
        w.word = .prOut e1 la bank evn add clr sat rm dk a b ofmt m n osc nc → dk = .tcm → m = 0 → n = 0 → 8 ≤ outBits ofmt.toNat → dieOf to_ = dieOf c.toNat →
        (s.coreAt to_).image.map (·.gang) = some w.gang → addr54 at_ + sz ≤ s.tcmbOf to_ → ends fun t =>
          (t.prismAt p).acc0 = left false r.acc0 ∧ (t.prismAt p).acc1 = left true r.acc1 ∧
          ∀ x, t.byte x = s.over (plainBytes l (leBytes sz (deliverVal ofmt.toNat (outMode rm w.rmode) sat osc.toInt acc old))) x) ∧
      (∀ e1 la evn a b shift, w.word = .prScb e1 la evn a b shift → ends fun t => t.mem = s.mem ∧ (t.prismAt p).acc0 = (s.prismAt p).acc0 ∧
        (t.prismAt p).acc1 = (s.prismAt p).acc1 ∧ ∀ j : Fin 2, if j.val = i then (t.prismAt p).sbase[j] = at_ ∧ (t.prismAt p).dbase[j] = w.ops.getD 1 0 ∧
          (t.prismAt p).shift[j] = shift ∧ (t.prismAt p).scale[j] = []
        else (t.prismAt p).sbase[j] = (s.prismAt p).sbase[j] ∧ (t.prismAt p).dbase[j] = (s.prismAt p).dbase[j] ∧
          (t.prismAt p).shift[j] = (s.prismAt p).shift[j] ∧ (t.prismAt p).scale[j] = (s.prismAt p).scale[j])) ∧
    (∀ (k : ClusterId) (i : Fin 4) w, let c := clusterCore k.toNat i
      let op := fun j => w.ops.getD j 0
      let key := (op 0).toNat
      let gi := { w.eng c 6 3 with peer := false }
      let ends := fun (r : Word) (P : State → Prop) => Reaches (exec (.engineWordStart k .mirror) s) fun t =>
        (∃ v, t.headWord c 6 = some v ∧ v.st = .finished r) ∧ P t
      let still := fun (t : State) => t.mem = s.mem ∧ t.dirty = s.dirty
      s.headWord c 6 = some w → (∀ j : Fin 4, j ≠ i → s.headWord (clusterCore k.toNat j) 6 = none) → w.st = .queued →
      (s.coreAt c).iris ≠ .halted → s.storesLeft c w = true → w.pos = 0 → w.plan = none →
      (∀ la evn a osz isz nslot L, let m : MirrorCfg := ⟨w64 (addr54 (op 0)), nslot.toNat + 1, isz.toNat + 1, osz.toNat + 1, w.actx, w.mode⟩
        let size := 256 + m.nslot * m.slotSize
        w.word = .miCfg la evn a osz isz nslot → addr54 (op 0) % 4096 = 0 → s.EngArea (m.eng c) m.base size L → ends 0 fun t =>
          (t.clusterAt (clusterOf c)).mirror = some m ∧
          ∀ l, t.byte l = if L ≤ l ∧ l < L + size ∧ (l < L + 256 ∨ (l - L - 256) % m.slotSize < 64) then 0 else s.byte l) ∧
      (∀ m L, let size := 256 + m.nslot * m.slotSize
        (s.clusterAt (clusterOf c)).mirror = some m → addr54 m.base % 8 = 0 → 0 < m.nslot → s.EngArea (m.eng c) m.base size L →
        let slot := L + 256 + key % m.nslot * m.slotSize
        let word := fun (a : Nat) => BitVec.ofNat 64 (natOfBytes (s.bytes a 8))
        let h := slotOf (word slot) (word (slot + 8)) (word (slot + 16))
        let hdr := fun (v : Slot) => plainBytes slot (v.words.flatMap fun x => leBytes 8 x.toNat)
        let count := fun (a : Nat) => plainBytes a (leBytes 8 ((word a).toNat + 1))
        let pair := L + 16 * (key / 2 ^ 32 % 16)
        let outs := slot + 64 + 64 * m.isz
        let k0 := s.coreAt c
        (∀ la mode evn rd a b p x o I, let n := (op 3).toNat
          let code := ptrCode (op 2)
          let bits := mirrorBits code
          let len := elemBytes code n
          let step := bitsOf (op 1) 31 0
          let lim := bitsOf w.mirrun 7 0
          let elem := fun (l i : Nat) => mirrorVal code (if bits = 4 then (s.byte (l + i / 2)).toNat / 16 ^ (i % 2) % 16 else natOfBytes (s.bytes (l + i * (bits / 8)) (bits / 8)))
          let vals := fun (l : Nat) => (List.range n).map (elem l)
          let hit := h.v = true ∧ h.ov = true ∧ h.key = key ∧ h.tag = (step + 2 ^ 32 - 1) % 2 ^ 32 ∧ h.ifmt = code ∧ h.icnt = n ∧
            (lim = 0 ∨ h.run < lim) ∧ metricHolds mode (bitsOf w.mirth 31 0) (vals I) (vals (slot + 64)) = true
          w.word = .miQry la mode evn rd a b p x o → len ≤ 64 * m.isz → 8 * len = n * bits → addr54 (op 2) % max 1 (bits / 8) = 0 → s.EngArea gi (op 2) len I →
          (¬hit → ends 0 fun t => (t.coreAt c).mirmiss = k0.mirmiss + 1 ∧ (t.coreAt c).mirhit = k0.mirhit ∧
            ∀ l, t.byte l = s.over (plainBytes (slot + 64) (s.bytes I len) ++ hdr ⟨true, false, code, 0, key, step, n, h.olen⟩ ++ count (pair + 8)) l) ∧
          (∀ O, hit → isGlobal (addr54 (op 4)) = false → h.olen ≤ 64 * m.osz → s.EngArea gi (op 4) h.olen O → ends 1 fun t =>
            (t.coreAt c).mirhit = k0.mirhit + 1 ∧ (t.coreAt c).mirmiss = k0.mirmiss ∧ ∀ l, t.byte l =
              s.over (plainBytes O (s.bytes outs h.olen) ++ hdr { h with tag := step, run := min (h.run + 1) 255 } ++ count pair) l)) ∧
        (∀ la evn a b p x I, let len := (op 3).toNat
          let mine := h.v = true ∧ h.key = key ∧ h.tag = bitsOf (op 1) 31 0
          w.word = .miPut la evn a b p x → len ≤ 64 * m.osz → s.EngArea gi (op 2) len I →
          (mine → ends 1 fun t => ∀ l, t.byte l = s.over (plainBytes outs (s.bytes I len) ++ hdr { h with ov := true, olen := len }) l) ∧
          (¬mine → ends 0 still)) ∧
        (∀ la evn a, w.word = .miClrKey la evn a →
          (h.v = true ∧ h.key = key → ends 1 fun t => ∀ l, t.byte l = s.over (plainBytes slot (List.replicate 64 0)) l) ∧
          (¬(h.v = true ∧ h.key = key) → ends 0 still)) ∧
        (∀ la evn, w.word = .miClrAll la evn → ends (w64 m.nslot) fun t =>
          ∀ l, t.byte l = if L + 256 ≤ l ∧ l < L + size ∧ (l - L - 256) % m.slotSize < 64 then 0 else s.byte l))) ∧
    (∀ thr b n e b' n' e', let d := (fpAdd fmtF32 .rne (.fin b n e) (.fin (!b') n' e')).1 % 2 ^ 31
      metricHolds .absmax thr [.fin b n e] [.fin b' n' e'] = true ↔
        (fmtF32.val d).cmp (fmtF32.val thr) = some .lt ∨ (fmtF32.val d).cmp (fmtF32.val thr) = some .eq)

/-- A write of WCNT makes entries visible and a lap of RCNT halts the queue (R291, R390); a write of EN takes LOGN and HDIE only while EN is 0, clearing EN drops
the unstarted entries, and a reserved LOGN halts (R290, R390). A ready queue rises one level after its age interval (R294). A free slot starts the head of the
one ready queue with what it has read, or that queue halts with the code of the fault the reading met, or waits for a home (R292, R294, R296, R390). NOP is
done at once; LAUNCH takes tag and gang ids; COPY takes its lines and copies; SIGNAL writes or adds at
the home after every earlier entry; WAIT is done when the value is at least the entry's; QBARRIER when every earlier entry is (R293, R296, R81). Completion frees
the slot and counts the latency (R306). -/
def Obligations.CommandQueueSteps : Prop :=
  ∀ s : State, s.Quiet →
    (∀ (q : CmdQ) (v : Word), s.qrbHeld = false → let x := s.cq q.toNat
      let w := v.setWidth 32
      let alone := fun (t : State) => (∀ p, p < 64 → p ≠ q.toNat → t.cq p = s.cq p) ∧ t.mem = s.mem
      (Reaches (exec (.wcntWrite q v) s) fun t => alone t ∧ (t.cq q.toNat).wcnt = w ∧
        ((w - x.rcnt).toNat ≤ 2 ^ x.logn → (t.cq q.toNat).halt = x.halt ∧ (t.cq q.toNat).ovr = x.ovr) ∧
        (2 ^ x.logn < (w - x.rcnt).toNat → (t.cq q.toNat).halt = true ∧ (t.cq q.toNat).ovr = true ∧ (t.cq q.toNat).idx = x.rcnt)) ∧
      (Reaches (exec (.queueEnableWrite q v) s) fun t => alone t ∧ let y := t.cq q.toNat
        y.en = v.getLsbD 63 ∧ y.bpri = bitsOf v 62 60 ∧ y.ring = x.ring ∧ y.wcnt = x.wcnt ∧
        (x.en = false → y.logn = bitsOf v 59 56 ∧ y.hdie = bitsOf v 55 54 ∧ y.rcnt = x.rcnt ∧
          (y.en = true → y.logn < 4 ∨ 12 < y.logn → y.halt = true) ∧ (4 ≤ y.logn → y.logn ≤ 12 → y.halt = x.halt)) ∧
        (x.en = true → y.logn = x.logn ∧ y.hdie = x.hdie) ∧ (x.en = true → y.en = false → y.rcnt = x.wcnt ∧ y.halt = false)) ∧
      (Reaches (exec (.histogramClear q) s) fun t => alone t ∧ (t.cq q.toNat).lmax = 0 ∧ (t.cq q.toNat).hist = Vector.replicate 16 0 ∧
        (t.cq q.toNat).rcnt = x.rcnt)) ∧
    (∀ (q : CmdQ) t0, let x := s.cq q.toNat
      let a := 850 * (s.agei.toList.getD x.epri 0).toNat
      s.queueReady q.toNat = true → x.since = some t0 → x.epri < 7 → 0 < a → t0 + a ≤ s.time →
      Reaches (exec (.queueAgeing q) s) fun t => (t.cq q.toNat).epri = x.epri + 1 ∧ (t.cq q.toNat).since = some (t0 + a) ∧ t.mem = s.mem) ∧
    (∀ (d : DieId) (q : CmdQ) e, let z := s.agedQueues
      let y := z.dieAt d.toNat
      let x := z.cq q.toNat
      y.rdy.getLsbD 19 = true → y.resetting = none → y.slots.toList.getD 0 none = none → x.en = true → x.hdie = d.toNat →
      (∀ p, p < 64 → (z.cq p).startAt = some s.time → (z.cq p).hdie ≠ d.toNat) →
      z.headEntry q.toNat = some e → z.queueReady q.toNat = true →
      (∀ p, p < 64 → p ≠ q.toNat → (z.cq p).en = true → (z.cq p).hdie = d.toNat → z.queueReady p = false) →
      s.flips = [] → poisonedAny s.poison (spanOf x.headAt 64) = false →
      (∀ r u, entryCheck d.toNat e z = .ok r u → Reaches (exec (.queueEntryStart d) s) fun t => (t.cq q.toNat).rcnt = x.rcnt + 1 ∧
        (t.cq q.toNat).epri = x.bpri ∧ t.mem = s.mem ∧ ∃ c, (t.dieAt d.toNat).slots.toList.getD 0 none = some c ∧ c.queue = q.toNat ∧
          c.idx = x.rcnt ∧ c.words = e ∧ c.finished = false ∧ c.record = r.1 ∧ c.desc = r.2 ∧ c.epri = x.epri) ∧
      (∀ c u, entryCheck d.toNat e z = .error (.exc c) u → c.entryCode = 0x081 → exec (.queueEntryStart d) s = .next s) ∧
      (∀ c u, entryCheck d.toNat e z = .error (.exc c) u → c.entryCode ≠ 0x081 → Reaches (exec (.queueEntryStart d) s) fun t =>
        (∀ b, b < 4 → (t.dieAt b).slots = (s.dieAt b).slots) ∧ t.mem = s.mem ∧ (t.cq q.toNat).halt = true ∧ (t.cq q.toNat).code = c.entryCode ∧ (t.cq q.toNat).idx = x.rcnt ∧ (t.cq q.toNat).rcnt = x.rcnt)) ∧
    (∀ (d : DieId) (j : SlotNum) e, let slot := fun (t : State) => (t.dieAt d.toNat).slots.toList.getD j.toNat none
      let first := ∀ f ∈ s.started e.queue, f.idx = e.idx ∨ (f.idx - e.idx).toNat < 2 ^ 31
      let ends := fun (i : Instr) (P : State → Prop) => Reaches (exec i s) fun t => slot t = some { e with finished := true } ∧ P t
      slot s = some e → e.stuck = false →
      (e.finished = false →
        (entryType e.words = 0 → ends (.cqNop d j) fun t => t.mem = s.mem ∧ t.dirty = s.dirty) ∧
        (∀ r, entryType e.words = 1 → e.record = some r → e.launch = none → s.earlierLaunch e.began d.toNat = false →
          let ids := s.freeGangIds r.roots.eraseDups.length
          ids.length = r.roots.eraseDups.length → Reaches (exec (.cqLaunch d j) s) fun t => slot t = some { e with launch := some s.accepted } ∧
            t.accepted = s.accepted + 1 ∧ t.gangs = s.gangs ++ ids.map (fun g => (g, ⟨s.accepted, .waiting, []⟩)) ∧
            ∃ l, t.launches = s.launches ++ [(s.accepted, l)] ∧ l.tag = BitVec.ofNat 16 s.accepted ∧ l.actx = r.actx ∧ l.pipes = r.pipes ∧
              l.queue = e.queue ∧ l.epri = e.epri ∧ l.start = e.began ∧ l.kernels.map (·.code) = (r.kernels.zip r.roots).map (·.1.code)) ∧
        (∀ u, entryType e.words = 2 → e.begun = false →
          s.ownLines (1024 * d.toNat) (8 + j.toNat) (bitsOf e.words[2] 7 0) (copyLines e.desc 0) = some u →
          Reaches (exec (.cqCopy d j) s) fun t => slot t = some { e with begun := true } ∧ t.mem = s.mem ∧ t.dirty = s.dirty) ∧
        (∀ lp lq, let g : Eng := { core := 1024 * d.toNat, actx := bitsOf e.words[2] 7 0, mode := .system, kind := 1, cls := 8 + j.toNat, loc := false, peer := false }
          let n := sideBits e.desc (dword e.desc 0) (dword e.desc 1) / 8
          entryType e.words = 2 → e.begun = true → e.pos = 0 → OneElement e.desc → s.EngMeets g (dword e.desc 0) n .load lp →
          s.EngMeets g (dword e.desc 1) (sideBits e.desc (dword e.desc 1) (dword e.desc 0) / 8) .store lq → Reaches (exec (.cqCopy d j) s) fun t =>
            slot t = some { e with pos := 1, finished := true } ∧ ∀ l, t.byte l = s.over (plainBytes lq (oneOut e.desc 0 (s.bytes lp n))) l) ∧
        (∀ pa, entryType e.words = 3 → first → addr54 e.words[1] % 8 = 0 → s.poison = [] → s.flips = [] → s.dispWaits d.toNat pa = false →
          (∀ r ∈ s.reds, r.loc / 128 ≠ pa / 128) →
          let maps := fun acc => (s.hardAddr d.toNat (bitsOf e.words[3] 15 8) .system (BitVec.ofNat 64 (addr54 e.words[1])) acc 0).2 = .ok pa
          let old := BitVec.ofNat 64 (natOfBytes ((spanOf pa 8).map s.byte))
          ((e.words[3]).getLsbD 0 = false → maps .store →
            ends (.cqSignalWrite d j) fun t => ∀ k, t.byte k = s.over (plainBytes pa (leBytes 8 (e.words[2]).toNat)) k) ∧
          ((e.words[3]).getLsbD 0 = true → maps .atomic →
            ends (.cqSignalAdd d j) fun t => ∀ k, t.byte k = s.over (plainBytes pa (leBytes 8 (old + e.words[2]).toNat)) k)) ∧
        (∀ pa, entryType e.words = 4 → addr54 e.words[1] % 8 = 0 → s.poison = [] → s.dispWaits d.toNat pa = false →
          s.flips = [] → (s.hardAddr d.toNat (bitsOf e.words[3] 15 8) .system (BitVec.ofNat 64 (addr54 e.words[1])) .load 0).2 = .ok pa →
          (∀ r ∈ s.reds, r.loc / 128 ≠ pa / 128) → let have_ := BitVec.ofNat 64 (natOfBytes ((spanOf pa 8).map s.byte))
          ((e.words[2]).toNat ≤ have_.toNat → ends (.cqWait d j) fun t => t.mem = s.mem ∧ t.dirty = s.dirty) ∧
          (have_.toNat < (e.words[2]).toNat → exec (.cqWait d j) s = .next s)) ∧
        (entryType e.words = 5 → (first → ends (.cqQbarrier d j) fun t => t.mem = s.mem) ∧ (¬first → exec (.cqQbarrier d j) s = .next s))) ∧
      (let i := min 15 (((s.time % 2 ^ 48 + 2 ^ 48 - e.enq % 2 ^ 48) % 2 ^ 48).log2 - (s.cq e.queue).lsh)
      let frees := Reaches (exec (.queueEntryCompletion d j) s) fun t => slot t = none ∧
        ((t.cq e.queue).hist.toList.getD i 0).toNat = min (((s.cq e.queue).hist.toList.getD i 0).toNat + 1) (2 ^ 32 - 1) ∧ t.mem = s.mem
      e.queue < 64 → (e.finished = true → entryType e.words ≠ 1 → entryType e.words ≠ 2 → frees) ∧
        (e.finished = true → entryType e.words = 2 → s.visible (1024 * d.toNat) 1 = true → frees) ∧
        (∀ l, entryType e.words = 1 → e.launch = some l → (∀ g ∈ s.gangs, g.2.launch ≠ l) → frees)))

/-- A launch that nothing stands before claims its clusters: its gangs are placed, every bound core gets its image, an empty deque and its tile tasks (R297, R302).
A gang with nothing left is unplaced (R297). A launch that waits behind a gang of lower priority requests its pre-emption (R298). A power or thermal window ends with
its measured value, and above PLIM or TWARN asks the lowest gang of the region for pre-emption; above TCRIT the region is slowed, and at 115 °C the compute
dies lose power (R303, R395). The balancer, when
enabled, moves half the difference of two queues from the newest end of the deeper one (R304, R305). -/
def Obligations.GangAndPowerSteps : Prop :=
  ∀ s : State, s.Quiet →
    (∀ n l gs, s.launch? n = some l → s.claimants = [⟨n, gs, false⟩] → (∀ k ∈ s.needs ⟨n, gs, false⟩, s.clusterFree gs k = true) →
      s.powerFits (gs.flatMap (s.unitsOf l)) = true → s.squaresReady (gs.flatMap l.coresOf) = true → s.prismsClear l gs = true →
      (l.kernels.flatMap fun k => k.place.map (·.1)).Nodup → (∀ k ∈ l.kernels, bitsOf (k.hdr.toList.getD 6 0) 51 36 < 64) →
      (∀ c ∈ l.kernels.flatMap fun k => k.place.map (·.1), (s.coreAt c).taskq = []) →
      (∀ k ∈ l.kernels, bitsOf (k.hdr.toList.getD 3 0) 63 32 ≤ 0x1E000) →
      Reaches (exec (.gangClaim n) s) fun t => ∀ g ∈ gs, (∃ x, t.gang? g = some x ∧ x.phase = .placed) ∧
        (∀ k ∈ l.clustersOf g, (t.clusterAt k).claim.isSome = true) ∧
        ∀ c ∈ l.coresOf g, (∃ i, (t.coreAt c).image = some i ∧ i.launch = n) ∧ t.dequeTop c = 0 ∧ t.dequeBottom c = 0 ∧
          (t.coreAt c).taskq.length > (s.coreAt c).taskq.length) ∧
    (∀ g x, s.gang? g = some x → x.phase = .placed → (∀ r ∈ s.decs, r.gang ≠ g) → (∀ m ∈ s.net, m.tcb.gang ≠ g ∧ m.gang ≠ g) →
      (∀ c ∈ s.liveCores, c ∉ s.boundCores g → (∀ e ∈ (s.coreAt c).taskq, e.tcb.gang ≠ g) ∧ ∀ z ∈ (s.coreAt c).ctxs, z.st = .free ∨ z.tcb.gang ≠ g) →
      (∀ y ∈ s.dies.toList, (∀ v ∈ y.saved, v.gang ≠ g) ∧ ∀ o ∈ y.ordered, o.tcb.gang ≠ g) →
      (∀ c ∈ s.boundCores g, (∀ z ∈ (s.coreAt c).ctxs, z.st = .free) ∧ (s.coreAt c).taskq = [] ∧ (s.coreAt c).inbox = [] ∧
        s.dequeTop c = s.dequeBottom c ∧ ∀ q ∈ (s.coreAt c).queues.toList, q = []) →
      Reaches (exec (.gangUnplace g) s) fun t => (t.gangs = s.gangs.filter fun p => p.1 ≠ g) ∧ (∀ k, (t.clusterAt k).claim ≠ some g) ∧
        (∀ c ∈ s.boundCores g, (t.coreAt c).image = none) ∧ t.mem = s.mem) ∧
    (∀ n l gs h c, s.launch? n = some l → s.claimants.filter (fun a => a.launch = n) = [⟨n, gs, false⟩] → s.needs ⟨n, gs, false⟩ ≠ [] →
      (∀ k ∈ s.needs ⟨n, gs, false⟩, (s.clusterAt k).claim = some h) → s.priority h < l.bpri → c ∈ s.boundCores h →
      (s.coreAt c).image.map (·.gang) = some h → (s.coreAt c).preempt = false →
      Reaches (exec (.preemptionRequest n) s) fun t => t.mem = s.mem ∧
        ∀ c ∈ s.boundCores h, (s.coreAt c).image.map (·.gang) = some h → (t.coreAt c).preempt = true) ∧
    (∀ (d : DieId) (r : RegionNum), let at_ := fun (v : Vector Word 16) => v.toList.getD r.toNat 0
      let asked := fun (t : State) => ∀ g, s.victimGang d.toNat r.toNat = some g → ∀ c ∈ s.boundCores g, (s.coreAt c).image.map (·.gang) = some g →
        (t.coreAt c).preempt = true
      let cores := fun (t : State) => ∀ c, t.coreAt c = s.coreAt c
      ((s.dieAt d.toNat).powAt.toList.getD r.toNat 0 < s.time / 850 → Reaches (exec (.powerWindow d r) s) fun t =>
        let m := at_ (t.dieAt d.toNat).meas
        m.toNat < 2 ^ 32 ∧ t.mem = s.mem ∧ (m.toNat ≤ (at_ (s.dieAt d.toNat).plim).toNat → cores t) ∧
          ((at_ (s.dieAt d.toNat).plim).toNat < m.toNat → asked t)) ∧
      (let m := Config.measuredTemp s.fv % 2 ^ 8
       (s.dieAt d.toNat).thermAt.toList.getD r.toNat 0 < s.time / 850 → Reaches (exec (.thermalWindow d r) s) fun t =>
        (115 ≤ m → s.released = true → t.released = false ∧ ∀ c, t.coreAt c = Core.reset) ∧ (m < 115 ∨ s.released = false →
        let w := at_ (s.dieAt d.toNat).therm
        let v := at_ (t.dieAt d.toNat).therm
        bitsOf v 63 56 = m ∧ bitsOf v 55 0 = bitsOf w 55 0 ∧ (t.dieAt d.toNat).hot.toList.getD r.toNat false = decide (bitsOf w 15 8 < m) ∧
          (m ≤ bitsOf w 23 16 → cores t) ∧ (bitsOf w 23 16 < m → asked t)))) ∧
    (∀ d : DieId, let f := (s.dieAt d.toNat).fctl
      (s.dieAt d.toNat).focusAt < s.time / 1024 →
      (f.getLsbD 63 = false → exec (.focusBalance d) s = .next (s.updDie d.toNat fun x => { x with focusAt := s.time / 1024 })) ∧
      (∀ a b, let n := ((s.coreAt a).taskq.length - (s.coreAt b).taskq.length) / 2
        f.getLsbD 63 = true → a ∈ s.liveCores → b ∈ s.liveCores → dieOf a = d.toNat → dieOf b = d.toNat → s.sameImage a b = true →
        (∀ v ∈ s.liveCores, dieOf v = d.toNat → (s.coreAt v).image.isSome = true → v = a ∨ v = b) → inScope (bitsOf f 9 8) a b = true →
        0 < n → bitsOf f 7 0 ≤ n → (∀ q ∈ (s.coreAt a).taskq, q.movable = true) → (s.coreAt a).taskq.length ≤ 64 → (s.coreAt b).taskq.length + n ≤ 64 →
        (∀ q ∈ (s.coreAt a).taskq ++ (s.coreAt b).taskq, q.slot = none) → (∀ q ∈ (s.coreAt b).taskq, q.since ≠ s.time) →
        Reaches (exec (.focusBalance d) s) fun t => (t.coreAt a).taskq = (s.coreAt a).taskq.take ((s.coreAt a).taskq.length - n) ∧
          (t.coreAt b).taskq.map (·.tcb) = ((s.coreAt b).taskq ++ (s.coreAt a).taskq.drop ((s.coreAt a).taskq.length - n)).map (·.tcb)))

/-- A halt that reaches a running core latches its snapshot with the trigger, and the core is STOPPING, or HALTED when no context is RUN (R308, R309, R310), and a `wfe`
that waits ends (R127); a resume makes it run and releases its input buffers (R311); a snapshot signal latches and changes nothing else (R321); a core that is not running keeps its snapshot
(R312). A configuration write clears its counter, unless it is one R316 has ignored; a window of OP 3 counts when the signal was high at least THR
cycles (R316, R317). LCLR empties the table (R314). -/
def Obligations.DebugSteps : Prop :=
  ∀ (s : State) (c : CoreId) (k : ClusterId) (n : BitVec 4) (v : Word),
    let x := s.coreAt c.toNat
    let latched := fun (g : Signal) (t : State) => let y := t.coreAt c.toNat
      t.signals = [] ∧ y.rest = x.rest ∧ y.sb = x.sb ∧ t.mem = s.mem ∧ (y.snap[0]).getLsbD 63 = true ∧ y.ttime = g.ttime ∧
        bitsOf y.trig 63 52 = g.tcore % 4096 ∧ bitsOf y.trig 51 50 = g.tsrc % 4 ∧ y.snap[2] = BitVec.ofNat 64 (s.time % 2 ^ 48) ∧
        (x.ctx.st = .run → bitsOf y.snap[0] 53 0 = addr54 x.ctx.pc ∧ bitsOf y.snap[0] 61 60 = x.ctx.num.toNat)
    (∀ p : Partition, exec (.irisHalt (.port p)) s = .next (s.signal (s.partitionCores p) 0 2 0) ∧
      exec (.irisResume (.port p)) s = .next (s.signal (s.partitionCores p) 1 2 0) ∧
      exec (.irisSnapshot (.port p)) s = .next (s.signal (s.partitionCores p) 2 2 0)) ∧
    (∀ g, s.signals = [g] → g.core = c.toNat → s.signalWaits g = false → (g.tsrc = 2 ∨ s.linkFailed (dieOf g.tcore) (dieOf g.core) = false) →
      (g.op = 0 → x.iris = .running → Reaches (exec (.irisHalt (.arrival c)) s) fun t => latched g t ∧
        ((∃ y ∈ x.ctxs, y.st = .run) → (t.coreAt c.toNat).iris = .stopping) ∧
        (t.coreAt c.toNat).ctx = { x.ctx with woke := x.ctx.woke || x.ctx.wfeOn } ∧ ((∀ y ∈ x.ctxs, y.st ≠ .run) → (t.coreAt c.toNat).iris = .halted)) ∧
      (g.op = 0 → x.iris ≠ .running → exec (.irisHalt (.arrival c)) s =
        .next (({ s with signals := [] }).updCore c.toNat fun k => { k with haltAt := some s.time })) ∧
      (g.op = 1 → x.sb = [] → x.haltAt ≠ some s.time → x.notices = [] → x.taskq.length + x.inbox.length ≤ 64 →
        (∀ e ∈ x.taskq ++ x.inbox, e.slot = none) → Reaches (exec (.irisResume (.arrival c)) s) fun t => let y := t.coreAt c.toNat
        y.iris = .running ∧ y.taskq = x.taskq ++ x.inbox ∧ y.inbox = [] ∧ y.ctx = x.ctx ∧ y.snap = x.snap ∧ t.signals = [] ∧ t.mem = s.mem) ∧
      (g.op = 1 → x.haltAt = some s.time → exec (.irisResume (.arrival c)) s = .next s) ∧
      (g.op = 2 → x.iris = .running → Reaches (exec (.irisSnapshot (.arrival c)) s) fun t => latched g t ∧ (t.coreAt c.toNat).iris = .running ∧
        (t.coreAt c.toNat).ctx = x.ctx) ∧
      (g.op = 2 → x.iris ≠ .running → exec (.irisSnapshot (.arrival c)) s = .next { s with signals := [] })) ∧
    (let old := (s.clusterAt k.toNat).facet.toList.getD n.toNat ⟨0, #v[0, 0], 0, 0, Vector.replicate 8 0, 0, 0⟩
    let new := fun (t : State) => (t.clusterAt k.toNat).facet.toList.getD n.toNat ⟨0, #v[0, 0], 0, 0, Vector.replicate 8 0, 0, 0⟩
    let bad := 5 ≤ bitsOf v 62 60 ∨ bitsOf v 62 60 = 3 ∧ bitsOf v 31 16 = 0
    (bad → exec (.fcfgWrite k n v) s = .next s) ∧
      (¬bad → Reaches (exec (.fcfgWrite k n v) s) fun t => bitsOf (new t).cfg 63 46 = bitsOf v 63 46 ∧ bitsOf (new t).cfg 45 32 = 0 ∧
        bitsOf (new t).cfg 31 0 = bitsOf v 31 0 ∧ (new t).cnt = 0 ∧ (new t).hist = Vector.replicate 8 0 ∧ (new t).bnd = old.bnd) ∧
      (old.cfg.getLsbD 63 = true → bitsOf old.cfg 62 60 = 3 → old.left = 0 → Reaches (exec (.facetWindowEnd k n) s) fun t =>
        (new t).cnt = (if bitsOf old.cfg 15 0 ≤ old.run then old.cnt + 1 else old.cnt) ∧ (new t).run = 0 ∧ (new t).left = bitsOf old.cfg 31 16 ∧
          (new t).cfg = old.cfg)) ∧
    Reaches (exec (.lensClear c) s) fun t => (t.coreAt c.toNat).lens = [] ∧ (t.coreAt c.toNat).lensOver.count = 0 ∧
      (t.coreAt c.toNat).ctx = x.ctx ∧ t.mem = s.mem

/-- The boot takes the first image that its checks accept, else the second, and otherwise only PORT rises (R329, R394). A ready bit rises with its function and
falls when that fails, alone (R327, R328, R389); a retraining counts and may end in failure (R387, R388). Packets to other nodes are sent again after 4096 cycles, and
kept after eight replays (R389). The scrubber reads the next line, of near SRAM and then of the dirty slice data, and poisons a unit with an uncorrectable error
(R382, R384). An attestation report begins with
its nonce, and waits for ATT (R332). A soft error marks the unit or the register and is counted (R381, R382). Requests of other nodes read, write and update at the
home (R389). Power loss keeps GDDR-7 and the flash only (R395). A warm reset signals the die's gangs, ends them, resets its logic
and local memories, and clears BUSY once every function is ready (R393); it does not leave its first step while a halt is under way or a core is STOPPING. -/
def Obligations.PlatformSteps : Prop :=
  ∀ s : State, s.Quiet →
    (s.booted = false → Reaches (exec .powerOnBoot s) fun t => t.booted = true ∧ t.mem = s.mem ∧
      (s.imageStatus 0 = 0 → t.released = true ∧ t.mgmt = 7 ∧ t.image = some 0 ∧ t.attq = [] ∧ bitsOf t.bstat 2 0 = 0) ∧
      (s.imageStatus 0 ≠ 0 → s.imageStatus 1 = 0 → t.released = true ∧ t.mgmt = 7 ∧ t.image = some 0x4000000 ∧ bitsOf t.bstat 2 0 = s.imageStatus 0) ∧
      (s.imageStatus 0 ≠ 0 → s.imageStatus 1 ≠ 0 → t.released = s.released ∧ t.mgmt = 1 ∧ t.bstat = BitVec.ofNat 64 (8 * s.imageStatus 1 + s.imageStatus 0))) ∧
    (∀ (d : DieId) (b : BitVec 6), let x := s.dieAt d.toNat
      let bits := fun (t : State) (v : Bool) => (∀ i, i < 64 → i ≠ b.toNat → (t.dieAt d.toNat).rdy.getLsbD i = x.rdy.getLsbD i) ∧
        (t.dieAt d.toNat).rdy.getLsbD b.toNat = v ∧ t.mem = s.mem
      (s.released = true → x.resetting = none ∨ x.resetting = some 6 ∧ (b.toNat < 20 ∨ 24 ≤ b.toNat) → x.rdy.getLsbD b.toNat = false →
        (b.toNat = 19 ∨ 32 ≤ b.toNat ∨ 24 ≤ b.toNat ∧ Config.gddrPresent (8 * d.toNat + (b.toNat - 24)) = true ∨ 20 ≤ b.toNat ∧ b.toNat < 24 ∧ (dieAcross d.toNat (23 - b.toNat)).isSome = true ∧
          (x.lnkst.toList.getD (23 - b.toNat) 0).getLsbD 63 = false) → Reaches (exec (.functionReady ⟨d, b⟩) s) fun t => bits t true) ∧
      (x.rdy.getLsbD b.toNat = true → (Reaches (exec (.functionFail ⟨d, b⟩) s) fun t => bits t false) ∧
        (∀ j : BitVec 4, b.toNat = j.toNat → Reaches (exec (.wifortLaneFail d j) s) fun t => bits t false)) ∧
      (∀ l : BitVec 2, x.rdy.getLsbD (23 - l.toNat) = true → Reaches (exec (.linkRetrain d l) s) fun t =>
        let w := x.lnkst.toList.getD l.toNat 0
        let v := (t.dieAt d.toNat).lnkst.toList.getD l.toNat 0
        bitsOf v 47 32 = min (bitsOf w 47 32 + 1) 0xFFFF ∧ bitsOf w 31 0 ≤ bitsOf v 31 0 ∧ t.mem = s.mem ∧
          (bitsOf v 63 62 = bitsOf w 63 62 ∧ (t.dieAt d.toNat).rdy = x.rdy ∨
            v.getLsbD 63 = true ∧ v.getLsbD 62 = false ∧ (t.dieAt d.toNat).rdy.getLsbD (23 - l.toNat) = false))) ∧
    (∀ d : DieId, let late := fun (w : WriteThrough) => w.die = d.toNat ∧ w.held = false ∧ w.sent + 4096 ≤ s.time ∧ ∃ b ∈ w.bytes, paNode b.loc ≠ s.node
      let due := fun (r : PendingRed) => r.die = d.toNat ∧ r.held = false ∧ r.sent + 4096 ≤ s.time ∧ paNode r.loc ≠ s.node
      (∃ w ∈ s.wts, late w) ∨ (∃ r ∈ s.reds, due r) → Reaches (exec (.wifortReplay d) s) fun t => t.wts.length = s.wts.length ∧
        t.reds.length = s.reds.length ∧ t.mem = s.mem ∧
        (∀ (i : Nat) w, s.wts[i]? = some w → (late w → t.wts[i]? = some { w with sent := s.time, tries := w.tries + 1, held := decide (8 ≤ w.tries) }) ∧
          (¬late w → t.wts[i]? = some w)) ∧
        ∀ (i : Nat) r, s.reds[i]? = some r → (due r → t.reds[i]? = some { r with sent := s.time, tries := r.tries + 1, held := decide (8 ≤ r.tries) }) ∧
          (¬due r → t.reds[i]? = some r)) ∧
    (∀ d : DieId, let x := s.dieAt d.toNat
      let pa := 2 ^ 40 * s.node + 2 ^ 38 * d.toNat + 128 * x.scrubAt
      let base := 2 ^ 33 * s.node + 2 ^ 31 * d.toNat
      let reads := fun (line next : Nat) => (s.flips = [] → Reaches (exec (.scrubTick d) s) fun t => (t.dieAt d.toNat).scrubAt = next ∧
          (t.dieAt d.toNat).scrubTime = s.time ∧ t.mem = s.mem ∧ t.poison = s.poison) ∧
        ∀ j, j < 4 → s.flips = [(line + 32 * j, true)] → Reaches (exec (.scrubTick d) s) fun t => t.flips = [] ∧ line + 32 * j ∈ t.poison ∧ t.mem = s.mem
      let dirty := fun (l : Nat) => (∃ c ∈ s.dirty, c.1 / 128 = l) ∧ paDie (128 * l) = d.toNat ∧ paNode (128 * l) = s.node ∧ base + (x.scrubAt - 2 ^ 24) ≤ l
      x.scrub.getLsbD 63 = true → x.scrubTime + max 64 (bitsOf x.scrub 31 0) ≤ s.time → 128 * base + 2 ^ 38 ≤ 2 ^ 52 →
      (x.scrubAt < 2 ^ 24 → reads pa (x.scrubAt + 1)) ∧
      (2 ^ 24 ≤ x.scrubAt → (∀ l, dirty l → (∀ m, dirty m → l ≤ m) → reads (128 * l) (2 ^ 24 + (l - base) + 1)) ∧
        ((∀ l, ¬dirty l) → reads (128 * base) 1))) ∧
    (∀ nonce : BitVec 256, ((s.image.isSome = true ∧ s.mgmt.getLsbD 2 = true) → Reaches (exec (.attestationRequest nonce) s) fun t =>
        ∃ r, t.reports = s.reports ++ [r] ∧ r.take 32 = leBytes 32 nonce.toNat ∧ r.length = 50096 ∧ t.mem = s.mem) ∧
      (s.image = none ∨ s.mgmt.getLsbD 2 = false → exec (.attestationRequest nonce) s = .next { s with attq := s.attq ++ [nonce] })) ∧
    (∀ (c : CoreId) x r l, (s.coreAt c.toNat).Whole → r ≠ 0 → memoryLoc l = true →
      (Reaches (exec (.softError (.memory l true)) s) fun t => (unitOf l, true) ∈ t.flips ∧ t.mem = s.mem) ∧
      Reaches (exec (.softError (.sreg c x r true)) s) fun t => RegName.s r ∈ ((t.coreAt c.toNat).getCtx x).bad ∧ t.mem = s.mem ∧
        ((t.coreAt c.toNat).getCtx x).s = ((s.coreAt c.toNat).getCtx x).s ∧
        bitsOf (t.dieAt (dieOf c.toNat)).errc 31 0 = min (bitsOf (s.dieAt (dieOf c.toNat)).errc 31 0 + 1) (2 ^ 32 - 1)) ∧
    (∀ node snd rq, let pa := wifortPa rq
      paNode pa = s.node → s.homeReady (paDie pa) pa = true → (s.dieAt (paDie pa)).closed = false → regionOf pa = .nearSram ∨ regionOf pa = .gddr → s.heldAtHome pa 0 = false →
      s.engineOwned (paDie pa) pa = false → (∀ r ∈ s.reds, r.loc / 128 ≠ pa / 128) → s.flips = [] → s.poison = [] →
      (∀ a n, rq = .read a n → exec (.wifortRequest ⟨node, snd, rq⟩) s = .next s) ∧
      (∀ a bs, rq = .write a bs → bs ≠ [] → pa % 128 + bs.length ≤ 128 → Reaches (exec (.wifortRequest ⟨node, snd, rq⟩) s) fun t => ∀ k,
        t.byte k = s.over (plainBytes pa bs) k) ∧
      (∀ a f w b c, rq = .atomic a f w b c → pa % memBytes w = 0 → Reaches (exec (.wifortRequest ⟨node, snd, rq⟩) s) fun t => ∀ k,
        t.byte k = match wifortAtomic f w (natOfBytes ((spanOf pa (memBytes w)).map s.byte)) b c with
          | some v => s.over (plainBytes pa (leBytes (memBytes w) v)) k
          | none => s.byte k)) ∧
    (s.released = true → Reaches (exec .thermalShutdown s) fun t => t.released = false ∧ t.dirty = [] ∧ t.flash = s.flash ∧ t.time = s.time ∧
      (∀ c, t.coreAt c = Core.reset) ∧ (∀ u, u ∈ t.poison ↔ u ∈ s.poison ∧ isPhys u = true ∧ regionOf u = .gddr) ∧
      ∀ l, t.mem.read l = if isPhys l = true ∧ regionOf l = .gddr then s.mem.read l else 0) ∧
    (∀ d : DieId, let x := s.dieAt d.toNat
      (x.resetting = some 0 → Reaches (exec (.warmReset d) s) fun t => (t.dieAt d.toNat).resetting = some 1 ∧ t.mem = s.mem ∧
        (∀ g, g ∈ (t.dieAt d.toNat).resetGangs ↔ (∃ z, (g, z) ∈ s.gangs) ∧ ∃ c ∈ s.boundCores g, dieOf c = d.toNat) ∧
        ∀ g ∈ (t.dieAt d.toNat).resetGangs, ∀ c ∈ s.gangCores g, ∃ h ∈ t.signals, h.core = c ∧ h.op = 0) ∧
      (x.resetting = some 1 → (∃ g ∈ x.resetGangs, ∃ c ∈ s.boundCores g, (∃ h ∈ s.signals, h.core = c) ∨ (s.coreAt c).iris = .stopping) →
        exec (.warmReset d) s = .next s) ∧
      (x.resetting = some 4 → Reaches (exec (.warmReset d) s) fun t => (t.dieAt d.toNat).resetting = some 5 ∧
        ∀ g ∈ x.resetGangs, ∀ p ∈ t.gangs, p.1 ≠ g) ∧
      (x.resetting = some 5 → (s.others.map (·.1)).Nodup →
        (∀ o ∈ x.slots.toList, ∀ e l, o = some e → e.launch = some l → ∃ g ∈ s.gangs, g.2.launch = l) → Reaches (exec (.warmReset d) s) fun t => (t.dieAt d.toNat).resetting = some 6 ∧
        (t.dieAt d.toNat).resetTime = s.time ∧ (∀ c, dieOf c ≠ d.toNat → t.coreAt c = s.coreAt c) ∧
        (∀ l, t.mem.read l = if isPhys l = false ∧ dieOfLoc l = d.toNat then 0 else s.mem.read l) ∧
        (s.image = none → ∀ c, dieOf c = d.toNat → t.coreAt c = Core.reset)) ∧
      (∀ n, x.resetting = some n → 6 ≤ n →
        (s.allReady d.toNat = false → exec (.warmReset d) s = .next s) ∧
        (s.allReady d.toNat = true → Reaches (exec (.warmReset d) s) fun t => (t.dieAt d.toNat).resetting = none ∧
          (t.dieAt x.resetBy.1).wrst.getLsbD 62 = false ∧ t.mem = s.mem)))
end

