-- ==== Sys2Proof/Laws/State.lean ====
section
/-!
SUPPORT. What the updates of the state leave as it was: one lemma per field per update, and what they put in the field they change.
Generated from the fields of Machine/State.lean.
-/
namespace Sys2Proof.Machine

/-! ### The context in focus -/
@[simp] theorem State.updCtx_ctx (s : State) (f : Ctx → Ctx) : (s.updCtx f).core.ctx = f s.core.ctx := rfl
@[simp] theorem State.updCtx_core_rest (s : State) (f : Ctx → Ctx) : (s.updCtx f).core.rest = s.core.rest := rfl
@[simp] theorem State.updCtx_core_upcall (s : State) (f : Ctx → Ctx) : (s.updCtx f).core.upcall = s.core.upcall := rfl
@[simp] theorem State.updCtx_core_evq (s : State) (f : Ctx → Ctx) : (s.updCtx f).core.evq = s.core.evq := rfl
@[simp] theorem State.updCtx_core_seq (s : State) (f : Ctx → Ctx) : (s.updCtx f).core.seq = s.core.seq := rfl
@[simp] theorem State.updCtx_core_pushed (s : State) (f : Ctx → Ctx) : (s.updCtx f).core.pushed = s.core.pushed := rfl
@[simp] theorem State.updCtx_core_queues (s : State) (f : Ctx → Ctx) : (s.updCtx f).core.queues = s.core.queues := rfl
@[simp] theorem State.updCtx_core_mirhit (s : State) (f : Ctx → Ctx) : (s.updCtx f).core.mirhit = s.core.mirhit := rfl
@[simp] theorem State.updCtx_core_mirmiss (s : State) (f : Ctx → Ctx) : (s.updCtx f).core.mirmiss = s.core.mirmiss := rfl
@[simp] theorem State.updCtx_core_cseq (s : State) (f : Ctx → Ctx) : (s.updCtx f).core.cseq = s.core.cseq := rfl
@[simp] theorem State.updCtx_core_sb (s : State) (f : Ctx → Ctx) : (s.updCtx f).core.sb = s.core.sb := rfl
@[simp] theorem State.updCtx_core_sbCount (s : State) (f : Ctx → Ctx) : (s.updCtx f).core.sbCount = s.core.sbCount := rfl
@[simp] theorem State.updCtx_core_image (s : State) (f : Ctx → Ctx) : (s.updCtx f).core.image = s.core.image := rfl
@[simp] theorem State.updCtx_core_held (s : State) (f : Ctx → Ctx) : (s.updCtx f).core.held = s.core.held := rfl
@[simp] theorem State.updCtx_core_taskq (s : State) (f : Ctx → Ctx) : (s.updCtx f).core.taskq = s.core.taskq := rfl
@[simp] theorem State.updCtx_core_rings (s : State) (f : Ctx → Ctx) : (s.updCtx f).core.rings = s.core.rings := rfl
@[simp] theorem State.updCtx_core_arrC (s : State) (f : Ctx → Ctx) : (s.updCtx f).core.arrC = s.core.arrC := rfl
@[simp] theorem State.updCtx_core_arrG (s : State) (f : Ctx → Ctx) : (s.updCtx f).core.arrG = s.core.arrG := rfl
@[simp] theorem State.updCtx_core_contrib (s : State) (f : Ctx → Ctx) : (s.updCtx f).core.contrib = s.core.contrib := rfl
@[simp] theorem State.updCtx_core_victims (s : State) (f : Ctx → Ctx) : (s.updCtx f).core.victims = s.core.victims := rfl
@[simp] theorem State.updCtx_core_iris (s : State) (f : Ctx → Ctx) : (s.updCtx f).core.iris = s.core.iris := rfl
@[simp] theorem State.updCtx_core_snap (s : State) (f : Ctx → Ctx) : (s.updCtx f).core.snap = s.core.snap := rfl
@[simp] theorem State.updCtx_core_trig (s : State) (f : Ctx → Ctx) : (s.updCtx f).core.trig = s.core.trig := rfl
@[simp] theorem State.updCtx_core_ttime (s : State) (f : Ctx → Ctx) : (s.updCtx f).core.ttime = s.core.ttime := rfl
@[simp] theorem State.updCtx_core_msgs (s : State) (f : Ctx → Ctx) : (s.updCtx f).core.msgs = s.core.msgs := rfl
@[simp] theorem State.updCtx_core_msgr (s : State) (f : Ctx → Ctx) : (s.updCtx f).core.msgr = s.core.msgr := rfl
@[simp] theorem State.updCtx_core_haltAt (s : State) (f : Ctx → Ctx) : (s.updCtx f).core.haltAt = s.core.haltAt := rfl
@[simp] theorem State.updCtx_core_inbox (s : State) (f : Ctx → Ctx) : (s.updCtx f).core.inbox = s.core.inbox := rfl
@[simp] theorem State.updCtx_core_notices (s : State) (f : Ctx → Ctx) : (s.updCtx f).core.notices = s.core.notices := rfl
@[simp] theorem State.updCtx_core_lnctl (s : State) (f : Ctx → Ctx) : (s.updCtx f).core.lnctl = s.core.lnctl := rfl
@[simp] theorem State.updCtx_core_lens (s : State) (f : Ctx → Ctx) : (s.updCtx f).core.lens = s.core.lens := rfl
@[simp] theorem State.updCtx_core_lensOver (s : State) (f : Ctx → Ctx) : (s.updCtx f).core.lensOver = s.core.lensOver := rfl
@[simp] theorem State.updCtx_core_ringTags (s : State) (f : Ctx → Ctx) : (s.updCtx f).core.ringTags = s.core.ringTags := rfl
@[simp] theorem State.updCtx_core_watch (s : State) (f : Ctx → Ctx) : (s.updCtx f).core.watch = s.core.watch := rfl
@[simp] theorem State.updCtx_core_wprec (s : State) (f : Ctx → Ctx) : (s.updCtx f).core.wprec = s.core.wprec := rfl
@[simp] theorem State.updCtx_core_wslice (s : State) (f : Ctx → Ctx) : (s.updCtx f).core.wslice = s.core.wslice := rfl
@[simp] theorem State.updCtx_core_preempt (s : State) (f : Ctx → Ctx) : (s.updCtx f).core.preempt = s.core.preempt := rfl
@[simp] theorem State.updCtx_core_recq (s : State) (f : Ctx → Ctx) : (s.updCtx f).core.recq = s.core.recq := rfl
@[simp] theorem State.updCtx_core_waiting (s : State) (f : Ctx → Ctx) : (s.updCtx f).core.waiting = s.core.waiting := rfl
@[simp] theorem State.updCtx_core_firm (s : State) (f : Ctx → Ctx) : (s.updCtx f).core.firm = s.core.firm := rfl
@[simp] theorem State.updCtx_core_parks (s : State) (f : Ctx → Ctx) : (s.updCtx f).core.parks = s.core.parks := rfl
@[simp] theorem State.updCtx_core_pendUp (s : State) (f : Ctx → Ctx) : (s.updCtx f).core.pendUp = s.core.pendUp := rfl
@[simp] theorem State.updCtx_me (s : State) (f : Ctx → Ctx) : (s.updCtx f).me = s.me := rfl
@[simp] theorem State.updCtx_others (s : State) (f : Ctx → Ctx) : (s.updCtx f).others = s.others := rfl
@[simp] theorem State.updCtx_clusters (s : State) (f : Ctx → Ctx) : (s.updCtx f).clusters = s.clusters := rfl
@[simp] theorem State.updCtx_prisms (s : State) (f : Ctx → Ctx) : (s.updCtx f).prisms = s.prisms := rfl
@[simp] theorem State.updCtx_dies (s : State) (f : Ctx → Ctx) : (s.updCtx f).dies = s.dies := rfl
@[simp] theorem State.updCtx_agenda (s : State) (f : Ctx → Ctx) : (s.updCtx f).agenda = s.agenda := rfl
@[simp] theorem State.updCtx_fv (s : State) (f : Ctx → Ctx) : (s.updCtx f).fv = s.fv := rfl
@[simp] theorem State.updCtx_time (s : State) (f : Ctx → Ctx) : (s.updCtx f).time = s.time := rfl
@[simp] theorem State.updCtx_mem (s : State) (f : Ctx → Ctx) : (s.updCtx f).mem = s.mem := rfl
@[simp] theorem State.updCtx_dirty (s : State) (f : Ctx → Ctx) : (s.updCtx f).dirty = s.dirty := rfl
@[simp] theorem State.updCtx_poison (s : State) (f : Ctx → Ctx) : (s.updCtx f).poison = s.poison := rfl
@[simp] theorem State.updCtx_stale (s : State) (f : Ctx → Ctx) : (s.updCtx f).stale = s.stale := rfl
@[simp] theorem State.updCtx_wts (s : State) (f : Ctx → Ctx) : (s.updCtx f).wts = s.wts := rfl
@[simp] theorem State.updCtx_reds (s : State) (f : Ctx → Ctx) : (s.updCtx f).reds = s.reds := rfl
@[simp] theorem State.updCtx_signals (s : State) (f : Ctx → Ctx) : (s.updCtx f).signals = s.signals := rfl
@[simp] theorem State.updCtx_flips (s : State) (f : Ctx → Ctx) : (s.updCtx f).flips = s.flips := rfl
@[simp] theorem State.updCtx_refused (s : State) (f : Ctx → Ctx) : (s.updCtx f).refused = s.refused := rfl
@[simp] theorem State.updCtx_starts (s : State) (f : Ctx → Ctx) : (s.updCtx f).starts = s.starts := rfl
@[simp] theorem State.updCtx_launches (s : State) (f : Ctx → Ctx) : (s.updCtx f).launches = s.launches := rfl
@[simp] theorem State.updCtx_accepted (s : State) (f : Ctx → Ctx) : (s.updCtx f).accepted = s.accepted := rfl
@[simp] theorem State.updCtx_gangs (s : State) (f : Ctx → Ctx) : (s.updCtx f).gangs = s.gangs := rfl
@[simp] theorem State.updCtx_susp (s : State) (f : Ctx → Ctx) : (s.updCtx f).susp = s.susp := rfl
@[simp] theorem State.updCtx_suspClusters (s : State) (f : Ctx → Ctx) : (s.updCtx f).suspClusters = s.suspClusters := rfl
@[simp] theorem State.updCtx_decs (s : State) (f : Ctx → Ctx) : (s.updCtx f).decs = s.decs := rfl
@[simp] theorem State.updCtx_joined (s : State) (f : Ctx → Ctx) : (s.updCtx f).joined = s.joined := rfl
@[simp] theorem State.updCtx_net (s : State) (f : Ctx → Ctx) : (s.updCtx f).net = s.net := rfl
@[simp] theorem State.updCtx_acks (s : State) (f : Ctx → Ctx) : (s.updCtx f).acks = s.acks := rfl
@[simp] theorem State.updCtx_cqs (s : State) (f : Ctx → Ctx) : (s.updCtx f).cqs = s.cqs := rfl
@[simp] theorem State.updCtx_agei (s : State) (f : Ctx → Ctx) : (s.updCtx f).agei = s.agei := rfl
@[simp] theorem State.updCtx_gcmap (s : State) (f : Ctx → Ctx) : (s.updCtx f).gcmap = s.gcmap := rfl
@[simp] theorem State.updCtx_gsqmap (s : State) (f : Ctx → Ctx) : (s.updCtx f).gsqmap = s.gsqmap := rfl
@[simp] theorem State.updCtx_mgmt (s : State) (f : Ctx → Ctx) : (s.updCtx f).mgmt = s.mgmt := rfl
@[simp] theorem State.updCtx_idpk (s : State) (f : Ctx → Ctx) : (s.updCtx f).idpk = s.idpk := rfl
@[simp] theorem State.updCtx_boothash (s : State) (f : Ctx → Ctx) : (s.updCtx f).boothash = s.boothash := rfl
@[simp] theorem State.updCtx_bstat (s : State) (f : Ctx → Ctx) : (s.updCtx f).bstat = s.bstat := rfl
@[simp] theorem State.updCtx_node (s : State) (f : Ctx → Ctx) : (s.updCtx f).node = s.node := rfl
@[simp] theorem State.updCtx_flash (s : State) (f : Ctx → Ctx) : (s.updCtx f).flash = s.flash := rfl
@[simp] theorem State.updCtx_booted (s : State) (f : Ctx → Ctx) : (s.updCtx f).booted = s.booted := rfl
@[simp] theorem State.updCtx_image (s : State) (f : Ctx → Ctx) : (s.updCtx f).image = s.image := rfl
@[simp] theorem State.updCtx_released (s : State) (f : Ctx → Ctx) : (s.updCtx f).released = s.released := rfl
@[simp] theorem State.updCtx_attq (s : State) (f : Ctx → Ctx) : (s.updCtx f).attq = s.attq := rfl
@[simp] theorem State.updCtx_reports (s : State) (f : Ctx → Ctx) : (s.updCtx f).reports = s.reports := rfl

/-! ### A die, a cluster, a Prism, a free value -/

@[simp] theorem State.updDie_me (s : State) (d : Nat) (f : Die → Die) : (s.updDie d f).me = s.me := rfl
@[simp] theorem State.updDie_core (s : State) (d : Nat) (f : Die → Die) : (s.updDie d f).core = s.core := rfl
@[simp] theorem State.updDie_others (s : State) (d : Nat) (f : Die → Die) : (s.updDie d f).others = s.others := rfl
@[simp] theorem State.updDie_clusters (s : State) (d : Nat) (f : Die → Die) : (s.updDie d f).clusters = s.clusters := rfl
@[simp] theorem State.updDie_prisms (s : State) (d : Nat) (f : Die → Die) : (s.updDie d f).prisms = s.prisms := rfl
@[simp] theorem State.updDie_agenda (s : State) (d : Nat) (f : Die → Die) : (s.updDie d f).agenda = s.agenda := rfl
@[simp] theorem State.updDie_fv (s : State) (d : Nat) (f : Die → Die) : (s.updDie d f).fv = s.fv := rfl
@[simp] theorem State.updDie_time (s : State) (d : Nat) (f : Die → Die) : (s.updDie d f).time = s.time := rfl
@[simp] theorem State.updDie_mem (s : State) (d : Nat) (f : Die → Die) : (s.updDie d f).mem = s.mem := rfl
@[simp] theorem State.updDie_dirty (s : State) (d : Nat) (f : Die → Die) : (s.updDie d f).dirty = s.dirty := rfl
@[simp] theorem State.updDie_poison (s : State) (d : Nat) (f : Die → Die) : (s.updDie d f).poison = s.poison := rfl
@[simp] theorem State.updDie_stale (s : State) (d : Nat) (f : Die → Die) : (s.updDie d f).stale = s.stale := rfl
@[simp] theorem State.updDie_wts (s : State) (d : Nat) (f : Die → Die) : (s.updDie d f).wts = s.wts := rfl
@[simp] theorem State.updDie_reds (s : State) (d : Nat) (f : Die → Die) : (s.updDie d f).reds = s.reds := rfl
@[simp] theorem State.updDie_signals (s : State) (d : Nat) (f : Die → Die) : (s.updDie d f).signals = s.signals := rfl
@[simp] theorem State.updDie_flips (s : State) (d : Nat) (f : Die → Die) : (s.updDie d f).flips = s.flips := rfl
@[simp] theorem State.updDie_refused (s : State) (d : Nat) (f : Die → Die) : (s.updDie d f).refused = s.refused := rfl
@[simp] theorem State.updDie_starts (s : State) (d : Nat) (f : Die → Die) : (s.updDie d f).starts = s.starts := rfl
@[simp] theorem State.updDie_launches (s : State) (d : Nat) (f : Die → Die) : (s.updDie d f).launches = s.launches := rfl
@[simp] theorem State.updDie_accepted (s : State) (d : Nat) (f : Die → Die) : (s.updDie d f).accepted = s.accepted := rfl
@[simp] theorem State.updDie_gangs (s : State) (d : Nat) (f : Die → Die) : (s.updDie d f).gangs = s.gangs := rfl
@[simp] theorem State.updDie_susp (s : State) (d : Nat) (f : Die → Die) : (s.updDie d f).susp = s.susp := rfl
@[simp] theorem State.updDie_suspClusters (s : State) (d : Nat) (f : Die → Die) : (s.updDie d f).suspClusters = s.suspClusters := rfl
@[simp] theorem State.updDie_decs (s : State) (d : Nat) (f : Die → Die) : (s.updDie d f).decs = s.decs := rfl
@[simp] theorem State.updDie_joined (s : State) (d : Nat) (f : Die → Die) : (s.updDie d f).joined = s.joined := rfl
@[simp] theorem State.updDie_net (s : State) (d : Nat) (f : Die → Die) : (s.updDie d f).net = s.net := rfl
@[simp] theorem State.updDie_acks (s : State) (d : Nat) (f : Die → Die) : (s.updDie d f).acks = s.acks := rfl
@[simp] theorem State.updDie_cqs (s : State) (d : Nat) (f : Die → Die) : (s.updDie d f).cqs = s.cqs := rfl
@[simp] theorem State.updDie_agei (s : State) (d : Nat) (f : Die → Die) : (s.updDie d f).agei = s.agei := rfl
@[simp] theorem State.updDie_gcmap (s : State) (d : Nat) (f : Die → Die) : (s.updDie d f).gcmap = s.gcmap := rfl
@[simp] theorem State.updDie_gsqmap (s : State) (d : Nat) (f : Die → Die) : (s.updDie d f).gsqmap = s.gsqmap := rfl
@[simp] theorem State.updDie_mgmt (s : State) (d : Nat) (f : Die → Die) : (s.updDie d f).mgmt = s.mgmt := rfl
@[simp] theorem State.updDie_idpk (s : State) (d : Nat) (f : Die → Die) : (s.updDie d f).idpk = s.idpk := rfl
@[simp] theorem State.updDie_boothash (s : State) (d : Nat) (f : Die → Die) : (s.updDie d f).boothash = s.boothash := rfl
@[simp] theorem State.updDie_bstat (s : State) (d : Nat) (f : Die → Die) : (s.updDie d f).bstat = s.bstat := rfl
@[simp] theorem State.updDie_node (s : State) (d : Nat) (f : Die → Die) : (s.updDie d f).node = s.node := rfl
@[simp] theorem State.updDie_flash (s : State) (d : Nat) (f : Die → Die) : (s.updDie d f).flash = s.flash := rfl
@[simp] theorem State.updDie_booted (s : State) (d : Nat) (f : Die → Die) : (s.updDie d f).booted = s.booted := rfl
@[simp] theorem State.updDie_image (s : State) (d : Nat) (f : Die → Die) : (s.updDie d f).image = s.image := rfl
@[simp] theorem State.updDie_released (s : State) (d : Nat) (f : Die → Die) : (s.updDie d f).released = s.released := rfl
@[simp] theorem State.updDie_attq (s : State) (d : Nat) (f : Die → Die) : (s.updDie d f).attq = s.attq := rfl
@[simp] theorem State.updDie_reports (s : State) (d : Nat) (f : Die → Die) : (s.updDie d f).reports = s.reports := rfl
@[simp] theorem State.updCluster_me (s : State) (k : Nat) (f : Cluster → Cluster) : (s.updCluster k f).me = s.me := rfl
@[simp] theorem State.updCluster_core (s : State) (k : Nat) (f : Cluster → Cluster) : (s.updCluster k f).core = s.core := rfl
@[simp] theorem State.updCluster_others (s : State) (k : Nat) (f : Cluster → Cluster) : (s.updCluster k f).others = s.others := rfl
@[simp] theorem State.updCluster_prisms (s : State) (k : Nat) (f : Cluster → Cluster) : (s.updCluster k f).prisms = s.prisms := rfl
@[simp] theorem State.updCluster_dies (s : State) (k : Nat) (f : Cluster → Cluster) : (s.updCluster k f).dies = s.dies := rfl
@[simp] theorem State.updCluster_agenda (s : State) (k : Nat) (f : Cluster → Cluster) : (s.updCluster k f).agenda = s.agenda := rfl
@[simp] theorem State.updCluster_fv (s : State) (k : Nat) (f : Cluster → Cluster) : (s.updCluster k f).fv = s.fv := rfl
@[simp] theorem State.updCluster_time (s : State) (k : Nat) (f : Cluster → Cluster) : (s.updCluster k f).time = s.time := rfl
@[simp] theorem State.updCluster_mem (s : State) (k : Nat) (f : Cluster → Cluster) : (s.updCluster k f).mem = s.mem := rfl
@[simp] theorem State.updCluster_dirty (s : State) (k : Nat) (f : Cluster → Cluster) : (s.updCluster k f).dirty = s.dirty := rfl
@[simp] theorem State.updCluster_poison (s : State) (k : Nat) (f : Cluster → Cluster) : (s.updCluster k f).poison = s.poison := rfl
@[simp] theorem State.updCluster_stale (s : State) (k : Nat) (f : Cluster → Cluster) : (s.updCluster k f).stale = s.stale := rfl
@[simp] theorem State.updCluster_wts (s : State) (k : Nat) (f : Cluster → Cluster) : (s.updCluster k f).wts = s.wts := rfl
@[simp] theorem State.updCluster_reds (s : State) (k : Nat) (f : Cluster → Cluster) : (s.updCluster k f).reds = s.reds := rfl
@[simp] theorem State.updCluster_signals (s : State) (k : Nat) (f : Cluster → Cluster) : (s.updCluster k f).signals = s.signals := rfl
@[simp] theorem State.updCluster_flips (s : State) (k : Nat) (f : Cluster → Cluster) : (s.updCluster k f).flips = s.flips := rfl
@[simp] theorem State.updCluster_refused (s : State) (k : Nat) (f : Cluster → Cluster) : (s.updCluster k f).refused = s.refused := rfl
@[simp] theorem State.updCluster_starts (s : State) (k : Nat) (f : Cluster → Cluster) : (s.updCluster k f).starts = s.starts := rfl
@[simp] theorem State.updCluster_launches (s : State) (k : Nat) (f : Cluster → Cluster) : (s.updCluster k f).launches = s.launches := rfl
@[simp] theorem State.updCluster_accepted (s : State) (k : Nat) (f : Cluster → Cluster) : (s.updCluster k f).accepted = s.accepted := rfl
@[simp] theorem State.updCluster_gangs (s : State) (k : Nat) (f : Cluster → Cluster) : (s.updCluster k f).gangs = s.gangs := rfl
@[simp] theorem State.updCluster_susp (s : State) (k : Nat) (f : Cluster → Cluster) : (s.updCluster k f).susp = s.susp := rfl
@[simp] theorem State.updCluster_suspClusters (s : State) (k : Nat) (f : Cluster → Cluster) : (s.updCluster k f).suspClusters = s.suspClusters := rfl
@[simp] theorem State.updCluster_decs (s : State) (k : Nat) (f : Cluster → Cluster) : (s.updCluster k f).decs = s.decs := rfl
@[simp] theorem State.updCluster_joined (s : State) (k : Nat) (f : Cluster → Cluster) : (s.updCluster k f).joined = s.joined := rfl
@[simp] theorem State.updCluster_net (s : State) (k : Nat) (f : Cluster → Cluster) : (s.updCluster k f).net = s.net := rfl
@[simp] theorem State.updCluster_acks (s : State) (k : Nat) (f : Cluster → Cluster) : (s.updCluster k f).acks = s.acks := rfl
@[simp] theorem State.updCluster_cqs (s : State) (k : Nat) (f : Cluster → Cluster) : (s.updCluster k f).cqs = s.cqs := rfl
@[simp] theorem State.updCluster_agei (s : State) (k : Nat) (f : Cluster → Cluster) : (s.updCluster k f).agei = s.agei := rfl
@[simp] theorem State.updCluster_gcmap (s : State) (k : Nat) (f : Cluster → Cluster) : (s.updCluster k f).gcmap = s.gcmap := rfl
@[simp] theorem State.updCluster_gsqmap (s : State) (k : Nat) (f : Cluster → Cluster) : (s.updCluster k f).gsqmap = s.gsqmap := rfl
@[simp] theorem State.updCluster_mgmt (s : State) (k : Nat) (f : Cluster → Cluster) : (s.updCluster k f).mgmt = s.mgmt := rfl
@[simp] theorem State.updCluster_idpk (s : State) (k : Nat) (f : Cluster → Cluster) : (s.updCluster k f).idpk = s.idpk := rfl
@[simp] theorem State.updCluster_boothash (s : State) (k : Nat) (f : Cluster → Cluster) : (s.updCluster k f).boothash = s.boothash := rfl
@[simp] theorem State.updCluster_bstat (s : State) (k : Nat) (f : Cluster → Cluster) : (s.updCluster k f).bstat = s.bstat := rfl
@[simp] theorem State.updCluster_node (s : State) (k : Nat) (f : Cluster → Cluster) : (s.updCluster k f).node = s.node := rfl
@[simp] theorem State.updCluster_flash (s : State) (k : Nat) (f : Cluster → Cluster) : (s.updCluster k f).flash = s.flash := rfl
@[simp] theorem State.updCluster_booted (s : State) (k : Nat) (f : Cluster → Cluster) : (s.updCluster k f).booted = s.booted := rfl
@[simp] theorem State.updCluster_image (s : State) (k : Nat) (f : Cluster → Cluster) : (s.updCluster k f).image = s.image := rfl
@[simp] theorem State.updCluster_released (s : State) (k : Nat) (f : Cluster → Cluster) : (s.updCluster k f).released = s.released := rfl
@[simp] theorem State.updCluster_attq (s : State) (k : Nat) (f : Cluster → Cluster) : (s.updCluster k f).attq = s.attq := rfl
@[simp] theorem State.updCluster_reports (s : State) (k : Nat) (f : Cluster → Cluster) : (s.updCluster k f).reports = s.reports := rfl
@[simp] theorem State.updPrism_me (s : State) (p : Nat) (f : Prism → Prism) : (s.updPrism p f).me = s.me := rfl
@[simp] theorem State.updPrism_core (s : State) (p : Nat) (f : Prism → Prism) : (s.updPrism p f).core = s.core := rfl
@[simp] theorem State.updPrism_others (s : State) (p : Nat) (f : Prism → Prism) : (s.updPrism p f).others = s.others := rfl
@[simp] theorem State.updPrism_clusters (s : State) (p : Nat) (f : Prism → Prism) : (s.updPrism p f).clusters = s.clusters := rfl
@[simp] theorem State.updPrism_dies (s : State) (p : Nat) (f : Prism → Prism) : (s.updPrism p f).dies = s.dies := rfl
@[simp] theorem State.updPrism_agenda (s : State) (p : Nat) (f : Prism → Prism) : (s.updPrism p f).agenda = s.agenda := rfl
@[simp] theorem State.updPrism_fv (s : State) (p : Nat) (f : Prism → Prism) : (s.updPrism p f).fv = s.fv := rfl
@[simp] theorem State.updPrism_time (s : State) (p : Nat) (f : Prism → Prism) : (s.updPrism p f).time = s.time := rfl
@[simp] theorem State.updPrism_mem (s : State) (p : Nat) (f : Prism → Prism) : (s.updPrism p f).mem = s.mem := rfl
@[simp] theorem State.updPrism_dirty (s : State) (p : Nat) (f : Prism → Prism) : (s.updPrism p f).dirty = s.dirty := rfl
@[simp] theorem State.updPrism_poison (s : State) (p : Nat) (f : Prism → Prism) : (s.updPrism p f).poison = s.poison := rfl
@[simp] theorem State.updPrism_stale (s : State) (p : Nat) (f : Prism → Prism) : (s.updPrism p f).stale = s.stale := rfl
@[simp] theorem State.updPrism_wts (s : State) (p : Nat) (f : Prism → Prism) : (s.updPrism p f).wts = s.wts := rfl
@[simp] theorem State.updPrism_reds (s : State) (p : Nat) (f : Prism → Prism) : (s.updPrism p f).reds = s.reds := rfl
@[simp] theorem State.updPrism_signals (s : State) (p : Nat) (f : Prism → Prism) : (s.updPrism p f).signals = s.signals := rfl
@[simp] theorem State.updPrism_flips (s : State) (p : Nat) (f : Prism → Prism) : (s.updPrism p f).flips = s.flips := rfl
@[simp] theorem State.updPrism_refused (s : State) (p : Nat) (f : Prism → Prism) : (s.updPrism p f).refused = s.refused := rfl
@[simp] theorem State.updPrism_starts (s : State) (p : Nat) (f : Prism → Prism) : (s.updPrism p f).starts = s.starts := rfl
@[simp] theorem State.updPrism_launches (s : State) (p : Nat) (f : Prism → Prism) : (s.updPrism p f).launches = s.launches := rfl
@[simp] theorem State.updPrism_accepted (s : State) (p : Nat) (f : Prism → Prism) : (s.updPrism p f).accepted = s.accepted := rfl
@[simp] theorem State.updPrism_gangs (s : State) (p : Nat) (f : Prism → Prism) : (s.updPrism p f).gangs = s.gangs := rfl
@[simp] theorem State.updPrism_susp (s : State) (p : Nat) (f : Prism → Prism) : (s.updPrism p f).susp = s.susp := rfl
@[simp] theorem State.updPrism_suspClusters (s : State) (p : Nat) (f : Prism → Prism) : (s.updPrism p f).suspClusters = s.suspClusters := rfl
@[simp] theorem State.updPrism_decs (s : State) (p : Nat) (f : Prism → Prism) : (s.updPrism p f).decs = s.decs := rfl
@[simp] theorem State.updPrism_joined (s : State) (p : Nat) (f : Prism → Prism) : (s.updPrism p f).joined = s.joined := rfl
@[simp] theorem State.updPrism_net (s : State) (p : Nat) (f : Prism → Prism) : (s.updPrism p f).net = s.net := rfl
@[simp] theorem State.updPrism_acks (s : State) (p : Nat) (f : Prism → Prism) : (s.updPrism p f).acks = s.acks := rfl
@[simp] theorem State.updPrism_cqs (s : State) (p : Nat) (f : Prism → Prism) : (s.updPrism p f).cqs = s.cqs := rfl
@[simp] theorem State.updPrism_agei (s : State) (p : Nat) (f : Prism → Prism) : (s.updPrism p f).agei = s.agei := rfl
@[simp] theorem State.updPrism_gcmap (s : State) (p : Nat) (f : Prism → Prism) : (s.updPrism p f).gcmap = s.gcmap := rfl
@[simp] theorem State.updPrism_gsqmap (s : State) (p : Nat) (f : Prism → Prism) : (s.updPrism p f).gsqmap = s.gsqmap := rfl
@[simp] theorem State.updPrism_mgmt (s : State) (p : Nat) (f : Prism → Prism) : (s.updPrism p f).mgmt = s.mgmt := rfl
@[simp] theorem State.updPrism_idpk (s : State) (p : Nat) (f : Prism → Prism) : (s.updPrism p f).idpk = s.idpk := rfl
@[simp] theorem State.updPrism_boothash (s : State) (p : Nat) (f : Prism → Prism) : (s.updPrism p f).boothash = s.boothash := rfl
@[simp] theorem State.updPrism_bstat (s : State) (p : Nat) (f : Prism → Prism) : (s.updPrism p f).bstat = s.bstat := rfl
@[simp] theorem State.updPrism_node (s : State) (p : Nat) (f : Prism → Prism) : (s.updPrism p f).node = s.node := rfl
@[simp] theorem State.updPrism_flash (s : State) (p : Nat) (f : Prism → Prism) : (s.updPrism p f).flash = s.flash := rfl
@[simp] theorem State.updPrism_booted (s : State) (p : Nat) (f : Prism → Prism) : (s.updPrism p f).booted = s.booted := rfl
@[simp] theorem State.updPrism_image (s : State) (p : Nat) (f : Prism → Prism) : (s.updPrism p f).image = s.image := rfl
@[simp] theorem State.updPrism_released (s : State) (p : Nat) (f : Prism → Prism) : (s.updPrism p f).released = s.released := rfl
@[simp] theorem State.updPrism_attq (s : State) (p : Nat) (f : Prism → Prism) : (s.updPrism p f).attq = s.attq := rfl
@[simp] theorem State.updPrism_reports (s : State) (p : Nat) (f : Prism → Prism) : (s.updPrism p f).reports = s.reports := rfl
@[simp] theorem State.useFree_fv (s : State) : s.useFree.fv = s.fv + 1 := rfl
@[simp] theorem State.useFree_me (s : State) : s.useFree.me = s.me := rfl
@[simp] theorem State.useFree_core (s : State) : s.useFree.core = s.core := rfl
@[simp] theorem State.useFree_others (s : State) : s.useFree.others = s.others := rfl
@[simp] theorem State.useFree_clusters (s : State) : s.useFree.clusters = s.clusters := rfl
@[simp] theorem State.useFree_prisms (s : State) : s.useFree.prisms = s.prisms := rfl
@[simp] theorem State.useFree_dies (s : State) : s.useFree.dies = s.dies := rfl
@[simp] theorem State.useFree_agenda (s : State) : s.useFree.agenda = s.agenda := rfl
@[simp] theorem State.useFree_time (s : State) : s.useFree.time = s.time := rfl
@[simp] theorem State.useFree_mem (s : State) : s.useFree.mem = s.mem := rfl
@[simp] theorem State.useFree_dirty (s : State) : s.useFree.dirty = s.dirty := rfl
@[simp] theorem State.useFree_poison (s : State) : s.useFree.poison = s.poison := rfl
@[simp] theorem State.useFree_stale (s : State) : s.useFree.stale = s.stale := rfl
@[simp] theorem State.useFree_wts (s : State) : s.useFree.wts = s.wts := rfl
@[simp] theorem State.useFree_reds (s : State) : s.useFree.reds = s.reds := rfl
@[simp] theorem State.useFree_signals (s : State) : s.useFree.signals = s.signals := rfl
@[simp] theorem State.useFree_flips (s : State) : s.useFree.flips = s.flips := rfl
@[simp] theorem State.useFree_refused (s : State) : s.useFree.refused = s.refused := rfl
@[simp] theorem State.useFree_starts (s : State) : s.useFree.starts = s.starts := rfl
@[simp] theorem State.useFree_launches (s : State) : s.useFree.launches = s.launches := rfl
@[simp] theorem State.useFree_accepted (s : State) : s.useFree.accepted = s.accepted := rfl
@[simp] theorem State.useFree_gangs (s : State) : s.useFree.gangs = s.gangs := rfl
@[simp] theorem State.useFree_susp (s : State) : s.useFree.susp = s.susp := rfl
@[simp] theorem State.useFree_suspClusters (s : State) : s.useFree.suspClusters = s.suspClusters := rfl
@[simp] theorem State.useFree_decs (s : State) : s.useFree.decs = s.decs := rfl
@[simp] theorem State.useFree_joined (s : State) : s.useFree.joined = s.joined := rfl
@[simp] theorem State.useFree_net (s : State) : s.useFree.net = s.net := rfl
@[simp] theorem State.useFree_acks (s : State) : s.useFree.acks = s.acks := rfl
@[simp] theorem State.useFree_cqs (s : State) : s.useFree.cqs = s.cqs := rfl
@[simp] theorem State.useFree_agei (s : State) : s.useFree.agei = s.agei := rfl
@[simp] theorem State.useFree_gcmap (s : State) : s.useFree.gcmap = s.gcmap := rfl
@[simp] theorem State.useFree_gsqmap (s : State) : s.useFree.gsqmap = s.gsqmap := rfl
@[simp] theorem State.useFree_mgmt (s : State) : s.useFree.mgmt = s.mgmt := rfl
@[simp] theorem State.useFree_idpk (s : State) : s.useFree.idpk = s.idpk := rfl
@[simp] theorem State.useFree_boothash (s : State) : s.useFree.boothash = s.boothash := rfl
@[simp] theorem State.useFree_bstat (s : State) : s.useFree.bstat = s.bstat := rfl
@[simp] theorem State.useFree_node (s : State) : s.useFree.node = s.node := rfl
@[simp] theorem State.useFree_flash (s : State) : s.useFree.flash = s.flash := rfl
@[simp] theorem State.useFree_booted (s : State) : s.useFree.booted = s.booted := rfl
@[simp] theorem State.useFree_image (s : State) : s.useFree.image = s.image := rfl
@[simp] theorem State.useFree_released (s : State) : s.useFree.released = s.released := rfl
@[simp] theorem State.useFree_attq (s : State) : s.useFree.attq = s.attq := rfl
@[simp] theorem State.useFree_reports (s : State) : s.useFree.reports = s.reports := rfl

/-- A noted signal (R315) shows in the clusters alone. -/
@[simp] theorem State.noteSignal_me (s : State) (k i : Nat) : (s.noteSignal k i).me = s.me := by unfold State.noteSignal; split <;> rfl
@[simp] theorem State.noteSignal_core (s : State) (k i : Nat) : (s.noteSignal k i).core = s.core := by unfold State.noteSignal; split <;> rfl
@[simp] theorem State.noteSignal_others (s : State) (k i : Nat) : (s.noteSignal k i).others = s.others := by unfold State.noteSignal; split <;> rfl
@[simp] theorem State.noteSignal_prisms (s : State) (k i : Nat) : (s.noteSignal k i).prisms = s.prisms := by unfold State.noteSignal; split <;> rfl
@[simp] theorem State.noteSignal_dies (s : State) (k i : Nat) : (s.noteSignal k i).dies = s.dies := by unfold State.noteSignal; split <;> rfl
@[simp] theorem State.noteSignal_agenda (s : State) (k i : Nat) : (s.noteSignal k i).agenda = s.agenda := by unfold State.noteSignal; split <;> rfl
@[simp] theorem State.noteSignal_fv (s : State) (k i : Nat) : (s.noteSignal k i).fv = s.fv := by unfold State.noteSignal; split <;> rfl
@[simp] theorem State.noteSignal_time (s : State) (k i : Nat) : (s.noteSignal k i).time = s.time := by unfold State.noteSignal; split <;> rfl
@[simp] theorem State.noteSignal_mem (s : State) (k i : Nat) : (s.noteSignal k i).mem = s.mem := by unfold State.noteSignal; split <;> rfl
@[simp] theorem State.noteSignal_dirty (s : State) (k i : Nat) : (s.noteSignal k i).dirty = s.dirty := by unfold State.noteSignal; split <;> rfl
@[simp] theorem State.noteSignal_poison (s : State) (k i : Nat) : (s.noteSignal k i).poison = s.poison := by unfold State.noteSignal; split <;> rfl
@[simp] theorem State.noteSignal_stale (s : State) (k i : Nat) : (s.noteSignal k i).stale = s.stale := by unfold State.noteSignal; split <;> rfl
@[simp] theorem State.noteSignal_wts (s : State) (k i : Nat) : (s.noteSignal k i).wts = s.wts := by unfold State.noteSignal; split <;> rfl
@[simp] theorem State.noteSignal_reds (s : State) (k i : Nat) : (s.noteSignal k i).reds = s.reds := by unfold State.noteSignal; split <;> rfl
@[simp] theorem State.noteSignal_signals (s : State) (k i : Nat) : (s.noteSignal k i).signals = s.signals := by unfold State.noteSignal; split <;> rfl
@[simp] theorem State.noteSignal_flips (s : State) (k i : Nat) : (s.noteSignal k i).flips = s.flips := by unfold State.noteSignal; split <;> rfl
@[simp] theorem State.noteSignal_refused (s : State) (k i : Nat) : (s.noteSignal k i).refused = s.refused := by unfold State.noteSignal; split <;> rfl
@[simp] theorem State.noteSignal_starts (s : State) (k i : Nat) : (s.noteSignal k i).starts = s.starts := by unfold State.noteSignal; split <;> rfl
@[simp] theorem State.noteSignal_launches (s : State) (k i : Nat) : (s.noteSignal k i).launches = s.launches := by unfold State.noteSignal; split <;> rfl
@[simp] theorem State.noteSignal_accepted (s : State) (k i : Nat) : (s.noteSignal k i).accepted = s.accepted := by unfold State.noteSignal; split <;> rfl
@[simp] theorem State.noteSignal_gangs (s : State) (k i : Nat) : (s.noteSignal k i).gangs = s.gangs := by unfold State.noteSignal; split <;> rfl
@[simp] theorem State.noteSignal_susp (s : State) (k i : Nat) : (s.noteSignal k i).susp = s.susp := by unfold State.noteSignal; split <;> rfl
@[simp] theorem State.noteSignal_suspClusters (s : State) (k i : Nat) : (s.noteSignal k i).suspClusters = s.suspClusters := by unfold State.noteSignal; split <;> rfl
@[simp] theorem State.noteSignal_decs (s : State) (k i : Nat) : (s.noteSignal k i).decs = s.decs := by unfold State.noteSignal; split <;> rfl
@[simp] theorem State.noteSignal_joined (s : State) (k i : Nat) : (s.noteSignal k i).joined = s.joined := by unfold State.noteSignal; split <;> rfl
@[simp] theorem State.noteSignal_net (s : State) (k i : Nat) : (s.noteSignal k i).net = s.net := by unfold State.noteSignal; split <;> rfl
@[simp] theorem State.noteSignal_acks (s : State) (k i : Nat) : (s.noteSignal k i).acks = s.acks := by unfold State.noteSignal; split <;> rfl
@[simp] theorem State.noteSignal_cqs (s : State) (k i : Nat) : (s.noteSignal k i).cqs = s.cqs := by unfold State.noteSignal; split <;> rfl
@[simp] theorem State.noteSignal_agei (s : State) (k i : Nat) : (s.noteSignal k i).agei = s.agei := by unfold State.noteSignal; split <;> rfl
@[simp] theorem State.noteSignal_gcmap (s : State) (k i : Nat) : (s.noteSignal k i).gcmap = s.gcmap := by unfold State.noteSignal; split <;> rfl
@[simp] theorem State.noteSignal_gsqmap (s : State) (k i : Nat) : (s.noteSignal k i).gsqmap = s.gsqmap := by unfold State.noteSignal; split <;> rfl
@[simp] theorem State.noteSignal_mgmt (s : State) (k i : Nat) : (s.noteSignal k i).mgmt = s.mgmt := by unfold State.noteSignal; split <;> rfl
@[simp] theorem State.noteSignal_idpk (s : State) (k i : Nat) : (s.noteSignal k i).idpk = s.idpk := by unfold State.noteSignal; split <;> rfl
@[simp] theorem State.noteSignal_boothash (s : State) (k i : Nat) : (s.noteSignal k i).boothash = s.boothash := by unfold State.noteSignal; split <;> rfl
@[simp] theorem State.noteSignal_bstat (s : State) (k i : Nat) : (s.noteSignal k i).bstat = s.bstat := by unfold State.noteSignal; split <;> rfl
@[simp] theorem State.noteSignal_node (s : State) (k i : Nat) : (s.noteSignal k i).node = s.node := by unfold State.noteSignal; split <;> rfl
@[simp] theorem State.noteSignal_flash (s : State) (k i : Nat) : (s.noteSignal k i).flash = s.flash := by unfold State.noteSignal; split <;> rfl
@[simp] theorem State.noteSignal_booted (s : State) (k i : Nat) : (s.noteSignal k i).booted = s.booted := by unfold State.noteSignal; split <;> rfl
@[simp] theorem State.noteSignal_image (s : State) (k i : Nat) : (s.noteSignal k i).image = s.image := by unfold State.noteSignal; split <;> rfl
@[simp] theorem State.noteSignal_released (s : State) (k i : Nat) : (s.noteSignal k i).released = s.released := by unfold State.noteSignal; split <;> rfl
@[simp] theorem State.noteSignal_attq (s : State) (k i : Nat) : (s.noteSignal k i).attq = s.attq := by unfold State.noteSignal; split <;> rfl
@[simp] theorem State.noteSignal_reports (s : State) (k i : Nat) : (s.noteSignal k i).reports = s.reports := by unfold State.noteSignal; split <;> rfl
@[simp] theorem State.coreSignal_me (s : State) (c i : Nat) : (s.coreSignal c i).me = s.me := State.noteSignal_me _ _ _
@[simp] theorem State.coreSignal_core (s : State) (c i : Nat) : (s.coreSignal c i).core = s.core := State.noteSignal_core _ _ _
@[simp] theorem State.coreSignal_others (s : State) (c i : Nat) : (s.coreSignal c i).others = s.others := State.noteSignal_others _ _ _
@[simp] theorem State.coreSignal_prisms (s : State) (c i : Nat) : (s.coreSignal c i).prisms = s.prisms := State.noteSignal_prisms _ _ _
@[simp] theorem State.coreSignal_dies (s : State) (c i : Nat) : (s.coreSignal c i).dies = s.dies := State.noteSignal_dies _ _ _
@[simp] theorem State.coreSignal_agenda (s : State) (c i : Nat) : (s.coreSignal c i).agenda = s.agenda := State.noteSignal_agenda _ _ _
@[simp] theorem State.coreSignal_fv (s : State) (c i : Nat) : (s.coreSignal c i).fv = s.fv := State.noteSignal_fv _ _ _
@[simp] theorem State.coreSignal_time (s : State) (c i : Nat) : (s.coreSignal c i).time = s.time := State.noteSignal_time _ _ _
@[simp] theorem State.coreSignal_mem (s : State) (c i : Nat) : (s.coreSignal c i).mem = s.mem := State.noteSignal_mem _ _ _
@[simp] theorem State.coreSignal_dirty (s : State) (c i : Nat) : (s.coreSignal c i).dirty = s.dirty := State.noteSignal_dirty _ _ _
@[simp] theorem State.coreSignal_poison (s : State) (c i : Nat) : (s.coreSignal c i).poison = s.poison := State.noteSignal_poison _ _ _
@[simp] theorem State.coreSignal_stale (s : State) (c i : Nat) : (s.coreSignal c i).stale = s.stale := State.noteSignal_stale _ _ _
@[simp] theorem State.coreSignal_wts (s : State) (c i : Nat) : (s.coreSignal c i).wts = s.wts := State.noteSignal_wts _ _ _
@[simp] theorem State.coreSignal_reds (s : State) (c i : Nat) : (s.coreSignal c i).reds = s.reds := State.noteSignal_reds _ _ _
@[simp] theorem State.coreSignal_signals (s : State) (c i : Nat) : (s.coreSignal c i).signals = s.signals := State.noteSignal_signals _ _ _
@[simp] theorem State.coreSignal_flips (s : State) (c i : Nat) : (s.coreSignal c i).flips = s.flips := State.noteSignal_flips _ _ _
@[simp] theorem State.coreSignal_refused (s : State) (c i : Nat) : (s.coreSignal c i).refused = s.refused := State.noteSignal_refused _ _ _
@[simp] theorem State.coreSignal_starts (s : State) (c i : Nat) : (s.coreSignal c i).starts = s.starts := State.noteSignal_starts _ _ _
@[simp] theorem State.coreSignal_launches (s : State) (c i : Nat) : (s.coreSignal c i).launches = s.launches := State.noteSignal_launches _ _ _
@[simp] theorem State.coreSignal_accepted (s : State) (c i : Nat) : (s.coreSignal c i).accepted = s.accepted := State.noteSignal_accepted _ _ _
@[simp] theorem State.coreSignal_gangs (s : State) (c i : Nat) : (s.coreSignal c i).gangs = s.gangs := State.noteSignal_gangs _ _ _
@[simp] theorem State.coreSignal_susp (s : State) (c i : Nat) : (s.coreSignal c i).susp = s.susp := State.noteSignal_susp _ _ _
@[simp] theorem State.coreSignal_suspClusters (s : State) (c i : Nat) : (s.coreSignal c i).suspClusters = s.suspClusters := State.noteSignal_suspClusters _ _ _
@[simp] theorem State.coreSignal_decs (s : State) (c i : Nat) : (s.coreSignal c i).decs = s.decs := State.noteSignal_decs _ _ _
@[simp] theorem State.coreSignal_joined (s : State) (c i : Nat) : (s.coreSignal c i).joined = s.joined := State.noteSignal_joined _ _ _
@[simp] theorem State.coreSignal_net (s : State) (c i : Nat) : (s.coreSignal c i).net = s.net := State.noteSignal_net _ _ _
@[simp] theorem State.coreSignal_acks (s : State) (c i : Nat) : (s.coreSignal c i).acks = s.acks := State.noteSignal_acks _ _ _
@[simp] theorem State.coreSignal_cqs (s : State) (c i : Nat) : (s.coreSignal c i).cqs = s.cqs := State.noteSignal_cqs _ _ _
@[simp] theorem State.coreSignal_agei (s : State) (c i : Nat) : (s.coreSignal c i).agei = s.agei := State.noteSignal_agei _ _ _
@[simp] theorem State.coreSignal_gcmap (s : State) (c i : Nat) : (s.coreSignal c i).gcmap = s.gcmap := State.noteSignal_gcmap _ _ _
@[simp] theorem State.coreSignal_gsqmap (s : State) (c i : Nat) : (s.coreSignal c i).gsqmap = s.gsqmap := State.noteSignal_gsqmap _ _ _
@[simp] theorem State.coreSignal_mgmt (s : State) (c i : Nat) : (s.coreSignal c i).mgmt = s.mgmt := State.noteSignal_mgmt _ _ _
@[simp] theorem State.coreSignal_idpk (s : State) (c i : Nat) : (s.coreSignal c i).idpk = s.idpk := State.noteSignal_idpk _ _ _
@[simp] theorem State.coreSignal_boothash (s : State) (c i : Nat) : (s.coreSignal c i).boothash = s.boothash := State.noteSignal_boothash _ _ _
@[simp] theorem State.coreSignal_bstat (s : State) (c i : Nat) : (s.coreSignal c i).bstat = s.bstat := State.noteSignal_bstat _ _ _
@[simp] theorem State.coreSignal_node (s : State) (c i : Nat) : (s.coreSignal c i).node = s.node := State.noteSignal_node _ _ _
@[simp] theorem State.coreSignal_flash (s : State) (c i : Nat) : (s.coreSignal c i).flash = s.flash := State.noteSignal_flash _ _ _
@[simp] theorem State.coreSignal_booted (s : State) (c i : Nat) : (s.coreSignal c i).booted = s.booted := State.noteSignal_booted _ _ _
@[simp] theorem State.coreSignal_image (s : State) (c i : Nat) : (s.coreSignal c i).image = s.image := State.noteSignal_image _ _ _
@[simp] theorem State.coreSignal_released (s : State) (c i : Nat) : (s.coreSignal c i).released = s.released := State.noteSignal_released _ _ _
@[simp] theorem State.coreSignal_attq (s : State) (c i : Nat) : (s.coreSignal c i).attq = s.attq := State.noteSignal_attq _ _ _
@[simp] theorem State.coreSignal_reports (s : State) (c i : Nat) : (s.coreSignal c i).reports = s.reports := State.noteSignal_reports _ _ _

/-! ### Registers -/

@[simp] theorem State.readS_updCtx (s : State) (f : Ctx → Ctx) (r : SReg) : (s.updCtx f).readS r = (f s.core.ctx).readS r := rfl
@[simp] theorem State.readV_updCtx (s : State) (f : Ctx → Ctx) (r : VReg) : (s.updCtx f).readV r = (f s.core.ctx).readV r := rfl
@[simp] theorem State.readM_updCtx (s : State) (f : Ctx → Ctx) (r : MReg) : (s.updCtx f).readM r = (f s.core.ctx).readM r := rfl
@[simp] theorem State.updCtx_updCtx (s : State) (f g : Ctx → Ctx) : (s.updCtx f).updCtx g = s.updCtx fun x => g (f x) := rfl
@[simp] theorem State.pc_updCtx (s : State) (f : Ctx → Ctx) : (s.updCtx f).pc = (f s.core.ctx).pc := rfl
@[simp] theorem State.updCtx_id (s : State) : s.updCtx (fun x => x) = s := rfl

/-- A hard-wired register reads as the spec says (R74). -/
@[simp] theorem Ctx.readS_zero (x : Ctx) : x.readS 0#5 = 0#64 := if_pos rfl
@[simp] theorem Ctx.readM_zero (x : Ctx) : x.readM 0#3 = BitVec.allOnes 64 := if_pos rfl
@[simp] theorem Ctx.writeS_zero (x : Ctx) (v : Word) : x.writeS 0#5 v = x := if_pos rfl
@[simp] theorem Ctx.writeM_zero (x : Ctx) (v : Word) : x.writeM 0#3 v = x := if_pos rfl
@[simp] theorem Ctx.writeS_num (x : Ctx) (r : SReg) (v : Word) : (x.writeS r v).num = x.num := by unfold Ctx.writeS; split <;> rfl
@[simp] theorem Ctx.writeS_st (x : Ctx) (r : SReg) (v : Word) : (x.writeS r v).st = x.st := by unfold Ctx.writeS; split <;> rfl
@[simp] theorem Ctx.writeS_v (x : Ctx) (r : SReg) (v : Word) : (x.writeS r v).v = x.v := by unfold Ctx.writeS; split <;> rfl
@[simp] theorem Ctx.writeS_m (x : Ctx) (r : SReg) (v : Word) : (x.writeS r v).m = x.m := by unfold Ctx.writeS; split <;> rfl
@[simp] theorem Ctx.writeS_pc (x : Ctx) (r : SReg) (v : Word) : (x.writeS r v).pc = x.pc := by unfold Ctx.writeS; split <;> rfl
@[simp] theorem Ctx.writeS_mode (x : Ctx) (r : SReg) (v : Word) : (x.writeS r v).mode = x.mode := by unfold Ctx.writeS; split <;> rfl
@[simp] theorem Ctx.writeS_taskid (x : Ctx) (r : SReg) (v : Word) : (x.writeS r v).taskid = x.taskid := by unfold Ctx.writeS; split <;> rfl
@[simp] theorem Ctx.writeS_age (x : Ctx) (r : SReg) (v : Word) : (x.writeS r v).age = x.age := by unfold Ctx.writeS; split <;> rfl
@[simp] theorem Ctx.writeS_tile (x : Ctx) (r : SReg) (v : Word) : (x.writeS r v).tile = x.tile := by unfold Ctx.writeS; split <;> rfl
@[simp] theorem Ctx.writeS_budget (x : Ctx) (r : SReg) (v : Word) : (x.writeS r v).budget = x.budget := by unfold Ctx.writeS; split <;> rfl
@[simp] theorem Ctx.writeS_rmode (x : Ctx) (r : SReg) (v : Word) : (x.writeS r v).rmode = x.rmode := by unfold Ctx.writeS; split <;> rfl
@[simp] theorem Ctx.writeS_qmode (x : Ctx) (r : SReg) (v : Word) : (x.writeS r v).qmode = x.qmode := by unfold Ctx.writeS; split <;> rfl
@[simp] theorem Ctx.writeS_fstat (x : Ctx) (r : SReg) (v : Word) : (x.writeS r v).fstat = x.fstat := by unfold Ctx.writeS; split <;> rfl
@[simp] theorem Ctx.writeS_vprog (x : Ctx) (r : SReg) (v : Word) : (x.writeS r v).vprog = x.vprog := by unfold Ctx.writeS; split <;> rfl
@[simp] theorem Ctx.writeS_fltinfo (x : Ctx) (r : SReg) (v : Word) : (x.writeS r v).fltinfo = x.fltinfo := by unfold Ctx.writeS; split <;> rfl
@[simp] theorem Ctx.writeS_fltaddr (x : Ctx) (r : SReg) (v : Word) : (x.writeS r v).fltaddr = x.fltaddr := by unfold Ctx.writeS; split <;> rfl
@[simp] theorem Ctx.writeS_vecOld (x : Ctx) (r : SReg) (v : Word) : (x.writeS r v).vecOld = x.vecOld := by unfold Ctx.writeS; split <;> rfl
@[simp] theorem Ctx.writeS_upsrc (x : Ctx) (r : SReg) (v : Word) : (x.writeS r v).upsrc = x.upsrc := by unfold Ctx.writeS; split <;> rfl
@[simp] theorem Ctx.writeS_mirth (x : Ctx) (r : SReg) (v : Word) : (x.writeS r v).mirth = x.mirth := by unfold Ctx.writeS; split <;> rfl
@[simp] theorem Ctx.writeS_mirrun (x : Ctx) (r : SReg) (v : Word) : (x.writeS r v).mirrun = x.mirrun := by unfold Ctx.writeS; split <;> rfl
@[simp] theorem Ctx.writeS_tvec (x : Ctx) (r : SReg) (v : Word) : (x.writeS r v).tvec = x.tvec := by unfold Ctx.writeS; split <;> rfl
@[simp] theorem Ctx.writeS_tepc (x : Ctx) (r : SReg) (v : Word) : (x.writeS r v).tepc = x.tepc := by unfold Ctx.writeS; split <;> rfl
@[simp] theorem Ctx.writeS_tcause (x : Ctx) (r : SReg) (v : Word) : (x.writeS r v).tcause = x.tcause := by unfold Ctx.writeS; split <;> rfl
@[simp] theorem Ctx.writeS_tscr (x : Ctx) (r : SReg) (v : Word) : (x.writeS r v).tscr = x.tscr := by unfold Ctx.writeS; split <;> rfl
@[simp] theorem Ctx.writeS_tcb (x : Ctx) (r : SReg) (v : Word) : (x.writeS r v).tcb = x.tcb := by unfold Ctx.writeS; split <;> rfl
@[simp] theorem Ctx.writeS_task (x : Ctx) (r : SReg) (v : Word) : (x.writeS r v).task = x.task := by unfold Ctx.writeS; split <;> rfl
@[simp] theorem Ctx.writeS_lens (x : Ctx) (r : SReg) (v : Word) : (x.writeS r v).lens = x.lens := by unfold Ctx.writeS; split <;> rfl
@[simp] theorem Ctx.writeS_absorb (x : Ctx) (r : SReg) (v : Word) : (x.writeS r v).absorb = x.absorb := by unfold Ctx.writeS; split <;> rfl
@[simp] theorem Ctx.writeS_sets (x : Ctx) (r : SReg) (v : Word) : (x.writeS r v).sets = x.sets := by unfold Ctx.writeS; split <;> rfl
@[simp] theorem Ctx.writeS_log (x : Ctx) (r : SReg) (v : Word) : (x.writeS r v).log = x.log := by unfold Ctx.writeS; split <;> rfl
@[simp] theorem Ctx.writeS_outbox (x : Ctx) (r : SReg) (v : Word) : (x.writeS r v).outbox = x.outbox := by unfold Ctx.writeS; split <;> rfl
@[simp] theorem Ctx.writeS_restarts (x : Ctx) (r : SReg) (v : Word) : (x.writeS r v).restarts = x.restarts := by unfold Ctx.writeS; split <;> rfl
@[simp] theorem Ctx.writeS_grace (x : Ctx) (r : SReg) (v : Word) : (x.writeS r v).grace = x.grace := by unfold Ctx.writeS; split <;> rfl
@[simp] theorem Ctx.writeS_restartMark (x : Ctx) (r : SReg) (v : Word) : (x.writeS r v).restartMark = x.restartMark := by unfold Ctx.writeS; split <;> rfl
@[simp] theorem Ctx.writeS_parkSeq (x : Ctx) (r : SReg) (v : Word) : (x.writeS r v).parkSeq = x.parkSeq := by unfold Ctx.writeS; split <;> rfl
@[simp] theorem Ctx.writeS_failNotice (x : Ctx) (r : SReg) (v : Word) : (x.writeS r v).failNotice = x.failNotice := by unfold Ctx.writeS; split <;> rfl
@[simp] theorem Ctx.writeS_noted (x : Ctx) (r : SReg) (v : Word) : (x.writeS r v).noted = x.noted := by unfold Ctx.writeS; split <;> rfl
@[simp] theorem Ctx.writeS_excMode (x : Ctx) (r : SReg) (v : Word) : (x.writeS r v).excMode = x.excMode := by unfold Ctx.writeS; split <;> rfl
@[simp] theorem Ctx.writeS_excPrev (x : Ctx) (r : SReg) (v : Word) : (x.writeS r v).excPrev = x.excPrev := by unfold Ctx.writeS; split <;> rfl
@[simp] theorem Ctx.writeS_reporting (x : Ctx) (r : SReg) (v : Word) : (x.writeS r v).reporting = x.reporting := by unfold Ctx.writeS; split <;> rfl
@[simp] theorem Ctx.writeS_woke (x : Ctx) (r : SReg) (v : Word) : (x.writeS r v).woke = x.woke := by unfold Ctx.writeS; split <;> rfl
@[simp] theorem Ctx.writeS_wfeOn (x : Ctx) (r : SReg) (v : Word) : (x.writeS r v).wfeOn = x.wfeOn := by unfold Ctx.writeS; split <;> rfl
@[simp] theorem Ctx.writeS_lockWait (x : Ctx) (r : SReg) (v : Word) : (x.writeS r v).lockWait = x.lockWait := by unfold Ctx.writeS; split <;> rfl
@[simp] theorem Ctx.writeS_ir (x : Ctx) (r : SReg) (v : Word) : (x.writeS r v).ir = x.ir := by unfold Ctx.writeS; split <;> rfl
@[simp] theorem Ctx.writeV_num (x : Ctx) (r : VReg) (v : Vec) : (x.writeV r v).num = x.num := rfl
@[simp] theorem Ctx.writeV_st (x : Ctx) (r : VReg) (v : Vec) : (x.writeV r v).st = x.st := rfl
@[simp] theorem Ctx.writeV_s (x : Ctx) (r : VReg) (v : Vec) : (x.writeV r v).s = x.s := rfl
@[simp] theorem Ctx.writeV_m (x : Ctx) (r : VReg) (v : Vec) : (x.writeV r v).m = x.m := rfl
@[simp] theorem Ctx.writeV_pc (x : Ctx) (r : VReg) (v : Vec) : (x.writeV r v).pc = x.pc := rfl
@[simp] theorem Ctx.writeV_mode (x : Ctx) (r : VReg) (v : Vec) : (x.writeV r v).mode = x.mode := rfl
@[simp] theorem Ctx.writeV_taskid (x : Ctx) (r : VReg) (v : Vec) : (x.writeV r v).taskid = x.taskid := rfl
@[simp] theorem Ctx.writeV_age (x : Ctx) (r : VReg) (v : Vec) : (x.writeV r v).age = x.age := rfl
@[simp] theorem Ctx.writeV_tile (x : Ctx) (r : VReg) (v : Vec) : (x.writeV r v).tile = x.tile := rfl
@[simp] theorem Ctx.writeV_budget (x : Ctx) (r : VReg) (v : Vec) : (x.writeV r v).budget = x.budget := rfl
@[simp] theorem Ctx.writeV_rmode (x : Ctx) (r : VReg) (v : Vec) : (x.writeV r v).rmode = x.rmode := rfl
@[simp] theorem Ctx.writeV_qmode (x : Ctx) (r : VReg) (v : Vec) : (x.writeV r v).qmode = x.qmode := rfl
@[simp] theorem Ctx.writeV_fstat (x : Ctx) (r : VReg) (v : Vec) : (x.writeV r v).fstat = x.fstat := rfl
@[simp] theorem Ctx.writeV_vprog (x : Ctx) (r : VReg) (v : Vec) : (x.writeV r v).vprog = x.vprog := rfl
@[simp] theorem Ctx.writeV_fltinfo (x : Ctx) (r : VReg) (v : Vec) : (x.writeV r v).fltinfo = x.fltinfo := rfl
@[simp] theorem Ctx.writeV_fltaddr (x : Ctx) (r : VReg) (v : Vec) : (x.writeV r v).fltaddr = x.fltaddr := rfl
@[simp] theorem Ctx.writeV_vecOld (x : Ctx) (r : VReg) (v : Vec) : (x.writeV r v).vecOld = x.vecOld := rfl
@[simp] theorem Ctx.writeV_upsrc (x : Ctx) (r : VReg) (v : Vec) : (x.writeV r v).upsrc = x.upsrc := rfl
@[simp] theorem Ctx.writeV_mirth (x : Ctx) (r : VReg) (v : Vec) : (x.writeV r v).mirth = x.mirth := rfl
@[simp] theorem Ctx.writeV_mirrun (x : Ctx) (r : VReg) (v : Vec) : (x.writeV r v).mirrun = x.mirrun := rfl
@[simp] theorem Ctx.writeV_tvec (x : Ctx) (r : VReg) (v : Vec) : (x.writeV r v).tvec = x.tvec := rfl
@[simp] theorem Ctx.writeV_tepc (x : Ctx) (r : VReg) (v : Vec) : (x.writeV r v).tepc = x.tepc := rfl
@[simp] theorem Ctx.writeV_tcause (x : Ctx) (r : VReg) (v : Vec) : (x.writeV r v).tcause = x.tcause := rfl
@[simp] theorem Ctx.writeV_tscr (x : Ctx) (r : VReg) (v : Vec) : (x.writeV r v).tscr = x.tscr := rfl
@[simp] theorem Ctx.writeV_tcb (x : Ctx) (r : VReg) (v : Vec) : (x.writeV r v).tcb = x.tcb := rfl
@[simp] theorem Ctx.writeV_task (x : Ctx) (r : VReg) (v : Vec) : (x.writeV r v).task = x.task := rfl
@[simp] theorem Ctx.writeV_lens (x : Ctx) (r : VReg) (v : Vec) : (x.writeV r v).lens = x.lens := rfl
@[simp] theorem Ctx.writeV_absorb (x : Ctx) (r : VReg) (v : Vec) : (x.writeV r v).absorb = x.absorb := rfl
@[simp] theorem Ctx.writeV_sets (x : Ctx) (r : VReg) (v : Vec) : (x.writeV r v).sets = x.sets := rfl
@[simp] theorem Ctx.writeV_log (x : Ctx) (r : VReg) (v : Vec) : (x.writeV r v).log = x.log := rfl
@[simp] theorem Ctx.writeV_outbox (x : Ctx) (r : VReg) (v : Vec) : (x.writeV r v).outbox = x.outbox := rfl
@[simp] theorem Ctx.writeV_restarts (x : Ctx) (r : VReg) (v : Vec) : (x.writeV r v).restarts = x.restarts := rfl
@[simp] theorem Ctx.writeV_grace (x : Ctx) (r : VReg) (v : Vec) : (x.writeV r v).grace = x.grace := rfl
@[simp] theorem Ctx.writeV_restartMark (x : Ctx) (r : VReg) (v : Vec) : (x.writeV r v).restartMark = x.restartMark := rfl
@[simp] theorem Ctx.writeV_parkSeq (x : Ctx) (r : VReg) (v : Vec) : (x.writeV r v).parkSeq = x.parkSeq := rfl
@[simp] theorem Ctx.writeV_failNotice (x : Ctx) (r : VReg) (v : Vec) : (x.writeV r v).failNotice = x.failNotice := rfl
@[simp] theorem Ctx.writeV_noted (x : Ctx) (r : VReg) (v : Vec) : (x.writeV r v).noted = x.noted := rfl
@[simp] theorem Ctx.writeV_excMode (x : Ctx) (r : VReg) (v : Vec) : (x.writeV r v).excMode = x.excMode := rfl
@[simp] theorem Ctx.writeV_excPrev (x : Ctx) (r : VReg) (v : Vec) : (x.writeV r v).excPrev = x.excPrev := rfl
@[simp] theorem Ctx.writeV_reporting (x : Ctx) (r : VReg) (v : Vec) : (x.writeV r v).reporting = x.reporting := rfl
@[simp] theorem Ctx.writeV_woke (x : Ctx) (r : VReg) (v : Vec) : (x.writeV r v).woke = x.woke := rfl
@[simp] theorem Ctx.writeV_wfeOn (x : Ctx) (r : VReg) (v : Vec) : (x.writeV r v).wfeOn = x.wfeOn := rfl
@[simp] theorem Ctx.writeV_lockWait (x : Ctx) (r : VReg) (v : Vec) : (x.writeV r v).lockWait = x.lockWait := rfl
@[simp] theorem Ctx.writeV_ir (x : Ctx) (r : VReg) (v : Vec) : (x.writeV r v).ir = x.ir := rfl
@[simp] theorem Ctx.writeM_num (x : Ctx) (r : MReg) (v : Word) : (x.writeM r v).num = x.num := by unfold Ctx.writeM; split <;> rfl
@[simp] theorem Ctx.writeM_st (x : Ctx) (r : MReg) (v : Word) : (x.writeM r v).st = x.st := by unfold Ctx.writeM; split <;> rfl
@[simp] theorem Ctx.writeM_s (x : Ctx) (r : MReg) (v : Word) : (x.writeM r v).s = x.s := by unfold Ctx.writeM; split <;> rfl
@[simp] theorem Ctx.writeM_v (x : Ctx) (r : MReg) (v : Word) : (x.writeM r v).v = x.v := by unfold Ctx.writeM; split <;> rfl
@[simp] theorem Ctx.writeM_pc (x : Ctx) (r : MReg) (v : Word) : (x.writeM r v).pc = x.pc := by unfold Ctx.writeM; split <;> rfl
@[simp] theorem Ctx.writeM_mode (x : Ctx) (r : MReg) (v : Word) : (x.writeM r v).mode = x.mode := by unfold Ctx.writeM; split <;> rfl
@[simp] theorem Ctx.writeM_taskid (x : Ctx) (r : MReg) (v : Word) : (x.writeM r v).taskid = x.taskid := by unfold Ctx.writeM; split <;> rfl
@[simp] theorem Ctx.writeM_age (x : Ctx) (r : MReg) (v : Word) : (x.writeM r v).age = x.age := by unfold Ctx.writeM; split <;> rfl
@[simp] theorem Ctx.writeM_tile (x : Ctx) (r : MReg) (v : Word) : (x.writeM r v).tile = x.tile := by unfold Ctx.writeM; split <;> rfl
@[simp] theorem Ctx.writeM_budget (x : Ctx) (r : MReg) (v : Word) : (x.writeM r v).budget = x.budget := by unfold Ctx.writeM; split <;> rfl
@[simp] theorem Ctx.writeM_rmode (x : Ctx) (r : MReg) (v : Word) : (x.writeM r v).rmode = x.rmode := by unfold Ctx.writeM; split <;> rfl
@[simp] theorem Ctx.writeM_qmode (x : Ctx) (r : MReg) (v : Word) : (x.writeM r v).qmode = x.qmode := by unfold Ctx.writeM; split <;> rfl
@[simp] theorem Ctx.writeM_fstat (x : Ctx) (r : MReg) (v : Word) : (x.writeM r v).fstat = x.fstat := by unfold Ctx.writeM; split <;> rfl
@[simp] theorem Ctx.writeM_vprog (x : Ctx) (r : MReg) (v : Word) : (x.writeM r v).vprog = x.vprog := by unfold Ctx.writeM; split <;> rfl
@[simp] theorem Ctx.writeM_fltinfo (x : Ctx) (r : MReg) (v : Word) : (x.writeM r v).fltinfo = x.fltinfo := by unfold Ctx.writeM; split <;> rfl
@[simp] theorem Ctx.writeM_fltaddr (x : Ctx) (r : MReg) (v : Word) : (x.writeM r v).fltaddr = x.fltaddr := by unfold Ctx.writeM; split <;> rfl
@[simp] theorem Ctx.writeM_vecOld (x : Ctx) (r : MReg) (v : Word) : (x.writeM r v).vecOld = x.vecOld := by unfold Ctx.writeM; split <;> rfl
@[simp] theorem Ctx.writeM_upsrc (x : Ctx) (r : MReg) (v : Word) : (x.writeM r v).upsrc = x.upsrc := by unfold Ctx.writeM; split <;> rfl
@[simp] theorem Ctx.writeM_mirth (x : Ctx) (r : MReg) (v : Word) : (x.writeM r v).mirth = x.mirth := by unfold Ctx.writeM; split <;> rfl
@[simp] theorem Ctx.writeM_mirrun (x : Ctx) (r : MReg) (v : Word) : (x.writeM r v).mirrun = x.mirrun := by unfold Ctx.writeM; split <;> rfl
@[simp] theorem Ctx.writeM_tvec (x : Ctx) (r : MReg) (v : Word) : (x.writeM r v).tvec = x.tvec := by unfold Ctx.writeM; split <;> rfl
@[simp] theorem Ctx.writeM_tepc (x : Ctx) (r : MReg) (v : Word) : (x.writeM r v).tepc = x.tepc := by unfold Ctx.writeM; split <;> rfl
@[simp] theorem Ctx.writeM_tcause (x : Ctx) (r : MReg) (v : Word) : (x.writeM r v).tcause = x.tcause := by unfold Ctx.writeM; split <;> rfl
@[simp] theorem Ctx.writeM_tscr (x : Ctx) (r : MReg) (v : Word) : (x.writeM r v).tscr = x.tscr := by unfold Ctx.writeM; split <;> rfl
@[simp] theorem Ctx.writeM_tcb (x : Ctx) (r : MReg) (v : Word) : (x.writeM r v).tcb = x.tcb := by unfold Ctx.writeM; split <;> rfl
@[simp] theorem Ctx.writeM_task (x : Ctx) (r : MReg) (v : Word) : (x.writeM r v).task = x.task := by unfold Ctx.writeM; split <;> rfl
@[simp] theorem Ctx.writeM_lens (x : Ctx) (r : MReg) (v : Word) : (x.writeM r v).lens = x.lens := by unfold Ctx.writeM; split <;> rfl
@[simp] theorem Ctx.writeM_win (x : Ctx) (r : MReg) (v : Word) : (x.writeM r v).win = x.win := by unfold Ctx.writeM; split <;> rfl
@[simp] theorem Ctx.writeM_absorb (x : Ctx) (r : MReg) (v : Word) : (x.writeM r v).absorb = x.absorb := by unfold Ctx.writeM; split <;> rfl
@[simp] theorem Ctx.writeM_sets (x : Ctx) (r : MReg) (v : Word) : (x.writeM r v).sets = x.sets := by unfold Ctx.writeM; split <;> rfl
@[simp] theorem Ctx.writeM_log (x : Ctx) (r : MReg) (v : Word) : (x.writeM r v).log = x.log := by unfold Ctx.writeM; split <;> rfl
@[simp] theorem Ctx.writeM_outbox (x : Ctx) (r : MReg) (v : Word) : (x.writeM r v).outbox = x.outbox := by unfold Ctx.writeM; split <;> rfl
@[simp] theorem Ctx.writeM_restarts (x : Ctx) (r : MReg) (v : Word) : (x.writeM r v).restarts = x.restarts := by unfold Ctx.writeM; split <;> rfl
@[simp] theorem Ctx.writeM_grace (x : Ctx) (r : MReg) (v : Word) : (x.writeM r v).grace = x.grace := by unfold Ctx.writeM; split <;> rfl
@[simp] theorem Ctx.writeM_restartMark (x : Ctx) (r : MReg) (v : Word) : (x.writeM r v).restartMark = x.restartMark := by unfold Ctx.writeM; split <;> rfl
@[simp] theorem Ctx.writeM_parkSeq (x : Ctx) (r : MReg) (v : Word) : (x.writeM r v).parkSeq = x.parkSeq := by unfold Ctx.writeM; split <;> rfl
@[simp] theorem Ctx.writeM_failNotice (x : Ctx) (r : MReg) (v : Word) : (x.writeM r v).failNotice = x.failNotice := by unfold Ctx.writeM; split <;> rfl
@[simp] theorem Ctx.writeM_noted (x : Ctx) (r : MReg) (v : Word) : (x.writeM r v).noted = x.noted := by unfold Ctx.writeM; split <;> rfl
@[simp] theorem Ctx.writeM_excMode (x : Ctx) (r : MReg) (v : Word) : (x.writeM r v).excMode = x.excMode := by unfold Ctx.writeM; split <;> rfl
@[simp] theorem Ctx.writeM_excPrev (x : Ctx) (r : MReg) (v : Word) : (x.writeM r v).excPrev = x.excPrev := by unfold Ctx.writeM; split <;> rfl
@[simp] theorem Ctx.writeM_reporting (x : Ctx) (r : MReg) (v : Word) : (x.writeM r v).reporting = x.reporting := by unfold Ctx.writeM; split <;> rfl
@[simp] theorem Ctx.writeM_woke (x : Ctx) (r : MReg) (v : Word) : (x.writeM r v).woke = x.woke := by unfold Ctx.writeM; split <;> rfl
@[simp] theorem Ctx.writeM_wfeOn (x : Ctx) (r : MReg) (v : Word) : (x.writeM r v).wfeOn = x.wfeOn := by unfold Ctx.writeM; split <;> rfl
@[simp] theorem Ctx.writeM_lockWait (x : Ctx) (r : MReg) (v : Word) : (x.writeM r v).lockWait = x.lockWait := by unfold Ctx.writeM; split <;> rfl
@[simp] theorem Ctx.writeM_ir (x : Ctx) (r : MReg) (v : Word) : (x.writeM r v).ir = x.ir := by unfold Ctx.writeM; split <;> rfl
@[simp] theorem Ctx.raise_num (x : Ctx) (f : Flags) : (x.raise f).num = x.num := rfl
@[simp] theorem Ctx.raise_st (x : Ctx) (f : Flags) : (x.raise f).st = x.st := rfl
@[simp] theorem Ctx.raise_s (x : Ctx) (f : Flags) : (x.raise f).s = x.s := rfl
@[simp] theorem Ctx.raise_v (x : Ctx) (f : Flags) : (x.raise f).v = x.v := rfl
@[simp] theorem Ctx.raise_m (x : Ctx) (f : Flags) : (x.raise f).m = x.m := rfl
@[simp] theorem Ctx.raise_pc (x : Ctx) (f : Flags) : (x.raise f).pc = x.pc := rfl
@[simp] theorem Ctx.raise_mode (x : Ctx) (f : Flags) : (x.raise f).mode = x.mode := rfl
@[simp] theorem Ctx.raise_taskid (x : Ctx) (f : Flags) : (x.raise f).taskid = x.taskid := rfl
@[simp] theorem Ctx.raise_age (x : Ctx) (f : Flags) : (x.raise f).age = x.age := rfl
@[simp] theorem Ctx.raise_tile (x : Ctx) (f : Flags) : (x.raise f).tile = x.tile := rfl
@[simp] theorem Ctx.raise_budget (x : Ctx) (f : Flags) : (x.raise f).budget = x.budget := rfl
@[simp] theorem Ctx.raise_rmode (x : Ctx) (f : Flags) : (x.raise f).rmode = x.rmode := rfl
@[simp] theorem Ctx.raise_qmode (x : Ctx) (f : Flags) : (x.raise f).qmode = x.qmode := rfl
@[simp] theorem Ctx.raise_vprog (x : Ctx) (f : Flags) : (x.raise f).vprog = x.vprog := rfl
@[simp] theorem Ctx.raise_fltinfo (x : Ctx) (f : Flags) : (x.raise f).fltinfo = x.fltinfo := rfl
@[simp] theorem Ctx.raise_fltaddr (x : Ctx) (f : Flags) : (x.raise f).fltaddr = x.fltaddr := rfl
@[simp] theorem Ctx.raise_vecOld (x : Ctx) (f : Flags) : (x.raise f).vecOld = x.vecOld := rfl
@[simp] theorem Ctx.raise_upsrc (x : Ctx) (f : Flags) : (x.raise f).upsrc = x.upsrc := rfl
@[simp] theorem Ctx.raise_mirth (x : Ctx) (f : Flags) : (x.raise f).mirth = x.mirth := rfl
@[simp] theorem Ctx.raise_mirrun (x : Ctx) (f : Flags) : (x.raise f).mirrun = x.mirrun := rfl
@[simp] theorem Ctx.raise_tvec (x : Ctx) (f : Flags) : (x.raise f).tvec = x.tvec := rfl
@[simp] theorem Ctx.raise_tepc (x : Ctx) (f : Flags) : (x.raise f).tepc = x.tepc := rfl
@[simp] theorem Ctx.raise_tcause (x : Ctx) (f : Flags) : (x.raise f).tcause = x.tcause := rfl
@[simp] theorem Ctx.raise_tscr (x : Ctx) (f : Flags) : (x.raise f).tscr = x.tscr := rfl
@[simp] theorem Ctx.raise_tcb (x : Ctx) (f : Flags) : (x.raise f).tcb = x.tcb := rfl
@[simp] theorem Ctx.raise_task (x : Ctx) (f : Flags) : (x.raise f).task = x.task := rfl
@[simp] theorem Ctx.raise_lens (x : Ctx) (f : Flags) : (x.raise f).lens = x.lens := rfl
@[simp] theorem Ctx.raise_win (x : Ctx) (f : Flags) : (x.raise f).win = x.win := rfl
@[simp] theorem Ctx.raise_absorb (x : Ctx) (f : Flags) : (x.raise f).absorb = x.absorb := rfl
@[simp] theorem Ctx.raise_sets (x : Ctx) (f : Flags) : (x.raise f).sets = x.sets := rfl
@[simp] theorem Ctx.raise_log (x : Ctx) (f : Flags) : (x.raise f).log = x.log := rfl
@[simp] theorem Ctx.raise_outbox (x : Ctx) (f : Flags) : (x.raise f).outbox = x.outbox := rfl
@[simp] theorem Ctx.raise_restarts (x : Ctx) (f : Flags) : (x.raise f).restarts = x.restarts := rfl
@[simp] theorem Ctx.raise_grace (x : Ctx) (f : Flags) : (x.raise f).grace = x.grace := rfl
@[simp] theorem Ctx.raise_restartMark (x : Ctx) (f : Flags) : (x.raise f).restartMark = x.restartMark := rfl
@[simp] theorem Ctx.raise_parkSeq (x : Ctx) (f : Flags) : (x.raise f).parkSeq = x.parkSeq := rfl
@[simp] theorem Ctx.raise_failNotice (x : Ctx) (f : Flags) : (x.raise f).failNotice = x.failNotice := rfl
@[simp] theorem Ctx.raise_noted (x : Ctx) (f : Flags) : (x.raise f).noted = x.noted := rfl
@[simp] theorem Ctx.raise_excMode (x : Ctx) (f : Flags) : (x.raise f).excMode = x.excMode := rfl
@[simp] theorem Ctx.raise_excPrev (x : Ctx) (f : Flags) : (x.raise f).excPrev = x.excPrev := rfl
@[simp] theorem Ctx.raise_reporting (x : Ctx) (f : Flags) : (x.raise f).reporting = x.reporting := rfl
@[simp] theorem Ctx.raise_bad (x : Ctx) (f : Flags) : (x.raise f).bad = x.bad := rfl
@[simp] theorem Ctx.raise_woke (x : Ctx) (f : Flags) : (x.raise f).woke = x.woke := rfl
@[simp] theorem Ctx.raise_wfeOn (x : Ctx) (f : Flags) : (x.raise f).wfeOn = x.wfeOn := rfl
@[simp] theorem Ctx.raise_lockWait (x : Ctx) (f : Flags) : (x.raise f).lockWait = x.lockWait := rfl
@[simp] theorem Ctx.raise_ir (x : Ctx) (f : Flags) : (x.raise f).ir = x.ir := rfl

/-- A register read after a write (R74). -/
theorem Ctx.readS_writeS (x : Ctx) (r q : SReg) (v : Word) :
    (x.writeS r v).readS q = if q = r ∧ r ≠ 0 then v else x.readS q := by
  by_cases hr : r = 0
  · subst hr; rw [if_neg (by simp)]; exact congrArg (Ctx.readS · q) (if_pos rfl)
  · unfold Ctx.writeS Ctx.readS
    rw [if_neg hr]
    by_cases hq : q = r
    · subst hq; simp only [hr, if_false, Vector.getElem_set_self, ne_eq, not_false_eq_true, and_self, if_true]
    · have h : r.toNat ≠ q.toNat := fun h => hq (BitVec.eq_of_toNat_eq h.symm)
      simp only [hq, false_and, if_false, Vector.getElem_set_ne _ _ h]
theorem Ctx.readV_writeV (x : Ctx) (r q : VReg) (v : Vec) : (x.writeV r v).readV q = if q = r then v else x.readV q := by
  by_cases hq : q = r
  · simp [Ctx.writeV, Ctx.readV, hq]
  · have h : r.toNat ≠ q.toNat := fun h => hq (BitVec.eq_of_toNat_eq h.symm)
    simp [Ctx.writeV, Ctx.readV, hq, Vector.getElem_set_ne _ _ h]
theorem Ctx.readM_writeM (x : Ctx) (r q : MReg) (v : Word) :
    (x.writeM r v).readM q = if q = r ∧ r ≠ 0 then v else x.readM q := by
  by_cases hr : r = 0
  · subst hr; rw [if_neg (by simp)]; exact congrArg (Ctx.readM · q) (if_pos rfl)
  · unfold Ctx.writeM Ctx.readM
    rw [if_neg hr]
    by_cases hq : q = r
    · subst hq; simp only [hr, if_false, Vector.getElem_set_self, ne_eq, not_false_eq_true, and_self, if_true]
    · have h : r.toNat ≠ q.toNat := fun h => hq (BitVec.eq_of_toNat_eq h.symm)
      simp only [hq, false_and, if_false, Vector.getElem_set_ne _ _ h]
@[simp] theorem Ctx.readV_writeS (x : Ctx) (r : SReg) (q : VReg) (v : Word) : (x.writeS r v).readV q = x.readV q := by
  simp [Ctx.readV]
@[simp] theorem Ctx.readM_writeS (x : Ctx) (r : SReg) (q : MReg) (v : Word) : (x.writeS r v).readM q = x.readM q := by
  simp [Ctx.readM]
@[simp] theorem Ctx.readS_writeV (x : Ctx) (r : VReg) (q : SReg) (v : Vec) : (x.writeV r v).readS q = x.readS q := by
  simp [Ctx.readS]
@[simp] theorem Ctx.readM_writeV (x : Ctx) (r : VReg) (q : MReg) (v : Vec) : (x.writeV r v).readM q = x.readM q := by
  simp [Ctx.readM]
@[simp] theorem Ctx.readS_writeM (x : Ctx) (r : MReg) (q : SReg) (v : Word) : (x.writeM r v).readS q = x.readS q := by
  simp [Ctx.readS]
@[simp] theorem Ctx.readV_writeM (x : Ctx) (r : MReg) (q : VReg) (v : Word) : (x.writeM r v).readV q = x.readV q := by
  simp [Ctx.readV]

end Sys2Proof.Machine
end

