-- ==== Sys2Proof/Laws/Act.lean ====
section
/-!
SUPPORT. Effects (`Act`): what each building block answers on a state, and what `finish` makes of it. Proofs about an instruction
peel its effect apart with these, without unfolding the monad.
-/
namespace Sys2Proof.Machine
variable {α β : Type}

@[simp] theorem Act.pure_apply (x : α) (s : State) : (pure x : Act α) s = .ok x s := rfl
@[simp] theorem Act.get_apply (s : State) : (get : Act State) s = .ok s s := rfl
@[simp] theorem Act.set_apply (s t : State) : (set t : Act Unit) s = .ok () t := rfl
@[simp] theorem Act.modify_apply (f : State → State) (s : State) : (modify f : Act Unit) s = .ok () (f s) := rfl
@[simp] theorem Act.throw_apply (e : Stop) (s : State) : (throw e : Act α) s = .error e s := rfl
@[simp] theorem Act.bind_apply (a : Act α) (f : α → Act β) (s : State) :
    (a >>= f) s = match a s with | .ok x t => f x t | .error e t => .error e t := by
  simp only [bind, EStateM.bind]; cases a s <;> rfl
@[simp] theorem Act.map_apply (g : α → β) (a : Act α) (s : State) :
    (g <$> a) s = match a s with | .ok x t => .ok (g x) t | .error e t => .error e t := by
  simp only [Functor.map, EStateM.map]; cases a s <;> rfl
@[simp] theorem Act.stall_apply (s : State) : (stall : Act α) s = .error .stall s := rfl
theorem Act.raise_apply (e : Exc) (s : State) : (raise e : Act α) s = .error (if e.wait then .stall else .exc e) s := by
  unfold raise; split <;> simp [*]

/-- What an instruction answers, by how its effect ends. -/
theorem finish_ok {a : Act Unit} {s t : State} (h : a s = .ok () t) : finish a s = .next t := by simp [finish, h]
theorem finish_stall {a : Act Unit} {s t : State} (h : a s = .error .stall t) :
    finish a s = .next { t with core := { t.core with waiting := true } } := by simp [finish, h]
theorem finish_fault {a : Act Unit} {s t : State} {f : Fault} (h : a s = .error (.fault f) t) : finish a s = .fault f := by
  simp [finish, h]
/-- An exception is taken at once when no `mi.qry` of the context is still to answer (R70). -/
theorem finish_exc {a : Act Unit} {s t : State} {e : Exc} (h : a s = .error (.exc e) t) (hb : t.core.blocked true = false) :
    finish a s = .next (t.takeExc e) := by simp [finish, h, hb]
/-- Everything an instruction can end in. -/
theorem finish_cases (a : Act Unit) (s : State) :
    (∃ t, a s = .ok () t ∧ finish a s = .next t) ∨
    (∃ e t, a s = .error (.exc e) t ∧ finish a s =
      .next (if t.core.blocked true then { t with core := { t.core with waiting := true } } else t.takeExc e)) ∨
    (∃ t, a s = .error .stall t ∧ finish a s = .next { t with core := { t.core with waiting := true } }) ∨
    (∃ f t, a s = .error (.fault f) t ∧ finish a s = .fault f) := by
  cases h : a s with
  | ok x t => exact .inl ⟨t, rfl, by simp [finish, h]⟩
  | error e t =>
    cases e with
    | exc e =>
      refine .inr (.inl ⟨e, t, rfl, ?_⟩)
      simp only [finish, h]; split <;> rfl
    | stall => exact .inr (.inr (.inl ⟨t, rfl, by simp [finish, h]⟩))
    | fault f => exact .inr (.inr (.inr ⟨f, t, rfl, by simp [finish, h]⟩))

end Sys2Proof.Machine
end

