-- ==== Sys2Proof/Laws/Encode.lean ====
section
/-!
SUPPORT. The fields of the word layouts (03_encoding.md R50 to R56) read back what the encoder puts there, and the codes of operand names
read back the names.
-/
set_option Elab.async false
namespace Sys2Proof

/-! ### Fields of the layouts -/

@[simp] theorem rWord_wA (m : BitVec 6) (d : BitVec 5) (a : BitVec 5) (b : BitVec 5) (x : BitVec 5) (fn : BitVec 6) : wA (rWord m d a b x fn) = a := by
  unfold wA rWord; ext i hi
  simp only [BitVec.getLsbD_append, ← BitVec.getLsbD_eq_getElem, BitVec.getLsbD_extractLsb']
  grind
@[simp] theorem rWord_wB (m : BitVec 6) (d : BitVec 5) (a : BitVec 5) (b : BitVec 5) (x : BitVec 5) (fn : BitVec 6) : wB (rWord m d a b x fn) = b := by
  unfold wB rWord; ext i hi
  simp only [BitVec.getLsbD_append, ← BitVec.getLsbD_eq_getElem, BitVec.getLsbD_extractLsb']
  grind
@[simp] theorem rWord_wBit10 (m : BitVec 6) (d : BitVec 5) (a : BitVec 5) (b : BitVec 5) (x : BitVec 5) (fn : BitVec 6) : wBit10 (rWord m d a b x fn) = x.extractLsb' 4 1 := by
  unfold wBit10 rWord; ext i hi
  simp only [BitVec.getLsbD_append, ← BitVec.getLsbD_eq_getElem, BitVec.getLsbD_extractLsb']
  grind
@[simp] theorem rWord_wD (m : BitVec 6) (d : BitVec 5) (a : BitVec 5) (b : BitVec 5) (x : BitVec 5) (fn : BitVec 6) : wD (rWord m d a b x fn) = d := by
  unfold wD rWord; ext i hi
  simp only [BitVec.getLsbD_append, ← BitVec.getLsbD_eq_getElem, BitVec.getLsbD_extractLsb']
  grind
@[simp] theorem rWord_wFn (m : BitVec 6) (d : BitVec 5) (a : BitVec 5) (b : BitVec 5) (x : BitVec 5) (fn : BitVec 6) : wFn (rWord m d a b x fn) = fn := by
  unfold wFn rWord; ext i hi
  simp only [BitVec.getLsbD_append, ← BitVec.getLsbD_eq_getElem, BitVec.getLsbD_extractLsb']
  grind
@[simp] theorem rWord_wLaR (m : BitVec 6) (d : BitVec 5) (a : BitVec 5) (b : BitVec 5) (x : BitVec 5) (fn : BitVec 6) : wLaR (rWord m d a b x fn) = x.extractLsb' 0 4 := by
  unfold wLaR rWord; ext i hi
  simp only [BitVec.getLsbD_append, ← BitVec.getLsbD_eq_getElem, BitVec.getLsbD_extractLsb']
  grind
@[simp] theorem rWord_wMaj (m : BitVec 6) (d : BitVec 5) (a : BitVec 5) (b : BitVec 5) (x : BitVec 5) (fn : BitVec 6) : wMaj (rWord m d a b x fn) = m := by
  unfold wMaj rWord; ext i hi
  simp only [BitVec.getLsbD_append, ← BitVec.getLsbD_eq_getElem, BitVec.getLsbD_extractLsb']
  grind
@[simp] theorem rWord_wSat (m : BitVec 6) (d : BitVec 5) (a : BitVec 5) (b : BitVec 5) (x : BitVec 5) (fn : BitVec 6) : wSat (rWord m d a b x fn) = b.getLsbD 4 := by
  simp only [wSat, rWord, BitVec.getLsbD_append]; simp
@[simp] theorem rWord_wT14 (m : BitVec 6) (d : BitVec 5) (a : BitVec 5) (b : BitVec 5) (x : BitVec 5) (fn : BitVec 6) : wT14 (rWord m d a b x fn) = b.extractLsb' 0 4 := by
  unfold wT14 rWord; ext i hi
  simp only [BitVec.getLsbD_append, ← BitVec.getLsbD_eq_getElem, BitVec.getLsbD_extractLsb']
  grind
@[simp] theorem rWord_wTrap (m : BitVec 6) (d : BitVec 5) (a : BitVec 5) (b : BitVec 5) (x : BitVec 5) (fn : BitVec 6) : wTrap (rWord m d a b x fn) = b ++ x := by
  unfold wTrap rWord; ext i hi
  simp only [BitVec.getLsbD_append, ← BitVec.getLsbD_eq_getElem, BitVec.getLsbD_extractLsb']
  grind
@[simp] theorem rWord_wX (m : BitVec 6) (d : BitVec 5) (a : BitVec 5) (b : BitVec 5) (x : BitVec 5) (fn : BitVec 6) : wX (rWord m d a b x fn) = x := by
  unfold wX rWord; ext i hi
  simp only [BitVec.getLsbD_append, ← BitVec.getLsbD_eq_getElem, BitVec.getLsbD_extractLsb']
  grind
@[simp] theorem rWord_wX108 (m : BitVec 6) (d : BitVec 5) (a : BitVec 5) (b : BitVec 5) (x : BitVec 5) (fn : BitVec 6) : wX108 (rWord m d a b x fn) = x.extractLsb' 2 3 := by
  unfold wX108 rWord; ext i hi
  simp only [BitVec.getLsbD_append, ← BitVec.getLsbD_eq_getElem, BitVec.getLsbD_extractLsb']
  grind
@[simp] theorem rWord_wX109 (m : BitVec 6) (d : BitVec 5) (a : BitVec 5) (b : BitVec 5) (x : BitVec 5) (fn : BitVec 6) : wX109 (rWord m d a b x fn) = x.extractLsb' 3 2 := by
  unfold wX109 rWord; ext i hi
  simp only [BitVec.getLsbD_append, ← BitVec.getLsbD_eq_getElem, BitVec.getLsbD_extractLsb']
  grind
@[simp] theorem rWord_wX76 (m : BitVec 6) (d : BitVec 5) (a : BitVec 5) (b : BitVec 5) (x : BitVec 5) (fn : BitVec 6) : wX76 (rWord m d a b x fn) = x.extractLsb' 0 2 := by
  unfold wX76 rWord; ext i hi
  simp only [BitVec.getLsbD_append, ← BitVec.getLsbD_eq_getElem, BitVec.getLsbD_extractLsb']
  grind
@[simp] theorem rWord_wX86 (m : BitVec 6) (d : BitVec 5) (a : BitVec 5) (b : BitVec 5) (x : BitVec 5) (fn : BitVec 6) : wX86 (rWord m d a b x fn) = x.extractLsb' 0 3 := by
  unfold wX86 rWord; ext i hi
  simp only [BitVec.getLsbD_append, ← BitVec.getLsbD_eq_getElem, BitVec.getLsbD_extractLsb']
  grind
@[simp] theorem iWord_wA (m : BitVec 6) (d : BitVec 5) (a : BitVec 5) (i : BitVec 16) : wA (iWord m d a i) = a := by
  unfold wA iWord; ext i hi
  simp only [BitVec.getLsbD_append, ← BitVec.getLsbD_eq_getElem, BitVec.getLsbD_extractLsb']
  grind
@[simp] theorem iWord_wCsr (m : BitVec 6) (d : BitVec 5) (a : BitVec 5) (i : BitVec 16) : wCsr (iWord m d a i) = i.extractLsb' 0 12 := by
  unfold wCsr iWord; ext i hi
  simp only [BitVec.getLsbD_append, ← BitVec.getLsbD_eq_getElem, BitVec.getLsbD_extractLsb']
  grind
@[simp] theorem iWord_wCsrOp (m : BitVec 6) (d : BitVec 5) (a : BitVec 5) (i : BitVec 16) : wCsrOp (iWord m d a i) = i.extractLsb' 12 4 := by
  unfold wCsrOp iWord; ext i hi
  simp only [BitVec.getLsbD_append, ← BitVec.getLsbD_eq_getElem, BitVec.getLsbD_extractLsb']
  grind
@[simp] theorem iWord_wD (m : BitVec 6) (d : BitVec 5) (a : BitVec 5) (i : BitVec 16) : wD (iWord m d a i) = d := by
  unfold wD iWord; ext i hi
  simp only [BitVec.getLsbD_append, ← BitVec.getLsbD_eq_getElem, BitVec.getLsbD_extractLsb']
  grind
@[simp] theorem iWord_wFn (m : BitVec 6) (d : BitVec 5) (a : BitVec 5) (i : BitVec 16) : wFn (iWord m d a i) = i.extractLsb' 0 6 := by
  unfold wFn iWord; ext i hi
  simp only [BitVec.getLsbD_append, ← BitVec.getLsbD_eq_getElem, BitVec.getLsbD_extractLsb']
  grind
@[simp] theorem iWord_wImm (m : BitVec 6) (d : BitVec 5) (a : BitVec 5) (i : BitVec 16) : wImm (iWord m d a i) = i := by
  unfold wImm iWord; ext i hi
  simp only [BitVec.getLsbD_append, ← BitVec.getLsbD_eq_getElem, BitVec.getLsbD_extractLsb']
  grind
@[simp] theorem iWord_wMaj (m : BitVec 6) (d : BitVec 5) (a : BitVec 5) (i : BitVec 16) : wMaj (iWord m d a i) = m := by
  unfold wMaj iWord; ext i hi
  simp only [BitVec.getLsbD_append, ← BitVec.getLsbD_eq_getElem, BitVec.getLsbD_extractLsb']
  grind
@[simp] theorem iWord_wShHi (m : BitVec 6) (d : BitVec 5) (a : BitVec 5) (i : BitVec 16) : wShHi (iWord m d a i) = i.extractLsb' 8 8 := by
  unfold wShHi iWord; ext i hi
  simp only [BitVec.getLsbD_append, ← BitVec.getLsbD_eq_getElem, BitVec.getLsbD_extractLsb']
  grind
@[simp] theorem iWord_wShSel (m : BitVec 6) (d : BitVec 5) (a : BitVec 5) (i : BitVec 16) : wShSel (iWord m d a i) = i.extractLsb' 6 2 := by
  unfold wShSel iWord; ext i hi
  simp only [BitVec.getLsbD_append, ← BitVec.getLsbD_eq_getElem, BitVec.getLsbD_extractLsb']
  grind
@[simp] theorem bWord_wL (l : Bool) (o : BitVec 25) : wL (bWord l o) = l := by
  simp only [wL, bWord, BitVec.getLsbD_append]; simp
@[simp] theorem bWord_wMaj (l : Bool) (o : BitVec 25) : wMaj (bWord l o) = 22#6 := by
  unfold wMaj bWord; ext i hi
  simp only [BitVec.getLsbD_append, ← BitVec.getLsbD_eq_getElem, BitVec.getLsbD_extractLsb']
  grind
@[simp] theorem bWord_wOff25 (l : Bool) (o : BitVec 25) : wOff25 (bWord l o) = o := by
  unfold wOff25 bWord; ext i hi
  simp only [BitVec.getLsbD_append, ← BitVec.getLsbD_eq_getElem, BitVec.getLsbD_extractLsb']
  grind
@[simp] theorem mWord_wA (m : BitVec 6) (d : BitVec 5) (a : BitVec 5) (la : BitVec 4) (sw : BitVec 3) (sz : BitVec 3) (o : BitVec 6) : wA (mWord m d a la sw sz o) = a := by
  unfold wA mWord; ext i hi
  simp only [BitVec.getLsbD_append, ← BitVec.getLsbD_eq_getElem, BitVec.getLsbD_extractLsb']
  grind
@[simp] theorem mWord_wD (m : BitVec 6) (d : BitVec 5) (a : BitVec 5) (la : BitVec 4) (sw : BitVec 3) (sz : BitVec 3) (o : BitVec 6) : wD (mWord m d a la sw sz o) = d := by
  unfold wD mWord; ext i hi
  simp only [BitVec.getLsbD_append, ← BitVec.getLsbD_eq_getElem, BitVec.getLsbD_extractLsb']
  grind
@[simp] theorem mWord_wFn (m : BitVec 6) (d : BitVec 5) (a : BitVec 5) (la : BitVec 4) (sw : BitVec 3) (sz : BitVec 3) (o : BitVec 6) : wFn (mWord m d a la sw sz o) = o := by
  unfold wFn mWord; ext i hi
  simp only [BitVec.getLsbD_append, ← BitVec.getLsbD_eq_getElem, BitVec.getLsbD_extractLsb']
  grind
@[simp] theorem mWord_wLaM (m : BitVec 6) (d : BitVec 5) (a : BitVec 5) (la : BitVec 4) (sw : BitVec 3) (sz : BitVec 3) (o : BitVec 6) : wLaM (mWord m d a la sw sz o) = la := by
  unfold wLaM mWord; ext i hi
  simp only [BitVec.getLsbD_append, ← BitVec.getLsbD_eq_getElem, BitVec.getLsbD_extractLsb']
  grind
@[simp] theorem mWord_wMaj (m : BitVec 6) (d : BitVec 5) (a : BitVec 5) (la : BitVec 4) (sw : BitVec 3) (sz : BitVec 3) (o : BitVec 6) : wMaj (mWord m d a la sw sz o) = m := by
  unfold wMaj mWord; ext i hi
  simp only [BitVec.getLsbD_append, ← BitVec.getLsbD_eq_getElem, BitVec.getLsbD_extractLsb']
  grind
@[simp] theorem mWord_wSw (m : BitVec 6) (d : BitVec 5) (a : BitVec 5) (la : BitVec 4) (sw : BitVec 3) (sz : BitVec 3) (o : BitVec 6) : wSw (mWord m d a la sw sz o) = sw := by
  unfold wSw mWord; ext i hi
  simp only [BitVec.getLsbD_append, ← BitVec.getLsbD_eq_getElem, BitVec.getLsbD_extractLsb']
  grind
@[simp] theorem mWord_wSz (m : BitVec 6) (d : BitVec 5) (a : BitVec 5) (la : BitVec 4) (sw : BitVec 3) (sz : BitVec 3) (o : BitVec 6) : wSz (mWord m d a la sw sz o) = sz := by
  unfold wSz mWord; ext i hi
  simp only [BitVec.getLsbD_append, ← BitVec.getLsbD_eq_getElem, BitVec.getLsbD_extractLsb']
  grind
@[simp] theorem hWord_wA (m : BitVec 6) (d : BitVec 5) (a : BitVec 5) (la : BitVec 4) (k : BitVec 4) (dead : Bool) (sz : BitVec 3) (o : BitVec 4) : wA (hWord m d a la k dead sz o) = a := by
  unfold wA hWord; ext i hi
  simp only [BitVec.getLsbD_append, ← BitVec.getLsbD_eq_getElem, BitVec.getLsbD_extractLsb']
  grind
@[simp] theorem hWord_wD (m : BitVec 6) (d : BitVec 5) (a : BitVec 5) (la : BitVec 4) (k : BitVec 4) (dead : Bool) (sz : BitVec 3) (o : BitVec 4) : wD (hWord m d a la k dead sz o) = d := by
  unfold wD hWord; ext i hi
  simp only [BitVec.getLsbD_append, ← BitVec.getLsbD_eq_getElem, BitVec.getLsbD_extractLsb']
  grind
@[simp] theorem hWord_wDead (m : BitVec 6) (d : BitVec 5) (a : BitVec 5) (la : BitVec 4) (k : BitVec 4) (dead : Bool) (sz : BitVec 3) (o : BitVec 4) : wDead (hWord m d a la k dead sz o) = dead := by
  simp only [wDead, hWord, BitVec.getLsbD_append]; simp
@[simp] theorem hWord_wK (m : BitVec 6) (d : BitVec 5) (a : BitVec 5) (la : BitVec 4) (k : BitVec 4) (dead : Bool) (sz : BitVec 3) (o : BitVec 4) : wK (hWord m d a la k dead sz o) = k := by
  unfold wK hWord; ext i hi
  simp only [BitVec.getLsbD_append, ← BitVec.getLsbD_eq_getElem, BitVec.getLsbD_extractLsb']
  grind
@[simp] theorem hWord_wLaM (m : BitVec 6) (d : BitVec 5) (a : BitVec 5) (la : BitVec 4) (k : BitVec 4) (dead : Bool) (sz : BitVec 3) (o : BitVec 4) : wLaM (hWord m d a la k dead sz o) = la := by
  unfold wLaM hWord; ext i hi
  simp only [BitVec.getLsbD_append, ← BitVec.getLsbD_eq_getElem, BitVec.getLsbD_extractLsb']
  grind
@[simp] theorem hWord_wMaj (m : BitVec 6) (d : BitVec 5) (a : BitVec 5) (la : BitVec 4) (k : BitVec 4) (dead : Bool) (sz : BitVec 3) (o : BitVec 4) : wMaj (hWord m d a la k dead sz o) = m := by
  unfold wMaj hWord; ext i hi
  simp only [BitVec.getLsbD_append, ← BitVec.getLsbD_eq_getElem, BitVec.getLsbD_extractLsb']
  grind
@[simp] theorem hWord_wOff4 (m : BitVec 6) (d : BitVec 5) (a : BitVec 5) (la : BitVec 4) (k : BitVec 4) (dead : Bool) (sz : BitVec 3) (o : BitVec 4) : wOff4 (hWord m d a la k dead sz o) = o := by
  unfold wOff4 hWord; ext i hi
  simp only [BitVec.getLsbD_append, ← BitVec.getLsbD_eq_getElem, BitVec.getLsbD_extractLsb']
  grind
@[simp] theorem hWord_wSzH (m : BitVec 6) (d : BitVec 5) (a : BitVec 5) (la : BitVec 4) (k : BitVec 4) (dead : Bool) (sz : BitVec 3) (o : BitVec 4) : wSzH (hWord m d a la k dead sz o) = sz := by
  unfold wSzH hWord; ext i hi
  simp only [BitVec.getLsbD_append, ← BitVec.getLsbD_eq_getElem, BitVec.getLsbD_extractLsb']
  grind
@[simp] theorem gWord_wA (m : BitVec 6) (d : BitVec 5) (a : BitVec 5) (b : BitVec 5) (la : BitVec 4) (fn : BitVec 4) (sz : Bool) (sc : Bool) : wA (gWord m d a b la fn sz sc) = a := by
  unfold wA gWord; ext i hi
  simp only [BitVec.getLsbD_append, ← BitVec.getLsbD_eq_getElem, BitVec.getLsbD_extractLsb']
  grind
@[simp] theorem gWord_wB (m : BitVec 6) (d : BitVec 5) (a : BitVec 5) (b : BitVec 5) (la : BitVec 4) (fn : BitVec 4) (sz : Bool) (sc : Bool) : wB (gWord m d a b la fn sz sc) = b := by
  unfold wB gWord; ext i hi
  simp only [BitVec.getLsbD_append, ← BitVec.getLsbD_eq_getElem, BitVec.getLsbD_extractLsb']
  grind
@[simp] theorem gWord_wBit0 (m : BitVec 6) (d : BitVec 5) (a : BitVec 5) (b : BitVec 5) (la : BitVec 4) (fn : BitVec 4) (sz : Bool) (sc : Bool) : wBit0 (gWord m d a b la fn sz sc) = 0#1 := by
  unfold wBit0 gWord; ext i hi
  simp only [BitVec.getLsbD_append, ← BitVec.getLsbD_eq_getElem, BitVec.getLsbD_extractLsb']
  grind
@[simp] theorem gWord_wBit1 (m : BitVec 6) (d : BitVec 5) (a : BitVec 5) (b : BitVec 5) (la : BitVec 4) (fn : BitVec 4) (sz : Bool) (sc : Bool) : wBit1 (gWord m d a b la fn sz sc) = BitVec.ofBool sc := by
  unfold wBit1 gWord; ext i hi
  simp only [BitVec.getLsbD_append, ← BitVec.getLsbD_eq_getElem, BitVec.getLsbD_extractLsb']
  grind
@[simp] theorem gWord_wBit2 (m : BitVec 6) (d : BitVec 5) (a : BitVec 5) (b : BitVec 5) (la : BitVec 4) (fn : BitVec 4) (sz : Bool) (sc : Bool) : wBit2 (gWord m d a b la fn sz sc) = BitVec.ofBool sz := by
  unfold wBit2 gWord; ext i hi
  simp only [BitVec.getLsbD_append, ← BitVec.getLsbD_eq_getElem, BitVec.getLsbD_extractLsb']
  grind
@[simp] theorem gWord_wD (m : BitVec 6) (d : BitVec 5) (a : BitVec 5) (b : BitVec 5) (la : BitVec 4) (fn : BitVec 4) (sz : Bool) (sc : Bool) : wD (gWord m d a b la fn sz sc) = d := by
  unfold wD gWord; ext i hi
  simp only [BitVec.getLsbD_append, ← BitVec.getLsbD_eq_getElem, BitVec.getLsbD_extractLsb']
  grind
@[simp] theorem gWord_wG21 (m : BitVec 6) (d : BitVec 5) (a : BitVec 5) (b : BitVec 5) (la : BitVec 4) (fn : BitVec 4) (sz : Bool) (sc : Bool) : wG21 (gWord m d a b la fn sz sc) = BitVec.ofBool sz ++ BitVec.ofBool sc := by
  unfold wG21 gWord; ext i hi
  simp only [BitVec.getLsbD_append, ← BitVec.getLsbD_eq_getElem, BitVec.getLsbD_extractLsb']
  grind
@[simp] theorem gWord_wG63 (m : BitVec 6) (d : BitVec 5) (a : BitVec 5) (b : BitVec 5) (la : BitVec 4) (fn : BitVec 4) (sz : Bool) (sc : Bool) : wG63 (gWord m d a b la fn sz sc) = fn := by
  unfold wG63 gWord; ext i hi
  simp only [BitVec.getLsbD_append, ← BitVec.getLsbD_eq_getElem, BitVec.getLsbD_extractLsb']
  grind
@[simp] theorem gWord_wLaG (m : BitVec 6) (d : BitVec 5) (a : BitVec 5) (b : BitVec 5) (la : BitVec 4) (fn : BitVec 4) (sz : Bool) (sc : Bool) : wLaG (gWord m d a b la fn sz sc) = la := by
  unfold wLaG gWord; ext i hi
  simp only [BitVec.getLsbD_append, ← BitVec.getLsbD_eq_getElem, BitVec.getLsbD_extractLsb']
  grind
@[simp] theorem gWord_wMaj (m : BitVec 6) (d : BitVec 5) (a : BitVec 5) (b : BitVec 5) (la : BitVec 4) (fn : BitVec 4) (sz : Bool) (sc : Bool) : wMaj (gWord m d a b la fn sz sc) = m := by
  unfold wMaj gWord; ext i hi
  simp only [BitVec.getLsbD_append, ← BitVec.getLsbD_eq_getElem, BitVec.getLsbD_extractLsb']
  grind
@[simp] theorem vWord35_wA (m : BitVec 6) (d : BitVec 5) (a : BitVec 5) (b : BitVec 5) (k : BitVec 3) (t : BitVec 3) (fn : BitVec 5) : wA (vWord35 m d a b k t fn) = a := by
  unfold wA vWord35; ext i hi
  simp only [BitVec.getLsbD_append, ← BitVec.getLsbD_eq_getElem, BitVec.getLsbD_extractLsb']
  grind
@[simp] theorem vWord35_wB (m : BitVec 6) (d : BitVec 5) (a : BitVec 5) (b : BitVec 5) (k : BitVec 3) (t : BitVec 3) (fn : BitVec 5) : wB (vWord35 m d a b k t fn) = b := by
  unfold wB vWord35; ext i hi
  simp only [BitVec.getLsbD_append, ← BitVec.getLsbD_eq_getElem, BitVec.getLsbD_extractLsb']
  grind
@[simp] theorem vWord35_wD (m : BitVec 6) (d : BitVec 5) (a : BitVec 5) (b : BitVec 5) (k : BitVec 3) (t : BitVec 3) (fn : BitVec 5) : wD (vWord35 m d a b k t fn) = d := by
  unfold wD vWord35; ext i hi
  simp only [BitVec.getLsbD_append, ← BitVec.getLsbD_eq_getElem, BitVec.getLsbD_extractLsb']
  grind
@[simp] theorem vWord35_wFn5 (m : BitVec 6) (d : BitVec 5) (a : BitVec 5) (b : BitVec 5) (k : BitVec 3) (t : BitVec 3) (fn : BitVec 5) : wFn5 (vWord35 m d a b k t fn) = fn := by
  unfold wFn5 vWord35; ext i hi
  simp only [BitVec.getLsbD_append, ← BitVec.getLsbD_eq_getElem, BitVec.getLsbD_extractLsb']
  grind
@[simp] theorem vWord35_wMaj (m : BitVec 6) (d : BitVec 5) (a : BitVec 5) (b : BitVec 5) (k : BitVec 3) (t : BitVec 3) (fn : BitVec 5) : wMaj (vWord35 m d a b k t fn) = m := by
  unfold wMaj vWord35; ext i hi
  simp only [BitVec.getLsbD_append, ← BitVec.getLsbD_eq_getElem, BitVec.getLsbD_extractLsb']
  grind
@[simp] theorem vWord35_wMk (m : BitVec 6) (d : BitVec 5) (a : BitVec 5) (b : BitVec 5) (k : BitVec 3) (t : BitVec 3) (fn : BitVec 5) : wMk (vWord35 m d a b k t fn) = k := by
  unfold wMk vWord35; ext i hi
  simp only [BitVec.getLsbD_append, ← BitVec.getLsbD_eq_getElem, BitVec.getLsbD_extractLsb']
  grind
@[simp] theorem vWord35_wT3 (m : BitVec 6) (d : BitVec 5) (a : BitVec 5) (b : BitVec 5) (k : BitVec 3) (t : BitVec 3) (fn : BitVec 5) : wT3 (vWord35 m d a b k t fn) = t := by
  unfold wT3 vWord35; ext i hi
  simp only [BitVec.getLsbD_append, ← BitVec.getLsbD_eq_getElem, BitVec.getLsbD_extractLsb']
  grind
@[simp] theorem vWord233_wA (m : BitVec 6) (d : BitVec 5) (a : BitVec 5) (b : BitVec 5) (k : BitVec 3) (t : BitVec 2) (r : BitVec 3) (fn : BitVec 3) : wA (vWord233 m d a b k t r fn) = a := by
  unfold wA vWord233; ext i hi
  simp only [BitVec.getLsbD_append, ← BitVec.getLsbD_eq_getElem, BitVec.getLsbD_extractLsb']
  grind
@[simp] theorem vWord233_wB (m : BitVec 6) (d : BitVec 5) (a : BitVec 5) (b : BitVec 5) (k : BitVec 3) (t : BitVec 2) (r : BitVec 3) (fn : BitVec 3) : wB (vWord233 m d a b k t r fn) = b := by
  unfold wB vWord233; ext i hi
  simp only [BitVec.getLsbD_append, ← BitVec.getLsbD_eq_getElem, BitVec.getLsbD_extractLsb']
  grind
@[simp] theorem vWord233_wD (m : BitVec 6) (d : BitVec 5) (a : BitVec 5) (b : BitVec 5) (k : BitVec 3) (t : BitVec 2) (r : BitVec 3) (fn : BitVec 3) : wD (vWord233 m d a b k t r fn) = d := by
  unfold wD vWord233; ext i hi
  simp only [BitVec.getLsbD_append, ← BitVec.getLsbD_eq_getElem, BitVec.getLsbD_extractLsb']
  grind
@[simp] theorem vWord233_wFn3 (m : BitVec 6) (d : BitVec 5) (a : BitVec 5) (b : BitVec 5) (k : BitVec 3) (t : BitVec 2) (r : BitVec 3) (fn : BitVec 3) : wFn3 (vWord233 m d a b k t r fn) = fn := by
  unfold wFn3 vWord233; ext i hi
  simp only [BitVec.getLsbD_append, ← BitVec.getLsbD_eq_getElem, BitVec.getLsbD_extractLsb']
  grind
@[simp] theorem vWord233_wFt (m : BitVec 6) (d : BitVec 5) (a : BitVec 5) (b : BitVec 5) (k : BitVec 3) (t : BitVec 2) (r : BitVec 3) (fn : BitVec 3) : wFt (vWord233 m d a b k t r fn) = t := by
  unfold wFt vWord233; ext i hi
  simp only [BitVec.getLsbD_append, ← BitVec.getLsbD_eq_getElem, BitVec.getLsbD_extractLsb']
  grind
@[simp] theorem vWord233_wMaj (m : BitVec 6) (d : BitVec 5) (a : BitVec 5) (b : BitVec 5) (k : BitVec 3) (t : BitVec 2) (r : BitVec 3) (fn : BitVec 3) : wMaj (vWord233 m d a b k t r fn) = m := by
  unfold wMaj vWord233; ext i hi
  simp only [BitVec.getLsbD_append, ← BitVec.getLsbD_eq_getElem, BitVec.getLsbD_extractLsb']
  grind
@[simp] theorem vWord233_wMk (m : BitVec 6) (d : BitVec 5) (a : BitVec 5) (b : BitVec 5) (k : BitVec 3) (t : BitVec 2) (r : BitVec 3) (fn : BitVec 3) : wMk (vWord233 m d a b k t r fn) = k := by
  unfold wMk vWord233; ext i hi
  simp only [BitVec.getLsbD_append, ← BitVec.getLsbD_eq_getElem, BitVec.getLsbD_extractLsb']
  grind
@[simp] theorem vWord233_wRm (m : BitVec 6) (d : BitVec 5) (a : BitVec 5) (b : BitVec 5) (k : BitVec 3) (t : BitVec 2) (r : BitVec 3) (fn : BitVec 3) : wRm (vWord233 m d a b k t r fn) = r := by
  unfold wRm vWord233; ext i hi
  simp only [BitVec.getLsbD_append, ← BitVec.getLsbD_eq_getElem, BitVec.getLsbD_extractLsb']
  grind
@[simp] theorem vWord44_wA (m : BitVec 6) (d : BitVec 5) (a : BitVec 5) (b : BitVec 5) (k : BitVec 3) (t : BitVec 4) (fn : BitVec 4) : wA (vWord44 m d a b k t fn) = a := by
  unfold wA vWord44; ext i hi
  simp only [BitVec.getLsbD_append, ← BitVec.getLsbD_eq_getElem, BitVec.getLsbD_extractLsb']
  grind
@[simp] theorem vWord44_wA3 (m : BitVec 6) (d : BitVec 5) (a : BitVec 5) (b : BitVec 5) (k : BitVec 3) (t : BitVec 4) (fn : BitVec 4) : wA3 (vWord44 m d a b k t fn) = a.extractLsb' 0 3 := by
  unfold wA3 vWord44; ext i hi
  simp only [BitVec.getLsbD_append, ← BitVec.getLsbD_eq_getElem, BitVec.getLsbD_extractLsb']
  grind
@[simp] theorem vWord44_wAHi (m : BitVec 6) (d : BitVec 5) (a : BitVec 5) (b : BitVec 5) (k : BitVec 3) (t : BitVec 4) (fn : BitVec 4) : wAHi (vWord44 m d a b k t fn) = a.extractLsb' 3 2 := by
  unfold wAHi vWord44; ext i hi
  simp only [BitVec.getLsbD_append, ← BitVec.getLsbD_eq_getElem, BitVec.getLsbD_extractLsb']
  grind
@[simp] theorem vWord44_wB (m : BitVec 6) (d : BitVec 5) (a : BitVec 5) (b : BitVec 5) (k : BitVec 3) (t : BitVec 4) (fn : BitVec 4) : wB (vWord44 m d a b k t fn) = b := by
  unfold wB vWord44; ext i hi
  simp only [BitVec.getLsbD_append, ← BitVec.getLsbD_eq_getElem, BitVec.getLsbD_extractLsb']
  grind
@[simp] theorem vWord44_wB3 (m : BitVec 6) (d : BitVec 5) (a : BitVec 5) (b : BitVec 5) (k : BitVec 3) (t : BitVec 4) (fn : BitVec 4) : wB3 (vWord44 m d a b k t fn) = b.extractLsb' 0 3 := by
  unfold wB3 vWord44; ext i hi
  simp only [BitVec.getLsbD_append, ← BitVec.getLsbD_eq_getElem, BitVec.getLsbD_extractLsb']
  grind
@[simp] theorem vWord44_wBHi (m : BitVec 6) (d : BitVec 5) (a : BitVec 5) (b : BitVec 5) (k : BitVec 3) (t : BitVec 4) (fn : BitVec 4) : wBHi (vWord44 m d a b k t fn) = b.extractLsb' 3 2 := by
  unfold wBHi vWord44; ext i hi
  simp only [BitVec.getLsbD_append, ← BitVec.getLsbD_eq_getElem, BitVec.getLsbD_extractLsb']
  grind
@[simp] theorem vWord44_wD (m : BitVec 6) (d : BitVec 5) (a : BitVec 5) (b : BitVec 5) (k : BitVec 3) (t : BitVec 4) (fn : BitVec 4) : wD (vWord44 m d a b k t fn) = d := by
  unfold wD vWord44; ext i hi
  simp only [BitVec.getLsbD_append, ← BitVec.getLsbD_eq_getElem, BitVec.getLsbD_extractLsb']
  grind
@[simp] theorem vWord44_wD3 (m : BitVec 6) (d : BitVec 5) (a : BitVec 5) (b : BitVec 5) (k : BitVec 3) (t : BitVec 4) (fn : BitVec 4) : wD3 (vWord44 m d a b k t fn) = d.extractLsb' 0 3 := by
  unfold wD3 vWord44; ext i hi
  simp only [BitVec.getLsbD_append, ← BitVec.getLsbD_eq_getElem, BitVec.getLsbD_extractLsb']
  grind
@[simp] theorem vWord44_wDHi (m : BitVec 6) (d : BitVec 5) (a : BitVec 5) (b : BitVec 5) (k : BitVec 3) (t : BitVec 4) (fn : BitVec 4) : wDHi (vWord44 m d a b k t fn) = d.extractLsb' 3 2 := by
  unfold wDHi vWord44; ext i hi
  simp only [BitVec.getLsbD_append, ← BitVec.getLsbD_eq_getElem, BitVec.getLsbD_extractLsb']
  grind
@[simp] theorem vWord44_wFn4 (m : BitVec 6) (d : BitVec 5) (a : BitVec 5) (b : BitVec 5) (k : BitVec 3) (t : BitVec 4) (fn : BitVec 4) : wFn4 (vWord44 m d a b k t fn) = fn := by
  unfold wFn4 vWord44; ext i hi
  simp only [BitVec.getLsbD_append, ← BitVec.getLsbD_eq_getElem, BitVec.getLsbD_extractLsb']
  grind
@[simp] theorem vWord44_wMaj (m : BitVec 6) (d : BitVec 5) (a : BitVec 5) (b : BitVec 5) (k : BitVec 3) (t : BitVec 4) (fn : BitVec 4) : wMaj (vWord44 m d a b k t fn) = m := by
  unfold wMaj vWord44; ext i hi
  simp only [BitVec.getLsbD_append, ← BitVec.getLsbD_eq_getElem, BitVec.getLsbD_extractLsb']
  grind
@[simp] theorem vWord44_wMk (m : BitVec 6) (d : BitVec 5) (a : BitVec 5) (b : BitVec 5) (k : BitVec 3) (t : BitVec 4) (fn : BitVec 4) : wMk (vWord44 m d a b k t fn) = k := by
  unfold wMk vWord44; ext i hi
  simp only [BitVec.getLsbD_append, ← BitVec.getLsbD_eq_getElem, BitVec.getLsbD_extractLsb']
  grind
@[simp] theorem vWord44_wT4 (m : BitVec 6) (d : BitVec 5) (a : BitVec 5) (b : BitVec 5) (k : BitVec 3) (t : BitVec 4) (fn : BitVec 4) : wT4 (vWord44 m d a b k t fn) = t := by
  unfold wT4 vWord44; ext i hi
  simp only [BitVec.getLsbD_append, ← BitVec.getLsbD_eq_getElem, BitVec.getLsbD_extractLsb']
  grind
@[simp] theorem vWord431_wA (m : BitVec 6) (d : BitVec 5) (a : BitVec 5) (b : BitVec 5) (k : BitVec 3) (t : BitVec 4) (r : BitVec 3) : wA (vWord431 m d a b k t r) = a := by
  unfold wA vWord431; ext i hi
  simp only [BitVec.getLsbD_append, ← BitVec.getLsbD_eq_getElem, BitVec.getLsbD_extractLsb']
  grind
@[simp] theorem vWord431_wBit0 (m : BitVec 6) (d : BitVec 5) (a : BitVec 5) (b : BitVec 5) (k : BitVec 3) (t : BitVec 4) (r : BitVec 3) : wBit0 (vWord431 m d a b k t r) = 0#1 := by
  unfold wBit0 vWord431; ext i hi
  simp only [BitVec.getLsbD_append, ← BitVec.getLsbD_eq_getElem, BitVec.getLsbD_extractLsb']
  grind
@[simp] theorem vWord431_wD (m : BitVec 6) (d : BitVec 5) (a : BitVec 5) (b : BitVec 5) (k : BitVec 3) (t : BitVec 4) (r : BitVec 3) : wD (vWord431 m d a b k t r) = d := by
  unfold wD vWord431; ext i hi
  simp only [BitVec.getLsbD_append, ← BitVec.getLsbD_eq_getElem, BitVec.getLsbD_extractLsb']
  grind
@[simp] theorem vWord431_wG31 (m : BitVec 6) (d : BitVec 5) (a : BitVec 5) (b : BitVec 5) (k : BitVec 3) (t : BitVec 4) (r : BitVec 3) : wG31 (vWord431 m d a b k t r) = r := by
  unfold wG31 vWord431; ext i hi
  simp only [BitVec.getLsbD_append, ← BitVec.getLsbD_eq_getElem, BitVec.getLsbD_extractLsb']
  grind
@[simp] theorem vWord431_wMaj (m : BitVec 6) (d : BitVec 5) (a : BitVec 5) (b : BitVec 5) (k : BitVec 3) (t : BitVec 4) (r : BitVec 3) : wMaj (vWord431 m d a b k t r) = m := by
  unfold wMaj vWord431; ext i hi
  simp only [BitVec.getLsbD_append, ← BitVec.getLsbD_eq_getElem, BitVec.getLsbD_extractLsb']
  grind
@[simp] theorem vWord431_wMk (m : BitVec 6) (d : BitVec 5) (a : BitVec 5) (b : BitVec 5) (k : BitVec 3) (t : BitVec 4) (r : BitVec 3) : wMk (vWord431 m d a b k t r) = k := by
  unfold wMk vWord431; ext i hi
  simp only [BitVec.getLsbD_append, ← BitVec.getLsbD_eq_getElem, BitVec.getLsbD_extractLsb']
  grind
@[simp] theorem vWord431_wSat (m : BitVec 6) (d : BitVec 5) (a : BitVec 5) (b : BitVec 5) (k : BitVec 3) (t : BitVec 4) (r : BitVec 3) : wSat (vWord431 m d a b k t r) = b.getLsbD 4 := by
  simp only [wSat, vWord431, BitVec.getLsbD_append]; simp
@[simp] theorem vWord431_wT14 (m : BitVec 6) (d : BitVec 5) (a : BitVec 5) (b : BitVec 5) (k : BitVec 3) (t : BitVec 4) (r : BitVec 3) : wT14 (vWord431 m d a b k t r) = b.extractLsb' 0 4 := by
  unfold wT14 vWord431; ext i hi
  simp only [BitVec.getLsbD_append, ← BitVec.getLsbD_eq_getElem, BitVec.getLsbD_extractLsb']
  grind
@[simp] theorem vWord431_wT4 (m : BitVec 6) (d : BitVec 5) (a : BitVec 5) (b : BitVec 5) (k : BitVec 3) (t : BitVec 4) (r : BitVec 3) : wT4 (vWord431 m d a b k t r) = t := by
  unfold wT4 vWord431; ext i hi
  simp only [BitVec.getLsbD_append, ← BitVec.getLsbD_eq_getElem, BitVec.getLsbD_extractLsb']
  grind
@[simp] theorem vWord332_wA (m : BitVec 6) (d : BitVec 5) (a : BitVec 5) (b : BitVec 5) (k : BitVec 3) (q : BitVec 3) (r : BitVec 3) (f : BitVec 2) : wA (vWord332 m d a b k q r f) = a := by
  unfold wA vWord332; ext i hi
  simp only [BitVec.getLsbD_append, ← BitVec.getLsbD_eq_getElem, BitVec.getLsbD_extractLsb']
  grind
@[simp] theorem vWord332_wB (m : BitVec 6) (d : BitVec 5) (a : BitVec 5) (b : BitVec 5) (k : BitVec 3) (q : BitVec 3) (r : BitVec 3) (f : BitVec 2) : wB (vWord332 m d a b k q r f) = b := by
  unfold wB vWord332; ext i hi
  simp only [BitVec.getLsbD_append, ← BitVec.getLsbD_eq_getElem, BitVec.getLsbD_extractLsb']
  grind
@[simp] theorem vWord332_wD (m : BitVec 6) (d : BitVec 5) (a : BitVec 5) (b : BitVec 5) (k : BitVec 3) (q : BitVec 3) (r : BitVec 3) (f : BitVec 2) : wD (vWord332 m d a b k q r f) = d := by
  unfold wD vWord332; ext i hi
  simp only [BitVec.getLsbD_append, ← BitVec.getLsbD_eq_getElem, BitVec.getLsbD_extractLsb']
  grind
@[simp] theorem vWord332_wG42 (m : BitVec 6) (d : BitVec 5) (a : BitVec 5) (b : BitVec 5) (k : BitVec 3) (q : BitVec 3) (r : BitVec 3) (f : BitVec 2) : wG42 (vWord332 m d a b k q r f) = r := by
  unfold wG42 vWord332; ext i hi
  simp only [BitVec.getLsbD_append, ← BitVec.getLsbD_eq_getElem, BitVec.getLsbD_extractLsb']
  grind
@[simp] theorem vWord332_wMaj (m : BitVec 6) (d : BitVec 5) (a : BitVec 5) (b : BitVec 5) (k : BitVec 3) (q : BitVec 3) (r : BitVec 3) (f : BitVec 2) : wMaj (vWord332 m d a b k q r f) = m := by
  unfold wMaj vWord332; ext i hi
  simp only [BitVec.getLsbD_append, ← BitVec.getLsbD_eq_getElem, BitVec.getLsbD_extractLsb']
  grind
@[simp] theorem vWord332_wMk (m : BitVec 6) (d : BitVec 5) (a : BitVec 5) (b : BitVec 5) (k : BitVec 3) (q : BitVec 3) (r : BitVec 3) (f : BitVec 2) : wMk (vWord332 m d a b k q r f) = k := by
  unfold wMk vWord332; ext i hi
  simp only [BitVec.getLsbD_append, ← BitVec.getLsbD_eq_getElem, BitVec.getLsbD_extractLsb']
  grind
@[simp] theorem vWord332_wQf (m : BitVec 6) (d : BitVec 5) (a : BitVec 5) (b : BitVec 5) (k : BitVec 3) (q : BitVec 3) (r : BitVec 3) (f : BitVec 2) : wQf (vWord332 m d a b k q r f) = f := by
  unfold wQf vWord332; ext i hi
  simp only [BitVec.getLsbD_append, ← BitVec.getLsbD_eq_getElem, BitVec.getLsbD_extractLsb']
  grind
@[simp] theorem vWord332_wT3 (m : BitVec 6) (d : BitVec 5) (a : BitVec 5) (b : BitVec 5) (k : BitVec 3) (q : BitVec 3) (r : BitVec 3) (f : BitVec 2) : wT3 (vWord332 m d a b k q r f) = q := by
  unfold wT3 vWord332; ext i hi
  simp only [BitVec.getLsbD_append, ← BitVec.getLsbD_eq_getElem, BitVec.getLsbD_extractLsb']
  grind
@[simp] theorem vWord422_wA (m : BitVec 6) (d : BitVec 5) (a : BitVec 5) (b : BitVec 5) (k : BitVec 3) (la : BitVec 4) (e : BitVec 2) (f : BitVec 2) : wA (vWord422 m d a b k la e f) = a := by
  unfold wA vWord422; ext i hi
  simp only [BitVec.getLsbD_append, ← BitVec.getLsbD_eq_getElem, BitVec.getLsbD_extractLsb']
  grind
@[simp] theorem vWord422_wB (m : BitVec 6) (d : BitVec 5) (a : BitVec 5) (b : BitVec 5) (k : BitVec 3) (la : BitVec 4) (e : BitVec 2) (f : BitVec 2) : wB (vWord422 m d a b k la e f) = b := by
  unfold wB vWord422; ext i hi
  simp only [BitVec.getLsbD_append, ← BitVec.getLsbD_eq_getElem, BitVec.getLsbD_extractLsb']
  grind
@[simp] theorem vWord422_wBit2 (m : BitVec 6) (d : BitVec 5) (a : BitVec 5) (b : BitVec 5) (k : BitVec 3) (la : BitVec 4) (e : BitVec 2) (f : BitVec 2) : wBit2 (vWord422 m d a b k la e f) = e.extractLsb' 0 1 := by
  unfold wBit2 vWord422; ext i hi
  simp only [BitVec.getLsbD_append, ← BitVec.getLsbD_eq_getElem, BitVec.getLsbD_extractLsb']
  grind
@[simp] theorem vWord422_wBit3 (m : BitVec 6) (d : BitVec 5) (a : BitVec 5) (b : BitVec 5) (k : BitVec 3) (la : BitVec 4) (e : BitVec 2) (f : BitVec 2) : wBit3 (vWord422 m d a b k la e f) = e.extractLsb' 1 1 := by
  unfold wBit3 vWord422; ext i hi
  simp only [BitVec.getLsbD_append, ← BitVec.getLsbD_eq_getElem, BitVec.getLsbD_extractLsb']
  grind
@[simp] theorem vWord422_wD (m : BitVec 6) (d : BitVec 5) (a : BitVec 5) (b : BitVec 5) (k : BitVec 3) (la : BitVec 4) (e : BitVec 2) (f : BitVec 2) : wD (vWord422 m d a b k la e f) = d := by
  unfold wD vWord422; ext i hi
  simp only [BitVec.getLsbD_append, ← BitVec.getLsbD_eq_getElem, BitVec.getLsbD_extractLsb']
  grind
@[simp] theorem vWord422_wMaj (m : BitVec 6) (d : BitVec 5) (a : BitVec 5) (b : BitVec 5) (k : BitVec 3) (la : BitVec 4) (e : BitVec 2) (f : BitVec 2) : wMaj (vWord422 m d a b k la e f) = m := by
  unfold wMaj vWord422; ext i hi
  simp only [BitVec.getLsbD_append, ← BitVec.getLsbD_eq_getElem, BitVec.getLsbD_extractLsb']
  grind
@[simp] theorem vWord422_wMk (m : BitVec 6) (d : BitVec 5) (a : BitVec 5) (b : BitVec 5) (k : BitVec 3) (la : BitVec 4) (e : BitVec 2) (f : BitVec 2) : wMk (vWord422 m d a b k la e f) = k := by
  unfold wMk vWord422; ext i hi
  simp only [BitVec.getLsbD_append, ← BitVec.getLsbD_eq_getElem, BitVec.getLsbD_extractLsb']
  grind
@[simp] theorem vWord422_wQf (m : BitVec 6) (d : BitVec 5) (a : BitVec 5) (b : BitVec 5) (k : BitVec 3) (la : BitVec 4) (e : BitVec 2) (f : BitVec 2) : wQf (vWord422 m d a b k la e f) = f := by
  unfold wQf vWord422; ext i hi
  simp only [BitVec.getLsbD_append, ← BitVec.getLsbD_eq_getElem, BitVec.getLsbD_extractLsb']
  grind
@[simp] theorem vWord422_wT4 (m : BitVec 6) (d : BitVec 5) (a : BitVec 5) (b : BitVec 5) (k : BitVec 3) (la : BitVec 4) (e : BitVec 2) (f : BitVec 2) : wT4 (vWord422 m d a b k la e f) = la := by
  unfold wT4 vWord422; ext i hi
  simp only [BitVec.getLsbD_append, ← BitVec.getLsbD_eq_getElem, BitVec.getLsbD_extractLsb']
  grind

/-! ### Fields that hold more than one thing -/

@[simp] theorem encM_low (r : MReg) : (encM r).extractLsb' 0 3 = r := by revert r; decide
@[simp] theorem encM_high (r : MReg) : (encM r).extractLsb' 3 2 = 0#2 := by revert r; decide
@[simp] theorem encLaR_low (l : BitVec 4) : (encLaR l).extractLsb' 0 4 = l := by revert l; decide
@[simp] theorem encLaR_high (l : BitVec 4) : (encLaR l).extractLsb' 4 1 = 0#1 := by revert l; decide
@[simp] theorem encShift_amount (sel : BitVec 2) (n : BitVec 6) : (encShift sel n).extractLsb' 0 6 = n := by
  revert sel n; decide
@[simp] theorem encShift_sel (sel : BitVec 2) (n : BitVec 6) : (encShift sel n).extractLsb' 6 2 = sel := by
  revert sel n; decide
@[simp] theorem encShift_high (sel : BitVec 2) (n : BitVec 6) : (encShift sel n).extractLsb' 8 8 = 0#8 := by
  revert sel n; decide
@[simp] theorem encSatT_sat (s : Bool) (u : ElemTy) : (encSatT s u)[4] = s := by cases s <;> cases u <;> rfl
@[simp] theorem encSatT_low (s : Bool) (u : ElemTy) : (encSatT s u).extractLsb' 0 4 = u.code := by cases s <;> cases u <;> rfl
@[simp] theorem encBar_scope (g : Bool) (n : BitVec 4) : (encBar g n)[4] = g := by revert g n; decide
@[simp] theorem encBar_low (g : Bool) (n : BitVec 4) : (encBar g n).extractLsb' 0 4 = n := by revert g n; decide
@[simp] theorem encW_high (e : MemW) : (encW e).extractLsb' 1 1 = 1#1 := by cases e <;> rfl
@[simp] theorem encW_low (e : MemW) : MemW.ofBit ((encW e).extractLsb' 0 1) = e := by cases e <;> rfl
@[simp] theorem encX86_low (i : BitVec 3) : (encX86 i).extractLsb' 0 3 = i := by revert i; decide
@[simp] theorem encX86_high (i : BitVec 3) : (encX86 i).extractLsb' 3 2 = 0#2 := by revert i; decide
@[simp] theorem encX_low (h : BitVec 3) (l : BitVec 2) : (encX h l).extractLsb' 0 2 = l := by revert h l; decide
@[simp] theorem encX_high (h : BitVec 3) (l : BitVec 2) : (encX h l).extractLsb' 2 3 = h := by revert h l; decide
@[simp] theorem encTrap_join (n : BitVec 10) : encTrapHi n ++ encTrapLo n = n := by
  unfold encTrapHi encTrapLo; ext i hi
  simp only [BitVec.getLsbD_append, ← BitVec.getLsbD_eq_getElem, BitVec.getLsbD_extractLsb']; grind
@[simp] theorem encCsr_num (op : BitVec 4) (c : Csr) : (encCsr op c).extractLsb' 0 12 = c.num := by
  unfold encCsr; ext i hi
  simp only [BitVec.getLsbD_append, ← BitVec.getLsbD_eq_getElem, BitVec.getLsbD_extractLsb']
  grind
@[simp] theorem encCsr_op (op : BitVec 4) (c : Csr) : (encCsr op c).extractLsb' 12 4 = op := by
  unfold encCsr; ext i hi
  simp only [BitVec.getLsbD_append, ← BitVec.getLsbD_eq_getElem, BitVec.getLsbD_extractLsb']
  grind

/-! ### Codes -/

@[simp] theorem MemType.ofCode_code (z : MemType) : MemType.ofCode z.code = some z := by cases z <;> rfl
@[simp] theorem MemW.ofBit_bit (z : MemW) : MemW.ofBit (BitVec.ofBool z.bit) = z := by cases z <;> rfl
@[simp] theorem AScope.ofBit_bit (c : AScope) : AScope.ofBit (BitVec.ofBool c.bit) = c := by cases c <;> rfl
@[simp] theorem Level.ofCode_code (v : Level) : Level.ofCode (BitVec.ofBool v.code.1 ++ BitVec.ofBool v.code.2) = some v := by
  cases v <;> rfl
@[simp] theorem FScope.ofCode_code (c : FScope) : FScope.ofCode c.code = c := by cases c <;> rfl
@[simp] theorem IntTy.ofCode_code (t : IntTy) : IntTy.ofCode t.code = t := by cases t <;> rfl
@[simp] theorem FloatTy.ofCode_code (t : FloatTy) : FloatTy.ofCode t.code = t := by cases t <;> rfl
@[simp] theorem ElemTy.ofCode_code (t : ElemTy) : ElemTy.ofCode t.code = t := by cases t <;> rfl
@[simp] theorem QuantTy.ofCode_code (q : QuantTy) : QuantTy.ofCode q.code = some q := by cases q <;> rfl
@[simp] theorem ElemSize.ofCode_code (e : ElemSize) : ElemSize.ofCode e.code = some e := by cases e <;> rfl
@[simp] theorem Rm.ofCode_code (r : Rm) : Rm.ofCode r.code = some r := by cases r <;> rfl
@[simp] theorem QueueId.ofCode_code (q : QueueId) : QueueId.ofCode q.code4 = some q := by cases q <;> rfl
@[simp] theorem Csr.ofNum_num (c : Csr) : Csr.ofNum c.num = some c := by cases c <;> first | rfl | (rename_i q; cases q <;> rfl)
@[simp] theorem Role.ofBit_bit (r : Role) : Role.ofBit r.bit = r := by cases r <;> rfl
@[simp] theorem Dk.ofCode_code (k : Dk) : Dk.ofCode k.code = some k := by cases k <;> rfl
@[simp] theorem GaOp.ofCode_code (o : GaOp) : GaOp.ofCode o.code = o := by cases o <;> rfl
@[simp] theorem GaTy.ofCode_code (t : GaTy) : GaTy.ofCode t.code = some t := by cases t <;> rfl
@[simp] theorem MiMode.ofCode_code (m : MiMode) : MiMode.ofCode m.code = some m := by cases m <;> rfl
@[simp] theorem endOfClass_code (e : End) : endOfClass e.code4 = e := by cases e <;> rfl

/-! ### Slots of engine words -/

@[simp] theorem e0_maj (c : BitVec 4) (o : BitVec 6) (l : BitVec 4) (p : BitVec 12) : wMaj (e0 c o l p) = 0x3F := by
  unfold wMaj e0; ext i hi
  simp only [BitVec.getLsbD_append, ← BitVec.getLsbD_eq_getElem, BitVec.getLsbD_extractLsb']
  grind
@[simp] theorem e0_class (c : BitVec 4) (o : BitVec 6) (l : BitVec 4) (p : BitVec 12) : eClass (e0 c o l p) = c := by
  unfold eClass e0; ext i hi
  simp only [BitVec.getLsbD_append, ← BitVec.getLsbD_eq_getElem, BitVec.getLsbD_extractLsb']
  grind
@[simp] theorem e0_op (c : BitVec 4) (o : BitVec 6) (l : BitVec 4) (p : BitVec 12) : eOp (e0 c o l p) = o := by
  unfold eOp e0; ext i hi
  simp only [BitVec.getLsbD_append, ← BitVec.getLsbD_eq_getElem, BitVec.getLsbD_extractLsb']
  grind
@[simp] theorem e0_la (c : BitVec 4) (o : BitVec 6) (l : BitVec 4) (p : BitVec 12) : eLa (e0 c o l p) = l := by
  unfold eLa e0; ext i hi
  simp only [BitVec.getLsbD_append, ← BitVec.getLsbD_eq_getElem, BitVec.getLsbD_extractLsb']
  grind
/-- A SPEC bit of slot 0. -/
theorem e0_bit (c : BitVec 4) (o : BitVec 6) (l : BitVec 4) (p : BitVec 12) (i : Nat) (h : i < 12) :
    eBit (e0 c o l p) i = p.getLsbD i := by
  simp only [eBit, e0, BitVec.getLsbD_append]; grind
/-- A SPEC field of slot 0. -/
theorem e0_field (c : BitVec 4) (o : BitVec 6) (l : BitVec 4) (p : BitVec 12) (i n : Nat) (h : i + n ≤ 12) :
    (e0 c o l p).extractLsb' i n = p.extractLsb' i n := by
  unfold e0; ext j hj
  simp only [BitVec.getLsbD_append, ← BitVec.getLsbD_eq_getElem, BitVec.getLsbD_extractLsb']; grind
@[simp] theorem slotNone_zero (j : Nat) : slotNone j 0#32 = .ok () := rfl
@[simp] theorem sKind_encReg (r : SReg) : sKind (encReg r) = 2#2 := by revert r; decide
@[simp] theorem sRegHi_encReg (r : SReg) : sRegHi (encReg r) = 0#25 := by revert r; decide
@[simp] theorem sReg_encReg (r : SReg) : sReg (encReg r) = r := by revert r; decide
@[simp] theorem slotReg_encReg (j : Nat) (r : SReg) : slotReg j (encReg r) = .ok r := by simp [slotReg]
/-- A KIND 1 slot and its BODY. -/
theorem encImm_kind (v : BitVec 30) : sKind (1#2 ++ v) = 1 := by
  unfold sKind; ext i hi
  simp only [BitVec.getLsbD_append, ← BitVec.getLsbD_eq_getElem, BitVec.getLsbD_extractLsb']; grind
@[inherit_doc encImm_kind] theorem encImm_body (v : BitVec 30) : sBody (1#2 ++ v) = v := by
  unfold sBody; ext i hi
  simp only [BitVec.getLsbD_append, ← BitVec.getLsbD_eq_getElem, BitVec.getLsbD_extractLsb']; grind
@[simp] theorem slotOp_encOp (j : Nat) (x : EOp) : slotOp j (encOp x) = .ok x := by
  cases x with
  | imm v => simp [slotOp, encOp, encImm, encImm_kind, encImm_body]
  | reg r => simp [slotOp, encOp, Except.map]
@[simp] theorem need_true (j : Nat) (w : Why) : need j w true = .ok () := rfl
/-- CLASS 0 to 3 are the Prism words. -/
theorem decodeEngine_prism (e : End) (o : BitVec 6) (l : BitVec 4) (p : BitVec 12) (s1 s2 s3 s4 s5 s6 s7 : W32) :
    decodeEngine (e0 e.code4 o l p) s1 s2 s3 s4 s5 s6 s7 = decPrism (e0 e.code4 o l p) s1 s2 s3 s4 s5 s6 s7 := by
  cases e <;> simp [decodeEngine, End.code4]
/-- Slot 3 of `kick` reads back. -/
theorem slotKick_encKick (k : KOp) : slotKick (encKick k) = .ok k := by
  cases k with
  | reg r => simp [slotKick, encKick, Except.map]
  | imm hi rc tag =>
    have f0 : sKind (1#2 ++ hi ++ rc ++ tag) = 1#2 := by
      unfold sKind; ext j hj
      simp only [BitVec.getLsbD_append, ← BitVec.getLsbD_eq_getElem, BitVec.getLsbD_extractLsb']; grind
    have f1 : (1#2 ++ hi ++ rc ++ tag).extractLsb' 28 2 = hi := by
      ext j hj
      simp only [BitVec.getLsbD_append, ← BitVec.getLsbD_eq_getElem, BitVec.getLsbD_extractLsb']; grind
    have f2 : (1#2 ++ hi ++ rc ++ tag).extractLsb' 16 12 = rc := by
      ext j hj
      simp only [BitVec.getLsbD_append, ← BitVec.getLsbD_eq_getElem, BitVec.getLsbD_extractLsb']; grind
    have f3 : (1#2 ++ hi ++ rc ++ tag).extractLsb' 0 16 = tag := by
      ext j hj
      simp only [BitVec.getLsbD_append, ← BitVec.getLsbD_eq_getElem, BitVec.getLsbD_extractLsb']; grind
    simp_all [slotKick, encKick]

end Sys2Proof
end

