-- ==== Sys2Proof/Laws/Mem.lean ====
section
/-!
SUPPORT. Memory: every operation on the list of bytes keeps its canonical form, and a read after a write gives what was written at
that location and what was there at any other.
-/
namespace Sys2Proof.Machine

/-! ### The canonical form -/

theorem Cells.wfFrom_mono {lo lo' : Nat} {m : Cells} (h : lo' ≤ lo) (w : Cells.wfFrom lo m = true) : Cells.wfFrom lo' m = true := by
  cases m with
  | nil => rfl
  | cons c m => obtain ⟨a, b⟩ := c; simp only [Cells.wfFrom, Bool.and_eq_true, decide_eq_true_eq] at *; exact ⟨⟨by omega, w.1.2⟩, w.2⟩
theorem Cells.put_wfFrom {b : Byte} (hb : b ≠ unlisted) :
    ∀ {m : Cells} {lo k : Nat}, Cells.wfFrom lo m = true → lo ≤ k → Cells.wfFrom lo (m.put k b) = true
  | [], lo, k, _, hk => by simp [Cells.put, Cells.wfFrom, hb, hk]
  | (a, x) :: m, lo, k, h, hk => by
    simp only [Cells.wfFrom, Bool.and_eq_true, decide_eq_true_eq] at h
    unfold Cells.put
    split
    · next e => subst e; simp [Cells.wfFrom, hb, hk, h.2]
    split
    · simp only [Cells.wfFrom, Bool.and_eq_true, decide_eq_true_eq]; exact ⟨⟨hk, hb⟩, ⟨by omega, h.1.2⟩, h.2⟩
    · simp only [Cells.wfFrom, Bool.and_eq_true, decide_eq_true_eq]; exact ⟨h.1, Cells.put_wfFrom hb h.2 (by omega)⟩
theorem Cells.erase_wfFrom : ∀ {m : Cells} {lo k : Nat}, Cells.wfFrom lo m = true → Cells.wfFrom lo (m.erase k) = true
  | [], _, _, _ => rfl
  | (a, x) :: m, lo, k, h => by
    have h' := h
    simp only [Cells.wfFrom, Bool.and_eq_true, decide_eq_true_eq] at h
    unfold Cells.erase
    split
    · exact Cells.wfFrom_mono (by omega) h.2
    split
    · exact h'
    · simp only [Cells.wfFrom, Bool.and_eq_true, decide_eq_true_eq]; exact ⟨h.1, Cells.erase_wfFrom h.2⟩
/-- A write keeps the canonical form. -/
theorem Cells.write_wf {m : Cells} (h : Memory.wf m = true) (a : Nat) (b : Byte) : Memory.wf (m.write a b) = true := by
  unfold Cells.write
  split
  · exact Cells.erase_wfFrom h
  · next hb => exact Cells.put_wfFrom hb h (Nat.zero_le _)
theorem Cells.foldl_write_wf {α : Type} (f : α → Nat) (g : α → Byte) : ∀ (l : List α) {m : Cells}, Memory.wf m = true →
    Memory.wf (l.foldl (fun m c => m.write (f c) (g c)) m) = true
  | [], _, h => h
  | _ :: l, _, h => Cells.foldl_write_wf f g l (Cells.write_wf h _ _)
theorem Cells.wfFrom_iff {lo : Nat} {m : Cells} :
    Cells.wfFrom lo m = true ↔ (∀ c ∈ m, lo ≤ c.1 ∧ c.2 ≠ unlisted) ∧ m.Pairwise fun c d => c.1 < d.1 := by
  induction m generalizing lo with
  | nil => simp [Cells.wfFrom]
  | cons c m ih =>
    obtain ⟨a, b⟩ := c
    simp only [Cells.wfFrom, Bool.and_eq_true, decide_eq_true_eq, ih, List.forall_mem_cons, List.pairwise_cons]
    constructor
    · rintro ⟨⟨h1, h2⟩, h3, h4⟩
      exact ⟨⟨⟨h1, h2⟩, fun c hc => ⟨by have := (h3 c hc).1; omega, (h3 c hc).2⟩⟩, fun c hc => by have := (h3 c hc).1; omega, h4⟩
    · rintro ⟨⟨⟨h1, h2⟩, h3⟩, h4, h5⟩
      exact ⟨⟨h1, h2⟩, fun c hc => ⟨by have := h4 c hc; omega, (h3 c hc).2⟩, h5⟩
/-- Taking entries out keeps the canonical form. -/
theorem Cells.filter_wf {m : Cells} (h : Memory.wf m = true) (p : Host.Cell → Bool) : Memory.wf (m.filter p) = true := by
  rw [Memory.wf, Cells.wfFrom_iff] at *
  exact ⟨fun c hc => h.1 c ((List.mem_filter.mp hc).1), h.2.filter p⟩

/-! ### Reading after writing -/

theorem Cells.get?_put (m : Cells) (a k : Nat) (b : Byte) : (m.put a b).get? k = if k = a then some b else m.get? k := by
  induction m with
  | nil => grind [Cells.put, Cells.get?]
  | cons c m ih => obtain ⟨x, y⟩ := c; grind [Cells.put, Cells.get?]
theorem Cells.get?_of_lt {m : Cells} : ∀ {lo k : Nat}, Cells.wfFrom lo m = true → k < lo → m.get? k = none := by
  induction m with
  | nil => intros; rfl
  | cons c m ih =>
    intro lo k h hk
    obtain ⟨a, b⟩ := c
    simp only [Cells.wfFrom, Bool.and_eq_true, decide_eq_true_eq] at h
    simp only [Cells.get?]; split
    · omega
    · split
      · rfl
      · exact ih h.2 (by omega)
theorem Cells.get?_erase {m : Cells} : ∀ {lo : Nat}, Cells.wfFrom lo m = true → ∀ a k : Nat,
    (m.erase a).get? k = if k = a then none else m.get? k := by
  induction m with
  | nil => intro lo h a k; simp [Cells.erase, Cells.get?]
  | cons c m ih =>
    intro lo h a k
    obtain ⟨x, y⟩ := c
    simp only [Cells.wfFrom, Bool.and_eq_true, decide_eq_true_eq] at h
    have hlt : ∀ q, q < x + 1 → Cells.get? m q = none := fun q hq => Cells.get?_of_lt h.2 hq
    have := ih h.2 a k
    grind [Cells.erase, Cells.get?]
/-- A byte read after a write (R138): what was written there, and what was there elsewhere. -/
theorem Cells.read_write {m : Cells} (h : Memory.wf m = true) (a k : Nat) (b : Byte) :
    (m.write a b).read k = if k = a then b else m.read k := by
  unfold Cells.write Cells.read
  split
  · next e => rw [Cells.get?_erase h]; split <;> simp_all
  · rw [Cells.get?_put]; split <;> simp_all

end Sys2Proof.Machine
end

