-- ==== Sys2Proof/Laws/Ops.lean ====
section
/-!
SUPPORT. The shared operations, one lemma each: what ending windows, delivering an exception, translating through a pin, reading, storing
and pushing answer on a state. Proofs about instructions cite these and do not unfold the operations.
-/
namespace Sys2Proof.Machine

/-! ### Windows -/

theorem Ctx.settle_eq (x : Ctx) (w : Window) : ∃ s v bad, x.settle w = { x with s := s, v := v, bad := bad } := by
  unfold Ctx.settle; split
  · exact ⟨_, _, _, rfl⟩
  split
  · split <;> exact ⟨_, _, _, rfl⟩
  · exact ⟨_, _, _, rfl⟩
  · exact ⟨_, _, _, rfl⟩
theorem Ctx.foldl_settle_eq (l : List Window) (x : Ctx) : ∃ s v bad, l.foldl Ctx.settle x = { x with s := s, v := v, bad := bad } := by
  induction l generalizing x with
  | nil => exact ⟨_, _, _, rfl⟩
  | cons w l ih =>
    obtain ⟨s, v, bad, h⟩ := ih (x.settle w)
    obtain ⟨s', v', bad', h'⟩ := x.settle_eq w
    exact ⟨s, v, bad, by rw [List.foldl_cons, h, h']⟩
/-- Ending windows changes registers, their error marks and the windows only. -/
theorem Ctx.closeWindows_eq (x : Ctx) (all : Bool) :
    ∃ s v bad win, x.closeWindows all = { x with s := s, v := v, bad := bad, win := win } := by
  obtain ⟨s, v, bad, h⟩ := Ctx.foldl_settle_eq (x.win.filter fun w => (all || decide (w.left = 0)) && !w.awaits) x
  exact ⟨s, v, bad, (x.closeWindows all).win, by simp only [Ctx.closeWindows, h]⟩
@[simp] theorem Ctx.closeWindows_num (x : Ctx) (all : Bool) : (x.closeWindows all).num = x.num := by
  obtain ⟨_, _, _, _, h⟩ := x.closeWindows_eq all; rw [h]
@[simp] theorem Ctx.closeWindows_st (x : Ctx) (all : Bool) : (x.closeWindows all).st = x.st := by
  obtain ⟨_, _, _, _, h⟩ := x.closeWindows_eq all; rw [h]
@[simp] theorem Ctx.closeWindows_m (x : Ctx) (all : Bool) : (x.closeWindows all).m = x.m := by
  obtain ⟨_, _, _, _, h⟩ := x.closeWindows_eq all; rw [h]
@[simp] theorem Ctx.closeWindows_pc (x : Ctx) (all : Bool) : (x.closeWindows all).pc = x.pc := by
  obtain ⟨_, _, _, _, h⟩ := x.closeWindows_eq all; rw [h]
@[simp] theorem Ctx.closeWindows_mode (x : Ctx) (all : Bool) : (x.closeWindows all).mode = x.mode := by
  obtain ⟨_, _, _, _, h⟩ := x.closeWindows_eq all; rw [h]
@[simp] theorem Ctx.closeWindows_taskid (x : Ctx) (all : Bool) : (x.closeWindows all).taskid = x.taskid := by
  obtain ⟨_, _, _, _, h⟩ := x.closeWindows_eq all; rw [h]
@[simp] theorem Ctx.closeWindows_age (x : Ctx) (all : Bool) : (x.closeWindows all).age = x.age := by
  obtain ⟨_, _, _, _, h⟩ := x.closeWindows_eq all; rw [h]
@[simp] theorem Ctx.closeWindows_tile (x : Ctx) (all : Bool) : (x.closeWindows all).tile = x.tile := by
  obtain ⟨_, _, _, _, h⟩ := x.closeWindows_eq all; rw [h]
@[simp] theorem Ctx.closeWindows_budget (x : Ctx) (all : Bool) : (x.closeWindows all).budget = x.budget := by
  obtain ⟨_, _, _, _, h⟩ := x.closeWindows_eq all; rw [h]
@[simp] theorem Ctx.closeWindows_rmode (x : Ctx) (all : Bool) : (x.closeWindows all).rmode = x.rmode := by
  obtain ⟨_, _, _, _, h⟩ := x.closeWindows_eq all; rw [h]
@[simp] theorem Ctx.closeWindows_qmode (x : Ctx) (all : Bool) : (x.closeWindows all).qmode = x.qmode := by
  obtain ⟨_, _, _, _, h⟩ := x.closeWindows_eq all; rw [h]
@[simp] theorem Ctx.closeWindows_fstat (x : Ctx) (all : Bool) : (x.closeWindows all).fstat = x.fstat := by
  obtain ⟨_, _, _, _, h⟩ := x.closeWindows_eq all; rw [h]
@[simp] theorem Ctx.closeWindows_vprog (x : Ctx) (all : Bool) : (x.closeWindows all).vprog = x.vprog := by
  obtain ⟨_, _, _, _, h⟩ := x.closeWindows_eq all; rw [h]
@[simp] theorem Ctx.closeWindows_fltinfo (x : Ctx) (all : Bool) : (x.closeWindows all).fltinfo = x.fltinfo := by
  obtain ⟨_, _, _, _, h⟩ := x.closeWindows_eq all; rw [h]
@[simp] theorem Ctx.closeWindows_fltaddr (x : Ctx) (all : Bool) : (x.closeWindows all).fltaddr = x.fltaddr := by
  obtain ⟨_, _, _, _, h⟩ := x.closeWindows_eq all; rw [h]
@[simp] theorem Ctx.closeWindows_upsrc (x : Ctx) (all : Bool) : (x.closeWindows all).upsrc = x.upsrc := by
  obtain ⟨_, _, _, _, h⟩ := x.closeWindows_eq all; rw [h]
@[simp] theorem Ctx.closeWindows_mirth (x : Ctx) (all : Bool) : (x.closeWindows all).mirth = x.mirth := by
  obtain ⟨_, _, _, _, h⟩ := x.closeWindows_eq all; rw [h]
@[simp] theorem Ctx.closeWindows_mirrun (x : Ctx) (all : Bool) : (x.closeWindows all).mirrun = x.mirrun := by
  obtain ⟨_, _, _, _, h⟩ := x.closeWindows_eq all; rw [h]
@[simp] theorem Ctx.closeWindows_tvec (x : Ctx) (all : Bool) : (x.closeWindows all).tvec = x.tvec := by
  obtain ⟨_, _, _, _, h⟩ := x.closeWindows_eq all; rw [h]
@[simp] theorem Ctx.closeWindows_tepc (x : Ctx) (all : Bool) : (x.closeWindows all).tepc = x.tepc := by
  obtain ⟨_, _, _, _, h⟩ := x.closeWindows_eq all; rw [h]
@[simp] theorem Ctx.closeWindows_tcause (x : Ctx) (all : Bool) : (x.closeWindows all).tcause = x.tcause := by
  obtain ⟨_, _, _, _, h⟩ := x.closeWindows_eq all; rw [h]
@[simp] theorem Ctx.closeWindows_tscr (x : Ctx) (all : Bool) : (x.closeWindows all).tscr = x.tscr := by
  obtain ⟨_, _, _, _, h⟩ := x.closeWindows_eq all; rw [h]
@[simp] theorem Ctx.closeWindows_tcb (x : Ctx) (all : Bool) : (x.closeWindows all).tcb = x.tcb := by
  obtain ⟨_, _, _, _, h⟩ := x.closeWindows_eq all; rw [h]
@[simp] theorem Ctx.closeWindows_task (x : Ctx) (all : Bool) : (x.closeWindows all).task = x.task := by
  obtain ⟨_, _, _, _, h⟩ := x.closeWindows_eq all; rw [h]
@[simp] theorem Ctx.closeWindows_lens (x : Ctx) (all : Bool) : (x.closeWindows all).lens = x.lens := by
  obtain ⟨_, _, _, _, h⟩ := x.closeWindows_eq all; rw [h]
@[simp] theorem Ctx.closeWindows_absorb (x : Ctx) (all : Bool) : (x.closeWindows all).absorb = x.absorb := by
  obtain ⟨_, _, _, _, h⟩ := x.closeWindows_eq all; rw [h]
@[simp] theorem Ctx.closeWindows_sets (x : Ctx) (all : Bool) : (x.closeWindows all).sets = x.sets := by
  obtain ⟨_, _, _, _, h⟩ := x.closeWindows_eq all; rw [h]
@[simp] theorem Ctx.closeWindows_log (x : Ctx) (all : Bool) : (x.closeWindows all).log = x.log := by
  obtain ⟨_, _, _, _, h⟩ := x.closeWindows_eq all; rw [h]
@[simp] theorem Ctx.closeWindows_outbox (x : Ctx) (all : Bool) : (x.closeWindows all).outbox = x.outbox := by
  obtain ⟨_, _, _, _, h⟩ := x.closeWindows_eq all; rw [h]
@[simp] theorem Ctx.closeWindows_restarts (x : Ctx) (all : Bool) : (x.closeWindows all).restarts = x.restarts := by
  obtain ⟨_, _, _, _, h⟩ := x.closeWindows_eq all; rw [h]
@[simp] theorem Ctx.closeWindows_grace (x : Ctx) (all : Bool) : (x.closeWindows all).grace = x.grace := by
  obtain ⟨_, _, _, _, h⟩ := x.closeWindows_eq all; rw [h]
@[simp] theorem Ctx.closeWindows_restartMark (x : Ctx) (all : Bool) : (x.closeWindows all).restartMark = x.restartMark := by
  obtain ⟨_, _, _, _, h⟩ := x.closeWindows_eq all; rw [h]
@[simp] theorem Ctx.closeWindows_parkSeq (x : Ctx) (all : Bool) : (x.closeWindows all).parkSeq = x.parkSeq := by
  obtain ⟨_, _, _, _, h⟩ := x.closeWindows_eq all; rw [h]
@[simp] theorem Ctx.closeWindows_failNotice (x : Ctx) (all : Bool) : (x.closeWindows all).failNotice = x.failNotice := by
  obtain ⟨_, _, _, _, h⟩ := x.closeWindows_eq all; rw [h]
@[simp] theorem Ctx.closeWindows_excMode (x : Ctx) (all : Bool) : (x.closeWindows all).excMode = x.excMode := by
  obtain ⟨_, _, _, _, h⟩ := x.closeWindows_eq all; rw [h]
@[simp] theorem Ctx.closeWindows_reporting (x : Ctx) (all : Bool) : (x.closeWindows all).reporting = x.reporting := by
  obtain ⟨_, _, _, _, h⟩ := x.closeWindows_eq all; rw [h]
@[simp] theorem Ctx.closeWindows_woke (x : Ctx) (all : Bool) : (x.closeWindows all).woke = x.woke := by
  obtain ⟨_, _, _, _, h⟩ := x.closeWindows_eq all; rw [h]
@[simp] theorem Ctx.closeWindows_wfeOn (x : Ctx) (all : Bool) : (x.closeWindows all).wfeOn = x.wfeOn := by
  obtain ⟨_, _, _, _, h⟩ := x.closeWindows_eq all; rw [h]
@[simp] theorem Ctx.closeWindows_lockWait (x : Ctx) (all : Bool) : (x.closeWindows all).lockWait = x.lockWait := by
  obtain ⟨_, _, _, _, h⟩ := x.closeWindows_eq all; rw [h]
@[simp] theorem Ctx.closeWindows_ir (x : Ctx) (all : Bool) : (x.closeWindows all).ir = x.ir := by
  obtain ⟨_, _, _, _, h⟩ := x.closeWindows_eq all; rw [h]
/-- No `mi.qry` of the context is still to answer once no window waits for one. -/
theorem Core.blocked_of_awaits {k : Core} (all : Bool) (h : ∀ w ∈ k.ctx.win, w.awaits = false) : k.blocked all = false := by
  unfold Core.blocked
  rw [List.any_eq_false]
  intro w hw
  have := h w hw
  unfold Window.awaits at this
  cases hd : w.dest <;> simp_all

theorem Core.blocked_closed {k : Core} (h : k.blocked true = false) :
    ({ k with ctx := k.ctx.closeWindows true } : Core).blocked true = false := by
  unfold Core.blocked at *
  rw [List.any_eq_false] at *
  intro w hw
  simp only [Ctx.closeWindows, Bool.true_or, Bool.true_and, if_true, List.mem_map, List.mem_filter] at hw
  obtain ⟨v, ⟨hv, _⟩, rfl⟩ := hw
  simpa using h v hv
theorem State.blocked_closed {s : State} (h : s.core.blocked true = false) :
    (s.updCtx (·.closeWindows true)).core.blocked true = false := Core.blocked_closed h
/-- Only the context in focus changes. -/
@[simp] theorem CtxOnly.updCtx (s : State) (f : Ctx → Ctx) : CtxOnly s (s.updCtx f) := rfl

/-! ### Exceptions -/

/-! The fields of TCAUSE (R124), FLTINFO (R337) and FLTADDR (R338). -/
theorem tcauseOf_exc (b : Bool) (m : Mode) (c : Nat) : (tcauseOf b m c).getLsbD 63 = b := by
  unfold tcauseOf; simp only [BitVec.getLsbD_append]; simp
theorem tcauseOf_psys (b : Bool) (m : Mode) (c : Nat) : (tcauseOf b m c).getLsbD 62 = decide (m = .system) := by
  unfold tcauseOf; simp only [BitVec.getLsbD_append]; simp
theorem tcauseOf_zero (b : Bool) (m : Mode) (c : Nat) : (tcauseOf b m c).extractLsb' 10 52 = 0 := by
  unfold tcauseOf; ext i hi
  simp only [← BitVec.getLsbD_eq_getElem, BitVec.getLsbD_extractLsb', BitVec.getLsbD_append]
  grind
theorem tcauseOf_code (b : Bool) (m : Mode) (c : Nat) : (tcauseOf b m c).extractLsb' 0 10 = BitVec.ofNat 10 c := by
  unfold tcauseOf; ext i hi
  simp only [← BitVec.getLsbD_eq_getElem, BitVec.getLsbD_extractLsb', BitVec.getLsbD_append]
  grind
theorem Exc.info_code (e : Exc) (d : Nat) (w : W32) : (e.info d w).extractLsb' 54 10 = BitVec.ofNat 10 e.code := by
  unfold Exc.info; ext i hi
  simp only [← BitVec.getLsbD_eq_getElem, BitVec.getLsbD_extractLsb', BitVec.getLsbD_append]
  grind
theorem Exc.info_del (e : Exc) (d : Nat) (w : W32) : (e.info d w).extractLsb' 52 2 = BitVec.ofNat 2 d := by
  unfold Exc.info; ext i hi
  simp only [← BitVec.getLsbD_eq_getElem, BitVec.getLsbD_extractLsb', BitVec.getLsbD_append]
  grind
theorem Exc.info_acc (e : Exc) (d : Nat) (w : W32) : (e.info d w).extractLsb' 48 4 = BitVec.ofNat 4 e.acc := by
  unfold Exc.info; ext i hi
  simp only [← BitVec.getLsbD_eq_getElem, BitVec.getLsbD_extractLsb', BitVec.getLsbD_append]
  grind
theorem Exc.info_vec (e : Exc) (d : Nat) (w : W32) : (e.info d w).getLsbD 47 = e.lane.isSome := by
  unfold Exc.info; simp only [BitVec.getLsbD_append]; simp
theorem Exc.info_elem (e : Exc) (d : Nat) (w : W32) : (e.info d w).extractLsb' 40 7 = BitVec.ofNat 7 (e.lane.getD 0) := by
  unfold Exc.info; ext i hi
  simp only [← BitVec.getLsbD_eq_getElem, BitVec.getLsbD_extractLsb', BitVec.getLsbD_append]
  grind
theorem Exc.info_detail (e : Exc) (d : Nat) (w : W32) : (e.info d w).extractLsb' 32 8 = BitVec.ofNat 8 e.detail := by
  unfold Exc.info; ext i hi
  simp only [← BitVec.getLsbD_eq_getElem, BitVec.getLsbD_extractLsb', BitVec.getLsbD_append]
  grind
theorem Exc.info_iword (e : Exc) (d : Nat) (w : W32) : (e.info d w).extractLsb' 0 32 = if e.boundary then 0 else w := by
  unfold Exc.info; ext i hi
  simp only [← BitVec.getLsbD_eq_getElem, BitVec.getLsbD_extractLsb', BitVec.getLsbD_append]
  grind
theorem fltaddr_low (x : Word) : (x &&& 0x003FFFFFFFFFFFFF).extractLsb' 0 54 = x.extractLsb' 0 54 := by
  ext i hi
  rw [BitVec.getElem_extractLsb', BitVec.getElem_extractLsb', BitVec.getLsbD_and]
  have : ∀ i : Fin 54, (0x003FFFFFFFFFFFFF : Word).getLsbD (0 + i) = true := by decide
  rw [this ⟨i, hi⟩, Bool.and_true]
theorem fltaddr_high (x : Word) : (x &&& 0x003FFFFFFFFFFFFF).extractLsb' 54 10 = 0 := by
  ext i hi
  rw [BitVec.getElem_extractLsb', BitVec.getLsbD_and]
  have : ∀ i : Fin 10, (0x003FFFFFFFFFFFFF : Word).getLsbD (54 + i) = false := by decide
  rw [this ⟨i, hi⟩]; simp

/-- Delivery as a trap (R342): only the context in focus changes. -/
theorem State.takeExc_trap {s : State} {e : Exc} (h1 : e.stop = false) (h2 : pcMask s.core.ctx.tvec ≠ 0)
    (h3 : s.pc ≠ pcMask s.core.ctx.tvec) :
    s.takeExc e = s.updCtx fun x0 =>
      let x := { x0.closeWindows true with wfeOn := false, vecOld := none }
      let y := (((x.mend (.csr .fltinfo)).mend (.csr .fltaddr)).mend (.csr .tepc)).mend (.csr .tcause)
      { y with
        fltinfo := e.info 0 x.ir, fltaddr := e.addr &&& 0x003FFFFFFFFFFFFF, tepc := s.pc, tcause := tcauseOf true x.mode e.code
        mode := .system, pc := pcMask x.tvec, excMode := true, excPrev := some (s.time, y.tepc, y.tcause) } := by
  have h3' : ¬ s.core.ctx.pc = pcMask s.core.ctx.tvec := h3
  simp only [State.takeExc, State.stops, State.updCtx_ctx, State.pc, Ctx.closeWindows_pc, Ctx.closeWindows_tvec, h1, h2, h3',
    Bool.false_or, decide_false, if_false, Bool.false_eq_true]
  rfl

/-! ### Access to memory through a pin -/

/-- An open pin translates its page, and nothing changes (R149, R150). -/
theorem translate_pinned {s : State} {va : Word} {l : Leaf} (h : s.Pinned va l) (acc : Acc) (t : Nat) :
    translate s.myDie s.actx va acc t s = .ok (.leaf l) s := by
  obtain ⟨p, hp, hd, rfl⟩ := h
  simp [translate, hp, hd, Option.filter]
theorem globalAddr_pinned {s : State} {va : Word} {l : Leaf} {acc : Acc} (ctl : Bool) (t : Nat) (h : s.Pinned va l)
    (hg : l.grants s.core.ctx.mode acc = true)
    (hm : regionOf (l.at (addr54 va)) = .nearSram ∨ regionOf (l.at (addr54 va)) = .gddr) :
    globalAddr s.myDie s.actx s.core.ctx.mode va acc ctl t s = .ok (l.at (addr54 va), l) s := by
  have hc : regionOf (l.at (addr54 va)) ≠ .control := by rcases hm with h | h <;> simp [h]
  have hc2 : regionOf (l.at (addr54 va)) ≠ .reserved := by rcases hm with h | h <;> simp [h]
  simp [globalAddr, translate_pinned h, hc, hc2, hg]
/-- An access that asks for no lock takes none (R243). -/
theorem acquire_none {s : State} {va : Word} {n : Nat} (h : s.core.ctx.lockLines (addr54 va) n = []) (acc : Acc) :
    acquire va n acc s = .ok () s := by
  simp [acquire, h]
theorem followCommit_none {s : State} {line : Nat} (h : ∀ w ∈ s.wts, w.freed.contains line = false) (c : Nat) : s.followCommit c line = s := by
  have : (s.wts.any fun w => w.freed.contains line && !w.seen.contains c) = false := by
    rw [List.any_eq_false]; intro w hw; rw [h w hw]; simp
  simp only [State.followCommit, this, Bool.false_eq_true, if_false]
theorem waitHeld_free {s : State} {pa : Nat} (hh : paDie pa = s.myDie) (hf : (s.dieAt s.myDie).locks = [] ∧ (s.dieAt s.myDie).eo = [])
    (hw : ∀ w ∈ s.wts, w.freed.contains (pa / 128) = false) : waitHeld pa s = .ok () s := by
  simp [waitHeld, State.heldAtHome, State.heldByOther, State.engineOwned, hh, hf.1, hf.2, followCommit_none hw]
/-- A write to a line that is not locked is not logged (R247). -/
theorem logWrite_free {s : State} (h : (s.dieAt s.myDie).locks = []) (va : Word) (pa : Nat) (acc : Acc) (lane : Option Nat) :
    logWrite va pa acc lane s = .ok () s := by
  simp [logWrite, h]
theorem sbLookup_unbuffered {s : State} {l n : Nat} (h : s.Unbuffered l n) : sbLookup l n s = .ok none s := by
  have : s.core.sb.reverse.find? (·.overlaps l n) = none := by
    rw [List.find?_eq_none]; intro e he; simp [h e (List.mem_reverse.1 he)]
  simp [sbLookup, this]
theorem l1Lookup_cold {s : State} {va : Word} (h : s.l1Find s.me.toNat false s.actx (addr54 va) = none) (n : Nat) (acc : Acc) :
    l1Lookup false va n acc s = .ok none s := by
  simp [l1Lookup, h]
theorem missRoom_home {s : State} {l : Nat} (h : paDie l = s.myDie) (va : Word) (n : Nat) : missRoom va l n s = .ok () s := by
  simp [missRoom, h]
/-- A read of plain global memory at its slice answers the bytes at their home and changes nothing (R131, R139). -/
theorem sliceFetch_plain {s : State} {va : Word} {n : Nat} {acc : Acc} {l : Leaf} (h : s.Plain va n acc l) :
    sliceFetch s.myDie (l.at (addr54 va)) n va acc.code s = .ok ((spanOf (l.at (addr54 va)) n).map s.homeByte) s := by
  have hr : s.redHere s.myDie (l.at (addr54 va)) = false := by
    simp only [State.redHere, Bool.and_eq_false_iff, List.any_eq_false]
    exact .inr fun r hr => by simp [h.settled r hr]
  have hu : ¬ ∃ u ∈ (s.dieAt s.myDie).uses, u.line = l.at (addr54 va) / 128 := fun ⟨u, hu, e⟩ => h.uncounted u hu e
  have hs : s.seeErrors (spanOf (l.at (addr54 va)) n) = s := by simp [State.seeErrors, h.clean.1]
  have hp : poisonedAny [] (spanOf (l.at (addr54 va)) n) = false := by simp [poisonedAny]
  have he : s.mayEvict s.myDie (l.at (addr54 va)) = s := by simp [State.mayEvict, hu]
  simp [sliceFetch, settleReds, hs, h.home.1, h.home.2, hr, he, h.answers, h.clean.2, hp]
@[simp] theorem State.l1Fill_uses (s : State) (c : Nat) (code : Bool) (actx a pa : Nat) (f : Leaf) (d : Nat) :
    ((s.l1Fill c code actx a pa f).dieAt d).uses = (s.dieAt d).uses := by
  have hn : ∀ i, ((s.coreSignal c i).dieAt d).uses = (s.dieAt d).uses := fun i => by simp [State.dieAt]
  have hu : ∀ (u : State) (g : Die → Die), (∀ x, (g x).uses = x.uses) → ((u.updDie (dieOf c) g).dieAt d).uses = (u.dieAt d).uses := by
    intro u g hg
    by_cases h : d % 4 = dieOf c % 4
    · simp [State.updDie, hg, State.dieAt, h]
    · simp [State.dieAt, State.updDie, Ne.symm h]
  unfold State.l1Fill
  generalize hv : s.coreSignal c (if code = true then 7 else 6) = v
  rw [← hn (if code = true then 7 else 6), hv]
  dsimp only
  split
  · rfl
  · exact hu _ _ fun _ => rfl
theorem countRead_plain {s : State} {d l : Nat} (h : ∀ u ∈ (s.dieAt d).uses, u.line ≠ l / 128) : s.countRead d l = s := by
  have : (s.dieAt d).uses.find? (·.line = l / 128) = none := by
    rw [List.find?_eq_none]; intro u hu; simpa using h u hu
  simp [State.countRead, this]
/-- A load of plain global memory answers the bytes at their home; its line enters the L1D, and nothing else changes (R131, R136, R138, R139). -/
theorem loadBytes_plain {s : State} {va : Word} {n : Nat} {acc : Acc} {l : Leaf} (ctl : Bool) (h : s.Plain va n acc l)
    (hb : s.Unbuffered (l.at (addr54 va)) n) :
    loadBytes va n acc ctl none s = .ok ((spanOf (l.at (addr54 va)) n).map s.homeByte)
      (s.l1Fill s.me.toNat false s.actx (addr54 va) (l.at (addr54 va)) l) := by
  have hc : regionOf (l.at (addr54 va)) ≠ .control := by rcases h.memory with h | h <;> simp [h]
  have hl := h.lockFree
  have hu := countRead_plain (s := s.l1Fill s.me.toNat false s.actx (addr54 va) (l.at (addr54 va)) l) (d := s.myDie)
    (l := l.at (addr54 va)) (by simpa using h.uncounted)
  simp [loadBytes, h.global, hl, l1Lookup_cold h.cold, globalAddr_pinned ctl s.core.ctx.task h.pinned h.grants h.memory, hc, acquire_none hl,
    waitHeld_free h.home.2 h.free h.followed, sbLookup_unbuffered hb, sliceLoad, missRoom_home h.home.2, sliceFetch_plain h, State.counted, hu]
/-- A load of local memory answers its bytes and changes nothing (R131). -/
theorem loadBytes_local {s : State} {va : Word} {n l : Nat} {acc : Acc} (ctl : Bool) (hint : Option (Nat × Bool))
    (h : s.Local (addr54 va) n l) (hb : s.Unbuffered l n) :
    loadBytes va n acc ctl hint s = .ok ((spanOf l n).map s.mem.read) s := by
  have hs : s.seeErrors (spanOf l n) = s := by simp [State.seeErrors, h.clean.1]
  have hp : poisonedAny [] (spanOf l n) = false := by simp [poisonedAny]
  simp [loadBytes, h.here, h.window, sbLookup_unbuffered hb, readLocal, hs, h.clean.2, hp]
/-- A store buffer with room takes an entry (R138). -/
theorem sbPush_room {s : State} (h : s.core.sb.length < 16) (e : SbEntry) :
    sbPush e s = .ok () { s with core := { s.core with
      sb := s.core.sb ++ [{ e with num := s.core.sbCount }], sbCount := s.core.sbCount + 1 } } := by
  have : ¬ 16 ≤ s.core.sb.length := by omega
  simp [sbPush, this]
theorem drainAll_nil {s : State} (h : s.core.sb = []) : drainAll s = .ok () s := by simp [drainAll, h, drain]
theorem storeTarget_plain {s : State} {va : Word} {n : Nat} {acc : Acc} {l : Leaf} (ctl : Bool) (lane : Option Nat)
    (h : s.Plain va n acc l) : storeTarget va n acc ctl lane s = .ok (l.at (addr54 va)) s := by
  have hc : regionOf (l.at (addr54 va)) ≠ .control := by rcases h.memory with h | h <;> simp [h]
  simp [storeTarget, h.global, globalAddr_pinned ctl s.core.ctx.task h.pinned h.grants h.memory, hc, acquire_none h.lockFree,
    waitHeld_free h.home.2 h.free h.followed, logWrite_free h.free.1]
theorem storeTarget_local {s : State} {va : Word} {n l : Nat} {acc : Acc} (ctl : Bool) (lane : Option Nat)
    (h1 : isGlobal (addr54 va) = false) (h2 : s.localLoc s.me.toNat (addr54 va) n true = some l) :
    storeTarget va n acc ctl lane s = .ok l s := by
  simp [storeTarget, h1, h2]
theorem endWindows_open {s : State} (h : s.core.blocked true = false) :
    endWindows s = .ok () (s.updCtx (·.closeWindows true)) := by simp [endWindows, h]

/-! ### Translation by the hardware -/

/-- An open pin of a die translates its page for any address context that it serves, and nothing changes (R149, R150). -/
theorem translate_pin {s : State} {d actx : Nat} {va : Word} {p : Pin} (hp : s.pinOf d actx (addr54 va) = some p) (hd : p.doomed = false) (acc : Acc)
    (t : Nat) : translate d actx va acc t s = .ok (.leaf p.leaf) s := by
  simp [translate, hp, hd, Option.filter]
/-- So the hardware's translation of an address of a TCB changes nothing and answers the page's physical address (R140, R344). -/
theorem hardAddr_pin {s : State} {d actx : Nat} {m : Mode} {va : Word} {acc : Acc} {p : Pin} (t : Nat) (hp : s.pinOf d actx (addr54 va) = some p)
    (hd : p.doomed = false) (hg : isGlobal (addr54 va) = true) (hr : regionOf (p.leaf.at (addr54 va)) ≠ .control)
    (ha : p.leaf.grants m acc = true) (he : s.homeError d (p.leaf.at (addr54 va)) va acc.code = none) :
    s.hardAddr d actx m va acc t = (s, .ok (p.leaf.at (addr54 va))) := by
  simp [State.hardAddr, translate_pin hp hd, hg, hr, ha, he]

/-! ### Engine words -/

theorem notSpeculative_plain {s : State} (h : s.core.ctx.speculative = false) : notSpeculative s = .ok () s := by
  simp [notSpeculative, h]
@[simp] theorem refuseIf_false (d : Nat) (a : Word) : refuseIf false d a = pure () := rfl
theorem refuseIf_true (d : Nat) (a : Word) : refuseIf true d a = raise (operandFault d a) := rfl

end Sys2Proof.Machine
end

