-- ==== Sys2Proof/Laws/PerInstr.lean ====
section
/-!
SUPPORT. The family RoundTrip: decoding the words of a well-formed instruction gives it back, whatever follows them, one lemma per
constructor (03_encoding.md R49 to R65, and the engine words' entries).
-/
set_option Elab.async false
set_option linter.unusedSimpArgs false
namespace Sys2Proof.Laws.RoundTrip

/-- The decoder reads a well-formed instruction from its own words: anywhere for one word, at a multiple of 32 for an engine word. -/
def Statement (i : Instr) : Prop :=
  i.wf = true → i.encoded = true → ∀ (al : Bool) (rest : List W32), (al = true ∨ (encode i).length = 1) →
    decodeWords al (encode i ++ rest) = .ok i

theorem add (d : SReg) (a : SReg) (b : SReg) : Statement (.add d a b) := by
  intro _ _ al rest _; simp [encode, decodeWords, decodeWord, decAlu]
theorem sub (d : SReg) (a : SReg) (b : SReg) : Statement (.sub d a b) := by
  intro _ _ al rest _; simp [encode, decodeWords, decodeWord, decAlu]
theorem mul (d : SReg) (a : SReg) (b : SReg) : Statement (.mul d a b) := by
  intro _ _ al rest _; simp [encode, decodeWords, decodeWord, decAlu]
theorem mulh (d : SReg) (a : SReg) (b : SReg) : Statement (.mulh d a b) := by
  intro _ _ al rest _; simp [encode, decodeWords, decodeWord, decAlu]
theorem mulhn (d : SReg) (a : SReg) (b : SReg) : Statement (.mulhn d a b) := by
  intro _ _ al rest _; simp [encode, decodeWords, decodeWord, decAlu]
theorem div (d : SReg) (a : SReg) (b : SReg) (l : La) : Statement (.div d a b l) := by
  intro _ _ al rest _; simp [encode, decodeWords, decodeWord, decAlu]
theorem divn (d : SReg) (a : SReg) (b : SReg) (l : La) : Statement (.divn d a b l) := by
  intro _ _ al rest _; simp [encode, decodeWords, decodeWord, decAlu]
theorem rem (d : SReg) (a : SReg) (b : SReg) (l : La) : Statement (.rem d a b l) := by
  intro _ _ al rest _; simp [encode, decodeWords, decodeWord, decAlu]
theorem remn (d : SReg) (a : SReg) (b : SReg) (l : La) : Statement (.remn d a b l) := by
  intro _ _ al rest _; simp [encode, decodeWords, decodeWord, decAlu]
theorem and (d : SReg) (a : SReg) (b : SReg) : Statement (.and d a b) := by
  intro _ _ al rest _; simp [encode, decodeWords, decodeWord, decAlu]
theorem or (d : SReg) (a : SReg) (b : SReg) : Statement (.or d a b) := by
  intro _ _ al rest _; simp [encode, decodeWords, decodeWord, decAlu]
theorem xor (d : SReg) (a : SReg) (b : SReg) : Statement (.xor d a b) := by
  intro _ _ al rest _; simp [encode, decodeWords, decodeWord, decAlu]
theorem sll (d : SReg) (a : SReg) (b : SReg) : Statement (.sll d a b) := by
  intro _ _ al rest _; simp [encode, decodeWords, decodeWord, decAlu]
theorem srl (d : SReg) (a : SReg) (b : SReg) : Statement (.srl d a b) := by
  intro _ _ al rest _; simp [encode, decodeWords, decodeWord, decAlu]
theorem sra (d : SReg) (a : SReg) (b : SReg) : Statement (.sra d a b) := by
  intro _ _ al rest _; simp [encode, decodeWords, decodeWord, decAlu]
theorem rol (d : SReg) (a : SReg) (b : SReg) : Statement (.rol d a b) := by
  intro _ _ al rest _; simp [encode, decodeWords, decodeWord, decAlu]
theorem ror (d : SReg) (a : SReg) (b : SReg) : Statement (.ror d a b) := by
  intro _ _ al rest _; simp [encode, decodeWords, decodeWord, decAlu]
theorem clz (d : SReg) (a : SReg) : Statement (.clz d a) := by
  intro _ _ al rest _; simp [encode, decodeWords, decodeWord, decAlu]
theorem ctz (d : SReg) (a : SReg) : Statement (.ctz d a) := by
  intro _ _ al rest _; simp [encode, decodeWords, decodeWord, decAlu]
theorem pop (d : SReg) (a : SReg) : Statement (.pop d a) := by
  intro _ _ al rest _; simp [encode, decodeWords, decodeWord, decAlu]
theorem min (d : SReg) (a : SReg) (b : SReg) : Statement (.min d a b) := by
  intro _ _ al rest _; simp [encode, decodeWords, decodeWord, decAlu]
theorem max (d : SReg) (a : SReg) (b : SReg) : Statement (.max d a b) := by
  intro _ _ al rest _; simp [encode, decodeWords, decodeWord, decAlu]
theorem minn (d : SReg) (a : SReg) (b : SReg) : Statement (.minn d a b) := by
  intro _ _ al rest _; simp [encode, decodeWords, decodeWord, decAlu]
theorem maxn (d : SReg) (a : SReg) (b : SReg) : Statement (.maxn d a b) := by
  intro _ _ al rest _; simp [encode, decodeWords, decodeWord, decAlu]
theorem adda (d : SReg) (a : SReg) (b : SReg) : Statement (.adda d a b) := by
  intro _ _ al rest _; simp [encode, decodeWords, decodeWord, decAlu]
theorem seq (d : SReg) (a : SReg) (b : SReg) : Statement (.seq d a b) := by
  intro _ _ al rest _; simp [encode, decodeWords, decodeWord, decAlu]
theorem sne (d : SReg) (a : SReg) (b : SReg) : Statement (.sne d a b) := by
  intro _ _ al rest _; simp [encode, decodeWords, decodeWord, decAlu]
theorem slt (d : SReg) (a : SReg) (b : SReg) : Statement (.slt d a b) := by
  intro _ _ al rest _; simp [encode, decodeWords, decodeWord, decAlu]
theorem sltn (d : SReg) (a : SReg) (b : SReg) : Statement (.sltn d a b) := by
  intro _ _ al rest _; simp [encode, decodeWords, decodeWord, decAlu]
theorem sle (d : SReg) (a : SReg) (b : SReg) : Statement (.sle d a b) := by
  intro _ _ al rest _; simp [encode, decodeWords, decodeWord, decAlu]
theorem slen (d : SReg) (a : SReg) (b : SReg) : Statement (.slen d a b) := by
  intro _ _ al rest _; simp [encode, decodeWords, decodeWord, decAlu]
theorem sel (d : SReg) (a : SReg) (b : SReg) (c : SReg) : Statement (.sel d a b c) := by
  intro _ _ al rest _; simp [encode, decodeWords, decodeWord, decAlu]
theorem addi (d : SReg) (a : SReg) (i : BitVec 16) : Statement (.addi d a i) := by
  intro _ _ al rest _; simp [encode, decodeWords, decodeWord]
theorem andi (d : SReg) (a : SReg) (i : BitVec 16) : Statement (.andi d a i) := by
  intro _ _ al rest _; simp [encode, decodeWords, decodeWord]
theorem ori (d : SReg) (a : SReg) (i : BitVec 16) : Statement (.ori d a i) := by
  intro _ _ al rest _; simp [encode, decodeWords, decodeWord]
theorem xori (d : SReg) (a : SReg) (i : BitVec 16) : Statement (.xori d a i) := by
  intro _ _ al rest _; simp [encode, decodeWords, decodeWord]
theorem slli (d : SReg) (a : SReg) (n : BitVec 6) : Statement (.slli d a n) := by
  intro _ _ al rest _; simp [encode, decodeWords, decodeWord, decShift]
theorem srli (d : SReg) (a : SReg) (n : BitVec 6) : Statement (.srli d a n) := by
  intro _ _ al rest _; simp [encode, decodeWords, decodeWord, decShift]
theorem srai (d : SReg) (a : SReg) (n : BitVec 6) : Statement (.srai d a n) := by
  intro _ _ al rest _; simp [encode, decodeWords, decodeWord, decShift]
theorem rori (d : SReg) (a : SReg) (n : BitVec 6) : Statement (.rori d a n) := by
  intro _ _ al rest _; simp [encode, decodeWords, decodeWord, decShift]
theorem slti (d : SReg) (a : SReg) (i : BitVec 16) : Statement (.slti d a i) := by
  intro _ _ al rest _; simp [encode, decodeWords, decodeWord]
theorem sltin (d : SReg) (a : SReg) (i : BitVec 16) : Statement (.sltin d a i) := by
  intro _ _ al rest _; simp [encode, decodeWords, decodeWord]
theorem li (d : SReg) (i : BitVec 16) : Statement (.li d i) := by
  intro _ _ al rest _; simp [encode, decodeWords, decodeWord]
theorem lis16 (d : SReg) (i : BitVec 16) : Statement (.lis16 d i) := by
  intro _ _ al rest _; simp [encode, decodeWords, decodeWord]
theorem lis32 (d : SReg) (i : BitVec 16) : Statement (.lis32 d i) := by
  intro _ _ al rest _; simp [encode, decodeWords, decodeWord]
theorem lis48 (d : SReg) (i : BitVec 16) : Statement (.lis48 d i) := by
  intro _ _ al rest _; simp [encode, decodeWords, decodeWord]
theorem addai (d : SReg) (a : SReg) (i : BitVec 16) : Statement (.addai d a i) := by
  intro _ _ al rest _; simp [encode, decodeWords, decodeWord]
theorem beq (a : SReg) (b : SReg) (o : BitVec 16) : Statement (.beq a b o) := by
  intro _ _ al rest _; simp [encode, decodeWords, decodeWord]
theorem bne (a : SReg) (b : SReg) (o : BitVec 16) : Statement (.bne a b o) := by
  intro _ _ al rest _; simp [encode, decodeWords, decodeWord]
theorem blt (a : SReg) (b : SReg) (o : BitVec 16) : Statement (.blt a b o) := by
  intro _ _ al rest _; simp [encode, decodeWords, decodeWord]
theorem bge (a : SReg) (b : SReg) (o : BitVec 16) : Statement (.bge a b o) := by
  intro _ _ al rest _; simp [encode, decodeWords, decodeWord]
theorem bltn (a : SReg) (b : SReg) (o : BitVec 16) : Statement (.bltn a b o) := by
  intro _ _ al rest _; simp [encode, decodeWords, decodeWord]
theorem bgen (a : SReg) (b : SReg) (o : BitVec 16) : Statement (.bgen a b o) := by
  intro _ _ al rest _; simp [encode, decodeWords, decodeWord]
theorem b (o : BitVec 25) : Statement (.b o) := by
  intro _ _ al rest _; simp [encode, decodeWords, decodeWord]
theorem bl (o : BitVec 25) : Statement (.bl o) := by
  intro _ _ al rest _; simp [encode, decodeWords, decodeWord]
theorem br (a : SReg) : Statement (.br a) := by
  intro h _ al rest _; simp_all [Instr.wf, encode, decodeWords, decodeWord, decBranchReg]
theorem blr (a : SReg) (l : SReg) : Statement (.blr a l) := by
  intro h _ al rest _; simp_all [Instr.wf, encode, decodeWords, decodeWord, decBranchReg]
theorem ret : Statement .ret := by
  intro _ _ al rest _; simp [encode, decodeWords, decodeWord, decBranchReg]
theorem ld (d : SReg) (a : SReg) (l : La) (w : BitVec 3) (z : MemType) (o : BitVec 6) : Statement (.ld d a l w z o) := by
  intro _ _ al rest _; simp [encode, decodeWords, decodeWord, decLd]
theorem st (d : SReg) (a : SReg) (w : BitVec 3) (z : MemType) (o : BitVec 6) : Statement (.st d a w z o) := by
  intro _ _ al rest _; simp [encode, decodeWords, decodeWord, decSt]
theorem ldHinted (d : SReg) (a : SReg) (l : La) (k : BitVec 4) (e : Bool) (z : MemType) (o : BitVec 4) : Statement (.ldHinted d a l k e z o) := by
  intro _ _ al rest _; simp [encode, decodeWords, decodeWord, decLdHinted]
theorem tch (a : SReg) (l : La) (o : BitVec 6) : Statement (.tch a l o) := by
  intro _ _ al rest _; simp [encode, decodeWords, decodeWord, decTch]
theorem pfL1 (a : SReg) (o : BitVec 6) : Statement (.pfL1 a o) := by
  intro _ _ al rest _; simp [encode, decodeWords, decodeWord, decTch]
theorem pfSl (a : SReg) (o : BitVec 6) : Statement (.pfSl a o) := by
  intro _ _ al rest _; simp [encode, decodeWords, decodeWord, decTch]
theorem cmoCln (a : SReg) (b : SReg) (l : La) (v : Level) : Statement (.cmoCln a b l v) := by
  intro _ _ al rest _; simp [encode, decodeWords, decodeWord, decCmo]
theorem cmoInv (a : SReg) (b : SReg) (l : La) (v : Level) : Statement (.cmoInv a b l v) := by
  intro _ _ al rest _; simp [encode, decodeWords, decodeWord, decCmo]
theorem cmoCli (a : SReg) (b : SReg) (l : La) (v : Level) : Statement (.cmoCli a b l v) := by
  intro _ _ al rest _; simp [encode, decodeWords, decodeWord, decCmo]
theorem amoSwap (d : SReg) (a : SReg) (b : SReg) (l : La) (z : MemW) (c : AScope) : Statement (.amoSwap d a b l z c) := by
  intro _ _ al rest _; simp [encode, decodeWords, decodeWord, decAmo]
theorem amoCas (d : SReg) (a : SReg) (b : SReg) (l : La) (z : MemW) (c : AScope) : Statement (.amoCas d a b l z c) := by
  intro _ _ al rest _; simp [encode, decodeWords, decodeWord, decAmo]
theorem amoAdd (d : SReg) (a : SReg) (b : SReg) (l : La) (z : MemW) (c : AScope) : Statement (.amoAdd d a b l z c) := by
  intro _ _ al rest _; simp [encode, decodeWords, decodeWord, decAmo]
theorem amoAnd (d : SReg) (a : SReg) (b : SReg) (l : La) (z : MemW) (c : AScope) : Statement (.amoAnd d a b l z c) := by
  intro _ _ al rest _; simp [encode, decodeWords, decodeWord, decAmo]
theorem amoOr (d : SReg) (a : SReg) (b : SReg) (l : La) (z : MemW) (c : AScope) : Statement (.amoOr d a b l z c) := by
  intro _ _ al rest _; simp [encode, decodeWords, decodeWord, decAmo]
theorem amoXor (d : SReg) (a : SReg) (b : SReg) (l : La) (z : MemW) (c : AScope) : Statement (.amoXor d a b l z c) := by
  intro _ _ al rest _; simp [encode, decodeWords, decodeWord, decAmo]
theorem amoMax (d : SReg) (a : SReg) (b : SReg) (l : La) (z : MemW) (c : AScope) : Statement (.amoMax d a b l z c) := by
  intro _ _ al rest _; simp [encode, decodeWords, decodeWord, decAmo]
theorem amoMin (d : SReg) (a : SReg) (b : SReg) (l : La) (z : MemW) (c : AScope) : Statement (.amoMin d a b l z c) := by
  intro _ _ al rest _; simp [encode, decodeWords, decodeWord, decAmo]
theorem amoMaxn (d : SReg) (a : SReg) (b : SReg) (l : La) (z : MemW) (c : AScope) : Statement (.amoMaxn d a b l z c) := by
  intro _ _ al rest _; simp [encode, decodeWords, decodeWord, decAmo]
theorem amoMinn (d : SReg) (a : SReg) (b : SReg) (l : La) (z : MemW) (c : AScope) : Statement (.amoMinn d a b l z c) := by
  intro _ _ al rest _; simp [encode, decodeWords, decodeWord, decAmo]
theorem redAdd (a : SReg) (b : SReg) (z : MemW) : Statement (.redAdd a b z) := by
  intro _ _ al rest _; simp [encode, decodeWords, decodeWord, decRed]
theorem redAnd (a : SReg) (b : SReg) (z : MemW) : Statement (.redAnd a b z) := by
  intro _ _ al rest _; simp [encode, decodeWords, decodeWord, decRed]
theorem redOr (a : SReg) (b : SReg) (z : MemW) : Statement (.redOr a b z) := by
  intro _ _ al rest _; simp [encode, decodeWords, decodeWord, decRed]
theorem redXor (a : SReg) (b : SReg) (z : MemW) : Statement (.redXor a b z) := by
  intro _ _ al rest _; simp [encode, decodeWords, decodeWord, decRed]
theorem redMax (a : SReg) (b : SReg) (z : MemW) : Statement (.redMax a b z) := by
  intro _ _ al rest _; simp [encode, decodeWords, decodeWord, decRed]
theorem redMin (a : SReg) (b : SReg) (z : MemW) : Statement (.redMin a b z) := by
  intro _ _ al rest _; simp [encode, decodeWords, decodeWord, decRed]
theorem redMaxn (a : SReg) (b : SReg) (z : MemW) : Statement (.redMaxn a b z) := by
  intro _ _ al rest _; simp [encode, decodeWords, decodeWord, decRed]
theorem redMinn (a : SReg) (b : SReg) (z : MemW) : Statement (.redMinn a b z) := by
  intro _ _ al rest _; simp [encode, decodeWords, decodeWord, decRed]
theorem redFadd (a : SReg) (b : SReg) (z : MemW) : Statement (.redFadd a b z) := by
  intro _ _ al rest _; simp [encode, decodeWords, decodeWord, decRed]
theorem redFmax (a : SReg) (b : SReg) (z : MemW) : Statement (.redFmax a b z) := by
  intro _ _ al rest _; simp [encode, decodeWords, decodeWord, decRed]
theorem redFmin (a : SReg) (b : SReg) (z : MemW) : Statement (.redFmin a b z) := by
  intro _ _ al rest _; simp [encode, decodeWords, decodeWord, decRed]
theorem vadd (d : VReg) (a : VReg) (b : VReg) (k : MReg) (t : IntTy) : Statement (.vadd d a b k t) := by
  intro _ _ al rest _; simp [encode, decodeWords, decodeWord, decVInt]
theorem vsub (d : VReg) (a : VReg) (b : VReg) (k : MReg) (t : IntTy) : Statement (.vsub d a b k t) := by
  intro _ _ al rest _; simp [encode, decodeWords, decodeWord, decVInt]
theorem vmul (d : VReg) (a : VReg) (b : VReg) (k : MReg) (t : IntTy) : Statement (.vmul d a b k t) := by
  intro _ _ al rest _; simp [encode, decodeWords, decodeWord, decVInt]
theorem vmulh (d : VReg) (a : VReg) (b : VReg) (k : MReg) (t : IntTy) : Statement (.vmulh d a b k t) := by
  intro _ _ al rest _; simp [encode, decodeWords, decodeWord, decVInt]
theorem vmin (d : VReg) (a : VReg) (b : VReg) (k : MReg) (t : IntTy) : Statement (.vmin d a b k t) := by
  intro _ _ al rest _; simp [encode, decodeWords, decodeWord, decVInt]
theorem vmax (d : VReg) (a : VReg) (b : VReg) (k : MReg) (t : IntTy) : Statement (.vmax d a b k t) := by
  intro _ _ al rest _; simp [encode, decodeWords, decodeWord, decVInt]
theorem vand (d : VReg) (a : VReg) (b : VReg) (k : MReg) (t : IntTy) : Statement (.vand d a b k t) := by
  intro _ _ al rest _; simp [encode, decodeWords, decodeWord, decVInt]
theorem vor (d : VReg) (a : VReg) (b : VReg) (k : MReg) (t : IntTy) : Statement (.vor d a b k t) := by
  intro _ _ al rest _; simp [encode, decodeWords, decodeWord, decVInt]
theorem vxor (d : VReg) (a : VReg) (b : VReg) (k : MReg) (t : IntTy) : Statement (.vxor d a b k t) := by
  intro _ _ al rest _; simp [encode, decodeWords, decodeWord, decVInt]
theorem vsll (d : VReg) (a : VReg) (b : VReg) (k : MReg) (t : IntTy) : Statement (.vsll d a b k t) := by
  intro _ _ al rest _; simp [encode, decodeWords, decodeWord, decVInt]
theorem vsrl (d : VReg) (a : VReg) (b : VReg) (k : MReg) (t : IntTy) : Statement (.vsrl d a b k t) := by
  intro _ _ al rest _; simp [encode, decodeWords, decodeWord, decVInt]
theorem vsra (d : VReg) (a : VReg) (b : VReg) (k : MReg) (t : IntTy) : Statement (.vsra d a b k t) := by
  intro _ _ al rest _; simp [encode, decodeWords, decodeWord, decVInt]
theorem vabs (d : VReg) (a : VReg) (k : MReg) (t : IntTy) : Statement (.vabs d a k t) := by
  intro _ _ al rest _; simp [encode, decodeWords, decodeWord, decVInt]
theorem vneg (d : VReg) (a : VReg) (k : MReg) (t : IntTy) : Statement (.vneg d a k t) := by
  intro _ _ al rest _; simp [encode, decodeWords, decodeWord, decVInt]
theorem vadds (d : VReg) (a : VReg) (b : VReg) (k : MReg) (t : IntTy) : Statement (.vadds d a b k t) := by
  intro _ _ al rest _; simp [encode, decodeWords, decodeWord, decVInt]
theorem vsubs (d : VReg) (a : VReg) (b : VReg) (k : MReg) (t : IntTy) : Statement (.vsubs d a b k t) := by
  intro _ _ al rest _; simp [encode, decodeWords, decodeWord, decVInt]
theorem vclz (d : VReg) (a : VReg) (k : MReg) (t : IntTy) : Statement (.vclz d a k t) := by
  intro _ _ al rest _; simp [encode, decodeWords, decodeWord, decVInt]
theorem vpop (d : VReg) (a : VReg) (k : MReg) (t : IntTy) : Statement (.vpop d a k t) := by
  intro _ _ al rest _; simp [encode, decodeWords, decodeWord, decVInt]
theorem vfadd (d : VReg) (a : VReg) (b : VReg) (k : MReg) (t : FloatTy) (r : Rm) : Statement (.vfadd d a b k t r) := by
  intro h _ al rest _; simp_all [Instr.wf, encode, decodeWords, decodeWord, decVFp]
theorem vfsub (d : VReg) (a : VReg) (b : VReg) (k : MReg) (t : FloatTy) (r : Rm) : Statement (.vfsub d a b k t r) := by
  intro h _ al rest _; simp_all [Instr.wf, encode, decodeWords, decodeWord, decVFp]
theorem vfmul (d : VReg) (a : VReg) (b : VReg) (k : MReg) (t : FloatTy) (r : Rm) : Statement (.vfmul d a b k t r) := by
  intro h _ al rest _; simp_all [Instr.wf, encode, decodeWords, decodeWord, decVFp]
theorem vfdiv (d : VReg) (a : VReg) (b : VReg) (k : MReg) (t : FloatTy) (r : Rm) : Statement (.vfdiv d a b k t r) := by
  intro h _ al rest _; simp_all [Instr.wf, encode, decodeWords, decodeWord, decVFp]
theorem vfmin (d : VReg) (a : VReg) (b : VReg) (k : MReg) (t : FloatTy) (r : Rm) : Statement (.vfmin d a b k t r) := by
  intro h _ al rest _; simp_all [Instr.wf, encode, decodeWords, decodeWord, decVFp]
theorem vfmax (d : VReg) (a : VReg) (b : VReg) (k : MReg) (t : FloatTy) (r : Rm) : Statement (.vfmax d a b k t r) := by
  intro h _ al rest _; simp_all [Instr.wf, encode, decodeWords, decodeWord, decVFp]
theorem vfma (d : VReg) (a : VReg) (b : VReg) (k : MReg) (t : FloatTy) (r : Rm) : Statement (.vfma d a b k t r) := by
  intro h _ al rest _; simp_all [Instr.wf, encode, decodeWords, decodeWord, decVFma]
theorem vfms (d : VReg) (a : VReg) (b : VReg) (k : MReg) (t : FloatTy) (r : Rm) : Statement (.vfms d a b k t r) := by
  intro h _ al rest _; simp_all [Instr.wf, encode, decodeWords, decodeWord, decVFma]
theorem vfnma (d : VReg) (a : VReg) (b : VReg) (k : MReg) (t : FloatTy) (r : Rm) : Statement (.vfnma d a b k t r) := by
  intro h _ al rest _; simp_all [Instr.wf, encode, decodeWords, decodeWord, decVFma]
theorem vfnms (d : VReg) (a : VReg) (b : VReg) (k : MReg) (t : FloatTy) (r : Rm) : Statement (.vfnms d a b k t r) := by
  intro h _ al rest _; simp_all [Instr.wf, encode, decodeWords, decodeWord, decVFma]
theorem vfsqrt (d : VReg) (a : VReg) (k : MReg) (t : FloatTy) (r : Rm) : Statement (.vfsqrt d a k t r) := by
  intro h _ al rest _; simp_all [Instr.wf, encode, decodeWords, decodeWord, decVFma]
theorem vfabs (d : VReg) (a : VReg) (k : MReg) (t : FloatTy) (r : Rm) : Statement (.vfabs d a k t r) := by
  intro h _ al rest _; simp_all [Instr.wf, encode, decodeWords, decodeWord, decVFma]
theorem vfneg (d : VReg) (a : VReg) (k : MReg) (t : FloatTy) (r : Rm) : Statement (.vfneg d a k t r) := by
  intro h _ al rest _; simp_all [Instr.wf, encode, decodeWords, decodeWord, decVFma]
theorem vceq (d : MReg) (a : VReg) (b : VReg) (k : MReg) (t : ElemTy) : Statement (.vceq d a b k t) := by
  intro h _ al rest _; simp_all [Instr.wf, encode, decodeWords, decodeWord, decVCmp]
theorem vcne (d : MReg) (a : VReg) (b : VReg) (k : MReg) (t : ElemTy) : Statement (.vcne d a b k t) := by
  intro h _ al rest _; simp_all [Instr.wf, encode, decodeWords, decodeWord, decVCmp]
theorem vclt (d : MReg) (a : VReg) (b : VReg) (k : MReg) (t : ElemTy) : Statement (.vclt d a b k t) := by
  intro h _ al rest _; simp_all [Instr.wf, encode, decodeWords, decodeWord, decVCmp]
theorem vcle (d : MReg) (a : VReg) (b : VReg) (k : MReg) (t : ElemTy) : Statement (.vcle d a b k t) := by
  intro h _ al rest _; simp_all [Instr.wf, encode, decodeWords, decodeWord, decVCmp]
theorem vcgt (d : MReg) (a : VReg) (b : VReg) (k : MReg) (t : ElemTy) : Statement (.vcgt d a b k t) := by
  intro h _ al rest _; simp_all [Instr.wf, encode, decodeWords, decodeWord, decVCmp]
theorem vcge (d : MReg) (a : VReg) (b : VReg) (k : MReg) (t : ElemTy) : Statement (.vcge d a b k t) := by
  intro h _ al rest _; simp_all [Instr.wf, encode, decodeWords, decodeWord, decVCmp]
theorem vcvt (d : VReg) (a : VReg) (x : Bool) (u : ElemTy) (k : MReg) (t : ElemTy) (r : Rm) : Statement (.vcvt d a x u k t r) := by
  intro h _ al rest _
  cases x <;> simp_all [Instr.wf, encode, decodeWords, decodeWord, decVcvt]
theorem vq (d : VReg) (a : VReg) (b : SReg) (k : MReg) (q : QuantTy) (r : Rm) : Statement (.vq d a b k q r) := by
  intro _ _ al rest _; simp [encode, decodeWords, decodeWord, decVq]
theorem vqs (d : SReg) (a : VReg) (b : SReg) (k : MReg) (q : QuantTy) (r : Rm) : Statement (.vqs d a b k q r) := by
  intro _ _ al rest _; simp [encode, decodeWords, decodeWord, decVq]
theorem vsx (d : VReg) (a : VReg) (k : MReg) : Statement (.vsx d a k) := by
  intro _ _ al rest _; simp [encode, decodeWords, decodeWord, decVq]
theorem vrsum (d : SReg) (a : VReg) (k : MReg) (t : ElemTy) : Statement (.vrsum d a k t) := by
  intro h _ al rest _; simp_all [Instr.wf, encode, decodeWords, decodeWord, decVRed]
theorem vrmin (d : SReg) (a : VReg) (k : MReg) (t : ElemTy) : Statement (.vrmin d a k t) := by
  intro h _ al rest _; simp_all [Instr.wf, encode, decodeWords, decodeWord, decVRed]
theorem vrmax (d : SReg) (a : VReg) (k : MReg) (t : ElemTy) : Statement (.vrmax d a k t) := by
  intro h _ al rest _; simp_all [Instr.wf, encode, decodeWords, decodeWord, decVRed]
theorem vrand (d : SReg) (a : VReg) (k : MReg) (t : ElemTy) : Statement (.vrand d a k t) := by
  intro h _ al rest _; simp_all [Instr.wf, encode, decodeWords, decodeWord, decVRed]
theorem vror (d : SReg) (a : VReg) (k : MReg) (t : ElemTy) : Statement (.vror d a k t) := by
  intro h _ al rest _; simp_all [Instr.wf, encode, decodeWords, decodeWord, decVRed]
theorem vrxor (d : SReg) (a : VReg) (k : MReg) (t : ElemTy) : Statement (.vrxor d a k t) := by
  intro h _ al rest _; simp_all [Instr.wf, encode, decodeWords, decodeWord, decVRed]
theorem vperm (d : VReg) (a : VReg) (b : VReg) (k : MReg) (e : ElemSize) : Statement (.vperm d a b k e) := by
  intro _ _ al rest _; simp [encode, decodeWords, decodeWord, decVPerm]
theorem vbcast (d : VReg) (a : SReg) (k : MReg) (e : ElemSize) : Statement (.vbcast d a k e) := by
  intro _ _ al rest _; simp [encode, decodeWords, decodeWord, decVPerm]
theorem vslup (d : VReg) (a : VReg) (b : SReg) (k : MReg) (e : ElemSize) : Statement (.vslup d a b k e) := by
  intro _ _ al rest _; simp [encode, decodeWords, decodeWord, decVPerm]
theorem vsldn (d : VReg) (a : VReg) (b : SReg) (k : MReg) (e : ElemSize) : Statement (.vsldn d a b k e) := by
  intro _ _ al rest _; simp [encode, decodeWords, decodeWord, decVPerm]
theorem vzip (d : VReg) (a : VReg) (b : VReg) (k : MReg) (e : ElemSize) : Statement (.vzip d a b k e) := by
  intro _ _ al rest _; simp [encode, decodeWords, decodeWord, decVPerm]
theorem vunzip (d : VReg) (a : VReg) (b : VReg) (k : MReg) (e : ElemSize) : Statement (.vunzip d a b k e) := by
  intro _ _ al rest _; simp [encode, decodeWords, decodeWord, decVPerm]
theorem vcompr (d : VReg) (a : VReg) (k : MReg) (e : ElemSize) : Statement (.vcompr d a k e) := by
  intro _ _ al rest _; simp [encode, decodeWords, decodeWord, decVPerm]
theorem vexpand (d : VReg) (a : VReg) (k : MReg) (e : ElemSize) : Statement (.vexpand d a k e) := by
  intro _ _ al rest _; simp [encode, decodeWords, decodeWord, decVPerm]
theorem mand (d : MReg) (a : MReg) (b : MReg) : Statement (.mand d a b) := by
  intro _ _ al rest _; simp [encode, decodeWords, decodeWord, decMask]
theorem mor (d : MReg) (a : MReg) (b : MReg) : Statement (.mor d a b) := by
  intro _ _ al rest _; simp [encode, decodeWords, decodeWord, decMask]
theorem mxor (d : MReg) (a : MReg) (b : MReg) : Statement (.mxor d a b) := by
  intro _ _ al rest _; simp [encode, decodeWords, decodeWord, decMask]
theorem mandn (d : MReg) (a : MReg) (b : MReg) : Statement (.mandn d a b) := by
  intro _ _ al rest _; simp [encode, decodeWords, decodeWord, decMask]
theorem mnot (d : MReg) (a : MReg) : Statement (.mnot d a) := by
  intro _ _ al rest _; simp [encode, decodeWords, decodeWord, decMask]
theorem mpop (d : SReg) (a : MReg) : Statement (.mpop d a) := by
  intro _ _ al rest _; simp [encode, decodeWords, decodeWord, decMask]
theorem mfirst (d : SReg) (a : MReg) : Statement (.mfirst d a) := by
  intro _ _ al rest _; simp [encode, decodeWords, decodeWord, decMask]
theorem mfrom (d : MReg) (a : SReg) : Statement (.mfrom d a) := by
  intro _ _ al rest _; simp [encode, decodeWords, decodeWord, decMask]
theorem mto (d : SReg) (a : MReg) : Statement (.mto d a) := by
  intro _ _ al rest _; simp [encode, decodeWords, decodeWord, decMask]
theorem vld (d : VReg) (a : SReg) (b : SReg) (k : MReg) (l : La) (t : ElemTy) : Statement (.vld d a b k l t) := by
  intro _ _ al rest _; simp [encode, decodeWords, decodeWord, decVld]
theorem vst (d : VReg) (a : SReg) (b : SReg) (k : MReg) (t : ElemTy) : Statement (.vst d a b k t) := by
  intro _ _ al rest _; simp [encode, decodeWords, decodeWord, decVst]
theorem vgath (d : VReg) (a : SReg) (b : VReg) (k : MReg) (l : La) (e : MemW) : Statement (.vgath d a b k l e) := by
  intro _ _ al rest _; simp [encode, decodeWords, decodeWord, decVgath]
theorem vscat (d : VReg) (a : SReg) (b : VReg) (k : MReg) (l : La) (e : MemW) : Statement (.vscat d a b k l e) := by
  intro _ _ al rest _; simp [encode, decodeWords, decodeWord, decVgath]
theorem vamoAdd32 (d : VReg) (a : SReg) (b : VReg) (k : MReg) (l : La) : Statement (.vamoAdd32 d a b k l) := by
  intro _ _ al rest _; simp [encode, decodeWords, decodeWord, decVamo]
theorem vamoAdd64 (d : VReg) (a : SReg) (b : VReg) (k : MReg) (l : La) : Statement (.vamoAdd64 d a b k l) := by
  intro _ _ al rest _; simp [encode, decodeWords, decodeWord, decVamo]
theorem vamoMax32 (d : VReg) (a : SReg) (b : VReg) (k : MReg) (l : La) : Statement (.vamoMax32 d a b k l) := by
  intro _ _ al rest _; simp [encode, decodeWords, decodeWord, decVamo]
theorem vamoMin32 (d : VReg) (a : SReg) (b : VReg) (k : MReg) (l : La) : Statement (.vamoMin32 d a b k l) := by
  intro _ _ al rest _; simp [encode, decodeWords, decodeWord, decVamo]
theorem vamoMaxn32 (d : VReg) (a : SReg) (b : VReg) (k : MReg) (l : La) : Statement (.vamoMaxn32 d a b k l) := by
  intro _ _ al rest _; simp [encode, decodeWords, decodeWord, decVamo]
theorem vamoMinn32 (d : VReg) (a : SReg) (b : VReg) (k : MReg) (l : La) : Statement (.vamoMinn32 d a b k l) := by
  intro _ _ al rest _; simp [encode, decodeWords, decodeWord, decVamo]
theorem vamoFadd32 (d : VReg) (a : SReg) (b : VReg) (k : MReg) (l : La) : Statement (.vamoFadd32 d a b k l) := by
  intro _ _ al rest _; simp [encode, decodeWords, decodeWord, decVamo]
theorem vamoFmax32 (d : VReg) (a : SReg) (b : VReg) (k : MReg) (l : La) : Statement (.vamoFmax32 d a b k l) := by
  intro _ _ al rest _; simp [encode, decodeWords, decodeWord, decVamo]
theorem vamoFmin32 (d : VReg) (a : SReg) (b : VReg) (k : MReg) (l : La) : Statement (.vamoFmin32 d a b k l) := by
  intro _ _ al rest _; simp [encode, decodeWords, decodeWord, decVamo]
theorem vamoSwap32 (d : VReg) (a : SReg) (b : VReg) (k : MReg) (l : La) : Statement (.vamoSwap32 d a b k l) := by
  intro _ _ al rest _; simp [encode, decodeWords, decodeWord, decVamo]
theorem vamoSwap64 (d : VReg) (a : SReg) (b : VReg) (k : MReg) (l : La) : Statement (.vamoSwap64 d a b k l) := by
  intro _ _ al rest _; simp [encode, decodeWords, decodeWord, decVamo]
theorem spawn (a : SReg) : Statement (.spawn a) := by
  intro _ _ al rest _; simp [encode, decodeWords, decodeWord, decTask]
theorem popd (d : SReg) : Statement (.popd d) := by
  intro _ _ al rest _; simp [encode, decodeWords, decodeWord, decTask]
theorem tenq (a : SReg) (b : SReg) : Statement (.tenq a b) := by
  intro _ _ al rest _; simp [encode, decodeWords, decodeWord, decTask]
theorem tend : Statement .tend := by
  intro _ _ al rest _; simp [encode, decodeWords, decodeWord, decTask]
theorem join (a : SReg) : Statement (.join a) := by
  intro _ _ al rest _; simp [encode, decodeWords, decodeWord, decTask]
theorem aset (a : SReg) (b : SReg) (i : BitVec 3) : Statement (.aset a b i) := by
  intro _ _ al rest _; simp [encode, decodeWords, decodeWord, decTask]
theorem msg (a : SReg) (b : SReg) : Statement (.msg a b) := by
  intro _ _ al rest _; simp [encode, decodeWords, decodeWord, decTask]
theorem evr (d : SReg) : Statement (.evr d) := by
  intro h _ al rest _; simp_all [Instr.wf, encode, decodeWords, decodeWord, decTask]
theorem ewt (a : SReg) (q : QueueId) : Statement (.ewt a q) := by
  intro _ _ al rest _; simp [encode, decodeWords, decodeWord, decTask]
theorem barArv (g : Bool) (n : BitVec 4) : Statement (.barArv g n) := by
  intro _ _ al rest _; simp [encode, decodeWords, decodeWord, decBar]
theorem barWt (g : Bool) (n : BitVec 4) : Statement (.barWt g n) := by
  intro _ _ al rest _; simp [encode, decodeWords, decodeWord, decBar]
theorem barMax (d : SReg) (a : SReg) (g : Bool) (n : BitVec 4) : Statement (.barMax d a g n) := by
  intro _ _ al rest _; simp [encode, decodeWords, decodeWord, decBar]
theorem fence (c : FScope) : Statement (.fence c) := by
  intro _ _ al rest _; simp [encode, decodeWords, decodeWord, decFence]
theorem fenceAcq (c : FScope) : Statement (.fenceAcq c) := by
  intro _ _ al rest _; simp [encode, decodeWords, decodeWord, decFence]
theorem fenceRel (c : FScope) : Statement (.fenceRel c) := by
  intro _ _ al rest _; simp [encode, decodeWords, decodeWord, decFence]
theorem trap (n : BitVec 10) : Statement (.trap n) := by
  intro _ _ al rest _; simp [encode, decodeWords, decodeWord, decSys]
theorem rett : Statement .rett := by
  intro _ _ al rest _; simp [encode, decodeWords, decodeWord, decSys]
theorem wfe : Statement .wfe := by
  intro _ _ al rest _; simp [encode, decodeWords, decodeWord, decSys]
theorem fret : Statement .fret := by
  intro _ _ al rest _; simp [encode, decodeWords, decodeWord, decSys]
theorem fres (a : SReg) : Statement (.fres a) := by
  intro _ _ al rest _; simp [encode, decodeWords, decodeWord, decSys]
theorem hreq (a : SReg) : Statement (.hreq a) := by
  intro _ _ al rest _; simp [encode, decodeWords, decodeWord, decSys]
theorem tmark (a : SReg) : Statement (.tmark a) := by
  intro _ _ al rest _; simp [encode, decodeWords, decodeWord, decSys]
theorem tlbi (a : SReg) (b : SReg) : Statement (.tlbi a b) := by
  intro _ _ al rest _; simp [encode, decodeWords, decodeWord, decSys]
theorem wpaStop (a : SReg) (b : SReg) (i : BitVec 2) : Statement (.wpaStop a b i) := by
  intro _ _ al rest _; simp [encode, decodeWords, decodeWord, decSys]
theorem wpaGang (a : SReg) (b : SReg) (i : BitVec 2) : Statement (.wpaGang a b i) := by
  intro _ _ al rest _; simp [encode, decodeWords, decodeWord, decSys]
theorem wpaRec (a : SReg) (b : SReg) (i : BitVec 2) : Statement (.wpaRec a b i) := by
  intro _ _ al rest _; simp [encode, decodeWords, decodeWord, decSys]
theorem wpaOff (i : BitVec 2) : Statement (.wpaOff i) := by
  intro _ _ al rest _; simp [encode, decodeWords, decodeWord, decSys]
theorem csrr (d : SReg) (c : Csr) : Statement (.csrr d c) := by
  intro _ _ al rest _; simp [encode, decodeWords, decodeWord, decCsr]
theorem csrw (a : SReg) (c : Csr) : Statement (.csrw a c) := by
  intro h _ al rest _; simp_all [Instr.wf, encode, decodeWords, decodeWord, decCsr]
theorem csrs (d : SReg) (a : SReg) (c : Csr) : Statement (.csrs d a c) := by
  intro h _ al rest _
  simp only [Instr.wf, Bool.or_eq_true, Bool.not_eq_true', decide_eq_true_eq] at h
  rcases h with h | h <;> simp [encode, decodeWords, decodeWord, decCsr, h]
theorem csrc (d : SReg) (a : SReg) (c : Csr) : Statement (.csrc d a c) := by
  intro h _ al rest _
  simp only [Instr.wf, Bool.or_eq_true, Bool.not_eq_true', decide_eq_true_eq] at h
  rcases h with h | h <;> simp [encode, decodeWords, decodeWord, decCsr, h]
theorem prMma (e : End) (la : La) (role : Role) (bank : Bool) (evn : Bool) (sw : BitVec 3) (p : SReg) (str : EOp) (m : BitVec 4) (n : BitVec 4) (k : BitVec 16) (fa : BitVec 6) (fb : BitVec 6) : Statement (.prMma e la role bank evn sw p str m n k fa fb) := by
  intro h _ al rest hal
  have f0 : (e0 e.code4 0 la (BitVec.ofBool role.bit ++ BitVec.ofBool bank ++ BitVec.ofBool evn ++ 0#2 ++ sw ++ 0#4)).extractLsb' 0 4 = 0#4 := by
    rw [e0_field _ _ _ _ _ _ (by omega)]; ext j hj
    simp only [BitVec.getLsbD_append, ← BitVec.getLsbD_eq_getElem, BitVec.getLsbD_extractLsb']; grind
  have f1 : (e0 e.code4 0 la (BitVec.ofBool role.bit ++ BitVec.ofBool bank ++ BitVec.ofBool evn ++ 0#2 ++ sw ++ 0#4)).extractLsb' 4 3 = sw := by
    rw [e0_field _ _ _ _ _ _ (by omega)]; ext j hj
    simp only [BitVec.getLsbD_append, ← BitVec.getLsbD_eq_getElem, BitVec.getLsbD_extractLsb']; grind
  have f2 : (e0 e.code4 0 la (BitVec.ofBool role.bit ++ BitVec.ofBool bank ++ BitVec.ofBool evn ++ 0#2 ++ sw ++ 0#4)).extractLsb' 7 2 = 0#2 := by
    rw [e0_field _ _ _ _ _ _ (by omega)]; ext j hj
    simp only [BitVec.getLsbD_append, ← BitVec.getLsbD_eq_getElem, BitVec.getLsbD_extractLsb']; grind
  have f3 : eBit (e0 e.code4 0 la (BitVec.ofBool role.bit ++ BitVec.ofBool bank ++ BitVec.ofBool evn ++ 0#2 ++ sw ++ 0#4)) 9 = evn := by
    rw [e0_bit _ _ _ _ _ (by omega)]; simp only [BitVec.getLsbD_append]; grind
  have f4 : eBit (e0 e.code4 0 la (BitVec.ofBool role.bit ++ BitVec.ofBool bank ++ BitVec.ofBool evn ++ 0#2 ++ sw ++ 0#4)) 10 = bank := by
    rw [e0_bit _ _ _ _ _ (by omega)]; simp only [BitVec.getLsbD_append]; grind
  have f5 : eBit (e0 e.code4 0 la (BitVec.ofBool role.bit ++ BitVec.ofBool bank ++ BitVec.ofBool evn ++ 0#2 ++ sw ++ 0#4)) 11 = role.bit := by
    rw [e0_bit _ _ _ _ _ (by omega)]; simp only [BitVec.getLsbD_append]; grind
  have f6 : sKind (1#2 ++ m ++ n ++ 0#6 ++ k) = 1#2 := by
    unfold sKind; ext j hj
    simp only [BitVec.getLsbD_append, ← BitVec.getLsbD_eq_getElem, BitVec.getLsbD_extractLsb']; grind
  have f7 : (1#2 ++ m ++ n ++ 0#6 ++ k).extractLsb' 0 16 = k := by
    ext j hj
    simp only [BitVec.getLsbD_append, ← BitVec.getLsbD_eq_getElem, BitVec.getLsbD_extractLsb']; grind
  have f8 : (1#2 ++ m ++ n ++ 0#6 ++ k).extractLsb' 16 6 = 0#6 := by
    ext j hj
    simp only [BitVec.getLsbD_append, ← BitVec.getLsbD_eq_getElem, BitVec.getLsbD_extractLsb']; grind
  have f9 : (1#2 ++ m ++ n ++ 0#6 ++ k).extractLsb' 22 4 = n := by
    ext j hj
    simp only [BitVec.getLsbD_append, ← BitVec.getLsbD_eq_getElem, BitVec.getLsbD_extractLsb']; grind
  have f10 : (1#2 ++ m ++ n ++ 0#6 ++ k).extractLsb' 26 4 = m := by
    ext j hj
    simp only [BitVec.getLsbD_append, ← BitVec.getLsbD_eq_getElem, BitVec.getLsbD_extractLsb']; grind
  have f11 : sKind (1#2 ++ fa ++ fb ++ 0#18) = 1#2 := by
    unfold sKind; ext j hj
    simp only [BitVec.getLsbD_append, ← BitVec.getLsbD_eq_getElem, BitVec.getLsbD_extractLsb']; grind
  have f12 : (1#2 ++ fa ++ fb ++ 0#18).extractLsb' 0 18 = 0#18 := by
    ext j hj
    simp only [BitVec.getLsbD_append, ← BitVec.getLsbD_eq_getElem, BitVec.getLsbD_extractLsb']; grind
  have f13 : (1#2 ++ fa ++ fb ++ 0#18).extractLsb' 18 6 = fb := by
    ext j hj
    simp only [BitVec.getLsbD_append, ← BitVec.getLsbD_eq_getElem, BitVec.getLsbD_extractLsb']; grind
  have f14 : (1#2 ++ fa ++ fb ++ 0#18).extractLsb' 24 6 = fa := by
    ext j hj
    simp only [BitVec.getLsbD_append, ← BitVec.getLsbD_eq_getElem, BitVec.getLsbD_extractLsb']; grind
  simp_all [Instr.wf, encode, decodeWords, decodeEngine_prism, decPrism, encPrMma, slotImm, bind, Except.bind, need, needSome]
theorem prSma (e : End) (la : La) (role : Role) (bank : Bool) (evn : Bool) (spa : Bool) (spb : Bool) (sw : BitVec 3) (p : SReg) (str : EOp) (m : BitVec 4) (n : BitVec 4) (k : BitVec 16) (fa : BitVec 6) (fb : BitVec 6) (moff : BitVec 12) : Statement (.prSma e la role bank evn spa spb sw p str m n k fa fb moff) := by
  intro h _ al rest hal
  have f0 : (e0 e.code4 1 la (BitVec.ofBool role.bit ++ BitVec.ofBool bank ++ BitVec.ofBool evn ++ BitVec.ofBool spa ++ BitVec.ofBool spb ++ sw ++ 0#4)).extractLsb' 0 4 = 0#4 := by
    rw [e0_field _ _ _ _ _ _ (by omega)]; ext j hj
    simp only [BitVec.getLsbD_append, ← BitVec.getLsbD_eq_getElem, BitVec.getLsbD_extractLsb']; grind
  have f1 : (e0 e.code4 1 la (BitVec.ofBool role.bit ++ BitVec.ofBool bank ++ BitVec.ofBool evn ++ BitVec.ofBool spa ++ BitVec.ofBool spb ++ sw ++ 0#4)).extractLsb' 4 3 = sw := by
    rw [e0_field _ _ _ _ _ _ (by omega)]; ext j hj
    simp only [BitVec.getLsbD_append, ← BitVec.getLsbD_eq_getElem, BitVec.getLsbD_extractLsb']; grind
  have f2 : eBit (e0 e.code4 1 la (BitVec.ofBool role.bit ++ BitVec.ofBool bank ++ BitVec.ofBool evn ++ BitVec.ofBool spa ++ BitVec.ofBool spb ++ sw ++ 0#4)) 7 = spb := by
    rw [e0_bit _ _ _ _ _ (by omega)]; simp only [BitVec.getLsbD_append]; grind
  have f3 : eBit (e0 e.code4 1 la (BitVec.ofBool role.bit ++ BitVec.ofBool bank ++ BitVec.ofBool evn ++ BitVec.ofBool spa ++ BitVec.ofBool spb ++ sw ++ 0#4)) 8 = spa := by
    rw [e0_bit _ _ _ _ _ (by omega)]; simp only [BitVec.getLsbD_append]; grind
  have f4 : eBit (e0 e.code4 1 la (BitVec.ofBool role.bit ++ BitVec.ofBool bank ++ BitVec.ofBool evn ++ BitVec.ofBool spa ++ BitVec.ofBool spb ++ sw ++ 0#4)) 9 = evn := by
    rw [e0_bit _ _ _ _ _ (by omega)]; simp only [BitVec.getLsbD_append]; grind
  have f5 : eBit (e0 e.code4 1 la (BitVec.ofBool role.bit ++ BitVec.ofBool bank ++ BitVec.ofBool evn ++ BitVec.ofBool spa ++ BitVec.ofBool spb ++ sw ++ 0#4)) 10 = bank := by
    rw [e0_bit _ _ _ _ _ (by omega)]; simp only [BitVec.getLsbD_append]; grind
  have f6 : eBit (e0 e.code4 1 la (BitVec.ofBool role.bit ++ BitVec.ofBool bank ++ BitVec.ofBool evn ++ BitVec.ofBool spa ++ BitVec.ofBool spb ++ sw ++ 0#4)) 11 = role.bit := by
    rw [e0_bit _ _ _ _ _ (by omega)]; simp only [BitVec.getLsbD_append]; grind
  have f7 : sKind (1#2 ++ m ++ n ++ 0#6 ++ k) = 1#2 := by
    unfold sKind; ext j hj
    simp only [BitVec.getLsbD_append, ← BitVec.getLsbD_eq_getElem, BitVec.getLsbD_extractLsb']; grind
  have f8 : (1#2 ++ m ++ n ++ 0#6 ++ k).extractLsb' 0 16 = k := by
    ext j hj
    simp only [BitVec.getLsbD_append, ← BitVec.getLsbD_eq_getElem, BitVec.getLsbD_extractLsb']; grind
  have f9 : (1#2 ++ m ++ n ++ 0#6 ++ k).extractLsb' 16 6 = 0#6 := by
    ext j hj
    simp only [BitVec.getLsbD_append, ← BitVec.getLsbD_eq_getElem, BitVec.getLsbD_extractLsb']; grind
  have f10 : (1#2 ++ m ++ n ++ 0#6 ++ k).extractLsb' 22 4 = n := by
    ext j hj
    simp only [BitVec.getLsbD_append, ← BitVec.getLsbD_eq_getElem, BitVec.getLsbD_extractLsb']; grind
  have f11 : (1#2 ++ m ++ n ++ 0#6 ++ k).extractLsb' 26 4 = m := by
    ext j hj
    simp only [BitVec.getLsbD_append, ← BitVec.getLsbD_eq_getElem, BitVec.getLsbD_extractLsb']; grind
  have f12 : sKind (1#2 ++ fa ++ fb ++ 0#6 ++ moff) = 1#2 := by
    unfold sKind; ext j hj
    simp only [BitVec.getLsbD_append, ← BitVec.getLsbD_eq_getElem, BitVec.getLsbD_extractLsb']; grind
  have f13 : (1#2 ++ fa ++ fb ++ 0#6 ++ moff).extractLsb' 0 12 = moff := by
    ext j hj
    simp only [BitVec.getLsbD_append, ← BitVec.getLsbD_eq_getElem, BitVec.getLsbD_extractLsb']; grind
  have f14 : (1#2 ++ fa ++ fb ++ 0#6 ++ moff).extractLsb' 12 6 = 0#6 := by
    ext j hj
    simp only [BitVec.getLsbD_append, ← BitVec.getLsbD_eq_getElem, BitVec.getLsbD_extractLsb']; grind
  have f15 : (1#2 ++ fa ++ fb ++ 0#6 ++ moff).extractLsb' 18 6 = fb := by
    ext j hj
    simp only [BitVec.getLsbD_append, ← BitVec.getLsbD_eq_getElem, BitVec.getLsbD_extractLsb']; grind
  have f16 : (1#2 ++ fa ++ fb ++ 0#6 ++ moff).extractLsb' 24 6 = fa := by
    ext j hj
    simp only [BitVec.getLsbD_append, ← BitVec.getLsbD_eq_getElem, BitVec.getLsbD_extractLsb']; grind
  simp_all [Instr.wf, encode, decodeWords, decodeEngine_prism, decPrism, encPrSma, slotImm, bind, Except.bind, need, needSome]
theorem prMdl (e : End) (la : La) (evn : Bool) (src : SReg) (len : BitVec 13) (moff : BitVec 12) : Statement (.prMdl e la evn src len moff) := by
  intro h _ al rest hal
  have f0 : (e0 e.code4 2 la (specEvn evn)).extractLsb' 0 9 = 0#9 := by
    rw [e0_field _ _ _ _ _ _ (by omega)]; ext j hj
    simp only [specEvn, BitVec.getLsbD_append, ← BitVec.getLsbD_eq_getElem, BitVec.getLsbD_extractLsb']; grind
  have f1 : (e0 e.code4 2 la (specEvn evn)).extractLsb' 10 2 = 0#2 := by
    rw [e0_field _ _ _ _ _ _ (by omega)]; ext j hj
    simp only [specEvn, BitVec.getLsbD_append, ← BitVec.getLsbD_eq_getElem, BitVec.getLsbD_extractLsb']; grind
  have f2 : eBit (e0 e.code4 2 la (specEvn evn)) 9 = evn := by
    rw [e0_bit _ _ _ _ _ (by omega)]; simp only [specEvn, BitVec.getLsbD_append]; grind
  have f3 : sKind (1#2 ++ 0#5 ++ len ++ moff) = 1#2 := by
    unfold sKind; ext j hj
    simp only [BitVec.getLsbD_append, ← BitVec.getLsbD_eq_getElem, BitVec.getLsbD_extractLsb']; grind
  have f4 : (1#2 ++ 0#5 ++ len ++ moff).extractLsb' 0 12 = moff := by
    ext j hj
    simp only [BitVec.getLsbD_append, ← BitVec.getLsbD_eq_getElem, BitVec.getLsbD_extractLsb']; grind
  have f5 : (1#2 ++ 0#5 ++ len ++ moff).extractLsb' 12 13 = len := by
    ext j hj
    simp only [BitVec.getLsbD_append, ← BitVec.getLsbD_eq_getElem, BitVec.getLsbD_extractLsb']; grind
  have f6 : (1#2 ++ 0#5 ++ len ++ moff).extractLsb' 25 5 = 0#5 := by
    ext j hj
    simp only [BitVec.getLsbD_append, ← BitVec.getLsbD_eq_getElem, BitVec.getLsbD_extractLsb']; grind
  simp_all [Instr.wf, encode, decodeWords, decodeEngine_prism, decPrism, encPrMdl, slotImm, bind, Except.bind, need, needSome]
theorem prAcz (e : End) (la : La) (bank : Bool) (evn : Bool) (both : Bool) : Statement (.prAcz e la bank evn both) := by
  intro h _ al rest hal
  have f0 : (e0 e.code4 3 la (0#1 ++ BitVec.ofBool bank ++ BitVec.ofBool evn ++ BitVec.ofBool both ++ 0#8)).extractLsb' 0 8 = 0#8 := by
    rw [e0_field _ _ _ _ _ _ (by omega)]; ext j hj
    simp only [BitVec.getLsbD_append, ← BitVec.getLsbD_eq_getElem, BitVec.getLsbD_extractLsb']; grind
  have f1 : (e0 e.code4 3 la (0#1 ++ BitVec.ofBool bank ++ BitVec.ofBool evn ++ BitVec.ofBool both ++ 0#8)).extractLsb' 11 1 = 0#1 := by
    rw [e0_field _ _ _ _ _ _ (by omega)]; ext j hj
    simp only [BitVec.getLsbD_append, ← BitVec.getLsbD_eq_getElem, BitVec.getLsbD_extractLsb']; grind
  have f2 : eBit (e0 e.code4 3 la (0#1 ++ BitVec.ofBool bank ++ BitVec.ofBool evn ++ BitVec.ofBool both ++ 0#8)) 8 = both := by
    rw [e0_bit _ _ _ _ _ (by omega)]; simp only [BitVec.getLsbD_append]; grind
  have f3 : eBit (e0 e.code4 3 la (0#1 ++ BitVec.ofBool bank ++ BitVec.ofBool evn ++ BitVec.ofBool both ++ 0#8)) 9 = evn := by
    rw [e0_bit _ _ _ _ _ (by omega)]; simp only [BitVec.getLsbD_append]; grind
  have f4 : eBit (e0 e.code4 3 la (0#1 ++ BitVec.ofBool bank ++ BitVec.ofBool evn ++ BitVec.ofBool both ++ 0#8)) 10 = bank := by
    rw [e0_bit _ _ _ _ _ (by omega)]; simp only [BitVec.getLsbD_append]; grind
  simp_all [Instr.wf, encode, decodeWords, decodeEngine_prism, decPrism, encPrAcz, slotImm, bind, Except.bind, need, needSome]
theorem prOut (e : End) (la : La) (bank : Bool) (evn : Bool) (add : Bool) (clr : Bool) (sat : Bool) (rm : Rm) (dk : Dk) (d : SReg) (dstr : EOp) (ofmt : BitVec 6) (m : BitVec 4) (n : BitVec 4) (osc : BitVec 8) (ncore : EOp) : Statement (.prOut e la bank evn add clr sat rm dk d dstr ofmt m n osc ncore) := by
  intro h _ al rest hal
  have f0 : (e0 e.code4 4 la (0#1 ++ BitVec.ofBool bank ++ BitVec.ofBool evn ++ BitVec.ofBool add ++ BitVec.ofBool clr ++ BitVec.ofBool sat ++ rm.code ++ dk.code)).extractLsb' 0 3 = dk.code := by
    rw [e0_field _ _ _ _ _ _ (by omega)]; ext j hj
    simp only [BitVec.getLsbD_append, ← BitVec.getLsbD_eq_getElem, BitVec.getLsbD_extractLsb']; grind
  have f1 : (e0 e.code4 4 la (0#1 ++ BitVec.ofBool bank ++ BitVec.ofBool evn ++ BitVec.ofBool add ++ BitVec.ofBool clr ++ BitVec.ofBool sat ++ rm.code ++ dk.code)).extractLsb' 3 3 = rm.code := by
    rw [e0_field _ _ _ _ _ _ (by omega)]; ext j hj
    simp only [BitVec.getLsbD_append, ← BitVec.getLsbD_eq_getElem, BitVec.getLsbD_extractLsb']; grind
  have f2 : (e0 e.code4 4 la (0#1 ++ BitVec.ofBool bank ++ BitVec.ofBool evn ++ BitVec.ofBool add ++ BitVec.ofBool clr ++ BitVec.ofBool sat ++ rm.code ++ dk.code)).extractLsb' 11 1 = 0#1 := by
    rw [e0_field _ _ _ _ _ _ (by omega)]; ext j hj
    simp only [BitVec.getLsbD_append, ← BitVec.getLsbD_eq_getElem, BitVec.getLsbD_extractLsb']; grind
  have f3 : eBit (e0 e.code4 4 la (0#1 ++ BitVec.ofBool bank ++ BitVec.ofBool evn ++ BitVec.ofBool add ++ BitVec.ofBool clr ++ BitVec.ofBool sat ++ rm.code ++ dk.code)) 6 = sat := by
    rw [e0_bit _ _ _ _ _ (by omega)]; simp only [BitVec.getLsbD_append]; grind
  have f4 : eBit (e0 e.code4 4 la (0#1 ++ BitVec.ofBool bank ++ BitVec.ofBool evn ++ BitVec.ofBool add ++ BitVec.ofBool clr ++ BitVec.ofBool sat ++ rm.code ++ dk.code)) 7 = clr := by
    rw [e0_bit _ _ _ _ _ (by omega)]; simp only [BitVec.getLsbD_append]; grind
  have f5 : eBit (e0 e.code4 4 la (0#1 ++ BitVec.ofBool bank ++ BitVec.ofBool evn ++ BitVec.ofBool add ++ BitVec.ofBool clr ++ BitVec.ofBool sat ++ rm.code ++ dk.code)) 8 = add := by
    rw [e0_bit _ _ _ _ _ (by omega)]; simp only [BitVec.getLsbD_append]; grind
  have f6 : eBit (e0 e.code4 4 la (0#1 ++ BitVec.ofBool bank ++ BitVec.ofBool evn ++ BitVec.ofBool add ++ BitVec.ofBool clr ++ BitVec.ofBool sat ++ rm.code ++ dk.code)) 9 = evn := by
    rw [e0_bit _ _ _ _ _ (by omega)]; simp only [BitVec.getLsbD_append]; grind
  have f7 : eBit (e0 e.code4 4 la (0#1 ++ BitVec.ofBool bank ++ BitVec.ofBool evn ++ BitVec.ofBool add ++ BitVec.ofBool clr ++ BitVec.ofBool sat ++ rm.code ++ dk.code)) 10 = bank := by
    rw [e0_bit _ _ _ _ _ (by omega)]; simp only [BitVec.getLsbD_append]; grind
  have f8 : sKind (1#2 ++ ofmt ++ m ++ n ++ osc ++ 0#8) = 1#2 := by
    unfold sKind; ext j hj
    simp only [BitVec.getLsbD_append, ← BitVec.getLsbD_eq_getElem, BitVec.getLsbD_extractLsb']; grind
  have f9 : (1#2 ++ ofmt ++ m ++ n ++ osc ++ 0#8).extractLsb' 0 8 = 0#8 := by
    ext j hj
    simp only [BitVec.getLsbD_append, ← BitVec.getLsbD_eq_getElem, BitVec.getLsbD_extractLsb']; grind
  have f10 : (1#2 ++ ofmt ++ m ++ n ++ osc ++ 0#8).extractLsb' 8 8 = osc := by
    ext j hj
    simp only [BitVec.getLsbD_append, ← BitVec.getLsbD_eq_getElem, BitVec.getLsbD_extractLsb']; grind
  have f11 : (1#2 ++ ofmt ++ m ++ n ++ osc ++ 0#8).extractLsb' 16 4 = n := by
    ext j hj
    simp only [BitVec.getLsbD_append, ← BitVec.getLsbD_eq_getElem, BitVec.getLsbD_extractLsb']; grind
  have f12 : (1#2 ++ ofmt ++ m ++ n ++ osc ++ 0#8).extractLsb' 20 4 = m := by
    ext j hj
    simp only [BitVec.getLsbD_append, ← BitVec.getLsbD_eq_getElem, BitVec.getLsbD_extractLsb']; grind
  have f13 : (1#2 ++ ofmt ++ m ++ n ++ osc ++ 0#8).extractLsb' 24 6 = ofmt := by
    ext j hj
    simp only [BitVec.getLsbD_append, ← BitVec.getLsbD_eq_getElem, BitVec.getLsbD_extractLsb']; grind
  simp_all [Instr.wf, encode, decodeWords, decodeEngine_prism, decPrism, encPrOut, slotImm, bind, Except.bind, need, needSome]
theorem prScb (e : End) (la : La) (evn : Bool) (sb : SReg) (db : SReg) (shift : BitVec 5) : Statement (.prScb e la evn sb db shift) := by
  intro h _ al rest hal
  have f0 : (e0 e.code4 5 la (specEvn evn)).extractLsb' 0 9 = 0#9 := by
    rw [e0_field _ _ _ _ _ _ (by omega)]; ext j hj
    simp only [specEvn, BitVec.getLsbD_append, ← BitVec.getLsbD_eq_getElem, BitVec.getLsbD_extractLsb']; grind
  have f1 : (e0 e.code4 5 la (specEvn evn)).extractLsb' 10 2 = 0#2 := by
    rw [e0_field _ _ _ _ _ _ (by omega)]; ext j hj
    simp only [specEvn, BitVec.getLsbD_append, ← BitVec.getLsbD_eq_getElem, BitVec.getLsbD_extractLsb']; grind
  have f2 : eBit (e0 e.code4 5 la (specEvn evn)) 9 = evn := by
    rw [e0_bit _ _ _ _ _ (by omega)]; simp only [specEvn, BitVec.getLsbD_append]; grind
  have f3 : sKind (1#2 ++ 0#25 ++ shift) = 1#2 := by
    unfold sKind; ext j hj
    simp only [BitVec.getLsbD_append, ← BitVec.getLsbD_eq_getElem, BitVec.getLsbD_extractLsb']; grind
  have f4 : (1#2 ++ 0#25 ++ shift).extractLsb' 0 5 = shift := by
    ext j hj
    simp only [BitVec.getLsbD_append, ← BitVec.getLsbD_eq_getElem, BitVec.getLsbD_extractLsb']; grind
  have f5 : (1#2 ++ 0#25 ++ shift).extractLsb' 5 25 = 0#25 := by
    ext j hj
    simp only [BitVec.getLsbD_append, ← BitVec.getLsbD_eq_getElem, BitVec.getLsbD_extractLsb']; grind
  simp_all [Instr.wf, encode, decodeWords, decodeEngine_prism, decPrism, encPrScb, slotImm, bind, Except.bind, need, needSome]
theorem cpNd (la : La) (evn : Bool) (desc : SReg) : Statement (.cpNd la evn desc) := by
  intro h _ al rest hal
  have f0 : (e0 4 0 la (specEvn evn)).extractLsb' 0 9 = 0#9 := by
    rw [e0_field _ _ _ _ _ _ (by omega)]; ext j hj
    simp only [specEvn, BitVec.getLsbD_append, ← BitVec.getLsbD_eq_getElem, BitVec.getLsbD_extractLsb']; grind
  have f1 : (e0 4 0 la (specEvn evn)).extractLsb' 10 2 = 0#2 := by
    rw [e0_field _ _ _ _ _ _ (by omega)]; ext j hj
    simp only [specEvn, BitVec.getLsbD_append, ← BitVec.getLsbD_eq_getElem, BitVec.getLsbD_extractLsb']; grind
  have f2 : eBit (e0 4 0 la (specEvn evn)) 9 = evn := by
    rw [e0_bit _ _ _ _ _ (by omega)]; simp only [specEvn, BitVec.getLsbD_append]; grind
  simp_all [Instr.wf, encode, decodeWords, decodeEngine, decCopy, encCpNd, slotImm, bind, Except.bind, need, needSome]
theorem cpPullTake (la : La) (evn : Bool) (src : PullFrom) (dst : SReg) (tag : BitVec 16) : Statement (.cpPullTake la evn src dst tag) := by
  obtain ⟨any, pipe⟩ := src
  intro h _ al rest hal
  have f0 : (e0 4 1 la (0#2 ++ BitVec.ofBool evn ++ 0#1 ++ BitVec.ofBool any ++ 0#4 ++ pipe)).extractLsb' 0 3 = pipe := by
    rw [e0_field _ _ _ _ _ _ (by omega)]; ext j hj
    simp only [BitVec.getLsbD_append, ← BitVec.getLsbD_eq_getElem, BitVec.getLsbD_extractLsb']; grind
  have f1 : (e0 4 1 la (0#2 ++ BitVec.ofBool evn ++ 0#1 ++ BitVec.ofBool any ++ 0#4 ++ pipe)).extractLsb' 3 4 = 0#4 := by
    rw [e0_field _ _ _ _ _ _ (by omega)]; ext j hj
    simp only [BitVec.getLsbD_append, ← BitVec.getLsbD_eq_getElem, BitVec.getLsbD_extractLsb']; grind
  have f2 : (e0 4 1 la (0#2 ++ BitVec.ofBool evn ++ 0#1 ++ BitVec.ofBool any ++ 0#4 ++ pipe)).extractLsb' 10 2 = 0#2 := by
    rw [e0_field _ _ _ _ _ _ (by omega)]; ext j hj
    simp only [BitVec.getLsbD_append, ← BitVec.getLsbD_eq_getElem, BitVec.getLsbD_extractLsb']; grind
  have f3 : eBit (e0 4 1 la (0#2 ++ BitVec.ofBool evn ++ 0#1 ++ BitVec.ofBool any ++ 0#4 ++ pipe)) 7 = any := by
    rw [e0_bit _ _ _ _ _ (by omega)]; simp only [BitVec.getLsbD_append]; grind
  have f4 : eBit (e0 4 1 la (0#2 ++ BitVec.ofBool evn ++ 0#1 ++ BitVec.ofBool any ++ 0#4 ++ pipe)) 8 = false := by
    rw [e0_bit _ _ _ _ _ (by omega)]; simp only [BitVec.getLsbD_append]; grind
  have f5 : eBit (e0 4 1 la (0#2 ++ BitVec.ofBool evn ++ 0#1 ++ BitVec.ofBool any ++ 0#4 ++ pipe)) 9 = evn := by
    rw [e0_bit _ _ _ _ _ (by omega)]; simp only [BitVec.getLsbD_append]; grind
  have f6 : sKind (1#2 ++ 0#14 ++ tag) = 1#2 := by
    unfold sKind; ext j hj
    simp only [BitVec.getLsbD_append, ← BitVec.getLsbD_eq_getElem, BitVec.getLsbD_extractLsb']; grind
  have f7 : (1#2 ++ 0#14 ++ tag).extractLsb' 0 16 = tag := by
    ext j hj
    simp only [BitVec.getLsbD_append, ← BitVec.getLsbD_eq_getElem, BitVec.getLsbD_extractLsb']; grind
  have f8 : (1#2 ++ 0#14 ++ tag).extractLsb' 16 14 = 0#14 := by
    ext j hj
    simp only [BitVec.getLsbD_append, ← BitVec.getLsbD_eq_getElem, BitVec.getLsbD_extractLsb']; grind
  simp_all [Instr.wf, encode, decodeWords, decodeEngine, decCopy, encCpPullTake, slotImm, bind, Except.bind, need, needSome]
theorem cpPullRelease (la : La) (evn : Bool) (src : PullFrom) (units : BitVec 13) : Statement (.cpPullRelease la evn src units) := by
  obtain ⟨any, pipe⟩ := src
  intro h _ al rest hal
  have f0 : (e0 4 1 la (0#2 ++ BitVec.ofBool evn ++ 1#1 ++ BitVec.ofBool any ++ 0#4 ++ pipe)).extractLsb' 0 3 = pipe := by
    rw [e0_field _ _ _ _ _ _ (by omega)]; ext j hj
    simp only [BitVec.getLsbD_append, ← BitVec.getLsbD_eq_getElem, BitVec.getLsbD_extractLsb']; grind
  have f1 : (e0 4 1 la (0#2 ++ BitVec.ofBool evn ++ 1#1 ++ BitVec.ofBool any ++ 0#4 ++ pipe)).extractLsb' 3 4 = 0#4 := by
    rw [e0_field _ _ _ _ _ _ (by omega)]; ext j hj
    simp only [BitVec.getLsbD_append, ← BitVec.getLsbD_eq_getElem, BitVec.getLsbD_extractLsb']; grind
  have f2 : (e0 4 1 la (0#2 ++ BitVec.ofBool evn ++ 1#1 ++ BitVec.ofBool any ++ 0#4 ++ pipe)).extractLsb' 10 2 = 0#2 := by
    rw [e0_field _ _ _ _ _ _ (by omega)]; ext j hj
    simp only [BitVec.getLsbD_append, ← BitVec.getLsbD_eq_getElem, BitVec.getLsbD_extractLsb']; grind
  have f3 : eBit (e0 4 1 la (0#2 ++ BitVec.ofBool evn ++ 1#1 ++ BitVec.ofBool any ++ 0#4 ++ pipe)) 7 = any := by
    rw [e0_bit _ _ _ _ _ (by omega)]; simp only [BitVec.getLsbD_append]; grind
  have f4 : eBit (e0 4 1 la (0#2 ++ BitVec.ofBool evn ++ 1#1 ++ BitVec.ofBool any ++ 0#4 ++ pipe)) 8 = true := by
    rw [e0_bit _ _ _ _ _ (by omega)]; simp only [BitVec.getLsbD_append]; grind
  have f5 : eBit (e0 4 1 la (0#2 ++ BitVec.ofBool evn ++ 1#1 ++ BitVec.ofBool any ++ 0#4 ++ pipe)) 9 = evn := by
    rw [e0_bit _ _ _ _ _ (by omega)]; simp only [BitVec.getLsbD_append]; grind
  have f6 : sKind (1#2 ++ 0#17 ++ units) = 1#2 := by
    unfold sKind; ext j hj
    simp only [BitVec.getLsbD_append, ← BitVec.getLsbD_eq_getElem, BitVec.getLsbD_extractLsb']; grind
  have f7 : (1#2 ++ 0#17 ++ units).extractLsb' 0 13 = units := by
    ext j hj
    simp only [BitVec.getLsbD_append, ← BitVec.getLsbD_eq_getElem, BitVec.getLsbD_extractLsb']; grind
  have f8 : (1#2 ++ 0#17 ++ units).extractLsb' 13 17 = 0#17 := by
    ext j hj
    simp only [BitVec.getLsbD_append, ← BitVec.getLsbD_eq_getElem, BitVec.getLsbD_extractLsb']; grind
  have f9 : (1#2 ++ 0#17 ++ units).extractLsb' 16 14 = 0#14 := by
    ext j hj
    simp only [BitVec.getLsbD_append, ← BitVec.getLsbD_eq_getElem, BitVec.getLsbD_extractLsb']; grind
  simp_all [Instr.wf, encode, decodeWords, decodeEngine, decCopy, encCpPullRelease, slotImm, bind, Except.bind, need, needSome]
theorem kickPipe (la : La) (pipe : BitVec 3) (src : SReg) (len : EOp) (kt : KOp) : Statement (.kickPipe la pipe src len kt) := by
  intro h _ al rest hal
  have f0 : (e0 7 0 la (0#9 ++ pipe)).extractLsb' 0 3 = pipe := by
    rw [e0_field _ _ _ _ _ _ (by omega)]; ext j hj
    simp only [BitVec.getLsbD_append, ← BitVec.getLsbD_eq_getElem, BitVec.getLsbD_extractLsb']; grind
  have f1 : (e0 7 0 la (0#9 ++ pipe)).extractLsb' 3 5 = 0#5 := by
    rw [e0_field _ _ _ _ _ _ (by omega)]; ext j hj
    simp only [BitVec.getLsbD_append, ← BitVec.getLsbD_eq_getElem, BitVec.getLsbD_extractLsb']; grind
  have f2 : (e0 7 0 la (0#9 ++ pipe)).extractLsb' 9 3 = 0#3 := by
    rw [e0_field _ _ _ _ _ _ (by omega)]; ext j hj
    simp only [BitVec.getLsbD_append, ← BitVec.getLsbD_eq_getElem, BitVec.getLsbD_extractLsb']; grind
  have f3 : eBit (e0 7 0 la (0#9 ++ pipe)) 8 = false := by
    rw [e0_bit _ _ _ _ _ (by omega)]; simp only [BitVec.getLsbD_append]; grind
  have fk := slotKick_encKick kt
  simp_all [Instr.wf, encode, decodeWords, decodeEngine, decKick, encKickPipe, slotImm, bind, Except.bind, need, needSome]
theorem kickManual (la : La) (pipe : BitVec 3) (src : SReg) (len : EOp) (kt : KOp) : Statement (.kickManual la pipe src len kt) := by
  intro h _ al rest hal
  have f0 : (e0 7 0 la (1#4 ++ 0#5 ++ pipe)).extractLsb' 0 3 = pipe := by
    rw [e0_field _ _ _ _ _ _ (by omega)]; ext j hj
    simp only [BitVec.getLsbD_append, ← BitVec.getLsbD_eq_getElem, BitVec.getLsbD_extractLsb']; grind
  have f1 : (e0 7 0 la (1#4 ++ 0#5 ++ pipe)).extractLsb' 3 5 = 0#5 := by
    rw [e0_field _ _ _ _ _ _ (by omega)]; ext j hj
    simp only [BitVec.getLsbD_append, ← BitVec.getLsbD_eq_getElem, BitVec.getLsbD_extractLsb']; grind
  have f2 : eBit (e0 7 0 la (1#4 ++ 0#5 ++ pipe)) 8 = true := by
    rw [e0_bit _ _ _ _ _ (by omega)]; simp only [BitVec.getLsbD_append]; grind
  have f3 : (e0 7 0 la (1#4 ++ 0#5 ++ pipe)).extractLsb' 9 3 = 0#3 := by
    rw [e0_field _ _ _ _ _ _ (by omega)]; ext j hj
    simp only [BitVec.getLsbD_append, ← BitVec.getLsbD_eq_getElem, BitVec.getLsbD_extractLsb']; grind
  have fk := slotKick_encKick kt
  simp_all [Instr.wf, encode, decodeWords, decodeEngine, decKick, encKickManual, slotImm, bind, Except.bind, need, needSome]
theorem gaGat (la : La) (evn : Bool) (esz : BitVec 3) (idx : SReg) (base : SReg) (dst : SReg) (count : EOp) : Statement (.gaGat la evn esz idx base dst count) := by
  intro h _ al rest hal
  have f0 : (e0 5 0 la (0#2 ++ BitVec.ofBool evn ++ esz ++ 0#6)).extractLsb' 0 6 = 0#6 := by
    rw [e0_field _ _ _ _ _ _ (by omega)]; ext j hj
    simp only [BitVec.getLsbD_append, ← BitVec.getLsbD_eq_getElem, BitVec.getLsbD_extractLsb']; grind
  have f1 : (e0 5 0 la (0#2 ++ BitVec.ofBool evn ++ esz ++ 0#6)).extractLsb' 6 3 = esz := by
    rw [e0_field _ _ _ _ _ _ (by omega)]; ext j hj
    simp only [BitVec.getLsbD_append, ← BitVec.getLsbD_eq_getElem, BitVec.getLsbD_extractLsb']; grind
  have f2 : (e0 5 0 la (0#2 ++ BitVec.ofBool evn ++ esz ++ 0#6)).extractLsb' 10 2 = 0#2 := by
    rw [e0_field _ _ _ _ _ _ (by omega)]; ext j hj
    simp only [BitVec.getLsbD_append, ← BitVec.getLsbD_eq_getElem, BitVec.getLsbD_extractLsb']; grind
  have f3 : eBit (e0 5 0 la (0#2 ++ BitVec.ofBool evn ++ esz ++ 0#6)) 9 = evn := by
    rw [e0_bit _ _ _ _ _ (by omega)]; simp only [BitVec.getLsbD_append]; grind
  simp_all [Instr.wf, encode, decodeWords, decodeEngine, decGather, encGaGat, slotImm, bind, Except.bind, need, needSome]
theorem gaUpd (la : La) (evn : Bool) (op : GaOp) (t : GaTy) (idx : SReg) (base : SReg) (vals : SReg) (count : EOp) : Statement (.gaUpd la evn op t idx base vals count) := by
  intro h _ al rest hal
  have f0 : (e0 5 1 la (0#2 ++ BitVec.ofBool evn ++ op.code ++ t.code ++ 0#4)).extractLsb' 0 4 = 0#4 := by
    rw [e0_field _ _ _ _ _ _ (by omega)]; ext j hj
    simp only [BitVec.getLsbD_append, ← BitVec.getLsbD_eq_getElem, BitVec.getLsbD_extractLsb']; grind
  have f1 : (e0 5 1 la (0#2 ++ BitVec.ofBool evn ++ op.code ++ t.code ++ 0#4)).extractLsb' 4 3 = t.code := by
    rw [e0_field _ _ _ _ _ _ (by omega)]; ext j hj
    simp only [BitVec.getLsbD_append, ← BitVec.getLsbD_eq_getElem, BitVec.getLsbD_extractLsb']; grind
  have f2 : (e0 5 1 la (0#2 ++ BitVec.ofBool evn ++ op.code ++ t.code ++ 0#4)).extractLsb' 7 2 = op.code := by
    rw [e0_field _ _ _ _ _ _ (by omega)]; ext j hj
    simp only [BitVec.getLsbD_append, ← BitVec.getLsbD_eq_getElem, BitVec.getLsbD_extractLsb']; grind
  have f3 : (e0 5 1 la (0#2 ++ BitVec.ofBool evn ++ op.code ++ t.code ++ 0#4)).extractLsb' 10 2 = 0#2 := by
    rw [e0_field _ _ _ _ _ _ (by omega)]; ext j hj
    simp only [BitVec.getLsbD_append, ← BitVec.getLsbD_eq_getElem, BitVec.getLsbD_extractLsb']; grind
  have f4 : eBit (e0 5 1 la (0#2 ++ BitVec.ofBool evn ++ op.code ++ t.code ++ 0#4)) 9 = evn := by
    rw [e0_bit _ _ _ _ _ (by omega)]; simp only [BitVec.getLsbD_append]; grind
  simp_all [Instr.wf, encode, decodeWords, decodeEngine, decGather, encGaUpd, slotImm, bind, Except.bind, need, needSome]
theorem gaPrb (la : La) (evn : Bool) (tl : BitVec 5) (keys : SReg) (table : SReg) (dst : SReg) (count : EOp) : Statement (.gaPrb la evn tl keys table dst count) := by
  intro h _ al rest hal
  have f0 : (e0 5 2 la (0#2 ++ BitVec.ofBool evn ++ tl ++ 0#4)).extractLsb' 0 4 = 0#4 := by
    rw [e0_field _ _ _ _ _ _ (by omega)]; ext j hj
    simp only [BitVec.getLsbD_append, ← BitVec.getLsbD_eq_getElem, BitVec.getLsbD_extractLsb']; grind
  have f1 : (e0 5 2 la (0#2 ++ BitVec.ofBool evn ++ tl ++ 0#4)).extractLsb' 4 5 = tl := by
    rw [e0_field _ _ _ _ _ _ (by omega)]; ext j hj
    simp only [BitVec.getLsbD_append, ← BitVec.getLsbD_eq_getElem, BitVec.getLsbD_extractLsb']; grind
  have f2 : (e0 5 2 la (0#2 ++ BitVec.ofBool evn ++ tl ++ 0#4)).extractLsb' 10 2 = 0#2 := by
    rw [e0_field _ _ _ _ _ _ (by omega)]; ext j hj
    simp only [BitVec.getLsbD_append, ← BitVec.getLsbD_eq_getElem, BitVec.getLsbD_extractLsb']; grind
  have f3 : eBit (e0 5 2 la (0#2 ++ BitVec.ofBool evn ++ tl ++ 0#4)) 9 = evn := by
    rw [e0_bit _ _ _ _ _ (by omega)]; simp only [BitVec.getLsbD_append]; grind
  simp_all [Instr.wf, encode, decodeWords, decodeEngine, decGather, encGaPrb, slotImm, bind, Except.bind, need, needSome]
theorem miCfg (la : La) (evn : Bool) (base : SReg) (osz : BitVec 6) (isz : BitVec 6) (nslot : BitVec 16) : Statement (.miCfg la evn base osz isz nslot) := by
  intro h _ al rest hal
  have f0 : (e0 6 0 la (specEvn evn)).extractLsb' 0 9 = 0#9 := by
    rw [e0_field _ _ _ _ _ _ (by omega)]; ext j hj
    simp only [specEvn, BitVec.getLsbD_append, ← BitVec.getLsbD_eq_getElem, BitVec.getLsbD_extractLsb']; grind
  have f1 : (e0 6 0 la (specEvn evn)).extractLsb' 10 2 = 0#2 := by
    rw [e0_field _ _ _ _ _ _ (by omega)]; ext j hj
    simp only [specEvn, BitVec.getLsbD_append, ← BitVec.getLsbD_eq_getElem, BitVec.getLsbD_extractLsb']; grind
  have f2 : eBit (e0 6 0 la (specEvn evn)) 9 = evn := by
    rw [e0_bit _ _ _ _ _ (by omega)]; simp only [specEvn, BitVec.getLsbD_append]; grind
  have f3 : sKind (1#2 ++ 0#2 ++ osz ++ isz ++ nslot) = 1#2 := by
    unfold sKind; ext j hj
    simp only [BitVec.getLsbD_append, ← BitVec.getLsbD_eq_getElem, BitVec.getLsbD_extractLsb']; grind
  have f4 : (1#2 ++ 0#2 ++ osz ++ isz ++ nslot).extractLsb' 0 16 = nslot := by
    ext j hj
    simp only [BitVec.getLsbD_append, ← BitVec.getLsbD_eq_getElem, BitVec.getLsbD_extractLsb']; grind
  have f5 : (1#2 ++ 0#2 ++ osz ++ isz ++ nslot).extractLsb' 16 6 = isz := by
    ext j hj
    simp only [BitVec.getLsbD_append, ← BitVec.getLsbD_eq_getElem, BitVec.getLsbD_extractLsb']; grind
  have f6 : (1#2 ++ 0#2 ++ osz ++ isz ++ nslot).extractLsb' 22 6 = osz := by
    ext j hj
    simp only [BitVec.getLsbD_append, ← BitVec.getLsbD_eq_getElem, BitVec.getLsbD_extractLsb']; grind
  have f7 : (1#2 ++ 0#2 ++ osz ++ isz ++ nslot).extractLsb' 28 2 = 0#2 := by
    ext j hj
    simp only [BitVec.getLsbD_append, ← BitVec.getLsbD_eq_getElem, BitVec.getLsbD_extractLsb']; grind
  simp_all [Instr.wf, encode, decodeWords, decodeEngine, decMirror, encMiCfg, slotImm, bind, Except.bind, need, needSome]
theorem miQry (la : La) (mode : MiMode) (evn : Bool) (rd : SReg) (key : SReg) (step : EOp) (inp : SReg) (count : EOp) (out : SReg) : Statement (.miQry la mode evn rd key step inp count out) := by
  intro h _ al rest hal
  have f0 : (e0 6 1 la (mode.code ++ BitVec.ofBool evn ++ rd ++ 0#4)).extractLsb' 0 4 = 0#4 := by
    rw [e0_field _ _ _ _ _ _ (by omega)]; ext j hj
    simp only [BitVec.getLsbD_append, ← BitVec.getLsbD_eq_getElem, BitVec.getLsbD_extractLsb']; grind
  have f1 : (e0 6 1 la (mode.code ++ BitVec.ofBool evn ++ rd ++ 0#4)).extractLsb' 4 5 = rd := by
    rw [e0_field _ _ _ _ _ _ (by omega)]; ext j hj
    simp only [BitVec.getLsbD_append, ← BitVec.getLsbD_eq_getElem, BitVec.getLsbD_extractLsb']; grind
  have f2 : (e0 6 1 la (mode.code ++ BitVec.ofBool evn ++ rd ++ 0#4)).extractLsb' 10 2 = mode.code := by
    rw [e0_field _ _ _ _ _ _ (by omega)]; ext j hj
    simp only [BitVec.getLsbD_append, ← BitVec.getLsbD_eq_getElem, BitVec.getLsbD_extractLsb']; grind
  have f3 : eBit (e0 6 1 la (mode.code ++ BitVec.ofBool evn ++ rd ++ 0#4)) 9 = evn := by
    rw [e0_bit _ _ _ _ _ (by omega)]; simp only [BitVec.getLsbD_append]; grind
  simp_all [Instr.wf, encode, decodeWords, decodeEngine, decMirror, encMiQry, slotImm, bind, Except.bind, need, needSome]
theorem miPut (la : La) (evn : Bool) (key : SReg) (step : EOp) (src : SReg) (len : EOp) : Statement (.miPut la evn key step src len) := by
  intro h _ al rest hal
  have f0 : (e0 6 2 la (specEvn evn)).extractLsb' 0 9 = 0#9 := by
    rw [e0_field _ _ _ _ _ _ (by omega)]; ext j hj
    simp only [specEvn, BitVec.getLsbD_append, ← BitVec.getLsbD_eq_getElem, BitVec.getLsbD_extractLsb']; grind
  have f1 : (e0 6 2 la (specEvn evn)).extractLsb' 10 2 = 0#2 := by
    rw [e0_field _ _ _ _ _ _ (by omega)]; ext j hj
    simp only [specEvn, BitVec.getLsbD_append, ← BitVec.getLsbD_eq_getElem, BitVec.getLsbD_extractLsb']; grind
  have f2 : eBit (e0 6 2 la (specEvn evn)) 9 = evn := by
    rw [e0_bit _ _ _ _ _ (by omega)]; simp only [specEvn, BitVec.getLsbD_append]; grind
  simp_all [Instr.wf, encode, decodeWords, decodeEngine, decMirror, encMiPut, slotImm, bind, Except.bind, need, needSome]
theorem miClrKey (la : La) (evn : Bool) (key : SReg) : Statement (.miClrKey la evn key) := by
  intro h _ al rest hal
  have f0 : (e0 6 3 la (specEvn evn)).extractLsb' 0 8 = 0#8 := by
    rw [e0_field _ _ _ _ _ _ (by omega)]; ext j hj
    simp only [specEvn, BitVec.getLsbD_append, ← BitVec.getLsbD_eq_getElem, BitVec.getLsbD_extractLsb']; grind
  have f1 : (e0 6 3 la (specEvn evn)).extractLsb' 10 2 = 0#2 := by
    rw [e0_field _ _ _ _ _ _ (by omega)]; ext j hj
    simp only [specEvn, BitVec.getLsbD_append, ← BitVec.getLsbD_eq_getElem, BitVec.getLsbD_extractLsb']; grind
  have f2 : eBit (e0 6 3 la (specEvn evn)) 8 = false := by
    rw [e0_bit _ _ _ _ _ (by omega)]; simp only [specEvn, BitVec.getLsbD_append]; grind
  have f3 : eBit (e0 6 3 la (specEvn evn)) 9 = evn := by
    rw [e0_bit _ _ _ _ _ (by omega)]; simp only [specEvn, BitVec.getLsbD_append]; grind
  simp_all [Instr.wf, encode, decodeWords, decodeEngine, decMirror, encMiClrKey, slotImm, bind, Except.bind, need, needSome]
theorem miClrAll (la : La) (evn : Bool) : Statement (.miClrAll la evn) := by
  intro h _ al rest hal
  have f0 : (e0 6 3 la (0#2 ++ BitVec.ofBool evn ++ 1#1 ++ 0#8)).extractLsb' 0 8 = 0#8 := by
    rw [e0_field _ _ _ _ _ _ (by omega)]; ext j hj
    simp only [BitVec.getLsbD_append, ← BitVec.getLsbD_eq_getElem, BitVec.getLsbD_extractLsb']; grind
  have f1 : (e0 6 3 la (0#2 ++ BitVec.ofBool evn ++ 1#1 ++ 0#8)).extractLsb' 10 2 = 0#2 := by
    rw [e0_field _ _ _ _ _ _ (by omega)]; ext j hj
    simp only [BitVec.getLsbD_append, ← BitVec.getLsbD_eq_getElem, BitVec.getLsbD_extractLsb']; grind
  have f2 : eBit (e0 6 3 la (0#2 ++ BitVec.ofBool evn ++ 1#1 ++ 0#8)) 8 = true := by
    rw [e0_bit _ _ _ _ _ (by omega)]; simp only [BitVec.getLsbD_append]; grind
  have f3 : eBit (e0 6 3 la (0#2 ++ BitVec.ofBool evn ++ 1#1 ++ 0#8)) 9 = evn := by
    rw [e0_bit _ _ _ _ _ (by omega)]; simp only [BitVec.getLsbD_append]; grind
  simp_all [Instr.wf, encode, decodeWords, decodeEngine, decMirror, encMiClrAll, slotImm, bind, Except.bind, need, needSome]
theorem registerWrite (src : Option CoreId) (a : Nat) (v : Word) : Statement (.registerWrite src a v) := by
  simp [Statement, Instr.encoded, encode]
theorem longLatencyCompletion (c : CoreId) (i : Nat) : Statement (.longLatencyCompletion c i) := by
  simp [Statement, Instr.encoded, encode]
theorem storeBufferLeave (c : CoreId) : Statement (.storeBufferLeave c) := by
  simp [Statement, Instr.encoded, encode]
theorem writeThroughArrival (i : Nat) : Statement (.writeThroughArrival i) := by
  simp [Statement, Instr.encoded, encode]
theorem reductionApply (i : Nat) : Statement (.reductionApply i) := by
  simp [Statement, Instr.encoded, encode]
theorem pinWindowExpiry (d : DieId) (i : Nat) : Statement (.pinWindowExpiry d i) := by
  simp [Statement, Instr.encoded, encode]
theorem sliceRetry (i : Nat) : Statement (.sliceRetry i) := by
  simp [Statement, Instr.encoded, encode]
theorem heldWriteResend (i : Nat) : Statement (.heldWriteResend i) := by
  simp [Statement, Instr.encoded, encode]
theorem pageFaultRecordWrite (d : DieId) : Statement (.pageFaultRecordWrite d) := by
  simp [Statement, Instr.encoded, encode]
theorem prnWrite (c : CoreId) (v : Word) : Statement (.prnWrite c v) := by
  simp [Statement, Instr.encoded, encode]
theorem selectNextWork (c : CoreId) : Statement (.selectNextWork c) := by
  simp [Statement, Instr.encoded, encode]
theorem contextSaveSlotWait (c : CoreId) : Statement (.contextSaveSlotWait c) := by
  simp [Statement, Instr.encoded, encode]
theorem steal (c : CoreId) : Statement (.steal c) := by
  simp [Statement, Instr.encoded, encode]
theorem predDecrement (i : Nat) : Statement (.predDecrement i) := by
  simp [Statement, Instr.encoded, encode]
theorem messageArrival (i : Nat) : Statement (.messageArrival i) := by
  simp [Statement, Instr.encoded, encode]
theorem lockRequest (c : CoreId) : Statement (.lockRequest c) := by
  simp [Statement, Instr.encoded, encode]
theorem commitFrontierSample (d : DieId) : Statement (.commitFrontierSample d) := by
  simp [Statement, Instr.encoded, encode]
theorem orderedCommit (c : CoreId) (x : CtxNum) : Statement (.orderedCommit c x) := by
  simp [Statement, Instr.encoded, encode]
theorem orderedContextWound (k : ClusterId) : Statement (.orderedContextWound k) := by
  simp [Statement, Instr.encoded, encode]
theorem budgetExpiry (c : CoreId) : Statement (.budgetExpiry c) := by
  simp [Statement, Instr.encoded, encode]
theorem engineWordStart (k : ClusterId) (e : EngineId) : Statement (.engineWordStart k e) := by
  simp [Statement, Instr.encoded, encode]
theorem prismPairing (p : PrismId) : Statement (.prismPairing p) := by
  simp [Statement, Instr.encoded, encode]
theorem prismSingleEndStart (c : CoreId) (e : End) : Statement (.prismSingleEndStart c e) := by
  simp [Statement, Instr.encoded, encode]
theorem prismStep (p : PrismId) : Statement (.prismStep p) := by
  simp [Statement, Instr.encoded, encode]
theorem engineWordCompletion (c : CoreId) (q : QueueId) : Statement (.engineWordCompletion c q) := by
  simp [Statement, Instr.encoded, encode]
theorem eventRecordWrite (c : CoreId) : Statement (.eventRecordWrite c) := by
  simp [Statement, Instr.encoded, encode]
theorem heldWordReport (c : CoreId) : Statement (.heldWordReport c) := by
  simp [Statement, Instr.encoded, encode]
theorem efrAbort (c : CoreId) (q : QueueId) : Statement (.efrAbort c q) := by
  simp [Statement, Instr.encoded, encode]
theorem sliceAgentMessage (k : ClusterId) : Statement (.sliceAgentMessage k) := by
  simp [Statement, Instr.encoded, encode]
theorem kickNoticeArrival (c : CoreId) : Statement (.kickNoticeArrival c) := by
  simp [Statement, Instr.encoded, encode]
theorem kickNoticeResend (c : CoreId) : Statement (.kickNoticeResend c) := by
  simp [Statement, Instr.encoded, encode]
theorem pipePull (k : ClusterId) : Statement (.pipePull k) := by
  simp [Statement, Instr.encoded, encode]
theorem pullAckArrival (i : Nat) : Statement (.pullAckArrival i) := by
  simp [Statement, Instr.encoded, encode]
theorem wcntWrite (q : CmdQ) (v : Word) : Statement (.wcntWrite q v) := by
  simp [Statement, Instr.encoded, encode]
theorem queueEnableWrite (q : CmdQ) (v : Word) : Statement (.queueEnableWrite q v) := by
  simp [Statement, Instr.encoded, encode]
theorem histogramClear (q : CmdQ) : Statement (.histogramClear q) := by
  simp [Statement, Instr.encoded, encode]
theorem queueAgeing (q : CmdQ) : Statement (.queueAgeing q) := by
  simp [Statement, Instr.encoded, encode]
theorem queueEntryStart (d : DieId) : Statement (.queueEntryStart d) := by
  simp [Statement, Instr.encoded, encode]
theorem cqNop (d : DieId) (j : SlotNum) : Statement (.cqNop d j) := by
  simp [Statement, Instr.encoded, encode]
theorem cqLaunch (d : DieId) (j : SlotNum) : Statement (.cqLaunch d j) := by
  simp [Statement, Instr.encoded, encode]
theorem cqCopy (d : DieId) (j : SlotNum) : Statement (.cqCopy d j) := by
  simp [Statement, Instr.encoded, encode]
theorem cqSignalWrite (d : DieId) (j : SlotNum) : Statement (.cqSignalWrite d j) := by
  simp [Statement, Instr.encoded, encode]
theorem cqSignalAdd (d : DieId) (j : SlotNum) : Statement (.cqSignalAdd d j) := by
  simp [Statement, Instr.encoded, encode]
theorem cqWait (d : DieId) (j : SlotNum) : Statement (.cqWait d j) := by
  simp [Statement, Instr.encoded, encode]
theorem cqQbarrier (d : DieId) (j : SlotNum) : Statement (.cqQbarrier d j) := by
  simp [Statement, Instr.encoded, encode]
theorem queueEntryCompletion (d : DieId) (j : SlotNum) : Statement (.queueEntryCompletion d j) := by
  simp [Statement, Instr.encoded, encode]
theorem gangClaim (l : Nat) : Statement (.gangClaim l) := by
  simp [Statement, Instr.encoded, encode]
theorem gangUnplace (g : Nat) : Statement (.gangUnplace g) := by
  simp [Statement, Instr.encoded, encode]
theorem preemptionRequest (l : Nat) : Statement (.preemptionRequest l) := by
  simp [Statement, Instr.encoded, encode]
theorem powerWindow (d : DieId) (r : RegionNum) : Statement (.powerWindow d r) := by
  simp [Statement, Instr.encoded, encode]
theorem focusBalance (d : DieId) : Statement (.focusBalance d) := by
  simp [Statement, Instr.encoded, encode]
theorem irisHalt (g : IrisStep) : Statement (.irisHalt g) := by
  simp [Statement, Instr.encoded, encode]
theorem irisResume (g : IrisStep) : Statement (.irisResume g) := by
  simp [Statement, Instr.encoded, encode]
theorem irisSnapshot (g : IrisStep) : Statement (.irisSnapshot g) := by
  simp [Statement, Instr.encoded, encode]
theorem fcfgWrite (k : ClusterId) (n : BitVec 4) (v : Word) : Statement (.fcfgWrite k n v) := by
  simp [Statement, Instr.encoded, encode]
theorem facetWindowEnd (k : ClusterId) (n : BitVec 4) : Statement (.facetWindowEnd k n) := by
  simp [Statement, Instr.encoded, encode]
theorem lensClear (c : CoreId) : Statement (.lensClear c) := by
  simp [Statement, Instr.encoded, encode]
theorem warmReset (d : DieId) : Statement (.warmReset d) := by
  simp [Statement, Instr.encoded, encode]
theorem linkRetrain (d : DieId) (b : BitVec 2) : Statement (.linkRetrain d b) := by
  simp [Statement, Instr.encoded, encode]
theorem wifortReplay (d : DieId) : Statement (.wifortReplay d) := by
  simp [Statement, Instr.encoded, encode]
theorem wifortLaneFail (d : DieId) (j : BitVec 4) : Statement (.wifortLaneFail d j) := by
  simp [Statement, Instr.encoded, encode]
theorem scrubTick (d : DieId) : Statement (.scrubTick d) := by
  simp [Statement, Instr.encoded, encode]
theorem thermalWindow (d : DieId) (r : RegionNum) : Statement (.thermalWindow d r) := by
  simp [Statement, Instr.encoded, encode]
theorem thermalShutdown : Statement .thermalShutdown := by
  simp [Statement, Instr.encoded, encode]
theorem powerOnBoot : Statement .powerOnBoot := by
  simp [Statement, Instr.encoded, encode]
theorem functionReady (f : FunctionId) : Statement (.functionReady f) := by
  simp [Statement, Instr.encoded, encode]
theorem attestationRequest (nonce : BitVec 256) : Statement (.attestationRequest nonce) := by
  simp [Statement, Instr.encoded, encode]
theorem softError (site : ErrorSite) : Statement (.softError site) := by
  simp [Statement, Instr.encoded, encode]
theorem functionFail (f : FunctionId) : Statement (.functionFail f) := by
  simp [Statement, Instr.encoded, encode]
theorem wifortRequest (rq : WifortRequest) : Statement (.wifortRequest rq) := by
  simp [Statement, Instr.encoded, encode]

end Sys2Proof.Laws.RoundTrip
end

