-- ==== Sys2Proof/Tests/Slice0.lean ====
section
/-!
SUPPORT. Tests of the model's own: ill-formed terms the checks refuse, words of the spec's encodings, witnesses that meet the hypotheses
of every statement, and single steps whose results the spec gives.
-/
namespace Sys2Proof.Tests
open Sys2Proof Sys2Proof.Machine
set_option linter.unusedVariables false
set_option Elab.async false

/-! ### Ill-formed terms (R60, R62, R63, R65, R121, R169, R170, R175, R204 to R208, R223, R229, R231) -/

theorem test_wf_links : (Instr.br 1).wf = false ∧ (Instr.blr 5 0).wf = false := by decide
theorem test_wf_rounding :
    (Instr.vfadd 1 2 3 0 .f32 .rna).wf = false ∧ (Instr.vfsub 1 2 3 0 .f32 .rna).wf = false ∧ (Instr.vfmul 1 2 3 0 .f32 .rna).wf = false ∧
    (Instr.vfdiv 1 2 3 0 .f32 .rna).wf = false ∧ (Instr.vfmin 1 2 3 0 .f32 .rna).wf = false ∧ (Instr.vfmax 1 2 3 0 .f32 .rna).wf = false ∧
    (Instr.vfma 1 2 3 0 .f32 .rna).wf = false ∧ (Instr.vfms 1 2 3 0 .f32 .rna).wf = false ∧ (Instr.vfnma 1 2 3 0 .f32 .rna).wf = false ∧
    (Instr.vfnms 1 2 3 0 .f32 .rna).wf = false ∧ (Instr.vfsqrt 1 2 0 .f32 .rna).wf = false ∧ (Instr.vfabs 1 2 0 .f32 .rna).wf = false ∧
    (Instr.vfneg 1 2 0 .f32 .rna).wf = false := by decide
theorem test_wf_compares :
    (Instr.vceq 1 2 3 0 .e4m3).wf = false ∧ (Instr.vcne 1 2 3 0 .e5m2).wf = false ∧ (Instr.vclt 1 2 3 0 .e2m1).wf = false ∧
    (Instr.vcle 1 2 3 0 .i4).wf = false ∧ (Instr.vcgt 1 2 3 0 .e4m3).wf = false ∧ (Instr.vcge 1 2 3 0 .i4).wf = false := by decide
theorem test_wf_reductions :
    (Instr.vrsum 1 2 0 .e4m3).wf = false ∧ (Instr.vrmin 1 2 0 .e5m2).wf = false ∧ (Instr.vrmax 1 2 0 .e2m1).wf = false ∧
    (Instr.vrand 1 2 0 .i4).wf = false ∧ (Instr.vror 1 2 0 .e4m3).wf = false ∧ (Instr.vrxor 1 2 0 .i4).wf = false := by decide
theorem test_wf_conversion :
    (Instr.vcvt 1 2 false .i8 0 .f32 .rna).wf = false ∧ (Instr.vcvt 1 2 true .f64 0 .f32 .rne).wf = false ∧
    (Instr.vcvt 1 2 true .bf16 0 .f32 .csr).wf = false := by decide
theorem test_wf_evr : (Instr.evr 31).wf = false ∧ (Instr.evr 30).wf = true := by decide
theorem test_wf_read_only :
    (Instr.csrw 3 .core).wf = false ∧ (Instr.csrs 4 3 (.seq .cp)).wf = false ∧ (Instr.csrc 4 3 .time).wf = false := by decide
theorem test_wf_prism_formats :
    (Instr.prMma .east 0 .a false false 0 3 (.imm 32) 15 15 64 0x3E 0x12).wf = false ∧
    (Instr.prMma .east 0 .a false false 0 3 (.imm 32) 15 15 64 0x12 0x3F).wf = false ∧
    (Instr.prSma .east 0 .a false false true false 0 3 (.imm 32) 15 15 64 0x3E 0x12 0).wf = false ∧
    (Instr.prSma .east 0 .a false false true false 0 3 (.imm 32) 15 15 64 0x12 0x3F 0).wf = false := by decide
theorem test_wf_prism_codes :
    (Instr.prScb .west 0 false 3 4 25).wf = false ∧
    (Instr.prOut .east 0 false false false false false .rna .tcm 5 (.imm 4) 0x12 1 1 0 (.imm 0)).wf = false ∧
    (Instr.prOut .east 0 false false false false false .csr .tcm 5 (.imm 4) 0x3F 1 1 0 (.imm 0)).wf = false ∧
    (Instr.prOut .east 0 false false false false true .csr .tcm 5 (.imm 4) 0x12 1 1 0 (.imm 0)).wf = false := by decide
theorem test_wf_engines :
    (Instr.gaGat 0 false 6 3 4 5 (.imm 1)).wf = false ∧
    (Instr.gaGat 0 false 7 3 4 5 (.imm 1)).wf = false ∧ (Instr.gaPrb 0 false 3 3 4 5 (.imm 1)).wf = false ∧
    (Instr.gaPrb 0 false 31 3 4 5 (.imm 1)).wf = false := by decide

/-- What the decoder reads, none where it refuses. -/
def dec (al : Bool) (ws : List W32) : Option Instr := (decodeWords al ws).toOption

/-! ### Words of the spec's own examples, and words written field by field from its layouts -/

-- R58, R69's table of examples
theorem test_decode_add : dec false [0x00611000] = some (.add 3 1 2) := by decide
theorem test_decode_sel : dec false [0b000000_00001_00010_00011_00100_011111] = some (.sel 1 2 3 4) := by decide
theorem test_decode_div : dec false [0b000000_00001_00010_00011_0_0101_000101] = some (.div 1 2 3 5) := by decide
-- R59
theorem test_decode_rori : dec false [0b000110_00001_00010_00000000_11_000111] = some (.rori 1 2 7) := by decide
theorem test_decode_lis48 : dec false [0b001100_00101_00000_1000000000000001] = some (.lis48 5 0x8001) := by decide
-- R60
theorem test_decode_bne : dec false [0x4460FFFD] = some (.bne 3 0 0xFFFD) := by decide
theorem test_decode_bl : dec false [0b010110_1_1111111111111111111111110] = some (.bl 0x1FFFFFE) := by decide
theorem test_decode_branches :
    dec false [0b010111_00101_00000_0000000000000000] = some (.br 5) ∧
    dec false [0b010111_00101_00111_0000000000000000] = some (.blr 5 7) ∧
    dec false [0b010111_00001_00000_0000000000000000] = some .ret := by decide
-- R61: the examples of R155 and of the table, R156 to R160
theorem test_decode_ld : dec false [0x60A25084] = some (.ld 5 2 5 0 .n32 4) := by decide
theorem test_decode_st : dec false [0x64860680] = some (.st 4 6 3 .n32 0) := by decide
theorem test_decode_hinted :
    dec false [0b011010_00101_00010_0001_0100_1_011_1000] = some (.ldHinted 5 2 1 4 true .n64 8) := by decide
theorem test_decode_touch :
    dec false [0b011011_00000_00111_0010_000_000_111111] = some (.tch 7 2 0x3F) ∧
    dec false [0b011011_00000_00111_0000_000_010_000001] = some (.pfSl 7 1) := by decide
theorem test_decode_cmo : dec false [0x70074002] = some (.cmoCln 7 8 0 .slice) := by decide
theorem test_decode_cas : dec false [0x74C7400E] = some (.amoCas 6 7 8 0 .w64 .device) := by decide
theorem test_decode_red : dec false [0b011110_00000_00011_00100_0000_1000_0_0_0] = some (.redFadd 3 4 .w32) := by decide
-- R62, with the examples of R169, R170, R179
theorem test_decode_vfma :
    dec false [0b100010_00001_00010_00011_101_01_000_000] = some (.vfma 1 2 3 5 .f32 .rne) := by decide
theorem test_decode_vclt : dec false [0x8C253092] = some (.vclt 1 5 6 0 .f32) := by decide
theorem test_decode_vcvt : dec false [0x90E2E09E] = some (.vcvt 7 2 true .e4m3 0 .f32 .csr) := by decide
theorem test_decode_vqs : dec false [0b100101_00111_00010_00011_001_010_111_01] = some (.vqs 7 2 3 1 .e2m1 .csr) := by decide
theorem test_decode_vrsum : dec false [0b100110_00111_00010_00000_010_1001_0000] = some (.vrsum 7 2 2 .f32) := by decide
theorem test_decode_vperm : dec false [0b100111_00111_00010_00011_010_010_00000] = some (.vperm 7 2 3 2 .e32) := by decide
theorem test_decode_mask : dec false [0xA0270007] = some (.mfrom 1 7) := by decide
theorem test_decode_vld : dec false [0xA4490039] = some (.vld 2 9 0 0 3 .f32) := by decide
theorem test_decode_vscat : dec false [0b101011_00010_01001_00011_001_0000_11_01] = some (.vscat 2 9 3 1 0 .w64) := by decide
theorem test_decode_vamo : dec false [0b101100_00011_01000_00101_001_0000_1001] = some (.vamoSwap32 3 8 5 1 0) := by decide
-- R63, with the examples of R214, R215, R239
theorem test_decode_aset : dec false [0b110000_00000_00011_00100_00_110_000101] = some (.aset 3 4 6) := by decide
theorem test_decode_evr : dec false [0xC1800007] = some (.evr 12) := by decide
theorem test_decode_ewt : dec false [0xC0000108] = some (.ewt 0 .cp) := by decide
theorem test_decode_bar : dec false [0b110001_00101_00110_1_0011_00000_000010] = some (.barMax 5 6 true 3) := by decide
theorem test_decode_fence : dec false [0xC8000081] = some (.fenceAcq .dv) := by decide
-- R64
theorem test_decode_wpa : dec false [0b111000_00000_00011_00100_010_10_001000] = some (.wpaGang 3 4 2) := by decide
theorem test_decode_csrc : dec false [0b111001_00111_00011_0011_000100000011] = some (.csrc 7 3 .tscr) := by decide
-- R204 and R207: the words of the examples
theorem test_decode_prMma :
    dec true [0xFC400000, 0x80000003, 0x40000020, 0x7FC00040, 0x52480000, 0, 0, 0] = some (.prMma .east 0 .a false false 0 3 (.imm 32) 15 15 64 0x12 0x12) ∧
    dec true [0xFCC00800, 0x80000003, 0x40000020, 0x7FC00040, 0x52480000, 0, 0, 0] = some (.prMma .west 0 .b false false 0 3 (.imm 32) 15 15 64 0x12 0x12) := by decide
theorem test_decode_prOut :
    dec true [0xFC440038, 0x80000005, 0x40000004, 0x52110000, 0x400004CD, 0, 0, 0] = some (.prOut .east 0 false false false false false .csr .tcm 5 (.imm 4) 0x12 1 1 0 (.imm 1229)) := by decide
theorem test_decode_prAcz : dec true [0xFCC30100, 0, 0, 0, 0, 0, 0, 0] = some (.prAcz .west 0 false false true) := by decide
-- the examples of R221, R230, R229 and R271
theorem test_decode_cpNd : dec true [0xFD000200, 0x80000006, 0, 0, 0, 0, 0, 0] = some (.cpNd 0 true 6) := by decide
theorem test_decode_gather :
    dec true [0xFD420040, 0x8000000C, 0x80000003, 0x8000000D, 0x40000036, 0, 0, 0] = some (.gaPrb 0 false 4 12 3 13 (.imm 0x36)) ∧
    dec true [0xFD410020, 0x80000014, 0x80000006, 0x80000017, 0x40000010, 0, 0, 0] = some (.gaUpd 0 false .add .f32 20 6 23 (.imm 16)) := by decide
theorem test_decode_miQry :
    dec true [0xFD8122C0, 0x80000004, 0x80000005, 0x80000006, 0x40000004, 0x80000007, 0, 0] = some (.miQry 2 .absmax true 12 4 (.reg 5) 6 (.imm 4) 7) := by decide
-- R223: CLASS 7, OP 0, NP bit 8, PIPE; RCORE and TAG in slot 3, whose bits 29:28 R359 reports when the word issues
theorem test_decode_kick :
    dec true [0b111111_0111_000000_0000_000_1_00000_000, 0x80000003, 0x40000040, 0b01_00_000000000101_0000000000001001, 0, 0, 0, 0] = some (.kickManual 0 0 3 (.imm 64) (.imm 0 5 9)) ∧
    dec true [0b111111_0111_000000_0000_000_1_00000_000, 0x80000003, 0x40000040, 0b01_11_000000000101_0000000000001001, 0, 0, 0, 0] = some (.kickManual 0 0 3 (.imm 64) (.imm 3 5 9)) := by decide
-- R65: a slot of KIND 3, a KIND 0 slot that is not zero, a reserved bit
theorem test_decode_bad_slots :
    dec true [0xFD000200, 0xC0000006, 0, 0, 0, 0, 0, 0] = none ∧
    dec true [0xFD000200, 0x80000006, 1, 0, 0, 0, 0, 0] = none ∧
    dec true [0xFD000201, 0x80000006, 0, 0, 0, 0, 0, 0] = none ∧
    dec false [0x00611040] = none := by decide

/-! ### States of the tests -/

/-- A page of near SRAM that may be read and written. -/
def leaf : Leaf := ⟨0, 16, false, true, true, false, false⟩
/-- A page of the control window, and one that may be read only. -/
def ctlLeaf : Leaf := ⟨0x3F00000000, 16, false, true, true, false, false⟩
@[inherit_doc ctlLeaf] def roLeaf : Leaf := ⟨0x10000, 16, false, false, true, false, false⟩
/-- Their pins. -/
def pin0 : Pin := ⟨0, 0x100000000, leaf, 256, false⟩
@[inherit_doc pin0] def pin1 : Pin := ⟨0, 0x100010000, ctlLeaf, 256, false⟩
@[inherit_doc pin0] def pin2 : Pin := ⟨0, 0x100020000, roLeaf, 256, false⟩
/-- A header that declares everything: 32 `s`, 32 `v`, 8 `m` registers, 4 contexts, 16 barriers, all ends, a sending pipe 0 and a receiving
pipe 1 of one name (R103). -/
def hdr : Vector Word 16 := #v[0x4B56594C00010000, 0x0000100000000080,
  BitVec.ofNat 64 (2 ^ 58 * 32 + 2 ^ 52 * 32 + 2 ^ 48 * 8 + 2 ^ 45 * 4 + 2 ^ 40 * 16 + 2 ^ 34 * 15), 0x0001000000080000,
  0x0000200000000000, 0x0000000000100000, 0x0410000000000000, 0x0200000000000000, 0x0000006180000000, 0x0000006100000010, 0, 0, 0, 0, 0, 0]
/-- The TCB of a plain task of KIND 0 at 0x1_0000_1000. -/
def tcb0 : Tcb := #v[0x100001000, 5, 0, 0, 0, 0, 0, 0, 0, 0, 0, 0, 0, 0, 0, 0]
def ctx0 : Ctx := { Ctx.reset 0 with st := .run, pc := 0x100001000, tvec := 0x100002000, budget := 100, task := 1, tcb := tcb0 }
def image0 : Image := ⟨0, 0, 0, 0x100000000, hdr, 0⟩
def core0 : Core := { Core.reset with ctx := ctx0, image := some image0 }
def die0 : Die := { Die.reset with rdy := BitVec.allOnes 64, pins := [pin0, pin1, pin2] }
/-- A kernel of a 2 x 2 grid on cores 0, 1, 32 and 33; its code fills the first 64 KiB of global memory. -/
def kernel0 : Kernel := ⟨0x100000000, [], hdr.set 1 0x0001000000000080, [(0, 0, 0), (1, 1, 0), (32, 0, 1), (33, 1, 1)], 0, 0, Vector.replicate 8 0, 0, 0⟩
def launch0 : Launch := ⟨0, 0, 0, 0, 0, 0, 0, [kernel0], [⟨0x61, 0, 0⟩]⟩
/-- Core 0 runs a task in context 0; all cores are good and die 0 is ready. -/
def base : State := { State.reset with
  core := core0, released := true, dies := #v[die0, die0, die0, die0], gcmap := Vector.replicate 64 (BitVec.allOnes 64)
  launches := [(0, launch0)], gangs := [(0, ⟨0, .placed, []⟩)] }
/-- With registers set. -/
def regs (s : State) (l : List (SReg × Word)) : State := l.foldl (fun s p => s.writeS p.1 p.2) s
/-- With the mode, a queue, or another field of the context changed. -/
def sys (s : State) : State := s.updCtx fun x => { x with mode := .system }
/-- With bytes of memory. -/
def bytes (s : State) (l : Nat) (bs : List Byte) : State := { s with mem := placeBytes s.mem l bs }

/-- A step answers a next state. -/
def isNext (o : Host.Outcome State Fault Refusal) : Bool := match o with | .next _ => true | _ => false
theorem next_of {o : Host.Outcome State Fault Refusal} (h : isNext o = true) : ∃ t, o = .next t := by
  cases o <;> simp_all [isNext]
/-- Its next state. -/
def nextOf (o : Host.Outcome State Fault Refusal) : State := match o with | .next t => t | _ => State.reset
/-- A device step is not enabled. -/
def isOff (e : EvEnd) : Bool := match e with | .off => true | _ => false
theorem off_of {e : EvEnd} (h : isOff e = true) : e = .off := by cases e <;> simp_all [isOff]
/-- A pin maps an address. -/
def pinnedB (s : State) (va : Word) (l : Leaf) : Bool :=
  match s.pinOf s.myDie s.actx (addr54 va) with | some p => !p.doomed && p.leaf == l | none => false
theorem pinned_of {s : State} {va : Word} {l : Leaf} (h : pinnedB s va l = true) : s.Pinned va l := by
  unfold pinnedB at h
  split at h
  · exact ⟨_, by assumption, by simp_all, by simp_all⟩
  · simp at h
/-- The conditions of plain memory. -/
def plainB (s : State) (va : Word) (acc : Acc) (l : Leaf) : Bool :=
  let a := l.at (addr54 va)
  isGlobal (addr54 va) && pinnedB s va l && l.grants s.core.ctx.mode acc && (regionOf a == .nearSram || regionOf a == .gddr) &&
    paNode a == s.node && paDie a == s.myDie && s.homeError s.myDie a va acc.code == none && (s.dieAt s.myDie).locks.isEmpty &&
    (s.dieAt s.myDie).eo.isEmpty && s.reds.isEmpty && (s.dieAt s.myDie).uses.isEmpty && s.flips.isEmpty && s.poison.isEmpty &&
    (s.l1Find s.me.toNat false s.actx (addr54 va)).isNone && (s.core.ctx.cls == 0 || s.core.ctx.cls == 1 && s.core.ctx.sets.isEmpty) && s.wts.isEmpty && decide (7 ≤ l.size ∧ l.pa % 128 = 0)
theorem plain_of {s : State} {va : Word} {acc : Acc} {l : Leaf} (n : Nat) (h : plainB s va acc l = true) : s.Plain va n acc l := by
  simp only [plainB, Bool.and_eq_true, Bool.or_eq_true, beq_iff_eq, List.isEmpty_iff, Option.isNone_iff_eq_none, decide_eq_true_eq] at h
  obtain ⟨⟨⟨⟨⟨⟨⟨⟨⟨⟨⟨⟨⟨⟨⟨⟨h1, h2⟩, h3⟩, h4⟩, h5⟩, h6⟩, h7⟩, h8⟩, h9⟩, h10⟩, h11⟩, h12⟩, h13⟩, hc⟩, h14⟩, hw⟩, hp⟩ := h
  exact ⟨h1, pinned_of h2, hp, h3, h4, ⟨h5, h6⟩, h7, ⟨h8, h9⟩, by simp [h10], by simp [hw], by simp [h11], hc, ⟨h12, h13⟩, by rcases h14 with h | ⟨h, h'⟩ <;> simp [Ctx.lockLines, *]⟩
/-- The conditions of local memory. -/
def localB (s : State) (a n l : Nat) : Bool :=
  !isGlobal a && s.localLoc s.me.toNat a n false == some l && s.flips.isEmpty && s.poison.isEmpty
theorem local_of {s : State} {a n l : Nat} (h : localB s a n l = true) : s.Local a n l := by
  simp only [localB, Bool.and_eq_true, Bool.not_eq_true', beq_iff_eq, List.isEmpty_iff] at h
  exact ⟨h.1.1.1, h.1.1.2, h.1.2, h.2⟩
/-- Where a plain access meets memory. -/
def meetsB (s : State) (va : Word) (n : Nat) (acc : Acc) (l : Nat) : Bool :=
  localB s (addr54 va) n l || match s.pinOf s.myDie s.actx (addr54 va) with
    | some p => plainB s va acc p.leaf && l == p.leaf.at (addr54 va)
    | none => false
theorem meets_of {s : State} {va : Word} {n : Nat} {acc : Acc} {l : Nat} (h : meetsB s va n acc l = true) : s.Meets va n acc l := by
  simp only [meetsB, Bool.or_eq_true] at h
  rcases h with h | h
  · exact .inl (local_of h)
  · split at h
    · next p _ =>
        simp only [Bool.and_eq_true, beq_iff_eq] at h
        exact .inr ⟨p.leaf, plain_of n h.1, h.2⟩
    · simp at h
/-- No entry overlaps. -/
theorem unbuffered_of {s : State} {l n : Nat} (h : s.core.sb = []) : s.Unbuffered l n := by simp [State.Unbuffered, h]
/-- A TCB image in memory. -/
def holdsB (s : State) (va : Word) (t : Tcb) (l : Nat) : Bool :=
  (List.finRange 16).all fun i => meetsB s (addA va (BitVec.ofNat 64 (8 * i.val))) 8 .tcb (l + 8 * i.val) &&
    (spanOf (l + 8 * i.val) 8).map s.byte == leBytes 8 (t.word i.val).toNat
theorem holds_of {s : State} {va : Word} {t : Tcb} (l : Nat) (hs : s.core.sb = []) (h : holdsB s va t l = true) : s.HoldsTcb va t := by
  intro i
  have hi := List.all_eq_true.mp h i (List.mem_finRange i)
  simp only [Bool.and_eq_true, beq_iff_eq] at hi
  exact ⟨l + 8 * i.val, .inl (meets_of hi.1), unbuffered_of hs, hi.2⟩

/-- A check of the numbers below `n`. -/
theorem all_of {n : Nat} {p : Nat → Bool} {P : Nat → Prop} (hp : ∀ i, p i = true → P i) (h : (List.range n).all p = true) : ∀ i, i < n → P i := by
  intro i hi
  exact hp i (List.all_eq_true.mp h i (List.mem_range.mpr hi))

/-- An answer is a value. -/
def okB {ε α : Type} [DecidableEq α] (e : Except ε α) (v : α) : Bool := match e with | .ok x => x == v | .error _ => false
theorem ok_of {ε α : Type} [DecidableEq α] {e : Except ε α} {v : α} (h : okB e v = true) : e = .ok v := by
  cases e <;> simp_all [okB]
/-- The invariants of `Quiet`. -/
def quietB (s : State) : Bool :=
  Memory.wf s.mem && s.dirty.isEmpty && s.liveCores.all fun c => (s.coreAt c).watch.toList.all fun p => p.kind == 0
theorem quiet_of {s : State} (h : quietB s = true) : s.Quiet := by
  simp only [quietB, Bool.and_eq_true, List.isEmpty_iff, List.all_eq_true, beq_iff_eq] at h
  exact ⟨h.1.1, by simp [h.1.2], by simp [h.1.2], h.2⟩

/-! ### Single steps: values of the spec's examples and corners of its rules -/

/-- A register of core 0 after a step from `base` with registers set. -/
def after (i : Instr) (l : List (SReg × Word)) : State := nextOf (exec i (regs base l))
-- R113
theorem test_add_wraps : (after (.add 3 1 2) [(1, BitVec.allOnes 64), (2, 2)]).readS 3 = 1 ∧ (after (.add 0 1 2) [(1, 5)]).readS 0 = 0 := by decide +kernel
theorem test_sub_own_source : (after (.sub 1 1 1) [(1, 5)]).readS 1 = 0 ∧ (after (.sub 3 1 2) [(2, 1)]).readS 3 = BitVec.allOnes 64 := by decide +kernel
theorem test_mulh_signs :
    (after (.mulh 3 1 2) [(1, BitVec.allOnes 64), (2, BitVec.allOnes 64)]).readS 3 = 0 ∧
    (after (.mulhn 3 1 2) [(1, BitVec.allOnes 64), (2, BitVec.allOnes 64)]).readS 3 = BitVec.ofNat 64 (2 ^ 64 - 2) := by decide +kernel
theorem test_shift_amounts :
    (after (.sll 3 1 2) [(1, 1), (2, 65)]).readS 3 = 2 ∧ (after (.sra 3 1 2) [(1, 0x8000000000000000), (2, 63)]).readS 3 = BitVec.allOnes 64 ∧
    (after (.ror 3 1 2) [(1, 1), (2, 1)]).readS 3 = 0x8000000000000000 ∧ (after (.clz 3 1) []).readS 3 = 64 := by decide +kernel
-- R116's example
theorem test_adda_example :
    (after (.adda 3 4 5) [(4, 0x4500000000100000), (5, BitVec.ofInt 64 (-0x40))]).readS 3 = 0x45000000000FFFC0 ∧
    (after (.adda 3 4 5) [(4, 0x453FFFFFFFFFFFF0), (5, 0x20)]).readS 3 = 0x4500000000000010 ∧
    (after (.add 3 4 5) [(4, 0x453FFFFFFFFFFFF0), (5, 0x20)]).readS 3 = 0x4540000000000010 := by decide +kernel
-- the example of a 64-bit constant
theorem test_constant_example :
    (after (.li 7 0xDEF0) []).readS 7 = 0xFFFFFFFFFFFFDEF0 ∧ (after (.lis16 7 0x9ABC) [(7, 0xFFFFFFFFFFFFDEF0)]).readS 7 = 0xFFFFFFFF9ABCDEF0 ∧
    (after (.lis32 7 0x5678) [(7, 0xFFFFFFFF9ABCDEF0)]).readS 7 = 0xFFFF56789ABCDEF0 ∧
    (after (.lis48 7 0x1234) [(7, 0xFFFF56789ABCDEF0)]).readS 7 = 0x123456789ABCDEF0 := by decide +kernel
-- R125's example
theorem test_trap_example :
    (let s := base.updCtx fun x => { x with pc := 0x100002040, tvec := 0x100008000 }
    let t := nextOf (exec (.trap 37) s)
    t.core.ctx.tepc = 0x100002044 ∧ t.core.ctx.tcause = 0x25 ∧ t.pc = 0x100008000 ∧ t.core.ctx.mode = .system ∧
      (nextOf (exec .rett t)).pc = 0x100002044 ∧ (nextOf (exec .rett t)).core.ctx.mode = .task) := by decide +kernel
-- R118 to R120: an offset counts words from the branch; a link is the next word
theorem test_branch_back : (after (.beq 1 2 0xFFFD) []).pc = 0x100000FF4 ∧ (after (.bne 1 2 0xFFFD) []).pc = 0x100001004 := by decide +kernel
theorem test_link : (after (.bl 4) []).pc = 0x100001010 ∧ (after (.bl 4) []).readS 1 = 0x100001004 := by decide +kernel
-- R72's and R155's example, by the location in the scratchpad that the store buffer holds
theorem test_swizzle_example :
    ((after (.st 4 6 3 .n32 0) [(4, 0xDEADBEEF), (6, 0x100A44)]).core.sb.map (·.loc)) = [2 ^ 53 + 0xA50] := by decide +kernel
-- R139's example, and R13's router
theorem test_slice_example : sliceOf 0x00014A362480 = 61 := by decide +kernel
-- a load from TCM, sign-extended (R155)
theorem test_load_sign :
    (let s := regs (bytes base (tcmLoc 0 0x1000) [0x34, 0x82]) [(5, 0x1000)]
    (nextOf (exec (.ld 3 5 0 0 .i16 0) s)).readS 3 = 0xFFFFFFFFFFFF8234 ∧ (nextOf (exec (.ld 3 5 0 0 .n16 0) s)).readS 3 = 0x8234) := by decide +kernel
-- R140: an untouched page of a global access raises a precise fault (R150)
theorem test_untouched :
    (let t := after (.ld 3 5 0 0 .n64 0) [(5, 0x700000000)]
    t.core.ctx.tepc = 0x100001000 ∧ t.core.ctx.mode = .system ∧ t.core.ctx.fltaddr = 0x700000000) := by decide +kernel
-- R170's example
theorem test_convert_example :
    (convertElem .f32 .e4m3 .rne true 0x43E80000).1 = 0x7E ∧ (convertElem .f32 .e4m3 .rne true 0x43EB0000).1 = 0x7E ∧
    (convertElem .f32 .e4m3 .rne false 0x43EB0000).1 = 0x7F ∧ (convertElem .f32 .e4m3 .rne true 0xFF800000).1 = 0xFE ∧
    (convertElem .f32 .e4m3 .rne false 0xFF800000).1 = 0xFF ∧ (convertElem .f32 .e4m3 .rne true 0x7FC00000).1 = 0x7F ∧
    (convertElem .f32 .e4m3 .rne true 0x80000000).1 = 0x80 ∧ convertElem .f32 .e4m3 .rne true 0x3A800000 = (0, 0x03) := by decide +kernel
-- R40's example of one rounding and of two
theorem test_double_rounding :
    (convertElem .f32 .e2m1 .rne false 0x3FA10000).1 = 3 ∧ (convertElem .f32 .e4m3 .rne false 0x3FA10000).1 = 0x3A ∧
    (convertElem .e4m3 .e2m1 .rne false 0x3A).1 = 2 := by decide +kernel
-- R48's example: the tie under QMODE 1
theorem test_quantise_tie :
    (searchCode ([0x40E00000, 0x4039999A].map fmtF32.val) .e2m1 .rne) = 0x7F ∧
    (quantOne (fmtF32.val 0x40E00000) 0x7F .e2m1 .rne).1 = 7 ∧ (quantOne (fmtF32.val 0x4039999A) 0x7F .e2m1 .rne).1 = 5 := by decide +kernel
/-- Core 0 with vector registers set. -/
def vregs (s : State) (l : List (VReg × Vec)) : State := l.foldl (fun s p => s.writeV p.1 p.2) s
-- the example of a block in two parts (R171, R172)
theorem test_quantise_parts :
    (let s := vregs base [(1, packLanes 32 [0x3F400000, 0xC0600000]), (2, packLanes 32 [0x44160000])]
    (nextOf (exec (.vqs 11 1 0 0 .e4m3 .csr) s)).readS 11 = 0x4060000000000078 ∧
    (nextOf (exec (.vqs 11 2 11 0 .e4m3 .csr) (regs s [(11, 0x4060000000000078)]))).readS 11 = 0x4416000000000080 ∧
    (nextOf (exec (.vq 6 1 11 0 .e4m3 .csr) (regs s [(11, 0x4416000000000080)]))).readV 6 = 0xBE2C ∧
    (nextOf (exec (.vq 7 2 11 0 .e4m3 .csr) (regs s [(11, 0x4416000000000080)]))).readV 7 = 0x79) := by decide +kernel
-- R175's example
theorem test_sum_order :
    (let v := fun (a b c : Nat) => (nextOf (exec (.vrsum 3 1 1 .f32) ((vregs base [(1, packLanes 32 [a, b, c])]).writeM 1 7))).readS 3
    v 0x3F800000 0x33800000 0x33800000 = 0x3F800000 ∧ v 0x33800000 0x33800000 0x3F800000 = 0x3F800001) := by decide +kernel
-- R177's example
theorem test_compress_example :
    (nextOf (exec (.vcompr 3 1 2 .e32) ((vregs base [(1, packLanes 32 [10, 11, 12, 13, 14, 15, 16, 17])]).writeM 2 0xA4))).readV 3 =
      packLanes 32 [12, 15, 17] := by decide +kernel
-- R167's corners: 0 × ∞ with a NaN addend sets NV; saturating and wrapping lanes
theorem test_fused_invalid :
    (let s := vregs base [(1, packLanes 32 [0]), (2, packLanes 32 [0x7F800000]), (4, packLanes 32 [0x7FC00001])]
    let t := nextOf (exec (.vfma 4 1 2 1 .f32 .csr) (s.writeM 1 1))
    lane (t.readV 4) 32 0 = 0x7FC00000 ∧ t.core.ctx.fstat = 0x10) := by decide +kernel
theorem test_vector_saturates :
    (let s := vregs base [(1, packLanes 8 [0x7F]), (2, packLanes 8 [1])]
    lane ((nextOf (exec (.vadds 3 1 2 0 .i8) s)).readV 3) 8 0 = 0x7F ∧ lane ((nextOf (exec (.vadd 3 1 2 0 .i8) s)).readV 3) 8 0 = 0x80) := by
  decide +kernel
-- R182's example: duplicate indices, in the scratchpad
theorem test_vector_atomic_example :
    (let s := bytes (vregs ((regs base [(8, 0x100200)]).writeM 1 0xF)
      [(5, packLanes 32 [0, 2, 0, 1]), (3, packLanes 32 [1, 10, 100, 1000])]) (2 ^ 53 + 0x200) ([5, 7, 9].flatMap (leBytes 4))
    let t := nextOf (exec (.vamoAdd32 3 8 5 1 0) s)
    t.readV 3 = packLanes 32 [5, 9, 6, 7] ∧ t.core.ctx.vprog = 0 ∧
      (spanOf (2 ^ 53 + 0x200) 12).map t.byte = [106, 1007, 19].flatMap (leBytes 4)) := by decide +kernel
-- R208's example of a delivery: the four results
theorem test_delivery_example :
    [0x3F800000, 0x39800000, 0xC0400000, 0x477FF000].map (fun x => (convertElem .f32 .f16 .rne false x).1) = [0x3C00, 0x0C00, 0xC200, 0x7C00] := by
  decide +kernel
-- R231's example of a key's bucket; R86's of word 2 of a tile task
theorem test_bucket_example : bucketOf 8 5 = 23 ∧ bucketOf 8 6 = 181 := by decide +kernel
theorem test_tile_word_example :
    ((tileTcb { launch0 with tag := 0x42 } { kernel0 with gang := 0x01A } 1 1 0 2 0 0).word 2).toNat = 0x0001A00020010042 := by decide +kernel
-- R30's example of one block, coded and decoded
theorem test_block_example :
    (let codes := [0x3C, 0xC4, 0x28, 0] ++ List.replicate 28 0x38
    let bs : List Byte := [0x60, 0x70, 2, 0, 0, 0, 0x24] ++ List.replicate 11 0 ++ [0x4D, 0xE0, 0, 0, 0, 0]
    encodeBlock 7 codes = bs ∧ decodeBlock bs = some codes) := by decide +kernel
-- a step from reset fetches and runs the word placed for it
theorem test_step_runs_word : ((nextOf (step (State.reset.withFetchWord 32 0x08600007))).readS 3 = 7) ∧
    (nextOf (step (State.reset.withFetchWord 256 0x80000006FD000200))).core.queues.toList.map List.length = [0, 0, 0, 0, 1, 0, 0, 0] := by decide +kernel
-- after reset no memory is listed and the compute dies are in reset (R329)
theorem test_reset_stays : State.reset.released = false ∧ State.reset.mem = [] := by decide
/-! ### Witnesses: concrete states and operands that meet the hypotheses of the statements, clause by clause

Each theorem carries the name of its statement. Statements without hypotheses (RegisterLaws, IntegerResults, ImmediateResults, the vector
results) need none. -/

theorem test_hyp_DecodeEncode :
    ((Instr.add 3 1 2).wf = true ∧ (Instr.add 3 1 2).encoded = true ∧ (encode (.add 3 1 2)).length = 1) ∧
    ((Instr.cpNd 15 true 31).wf = true ∧ (Instr.cpNd 15 true 31).encoded = true) := by decide
theorem test_hyp_ReservedRefused :
    (0x04000000#32).extractLsb' 26 6 = 0x01#6 ∧ (0xF8000000#32).extractLsb' 26 6 = 0x3E#6 ∧ (0xFC000000#32).extractLsb' 26 6 = 0x3F#6 ∧
    ((0x00000020#32).extractLsb' 26 6 = 0x00#6 ∧ 0x20 ≤ ((0x00000020#32).extractLsb' 0 6).toNat) ∧
    ((0xC3E00007#32).extractLsb' 26 6 = 0x30#6 ∧ (0xC3E00007#32).extractLsb' 0 6 = 7#6 ∧ (0xC3E00007#32).extractLsb' 21 5 = 31#5) ∧
    ((0xE0000009#32).extractLsb' 26 6 = 0x38#6 ∧ 9 ≤ ((0xE0000009#32).extractLsb' 0 6).toNat) := by decide

/-- The checks of a fetch, a decode and the obstacles on a state, for an instruction. -/
def issuesB (s : State) (i : Instr) : Bool :=
  match fetchInstr s with
  | .ok ws s1 => dec (s1.pc.toNat % 32 = 0) ws == some i && (s1.obstacle i).isNone
  | .error .. => false
theorem issues_of {s : State} {i : Instr} (h : issuesB s i = true) :
    ∃ ws s1, fetchInstr s = .ok ws s1 ∧ decodeWords (s1.pc.toNat % 32 = 0) ws = .ok i ∧ s1.obstacle i = none := by
  unfold issuesB at h
  split at h
  · next ws s1 hf =>
      simp only [Bool.and_eq_true, beq_iff_eq, Option.isNone_iff_eq_none, dec] at h
      refine ⟨ws, s1, hf, ?_, h.2⟩
      cases hd : decodeWords (s1.pc.toNat % 32 = 0) ws <;> simp_all [Except.toOption]
  · simp at h
/-- `addi s3, s0, 7` placed after reset, with and without an agenda. -/
def placed : State := { State.reset.withFetchWord 32 0x08600007 with agenda := [] }
theorem test_hyp_StepRunsDecoded :
    (placed.agenda = [] ∧ placed.core.waiting = false ∧ placed.canIssue = true ∧ placed.core.blocked false = false) ∧
    EvEnd.first placed [evHeldWordReport placed.me, evBudgetExpiry placed.me] = .off ∧
    (∃ ws s1, fetchInstr placed.ready = .ok ws s1 ∧ decodeWords (s1.pc.toNat % 32 = 0) ws = .ok (.addi 3 0 7) ∧
      s1.obstacle (.addi 3 0 7) = none) ∧
    ((State.reset.withFetchWord 32 0x08600007).agenda = .issue (State.reset.withFetchWord 32 0x08600007).me :: []) ∧
    (∀ p ∈ placed.clusters, p.2.counts = false) ∧ (placed.clusterAt (clusterOf 0)).counts = false :=
  ⟨by decide +kernel, off_of (by decide +kernel), issues_of (by decide +kernel), by decide +kernel, by decide, by decide⟩
theorem test_hyp_StepTakesDeviceStep : ∃ (s : State) (i : Instr) (l : List Move), s.agenda = .event i :: l ∧ ∀ src a v, i ≠ .registerWrite src a v :=
  ⟨{ base with agenda := [.event (.storeBufferLeave 0)] }, _, _, rfl, by intros; simp⟩
theorem test_hyp_ObstacleOrder :
    (tooHigh base.core.header (.hreq 3) = none ∧ (regs base [(3, 0x1000)]).hreqDenied 3 = true ∧ base.hreqDenied 3 = false ∧
      systemOnly (.hreq 3) = false ∧ base.badSource (.hreq 3) = none) ∧
    tooHigh State.reset.core.header (.add 3 1 2) = some (.s 3) ∧
    (tooHigh hdr (.barArv false 15) = none ∧ barrierOf (.barArv false 15) = some 15 ∧ tooHigh State.reset.core.header (.barArv false 0) = none ∧
      hdrBars State.reset.core.header ≤ 0) ∧
    (tooHigh base.core.header .rett = none ∧ (∀ n, barrierOf .rett = some n → n < hdrBars base.core.header) ∧ systemOnly .rett = true ∧
      base.core.ctx.mode = .task) ∧
    (tooHigh base.core.header (.barArv true 15) = none ∧ (∀ n, barrierOf (.barArv true 15) = some n → n < hdrBars base.core.header) ∧
      systemOnly (.barArv true 15) = false ∧ base.badSource (.barArv true 15) = none) := by
  refine ⟨by decide, by decide, by decide, ⟨by decide, by decide, by decide, by decide⟩, by decide, ?_, by decide, by decide⟩
  intro n h
  simp only [barrierOf, Option.some.injEq] at h
  subst h
  decide
theorem test_hyp_StepKeepsCanonical : placed.Canonical ∧ ∃ t, step placed = .next t := ⟨by decide +kernel, next_of (by decide +kernel)⟩
theorem test_hyp_LookaheadResult : base.core.ctx.win = [] ∧ (3 : SReg) ≠ 0 ∧ (4 : SReg) ≠ 0 ∧ (15 : La) ≠ 0 ∧ 15 ≤ (15 : La).toNat := by decide
theorem test_hyp_DivisionResults :
    (regs base [(3, BitVec.intMin 64), (4, BitVec.allOnes 64)]).readS 3 = BitVec.intMin 64 ∧
    (regs base [(3, BitVec.intMin 64), (4, BitVec.allOnes 64)]).readS 4 = BitVec.allOnes 64 ∧ base.readS 0 = 0 ∧
    (regs base [(4, BitVec.intMin 64)]).readS 4 ≠ 0 := by decide
theorem test_hyp_BranchResults :
    ((regs base [(1, 0x100001004)]).readS 1).extractLsb' 0 2 = 0 ∧ ((regs base [(1, 0x100001003)]).readS 1).extractLsb' 0 2 ≠ 0 ∧
    (regs base [(1, 0x100001003)]).core.blocked true = false := by decide
/-- An exception with every field of R337 at the end of its range. -/
def exc0 : Exc := { code := 0x3FF, acc := 15, detail := 255, lane := some 127, addr := 0xFFFFFFFFFFFFFFFF }
theorem test_hyp_TrapDelivery :
    exc0.stop = false ∧ pcMask base.core.ctx.tvec ≠ 0 ∧ base.pc ≠ pcMask base.core.ctx.tvec ∧ exc0.code < 1024 ∧ exc0.acc < 16 ∧
    exc0.detail < 256 ∧ ∀ k, exc0.lane = some k → k < 128 := by
  refine ⟨by decide, by decide, by decide, by decide, by decide, by decide, ?_⟩
  intro k h
  simp only [exc0, Option.some.injEq] at h
  omega
theorem test_hyp_GangStopDelivery :
    ({ exc0 with stop := true }.stop = true ∧ base.core.iris = .running ∧ base.core.image = some image0) ∧
    (pcMask placed.core.ctx.tvec = 0 ∧ placed.core.iris = .running) ∧
    (base.setPc 0x100002000).pc = pcMask (base.setPc 0x100002000).core.ctx.tvec ∧ State.reset.core.image = none := by decide +kernel
theorem test_hyp_TrapAndReturn : base.core.blocked true = false ∧ (sys base).core.ctx.mode = .system := by decide
theorem test_hyp_PrivilegeTraps :
    base.core.ctx.mode = .task ∧ base.core.blocked true = false ∧ Csr.system .tvec = true ∧
    ((regs base [(3, 0x1000)]).readS 3).extractLsb' 12 2 ≠ 0 ∧ ((regs base [(3, 0x4000)]).readS 3).extractLsb' 14 2 = 1 ∧
    ((regs base [(3, 0xC000)]).readS 3).extractLsb' 14 2 = 3 := by decide
theorem test_hyp_CsrAccess :
    (base.core.blocked true = false ∧ Csr.system .rmode = false ∧ base.csrOk .rmode ((regs base [(3, 4)]).readS 3) = true ∧
      base.csrOk .rmode ((regs base [(3, 5)]).readS 3) = false) ∧
    -- `csrs` that makes RMODE 5, `csrc` that makes LOGN 1
    (let s := regs (base.updCtx fun x => { x with rmode := 4 }) [(3, 1)]
    s.csrOk .rmode (s.csr .rmode ||| s.readS 3) = false) ∧
    (let s := regs { base with core := { core0 with evq := 0x0000000000510000 } } [(3, 0x400000)]
    s.core.blocked true = false ∧ s.csrOk .evq (s.csr .evq &&& ~~~s.readS 3) = false) ∧
    ((sys base).core.blocked true = false ∧ Csr.system .tscr = true ∧ (sys base).core.ctx.mode = .system ∧ (3 : SReg) ≠ 0 ∧
      (sys base).csrOk .tscr ((sys base).csr .tscr ||| (sys base).readS 3) = true ∧
      (sys base).csrOk .tscr ((sys base).csr .tscr &&& ~~~(sys base).readS 3) = true) := by decide +kernel
theorem test_hyp_CsrReadBack : Csr.readOnly .evq = false ∧ Csr.readOnly .rmode = false ∧ Csr.evq ≠ Csr.rmode := by decide
/-- Upcall code in context 1 for context 0, which waits. -/
def upcall0 : State := { base with core := { core0 with
  ctx := { Ctx.reset 1 with st := .run, pc := 0x100001000, tvec := 0x100002000, upsrc := 0x8000000000000000 }
  rest := [{ ctx0 with st := .wake }, Ctx.reset 2, Ctx.reset 3] } }
theorem test_hyp_WaitAndUpcallEnds :
    evqHead (0x0001000000000000 : Word) ≠ evqTail 0x0001000000000000 ∧ (upcall0.core.ctx.upcallCode = true ∧ upcall0.core.blocked true = false) ∧
    (base.core.ctx.upcallCode = false ∧ base.core.blocked true = false) ∧
    (upcall0.readS 0 = (0 : CtxNum).setWidth 64 ∧ (0 : CtxNum) ≠ upcall0.core.ctx.num ∧ (upcall0.core.getCtx 0).st = .wake ∧
      (upcall0.core.getCtx 0).restartMark = false) := by decide
theorem test_hyp_SignalsAndMarks :
    (let v := (regs base [(3, 0x8003)]).readS 3
    v.extractLsb' 16 48 = 0 ∧ (v.extractLsb' 14 2).toNat = 2 ∧ (v.extractLsb' 12 2).toNat = 0 ∧ (v.extractLsb' 0 12).toNat = 3) ∧
    (let v := (regs (sys base) [(3, 0x2003)]).readS 3
    v.extractLsb' 16 48 = 0 ∧ (v.extractLsb' 14 2).toNat ≠ 3 ∧ (v.extractLsb' 12 2).toNat = 2 ∧ (v.extractLsb' 0 12).toNat < 4 ∧
      (sys base).core.ctx.mode = .system) ∧
    (let v := base.readS 0
    v.extractLsb' 16 48 = 0 ∧ (v.extractLsb' 14 2).toNat = 0 ∧ (v.extractLsb' 12 2).toNat = 0 ∧ (v.extractLsb' 0 12).toNat = 0) ∧
    ((base.dieAt base.myDie).trctl.extractLsb' 0 5).toNat = 0 ∧
    -- a trace ring at 0 with 4096 records: the first mark, one of a later cycle, one of the same cycle and core
    (∀ p : Word × Nat, p ∈ [(0, 0), (1, 5), (1, 0)] → let s := { base.updDie 0 fun d => { d with trctl := 12, trcnt := p.1 } with time := p.2 }
      let d := s.dieAt s.myDie
      let at_ := fun (i : Nat) => bitsOf d.trctl 51 12 * 4096 + 64 * (i % 2 ^ bitsOf d.trctl 4 0)
      let word := fun (a : Nat) => BitVec.ofNat 64 (natOfBytes ((spanOf a 8).map s.byte))
      (d.trctl.extractLsb' 0 5).toNat ≠ 0 ∧ at_ d.trcnt.toNat + 64 ≤ 2 ^ 52 ∧ (d.trcnt.toNat = 0 ∨ word (at_ (d.trcnt.toNat - 1) + 40) ≠ s.timeReg ∨
        (word (at_ (d.trcnt.toNat - 1) + 24)).toNat % 4096 ≤ s.me.toNat)) := by decide +kernel
theorem test_hyp_TlbiEffect : (sys base).core.ctx.mode = .system ∧ (sys base).core.sb = [] ∧ (sys base).unacked (sys base).me.toNat false = false ∧
    (∀ h, h < 4 → h ≠ (sys base).myDie → (sys base).tripFailed (sys base).myDie h = false ∧ (sys base).tripWaits (sys base).myDie h = false ∧
      (sys base).inReset (sys base).myDie h = false) := by decide +kernel
/-- Addresses in the page of `leaf`, and a length. -/
def near : State := regs base [(3, 0x100000008), (4, 8), (5, 0x1000), (6, 0x100008)]
theorem test_hyp_WatchpointArms :
    near.Pinned (near.readS 3) leaf ∧ leaf.grants near.core.ctx.mode .load = true ∧ regionOf (leaf.at (addr54 (near.readS 3))) = .nearSram ∧
    isGlobal (addr54 (near.readS 3)) = true ∧ 0 < (near.readS 4).toNat ∧ (near.readS 4).toNat ≤ 65536 ∧
    addr54 (near.readS 3) / 65536 = (addr54 (near.readS 3) + (near.readS 4).toNat - 1) / 65536 ∧ paNode (leaf.at (addr54 (near.readS 3))) = near.node ∧
    near.tripWaits near.myDie (paDie (leaf.at (addr54 (near.readS 3)))) = false :=
  ⟨pinned_of (by decide +kernel), by decide, by decide, by decide, by decide, by decide, by decide, by decide, by decide +kernel⟩

theorem test_hyp_PerformedBytes : base.Canonical ∧ ∀ c ∈ base.dirty, isPhys c.1 = true := by decide
theorem test_hyp_LocalWindows :
    (4095 < 4096 ∧ (0x1FFFF : Nat) < 0x20000 ∧ (0x100000 : Nat) ≤ 0x17FFFF ∧ (0x17FFFF : Nat) < 0x180000) ∧
    (3 < 4 ∧ (0x27FFFF : Nat) = 0x200000 + 0x20000 * 3 + 0x1FFFF) ∧
    ((0x20000 : Nat) < 0x100000 ∧ 0x180000 ≤ (0x1FFFFF : Nat) ∧ 0x280000 ≤ (0x280000 : Nat)) ∧ tcmLoc 5 0x1FFFF = tcmLoc 5 0x1FFFF := by decide
theorem test_hyp_SwizzleLaw : 2 ^ 54 - 1 < 2 ^ 54 ∧ 7 < 8 ∧ 7 ≠ 0 ∧ 4 < 5 := by decide
theorem test_hyp_LoadResults :
    -- local memory, the last doubleword of the window, and under a swizzle in the scratchpad
    ((regs base [(3, 0xFFF8)]).Local 0xFFF8 8 (tcmLoc 0 0xFFF8) ∧ base.Unbuffered (tcmLoc 0 0xFFF8) 8) ∧
    (0x100000 ≤ addr54 (near.readS 6) ∧ addr54 (near.readS 6) < 0x180000 ∧ near.Local 0x100008 8 (spadLoc 0 8)) ∧
    -- global memory, and the control window
    near.Plain (near.readS 3) 8 .load leaf ∧
    ((sys base).Pinned 0x100010000 ctlLeaf ∧ (sys base).core.ctx.mode = .system ∧ isGlobal (addr54 0x100010000) = true ∧
      ctlLeaf.grants .system .load = true ∧ (sys base).l1Find 0 false (sys base).actx (addr54 0x100010000) = none ∧
      paNode (ctlLeaf.at (addr54 0x100010000)) = (sys base).node ∧ regionOf (ctlLeaf.at (addr54 0x100010000)) = .control ∧
      (sys base).agenda.any Move.isRegWrite = false ∧ (sys base).homeError 0 (ctlLeaf.at (addr54 0x100010000)) 0x100010000 2 = none) :=
  ⟨⟨local_of (by decide +kernel), unbuffered_of rfl⟩, ⟨by decide, by decide, local_of (by decide +kernel)⟩, plain_of 8 (by decide +kernel),
    pinned_of (by decide +kernel), by decide, by decide, by decide, by decide, by decide, by decide, by decide, by decide +kernel⟩
theorem test_hyp_StoreResults :
    (near.core.sb.length < 16 ∧ isGlobal 0x1000 = false ∧ near.localLoc near.me.toNat 0x1000 8 true = some (tcmLoc 0 0x1000)) ∧
    near.Plain (near.readS 3) 8 .store leaf ∧
    ((sys base).Pinned 0x100010000 ctlLeaf ∧ (sys base).core.ctx.mode = .system ∧ ctlLeaf.grants .system .store = true ∧ ctlLeaf.at (addr54 0x100010000) < 2 ^ 52 ∧
      regionOf (ctlLeaf.at (addr54 0x100010000)) = .control) :=
  ⟨by decide +kernel, plain_of 8 (by decide +kernel), pinned_of (by decide +kernel), by decide, by decide, by decide, by decide⟩
theorem test_hyp_StoreThenLoad :
    addr54 (near.readS 5) % 8 = 0 ∧ near.core.sb.length < 16 ∧ near.Local 0x1000 8 (tcmLoc 0 0x1000) ∧
    near.localLoc near.me.toNat 0x1000 8 true = some (tcmLoc 0 0x1000) :=
  ⟨by decide, by decide, local_of (by decide +kernel), by decide +kernel⟩
/-- A translation answers that its page is not present. -/
def absentB (s : State) (va : Word) (acc : Acc) : Bool :=
  match translate s.myDie s.actx va acc s.core.ctx.task s with | .ok .absent t => t == s | _ => false
theorem absent_of {s : State} {va : Word} {acc : Acc} (h : absentB s va acc = true) :
    translate s.myDie s.actx va acc s.core.ctx.task s = .ok .absent s := by
  unfold absentB at h
  split at h
  · next t he => rw [he]; congr; simpa using h
  · simp at h
theorem test_hyp_AccessFaults :
    base.core.blocked true = false ∧ ¬(0x100000 ≤ addr54 (near.readS 5) ∧ addr54 (near.readS 5) < 0x180000) ∧ addr54 (near.readS 4) % 8 = 0 ∧
    addr54 (addA (near.readS 4) 1) % 8 ≠ 0 ∧ (isGlobal 0x10000 = false ∧ base.localLoc base.me.toNat 0x10000 8 false = none) ∧
    (isGlobal (addr54 0x200000000) = true ∧ base.l1Find base.me.toNat false base.actx (addr54 0x200000000) = none ∧
      translate base.myDie base.actx 0x200000000 .load base.core.ctx.task base = .ok .absent base ∧
      base.pinEnded base.myDie base.actx (addr54 0x200000000) = false) ∧
    (base.Pinned 0x100020008 roLeaf ∧ roLeaf.grants base.core.ctx.mode .store = false ∧ regionOf (roLeaf.at (addr54 0x100020008)) = .nearSram) :=
  ⟨by decide, by decide, by decide, by decide, by decide +kernel, ⟨by decide, by decide, absent_of (by decide +kernel), by decide +kernel⟩,
    pinned_of (by decide +kernel), by decide, by decide⟩
theorem test_hyp_AtomicResults :
    (near.core.sb = [] ∧ near.Canonical ∧ (∀ e ∈ near.dirty, isPhys e.1 = true) ∧ near.core.watchKind (near.readS 5) 8 = none ∧
      near.core.watchKind (near.readS 3) 8 = none) ∧
    near.Local (addr54 (near.readS 5)) 8 (tcmLoc 0 0x1000) ∧ near.Plain (near.readS 3) 8 .atomic leaf ∧
    leaf.at (addr54 (near.readS 3)) < 2 ^ 52 ∧ (∀ k ∈ near.liveCores, ∀ p ∈ (near.coreAt k).watch.toList, p.kind = 0) :=
  ⟨by decide +kernel, local_of (by decide +kernel), plain_of 8 (by decide +kernel), by decide, by decide +kernel⟩
theorem test_hyp_ReductionResults :
    addr54 (near.readS 3) % 8 = 0 ∧ isGlobal (addr54 (near.readS 3)) = true ∧ near.Pinned (near.readS 3) leaf ∧
    leaf.grants near.core.ctx.mode .red = true ∧ regionOf (leaf.at (addr54 (near.readS 3))) = .nearSram ∧ near.core.ctx.speculative = false ∧
    near.core.sb.length < 16 :=
  ⟨by decide, by decide, pinned_of (by decide +kernel), by decide, by decide, by decide, by decide⟩
theorem test_hyp_TouchAndPrefetch :
    (isGlobal (addr54 (near.readS 5)) = false ∧ near.localLoc near.me.toNat (addr54 (near.readS 5)) 1 false = some (tcmLoc 0 0x1000)) ∧
    (isGlobal (addr54 (near.readS 3)) = true ∧ near.core.ctx.failNotice = false ∧ near.Pinned (near.readS 3) leaf ∧
      leaf.grants near.core.ctx.mode .touch = true ∧ regionOf (leaf.at (addr54 (near.readS 3))) ≠ .control ∧
      paDie (leaf.at (addr54 (near.readS 3))) = near.myDie) :=
  ⟨by decide +kernel, by decide, by decide, pinned_of (by decide +kernel), by decide, by decide, by decide⟩
/-- A core whose upcalls have an entry, and a touch of a page that is not there. -/
def faulting : State := { base with core := { core0 with upcall := 0x100003000 } }
theorem test_hyp_TouchPageFault :
    (isGlobal (addr54 0x200000000) = true ∧ translate faulting.myDie faulting.actx 0x200000000 .touch faulting.core.ctx.task faulting = .ok .absent faulting) ∧
    (faulting.core.ctx.failNotice = false ∧ faulting.core.blocked true = false ∧ faulting.core.iris = .running ∧ faulting.core.ctx.st = .run ∧
      (faulting.core.ctxs.map (·.num)).Nodup ∧ (∃ y ∈ faulting.core.rest, y.num = 1) ∧ faulting.core.freeCtx = some 1) ∧
    (faulting.core.ctx.mode = .task ∧ faulting.core.ctx.upcallCode = false ∧ faulting.core.upcall.extractLsb' 2 52 ≠ 0) ∧
    base.core.upcall.extractLsb' 2 52 = 0 :=
  ⟨⟨by decide, absent_of (by decide +kernel)⟩, by decide +kernel, by decide, by decide⟩
/-- A store to the line of `s3` waits in the store buffer. -/
def storing : State := { near with core := { near.core with
  sb := [⟨.store, 0x100000008, 8, plainBytes 8 (leBytes 8 5), 0, 1, false, [], 0, []⟩] } }
theorem test_hyp_CacheMaintenance :
    (near.readS 0).toNat = 0 ∧
    (0 < (near.readS 4).toNat ∧ (near.readS 4).toNat ≤ 2 ^ 32 ∧ addr54 (near.readS 3) + (near.readS 4).toNat ≤ 2 ^ 54 ∧
      addr54 (near.readS 3) / 65536 = (addr54 (near.readS 3) + (near.readS 4).toNat - 1) / 65536 ∧ isGlobal (addr54 (near.readS 3)) = true) ∧
    ∀ s, s = near ∨ s = storing → s.Pinned (BitVec.ofNat 64 0x100000000) leaf ∧
      (∀ c, c = .cmoRead ∨ c = .cmoWrite → leaf.grants s.core.ctx.mode c = true) ∧
      regionOf (leaf.at 0x100000000) = .nearSram ∧ leaf.at 0x100000000 = 0 ∧ paNode 0 = s.node ∧
      (∀ k, k < 128 → s.homeError s.myDie k (BitVec.ofNat 64 0x100000000) 6 = none) ∧
      (∀ h, h < 4 → h ≠ s.myDie → s.tripFailed s.myDie h = false ∧ s.tripWaits s.myDie h = false ∧ s.inReset s.myDie h = false) ∧
      ((∀ d ∈ s.dies.toList, d.locks = []) ∧ s.wts = [] ∧ s.Canonical ∧ s.dirty.Pairwise (fun x y => x.1 < y.1)) ∧
      (s.core.sb = [] ∨ s.core.iris = .running ∧ (∀ k ∈ s.liveCores, ∀ w ∈ (s.coreAt k).watch.toList, w.kind = 0) ∧
        ∀ e ∈ s.core.sb, e.kind = .store ∧ e.lanes = [] ∧ s.entryReady s.myDie e = true ∧ isPhys e.loc = true ∧
          ∀ b ∈ e.bytes, isPhys b.loc = true ∧ paNode b.loc = s.node ∧ paDie b.loc = s.myDie) := by
  refine ⟨by decide, by decide, ?_⟩
  rintro s (rfl | rfl) <;>
    exact ⟨pinned_of (by decide +kernel), (by rintro c (rfl | rfl) <;> decide), by decide, by decide, by decide, by decide +kernel, by decide +kernel,
      by decide +kernel, by decide +kernel⟩
/-- The bounds fault of every kind. -/
theorem test_hyp_CacheMaintenance_bounds : 2 ^ 32 < ((regs base [(4, 0x100000001)]).readS 4).toNat ∧
    2 ^ 54 < addr54 ((regs base [(3, 0x3FFFFFFFFFFFF8), (4, 9)]).readS 3) + ((regs base [(3, 0x3FFFFFFFFFFFF8), (4, 9)]).readS 4).toNat ∧
    base.core.blocked true = false := by decide
theorem test_hyp_RegisterOnlyFrame :
    (regDest (.add 3 1 2) = some (.s 3) ∧ ∃ t, exec (.add 3 1 2) base = .next t) ∧
    (regDest (.vfadd 3 1 2 0 .f32 .csr) = some (.v 3) ∧ ∃ t, exec (.vfadd 3 1 2 0 .f32 .csr) base = .next t) ∧
    (regDest (.mnot 3 1) = some (.m 3) ∧ ∃ t, exec (.mnot 3 1) base = .next t) :=
  ⟨⟨rfl, next_of (by decide +kernel)⟩, ⟨rfl, next_of (by decide +kernel)⟩, ⟨rfl, next_of (by decide +kernel)⟩⟩
/-- A base address, a block-scaled `e2m1` pointer with L = 4, and word indices in `v5`. -/
def vectors : State := ((regs base [(3, 0x1000), (4, 0x6900000000001000)]).writeV 5 (1 + 2 ^ 32 * 3))
theorem test_hyp_VectorLoads :
    (vectors.core.ctx.win = [] ∧ vectors.core.ctx.vecOld = none ∧ ∀ c ∈ vectors.dirty, isPhys c.1 = true) ∧
    -- `vld.n32`: sixteen lanes from 0x1000
    (ptrCode (vectors.readS 3) = 0 ∧ (MemFmt.elem .n32).width ≠ 4 ∧ ∀ i, i < 16 → addr54 (laneAddr 0x1000 0 (.elem .n32) i) % 4 = 0 ∧
      vectors.Meets (laneAddr 0x1000 0 (.elem .n32) i) 4 .load (tcmLoc 0 (0x1000 + 4 * i)) ∧ vectors.Unbuffered (tcmLoc 0 (0x1000 + 4 * i)) 4) ∧
    -- `vld.f32` through the pointer: two lanes a byte
    (ptrCode (vectors.readS 4) = 0x1A ∧ fmtOfCode 0x1A = some (.elem .e2m1, true) ∧ blockOk true (ptrL (vectors.readS 4)) = true ∧
      ∀ i, i < 16 → addr54 (laneAddr (vectors.readS 4) 0 (.elem .e2m1) i) % 1 = 0 ∧
        vectors.Meets (laneAddr (vectors.readS 4) 0 (.elem .e2m1) i) 1 .load (tcmLoc 0 (0x1000 + i / 2)) ∧
        vectors.Unbuffered (tcmLoc 0 (0x1000 + i / 2)) 1) ∧
    -- `vgath` of words
    (∀ i, i < 16 → let va := addA (vectors.readS 3) (BitVec.ofNat 64 (lane (vectors.readV 5) 32 i * 4))
      addr54 va % 4 = 0 ∧ vectors.Local (addr54 va) 4 (tcmLoc 0 (0x1000 + 4 * lane (vectors.readV 5) 32 i)) ∧
        vectors.Unbuffered (tcmLoc 0 (0x1000 + 4 * lane (vectors.readV 5) 32 i)) 4) := by
  refine ⟨by decide, ⟨by decide, by decide, ?_⟩, ⟨by decide +kernel, rfl, by decide +kernel, ?_⟩, ?_⟩
  · exact all_of (p := fun i => decide (addr54 (laneAddr 0x1000 0 (.elem .n32) i) % 4 = 0) &&
      meetsB vectors (laneAddr 0x1000 0 (.elem .n32) i) 4 .load (tcmLoc 0 (0x1000 + 4 * i)))
      (fun i h => by simp only [Bool.and_eq_true, decide_eq_true_eq] at h; exact ⟨h.1, meets_of h.2, unbuffered_of rfl⟩) (by decide +kernel)
  · exact all_of (p := fun i => meetsB vectors (laneAddr (vectors.readS 4) 0 (.elem .e2m1) i) 1 .load (tcmLoc 0 (0x1000 + i / 2)))
      (fun i h => ⟨Nat.mod_one _, meets_of h, unbuffered_of rfl⟩) (by decide +kernel)
  · exact all_of (p := fun i => decide (addr54 (addA (vectors.readS 3) (BitVec.ofNat 64 (lane (vectors.readV 5) 32 i * 4))) % 4 = 0) &&
      localB vectors (addr54 (addA (vectors.readS 3) (BitVec.ofNat 64 (lane (vectors.readV 5) 32 i * 4)))) 4
        (tcmLoc 0 (0x1000 + 4 * lane (vectors.readV 5) 32 i)))
      (fun i h => by simp only [Bool.and_eq_true, decide_eq_true_eq] at h; exact ⟨h.1, local_of h.2, unbuffered_of rfl⟩) (by decide +kernel)
theorem test_hyp_VectorStores :
    (vectors.core.sb = [] ∧ vectors.core.iris = .running ∧ vectors.Canonical ∧ (∀ c ∈ vectors.dirty, isPhys c.1 = true) ∧ vectors.core.ctx.vprog = 0 ∧
      vectors.core.ctx.vecOld = none) ∧
    (ptrCode (vectors.readS 3) = 0 ∧ ∀ i, i < 16 → addr54 (laneAddr 0x1000 0 (.elem .n32) i) % 4 = 0 ∧
      isGlobal (addr54 (laneAddr 0x1000 0 (.elem .n32) i)) = false ∧
      vectors.localLoc vectors.me.toNat (addr54 (laneAddr 0x1000 0 (.elem .n32) i)) 4 true = some (tcmLoc 0 (0x1000 + 4 * i))) ∧
    (∀ i, i < 16 → let va := addA (vectors.readS 3) (BitVec.ofNat 64 (lane (vectors.readV 5) 32 i * 4))
      addr54 va % 4 = 0 ∧ isGlobal (addr54 va) = false ∧
        vectors.localLoc vectors.me.toNat (addr54 va) 4 true = some (tcmLoc 0 (0x1000 + 4 * lane (vectors.readV 5) 32 i))) := by
  refine ⟨by decide, ⟨by decide, ?_⟩, ?_⟩
  · exact all_of (fun i h => of_decide_eq_true h) (by decide +kernel)
  · exact all_of (fun i h => of_decide_eq_true h) (by decide +kernel)
theorem quiet_vectors : vectors.Quiet := quiet_of (by decide +kernel)
/-- The lanes of a store and of an atomic in global memory. -/
theorem test_hyp_VectorStores_global : vectors.Quiet ∧ ∀ acc, acc = .store ∨ acc = .atomic → ∀ i, i < 16 →
    let q := laneAddr 0x100000000 0 (.elem .n32) i
    addr54 q % 4 = 0 ∧ ∃ f, vectors.Plain q 4 acc f ∧ 4 * i = f.at (addr54 q) ∧ 4 * i < 2 ^ 52 := by
  refine ⟨quiet_vectors, fun acc h => all_of (p := fun i => decide (addr54 (laneAddr 0x100000000 0 (.elem .n32) i) % 4 = 0) &&
    plainB vectors (laneAddr 0x100000000 0 (.elem .n32) i) acc leaf && decide (4 * i = leaf.at (addr54 (laneAddr 0x100000000 0 (.elem .n32) i)) ∧ 4 * i < 2 ^ 52))
    (fun i h => ?_) (by rcases h with rfl | rfl <;> decide +kernel)⟩
  simp only [Bool.and_eq_true, decide_eq_true_eq] at h
  exact ⟨h.1.1, leaf, plain_of 4 h.1.2, h.2⟩
theorem test_hyp_VectorAtomics :
    (vectors.core.ctx.win = [] ∧ vectors.core.ctx.vecOld = none ∧ vectors.core.sb = [] ∧ vectors.Canonical ∧ (∀ c ∈ vectors.dirty, isPhys c.1 = true) ∧
      vectors.core.ctx.vprog = 0) ∧
    -- two active lanes, at words 1 and 3 of 0x1000
    (∀ j, j < 16 → laneActive 3 16 j = true → let va := addA (vectors.readS 3) (BitVec.ofNat 64 (lane (vectors.readV 5) 32 j * 4))
      addr54 va % 4 = 0 ∧ vectors.Local (addr54 va) 4 (tcmLoc 0 (0x1000 + 4 * lane (vectors.readV 5) 32 j))) ∧
    (∀ i j, i < 16 → j < 16 → i ≠ j → laneActive 3 16 i = true → laneActive 3 16 j = true →
      let l := fun j => tcmLoc 0 (0x1000 + 4 * lane (vectors.readV 5) 32 j)
      l i + 4 ≤ l j ∨ l j + 4 ≤ l i) ∧ (vectors.writeM 1 3).readM 1 = 3 := by
  refine ⟨by decide, ?_, ?_, by decide⟩
  · exact all_of (p := fun j => !laneActive 3 16 j ||
      (decide (addr54 (addA (vectors.readS 3) (BitVec.ofNat 64 (lane (vectors.readV 5) 32 j * 4))) % 4 = 0) &&
      localB vectors (addr54 (addA (vectors.readS 3) (BitVec.ofNat 64 (lane (vectors.readV 5) 32 j * 4)))) 4
        (tcmLoc 0 (0x1000 + 4 * lane (vectors.readV 5) 32 j))))
      (fun i h ha => by
        simp only [ha, Bool.not_true, Bool.false_or, Bool.and_eq_true, decide_eq_true_eq] at h
        exact ⟨h.1, local_of h.2⟩) (by decide +kernel)
  · have h : ∀ i j : Fin 16, i.val ≠ j.val → laneActive 3 16 i.val = true → laneActive 3 16 j.val = true →
        tcmLoc 0 (0x1000 + 4 * lane (vectors.readV 5) 32 i.val) + 4 ≤ tcmLoc 0 (0x1000 + 4 * lane (vectors.readV 5) 32 j.val) ∨
        tcmLoc 0 (0x1000 + 4 * lane (vectors.readV 5) 32 j.val) + 4 ≤ tcmLoc 0 (0x1000 + 4 * lane (vectors.readV 5) 32 i.val) := by decide +kernel
    exact fun i j hi hj => h ⟨i, hi⟩ ⟨j, hj⟩
/-- A deque of core 0 with TOP = 1 and BOTTOM = 3, and one that is full. -/
def deque2 : State := bytes (bytes base (tcmLoc 0 0x1E000) (leBytes 8 1)) (tcmLoc 0 0x1E008) (leBytes 8 3)
@[inherit_doc deque2] def deque63 : State := bytes base (tcmLoc 0 0x1E008) (leBytes 8 63)
theorem test_hyp_DequeLaws :
    (deque2.Canonical ∧ (∀ e ∈ deque2.dirty, isPhys e.1 = true) ∧ (deque2.dequeTop 0).toNat ≤ (deque2.dequeBottom 0).toNat ∧
      (deque2.dequeBottom 0).toNat < 2 ^ 63 ∧ deque2.dequeOk 0 = true ∧ deque2.dequeLen 0 < 63 ∧ 0 < deque2.dequeLen 0 ∧
      (deque2.dequeTop 0).toNat ≤ (2 : Word).toNat ∧ (2 : Word).toNat < (deque2.dequeBottom 0).toNat) ∧
    (base.dequeOk 0 = true ∧ base.dequeLen 0 = 0) ∧ (deque63.dequeOk 0 = true ∧ deque63.dequeLen 0 = 63) := by decide +kernel

/-- A TCB whose ENTRY lies in the tests' kernel, of a KIND, CLASS and PRED. -/
def tcbFor (kind cls pred : Nat) : Tcb :=
  #v[0x100001000, 0, BitVec.ofNat 64 (2 ^ 61 * kind + 2 ^ 59 * cls), BitVec.ofNat 64 (2 ^ 47 * pred), 1, 2, 3, 4, 5, 6, 7, 8, 0, 0, 0, 0]
/-- `s3` names a TCM buffer that holds a TCB. -/
def holding (s : State) (t : Tcb) : State := bytes (regs s [(3, 0x1000)]) (tcmLoc 0 0x1000) t.bytes
/-- `s3` names one in global memory, mapped by a pin and by the page tables. -/
def globalPin : Pin := ⟨0, 0x100010000, ⟨0x10000, 16, true, true, true, false, false⟩, 256, false⟩
@[inherit_doc globalPin] def joining (t : Tcb) : State :=
  let s := regs base [(3, 0x100010000)]
  bytes { s with mem := placeTables [], dies := Vector.replicate 4 { die0 with actb := 0x1000, pins := [globalPin] } } 0x10000 t.bytes
theorem ready_of {s : State} {t : Tcb} (l kind : Nat) (va : Word) (hva : va = s.readS 3) (hs : s.core.sb = []) (hh : holdsB s va t l = true)
    (h : addr54 va % 128 = 0 ∧ t.kind = kind ∧ (if kind = 2 then t.cls = 2 else if kind = 3 then t.cls = 0 else t.cls < 2) ∧ t.reservedSet = false ∧ (kind = 4 ∨ t.pred = 0) ∧
      (t.word 0).extractLsb' 0 2 = 0 ∧ s.launchOf s.me.toNat = some launch0 ∧ launch0.kernelOf (addr54 (t.word 0)) = some (0, kernel0)) :
    s.TcbReady (s.readS 3) kind t kernel0 := by
  obtain ⟨a, b, c, d, e, f, g, i⟩ := h
  subst hva
  exact ⟨a, holds_of l hs hh, b, c, d, e, f, launch0, 0, g, i⟩
/-- A guarded task, with an outbox of `n` entries. -/
def guarded (n : Nat) : State := base.updCtx fun x =>
  { x with tcb := x.tcb.set 2 0x0800000000000000, outbox := List.replicate n ⟨.spawn, tcb0, 0, 0⟩ }
theorem test_hyp_TaskCreation_spawn :
    ((holding base (tcbFor 1 0 0)).Canonical ∧ (∀ e ∈ (holding base (tcbFor 1 0 0)).dirty, isPhys e.1 = true) ∧
      ∀ k ∈ (holding base (tcbFor 1 0 0)).liveCores, ∀ p ∈ ((holding base (tcbFor 1 0 0)).coreAt k).watch.toList, p.kind = 0) ∧
    ((holding base (tcbFor 1 0 0)).TcbReady ((holding base (tcbFor 1 0 0)).readS 3) 1 (tcbFor 1 0 0) kernel0 ∧
      (holding base (tcbFor 1 0 0)).core.ctx.speculative = false ∧ (holding base (tcbFor 1 0 0)).dequeOk 0 = true ∧
      (holding base (tcbFor 1 0 0)).dequeLen 0 < 63) ∧
    ((holding deque63 (tcbFor 1 1 0)).TcbReady ((holding deque63 (tcbFor 1 1 0)).readS 3) 1 (tcbFor 1 1 0) kernel0 ∧
      (holding deque63 (tcbFor 1 1 0)).dequeOk 0 = true ∧ (holding deque63 (tcbFor 1 1 0)).dequeLen 0 = 63 ∧
      (holding deque63 (tcbFor 1 1 0)).QueueTakes 0) :=
  ⟨by decide +kernel, ⟨ready_of (tcmLoc 0 0x1000) 1 0x1000 (by decide +kernel) rfl (by decide +kernel) (by decide +kernel), by decide +kernel⟩,
    ready_of (tcmLoc 0 0x1000) 1 0x1000 (by decide +kernel) rfl (by decide +kernel) (by decide +kernel), by decide +kernel, by decide +kernel,
      by unfold State.QueueTakes; decide +kernel⟩
theorem test_hyp_TaskCreation_join :
    ((joining (tcbFor 4 0 0)).TcbReady ((joining (tcbFor 4 0 0)).readS 3) 4 (tcbFor 4 0 0) kernel0 ∧
      (joining (tcbFor 4 0 2)).TcbReady ((joining (tcbFor 4 0 2)).readS 3) 4 (tcbFor 4 0 2) kernel0) ∧
    (let s := joining (tcbFor 4 0 0)
    s.Canonical ∧ s.core.ctx.speculative = false ∧ isGlobal (addr54 (s.readS 3)) = true ∧ s.core.sb = [] ∧
      s.unacked 0 false = false ∧ s.Pinned (s.readS 3) globalPin.leaf ∧ globalPin.leaf.grants s.core.ctx.mode .tcbWrite = true ∧
      s.hardWaits s.myDie (globalPin.leaf.at (addr54 (s.readS 3))) s.core.ctx.task = false ∧ s.QueueTakes 0) :=
  ⟨⟨ready_of 0x10000 4 0x100010000 (by decide +kernel) rfl (by decide +kernel) (by decide +kernel),
    ready_of 0x10000 4 0x100010000 (by decide +kernel) rfl (by decide +kernel) (by decide +kernel)⟩,
    by decide +kernel, by decide +kernel, by decide +kernel, rfl, by decide +kernel, pinned_of (by decide +kernel), by decide +kernel, by decide +kernel,
      by unfold State.QueueTakes; decide +kernel⟩
theorem test_hyp_TaskCreation_others :
    ((holding base (tcbFor 2 2 0)).TcbReady ((holding base (tcbFor 2 2 0)).readS 3) 2 (tcbFor 2 2 0) kernel0 ∧
      bitsOf (kernel0.hdr.toList.getD 4 0) 63 32 ≠ 0 ∧
      (((holding base (tcbFor 2 2 0)).dieAt 0).ordered.filter (·.cluster = clusterOf 0)).length < 64) ∧
    ((holding base (tcbFor 3 0 0)).TcbReady ((holding base (tcbFor 3 0 0)).readS 3) 3 (tcbFor 3 0 0) kernel0 ∧
      (holding base (tcbFor 3 0 0)).unacked 0 false = false ∧ (0x00070000 : Word).extractLsb' 32 32 = 0 ∧
      (0x00070000 : Word).extractLsb' 12 4 = 0 ∧
      (holding base (tcbFor 3 0 0)).messageOk ((0x00070000 : Word).extractLsb' 0 12).toNat ((tcbFor 3 0 0).word 0) = true ∧
      (holding base (tcbFor 3 0 0)).accepts ((0x00070000 : Word).extractLsb' 0 12).toNat = true) ∧
    addr54 0x1040 % 128 ≠ 0 :=
  ⟨⟨ready_of (tcmLoc 0 0x1000) 2 0x1000 (by decide +kernel) rfl (by decide +kernel) (by decide +kernel), by decide⟩,
    ⟨ready_of (tcmLoc 0 0x1000) 3 0x1000 (by decide +kernel) rfl (by decide +kernel) (by decide +kernel), by decide +kernel⟩,
    by decide⟩
@[inherit_doc guarded] def joinGuarded (n : Nat) : State := (joining (tcbFor 4 0 0)).updCtx fun x =>
  { x with tcb := (guarded n).core.ctx.tcb, outbox := (guarded n).core.ctx.outbox }
/-- An ordered task that holds the lock of its image's line. -/
def ownedState : State := ((joining (tcbFor 4 0 0)).updCtx fun x => { x with tcb := x.tcb.set 2 0x1000000000000000 }).updDie 0 fun d =>
  { d with locks := [⟨0x200, 0, 1⟩] }
/-- The four images of a guarded task, with one place of the outbox left and with none. -/
theorem test_hyp_TaskCreation_outbox : ∀ n, n = 15 ∨ n = 16 →
    (guarded n).core.ctx.speculative = true ∧ (guarded n).core.ctx.outbox.length = n ∧ (guarded n).core.blocked true = false ∧
    (holding (guarded n) (tcbFor 1 0 0)).TcbReady ((holding (guarded n) (tcbFor 1 0 0)).readS 3) 1 (tcbFor 1 0 0) kernel0 ∧
    ((joinGuarded n).core.ctx.speculative = true ∧ (joinGuarded n).core.ctx.outbox.length = n ∧ isGlobal (addr54 ((joinGuarded n).readS 3)) = true) ∧
    (joinGuarded n).TcbReady ((joinGuarded n).readS 3) 4 (tcbFor 4 0 0) kernel0 ∧
    (holding (guarded n) (tcbFor 2 2 0)).TcbReady ((holding (guarded n) (tcbFor 2 2 0)).readS 3) 2 (tcbFor 2 2 0) kernel0 ∧
    (holding (guarded n) (tcbFor 3 0 0)).TcbReady ((holding (guarded n) (tcbFor 3 0 0)).readS 3) 3 (tcbFor 3 0 0) kernel0 ∧
    (holding (guarded n) (tcbFor 3 0 0)).messageOk ((0x00070000 : Word).extractLsb' 0 12).toNat ((tcbFor 3 0 0).word 0) = true := by
  rintro n (rfl | rfl) <;>
    exact ⟨by decide +kernel, by decide +kernel, by decide +kernel,
      ready_of (tcmLoc 0 0x1000) 1 0x1000 (by decide +kernel) rfl (by decide +kernel) (by decide +kernel), by decide +kernel,
      ready_of 0x10000 4 0x100010000 (by decide +kernel) rfl (by decide +kernel) (by decide +kernel),
      ready_of (tcmLoc 0 0x1000) 2 0x1000 (by decide +kernel) rfl (by decide +kernel) (by decide +kernel),
      ready_of (tcmLoc 0 0x1000) 3 0x1000 (by decide +kernel) rfl (by decide +kernel) (by decide +kernel), by decide +kernel⟩
theorem test_hyp_TaskCreation_owned : ((ownedState.core.ctx.speculative = true ∧ ownedState.readS 3 = 0x100010000) ∧
    ownedState.Owned 0x100010040 8 .tcb globalPin.leaf ∧ ownedState.Unbuffered (globalPin.leaf.at (addr54 0x100010040)) 8) :=
  ⟨by decide +kernel, ⟨by decide, ⟨pinned_of (by decide +kernel), pinned_of (by decide +kernel)⟩, by decide, by decide, by decide, by decide, by decide +kernel,
    by decide +kernel, by decide +kernel, by decide, by decide, by decide +kernel, by decide, by decide⟩, unbuffered_of rfl⟩
/-- An engine word of core 0's task, the first of its queue. -/
def eword (w : Instr) (ops : List Word) (st : WordState) : EWord := ⟨w, 0, ops, 0, 0, 0, 0, 0, 1, .task, 0, 0, 1, 0, 0, 0, [], 0, [], none, [], 0, none, false, st⟩
/-- With a queue of the core in focus. -/
def queued (s : State) (n : Fin 8) (l : List EWord) : State := { s with core := { s.core with queues := s.core.queues.set n.val l n.isLt } }
/-- An ordered task, and an event ring with one record. -/
def ordered : State := base.updCtx fun x => { x with tcb := x.tcb.set 2 0x1000000000000000 }
@[inherit_doc ordered] def ringed : State := { base with core := { core0 with evq := 0x0000000100410000 } }
theorem some_of {α : Type} {o : Option α} (h : o.isSome = true) : ∃ x, o = some x := by cases o <;> simp_all
theorem test_hyp_TaskControl_popd :
    (addr54 (near.readS 5) % 128 = 0 ∧ near.localLoc 0 (addr54 (near.readS 5)) 128 false = some (tcmLoc 0 0x1000) ∧
      tcmLoc 0 0 ≤ tcmLoc 0 0x1000 ∧ tcmLoc 0 0x1000 < tcmLoc 0 0x20000) ∧
    ((guarded 0).core.ctx.speculative = true ∧ base.dequeOk 0 = true ∧ base.dequeTop 0 = base.dequeBottom 0) ∧
    (deque2.core.ctx.speculative = false ∧ deque2.core.ctx.absorb.length < 16 ∧ deque2.dequeOk 0 = true ∧ deque2.core.sb = [] ∧
      ∃ r, deque2.dequePop 0 = some r) :=
  ⟨by decide +kernel, by decide +kernel, by decide +kernel, by decide +kernel, by decide +kernel, rfl, some_of (by decide +kernel)⟩
theorem test_hyp_TaskControl_rest :
    ((guarded 0).core.ctx.cls = 1 ∧ (∀ t ∈ (guarded 0).core.ctx.sets, t.idx = 7 → t.acquired = false) ∧
      (addr54 0 + 8192 - 1) / 128 - addr54 0 / 128 < 64) ∧
    (base.core.ctx.upcallCode = false ∧ base.core.blocked true = false ∧ (∀ w ∈ base.core.queues.toList.flatten, w.task ≠ base.core.ctx.task) ∧
      (∀ e ∈ base.core.sb, e.task ≠ base.core.ctx.task) ∧ base.core.ctx.speculative = false) ∧
    ((guarded 0).core.ctx.upcallCode = false ∧ (guarded 0).core.blocked true = false ∧
      (∀ w ∈ (guarded 0).core.queues.toList.flatten, w.task ≠ (guarded 0).core.ctx.task) ∧ (guarded 0).core.ctx.outbox = []) ∧
    (ordered.core.ctx.cls = 2 ∧ ordered.core.blocked true = false) ∧
    (bitsOf ringed.core.evq 23 20 ≠ 0 ∧ bitsOf ringed.core.evq 63 48 ≠ bitsOf ringed.core.evq 47 32 ∧ ringed.flips = [] ∧ ringed.poison = []) ∧
    (∀ w ∈ base.core.queue 4, w.ctxn ≠ base.core.ctx.num) ∧
    ((queued base 4 [eword (.cpNd 0 false 3) [0] .queued]).core.seq.toList.getD 4 0 - 0x80000001#32).toNat < 2 ^ 31 ∧
    (∃ w ∈ (queued base 4 [eword (.cpNd 0 false 3) [0] .queued]).core.queue 4, w.ctxn = base.core.ctx.num) := by decide +kernel
/-- Two cores of a cluster whose kernel declares the barriers, with their arrivals at barrier 15. -/
def two (a b : Nat) : State :=
  let arr := fun (n : Nat) => { core0 with arrC := core0.arrC.set 15 n, arrG := core0.arrG.set 15 n }
  { base with core := arr a, others := [(1, arr b)] }
theorem test_hyp_BarriersAndFences :
    ((two 2 0).lead false 15 = 2 ∧ (two 2 0).lead true 15 < 3 ∧ (two 2 0).core.sb = [] ∧ (two 2 0).unacked 0 false = false) ∧
    3 ≤ (two 3 0).lead false 15 ∧ 3 ≤ (two 3 0).lead true 15 ∧
    (∀ m ∈ (two 1 1).members true 15, (two 1 1).core.arrivals true 15 ≤ ((two 1 1).coreAt m).arrivals true 15) ∧
    (∃ m ∈ (two 1 0).members false 15, ((two 1 0).coreAt m).arrivals false 15 < (two 1 0).core.arrivals false 15) ∧
    ((two 0 1).vprogOf = 0 ∧ (two 0 1).lead false 15 < 3 ∧
      (∀ t ∈ (two 0 1).core.contrib, t.phase ≤ (two 0 1).core.arrivals (decide (16 ≤ t.key)) (t.key % 16)) ∧
      (∀ m ∈ (two 0 1).members false 15, m ≠ 0 → 0 + 1 ≤ ((two 0 1).coreAt m).arrivals false 15)) ∧
    (base.core.sb = [] ∧ base.unacked 0 false = false ∧ base.unacked 0 true = false) ∧
    (∀ e ∈ ((base.acquireCopies base.myDie false).dieAt base.myDie).copies, paNode e.1 = base.node →
      base.pendingHere base.myDie e.1 = true) := by decide +kernel
theorem test_hyp_PrismPushes_ready : base.EndReady .east ∧ base.EndReady .north :=
  ⟨⟨⟨image0, rfl, by decide⟩, by decide +kernel, by decide, by decide⟩, ⟨⟨image0, rfl, by decide⟩, by decide +kernel, by decide, by decide⟩⟩
theorem test_hyp_PrismPushes_mma :
    -- `f16` operands in TCM; an `f16` sparse-line operand in global memory; a dense operand of a sparse word in the scratchpad, swizzled
    base.MmaReady false false false 0x12 0 16 65535 0x12 0x12 0x1000 0xFFFFFFFE ∧
    base.MmaReady true true false 0x20 0 16 64 0x20 0x12 0x100000080 128 ∧ base.MmaReady true false true 0x12 3 1 8 0x12 0x12 0x100000 0 := by
  refine ⟨⟨by decide +kernel, by decide, by decide +kernel, by decide, by decide +kernel, by decide, by decide +kernel, by decide⟩,
    ⟨by decide +kernel, by decide, by decide +kernel, by decide, by decide +kernel, by decide, by decide +kernel, by decide⟩,
    ⟨by decide +kernel, by decide, by decide +kernel, by decide, by decide +kernel, by decide, by decide +kernel, by decide⟩⟩
theorem test_hyp_PrismPushes_rest :
    -- `pr.mdl`: LEN and MOFF at the end of the side memory
    ((4096 : BitVec 13).toNat % 8 = 0 ∧ 8 ≤ (4096 : BitVec 13).toNat ∧ (0 : BitVec 12).toNat + (4096 : BitVec 13).toNat ≤ 4096 ∧
      inSpad (addr54 0x100000) = true) ∧
    -- `pr.out` of `e2m1` to TCM
    ((4095 : Word).toNat < 2 ^ 12 ∧ (0xFFFFFFFF : Word).toNat < 2 ^ 32 ∧ addr54 0x1FFFF % max 1 (outBits 0x16 / 8) = 0 ∧
      (0xFFFFFFFF : Word).toNat % max 1 (outBits 0x16 / 8) = 0 ∧ outBits 0x16 = 4 ∧ (15 : BitVec 4).toNat % 2 = 1) ∧
    inOwnTcm 0 (addr54 0x1000) = true ∧
    ((guarded 0).core.ctx.speculative = true ∧ (guarded 0).core.blocked true = false) ∧
    -- no image, an end that the image does not declare, an end without a partner
    (State.reset.core.ctx.speculative = false ∧ State.reset.core.image = none ∧ State.reset.core.blocked true = false) ∧
    ({ image0 with hdr := hdr.set 2 0 }.declares .east = false ∧ image0.declares .west = true ∧ base.hasPartner base.me.toNat .west = false) ∧
    (base.core.blocked true = false ∧ (0 : BitVec 16) = 0 ∧ 0 < (65535 : BitVec 16).toNat ∧ (0xFFFFFFFF : Word).toNat < 2 ^ 32) ∧
    (let s := queued base 1 (List.replicate 8 (eword (.prAcz .east 0 false false false) [] .queued))
    s.core.ctx.speculative = false ∧ s.core.image = some image0 ∧ image0.declares .east = true ∧ s.hasPartner s.me.toNat .east = true ∧
      8 ≤ (s.core.queue (endCode .east)).length) := by decide +kernel
/-- Operands of the engine words. -/
def engine : State := regs base [(3, 0x1000), (4, 0x100000000), (5, 0x2000), (6, 0x4800000000003000), (7, 0x4000)]
theorem test_hyp_EnginePushes_copy :
    (engine.core.ctx.speculative = false ∧ ∀ q, q < 8 → (engine.core.queue q).length < 8) ∧
    8 ≤ ((queued engine 4 (List.replicate 8 (eword (.cpNd 0 false 3) [0] .queued))).core.queue 4).length ∧
    (addr54 (engine.readS 3) % 128 = 0 ∧ ownSide 0 (addr54 (engine.readS 3)) = true ∧ anySide (addr54 (engine.readS 3)) = true) ∧
    ((8191 : BitVec 13) ≠ 0 ∧ engine.core.image = some image0 ∧ pipeEntry image0.hdr 1 = some 0x0000006100000010 ∧
      (0x0000006100000010 : Word).getLsbD 31 = false) ∧
    -- `kick`, with LEN at the receive area's size
    (0 < (1024 : Word).toNat ∧ (1024 : Word).toNat < 2 ^ 24 ∧ (engine.kickVal (.imm 0 0 7)).toNat < 2 ^ 28 ∧
      engine.pipeTo 0 0 = some (0, 1, 16) ∧ bitsOf (engine.kickVal (.imm 0 0 7)) 27 16 = 0 ∧ (1024 : Word).toNat ≤ 64 * 16) ∧
    (engine.good (bitsOf (engine.kickVal (.imm 0 4095 7)) 27 16) = true ∧ (engine.kickVal (.imm 0 4095 7)).toNat < 2 ^ 28) := by decide +kernel
theorem test_hyp_EnginePushes_others :
    -- the three tables, with COUNT at 2^20
    (0 < (0x100000 : Word).toNat ∧ (0x100000 : Word).toNat ≤ 2 ^ 20 ∧ addr54 (engine.readS 3) % 8 = 0 ∧ addr54 (engine.readS 4) % gatSize 5 = 0 ∧
      addr54 (engine.readS 4) % gaTySize .f64 = 0 ∧ addr54 (engine.readS 4) % (16 * 2 ^ 4) = 0 ∧ addr54 (engine.readS 5) % 8 = 0 ∧
      anySide (addr54 (engine.readS 3)) = true ∧ isGlobal (addr54 (engine.readS 4)) = true ∧ anySide (addr54 (engine.readS 5)) = true) ∧
    (addr54 (engine.readS 4) % 4096 = 0 ∧ isGlobal (addr54 (engine.readS 4)) = true) ∧
    -- `mi.qry` of `f16`, `mi.put`, `mi.clr`
    ((engine.readS 3).toNat < 2 ^ 48 ∧ (0xFFFFFFFF : Word).toNat < 2 ^ 32 ∧ 0 < (4096 : Word).toNat ∧ (4096 : Word).toNat ≤ 4096 ∧
      0x11 ≤ ptrCode (engine.readS 6) ∧ ptrCode (engine.readS 6) ≤ 0x16 ∧ ptrL (engine.readS 6) = 0 ∧
      addr54 (engine.readS 6) % max 1 (mirrorBits (ptrCode (engine.readS 6)) / 8) = 0 ∧ addr54 (engine.readS 7) % 4 = 0 ∧
      mirrorBits (ptrCode (engine.readS 6)) ≠ 4 ∧ (4096 : Word).toNat % 4 = 0 ∧ addr54 (engine.readS 6) % 4 = 0) ∧
    -- the exceptions
    ((guarded 0).core.ctx.speculative = true ∧ (guarded 0).core.blocked true = false) ∧
    (engine.core.blocked true = false ∧ addr54 0x1040 % 128 ≠ 0 ∧ engine.slotVal (.imm 0) = 0 ∧ 2 ^ 48 ≤ (engine.readS 6).toNat ∧
      (7 : BitVec 3) ≠ 0 ∧ 0 < (1024 : Word).toNat ∧ (1024 : Word).toNat < 2 ^ 24 ∧ bitsOf (engine.kickVal (.imm 0 4095 7)) 27 16 ≠ 0) := by
  decide +kernel
/-- A store-buffer entry of core 0: eight bytes at a location. -/
def sbEntry (k : SbKind) (va : Word) (l : Nat) : SbEntry := ⟨k, va, l, plainBytes l (leBytes 8 0x0807060504030201), 0, 1, false, [], 0, []⟩
def buffered (e : SbEntry) : State := { base with core := { core0 with sb := [e] } }
/-- A write-through of die 0 to a home on die 1, and with that die down. -/
def wt (held : Bool) : WriteThrough := ⟨0, plainBytes (2 ^ 38) [1], 0x100000000, ⟨0, 0, 1, 0, 0, []⟩, [], [], held, 0, 0⟩
@[inherit_doc wt] def throughs (held up : Bool) : State :=
  { base with wts := [wt held], dies := #v[die0, if up then die0 else { die0 with rdy := 0 }, die0, die0] }
def red0 (held : Bool) : PendingRed := ⟨0, 0x80, .red .add .w64 5, ⟨6, 0, 0, 0, 0, []⟩, held, 0, 0⟩
theorem test_hyp_MemorySteps_buffer :
    -- a local store, one homed on the die, one homed on die 1, a reduction, a control store
    (quietB (buffered (sbEntry .store 0x1000 (tcmLoc 0 0x1000))) ∧ (buffered (sbEntry .store 0x1000 (tcmLoc 0 0x1000))).core.iris = .running ∧
      ((buffered (sbEntry .store 0x1000 (tcmLoc 0 0x1000))).focus 0).sbReady = true ∧ isPhys (tcmLoc 0 0x1000) = false) ∧
    (quietB (buffered (sbEntry .store 0x100000000 0)) ∧ ((buffered (sbEntry .store 0x100000000 0)).focus 0).sbReady = true ∧ isPhys 0 = true ∧
      paNode 0 = base.node ∧ paDie 0 = 0) ∧
    (quietB (buffered (sbEntry .store 0x100000000 (2 ^ 38))) ∧ ((buffered (sbEntry .store 0x100000000 (2 ^ 38))).focus 0).sbReady = true ∧
      isPhys (2 ^ 38) = true ∧ paDie (2 ^ 38) ≠ 0) ∧
    (quietB (buffered (sbEntry (.red .add .w64 5) 0x100000000 0)) ∧
      ((buffered (sbEntry (.red .add .w64 5) 0x100000000 0)).focus 0).sbReady = true) ∧
    -- two lanes of a `vst`
    (let e : SbEntry := { sbEntry .store 0x1000 (tcmLoc 0 0x1000) with lanes := [plainBytes (tcmLoc 0 0x1000) [1, 2, 3, 4], plainBytes (tcmLoc 0 0x1004) [5, 6, 7, 8]] }
    quietB (buffered e) ∧ ((buffered e).focus 0).sbReady = true ∧ e.lanes.isEmpty = false ∧ isPhys e.loc = false) ∧
    (quietB (buffered (sbEntry (.control false 5) 0x100010000 0x3F00000000)) ∧ base.agenda = [] ∧ paNode 0x3F00000000 = base.node ∧
      ((buffered (sbEntry (.control false 5) 0x100010000 0x3F00000000)).focus 0).sbReady = true) := by decide +kernel
theorem test_hyp_MemorySteps_paths :
    (quietB (throughs false true) ∧ (throughs false true).mayArrive 0 = true ∧
      ∀ b ∈ (wt false).bytes, (throughs false true).reachable (wt false).die b.loc = true ∧ paNode b.loc = base.node) ∧
    (quietB (throughs false false) ∧ (throughs false false).mayArrive 0 = true ∧
      ∃ b ∈ (wt false).bytes, (throughs false false).reachable (wt false).die b.loc = false) ∧
    (∀ b ∈ (wt true).bytes, (throughs true true).reachable (wt true).die b.loc = true) ∧
    (let s := { base with reds := [red0 false] }
    quietB s ∧ s.heldAtHome 0x80 0 = false ∧ s.engineOwned (paDie 0x80) 0x80 = false ∧ s.wtHere 0 0x80 = false ∧ s.reachable 0 0x80 = true ∧ paNode 0x80 = s.node ∧
      (s.reds.filter fun x => x.loc / 128 = 0x80 / 128) = [red0 false] ∧ s.flips = []) ∧
    ({ base with reds := [red0 true] }.reachable 0 0x80 = true) ∧
    (let s := { base with refused := [⟨0, 3, 1, 0, false⟩] }
    quietB s ∧ (⟨0, 3, 1, 0, false⟩ : Refused).again ≤ s.time) := by decide +kernel
/-- A window of core 0's context: instructions left, destination, dropped. -/
def windowed (n : Nat) (d : Dest) (x : Bool) : State := base.updCtx fun y => { y with win := [⟨n, d, x, false⟩] }
theorem test_hyp_MemorySteps_rest :
    (let s := { base with time := 257 }
    quietB s ∧ (s.dieAt 0).pins[0]? = some pin0 ∧ pin0.until_ < s.time ∧ pin0.doomed = false ∧ 95 < 96) ∧
    (let s := windowed 2 (.s 3 7) false
    quietB s ∧ s.core.ctx.win[0]? = some ⟨2, .s 3 7, false, false⟩ ∧ s.core.ctx.st = .run ∧ (⟨2, .s 3 7, false, false⟩ : Window).awaits = false) ∧
    (quietB (windowed 0 (.s 3 7) false) ∧ quietB (windowed 0 (.v 3 7) false) ∧ quietB (windowed 0 (.s 3 7) true) ∧ quietB (windowed 0 .none false)) ∧
    (quietB base ∧ paNode (2 ^ 38 + 0x3F00000050) = base.node ∧ paLoc (2 ^ 38 + 0x3F00000050) = 0x3F00000000 + 0x50 ∧
      base.writeWaits none (2 ^ 38 + 0x3F00000050) = false) := by decide +kernel

/-- A record, and a core's ring with 16 slots at 0x10000 in TCM, empty, or full. -/
def rec0 : EvRec := ⟨5, 6, 0, 0⟩
@[inherit_doc rec0] def ring (tail : Nat) : Word := BitVec.ofNat 64 (2 ^ 32 * tail + 0x410000)
@[inherit_doc rec0] def recorded (tail : Nat) : State := { base with core := { core0 with evq := ring tail, recq := [rec0] } }
/-- Core 0 with a parked context, and the page-fault records of its die. -/
def parked (l : List EvRec) (st : IrisState) : State := { base with
  core := { core0 with iris := st, rest := [{ Ctx.reset 1 with st := .park }, Ctx.reset 2, Ctx.reset 3] }, dies := base.dies.set 0 { die0 with pfq := l } }
theorem test_hyp_NoticesAndRecords_records :
    (quietB (recorded 15) ∧ (recorded 15).core.iris = .running ∧ (recorded 15).RingRoom 0 ∧ (recorded 15).completesBelow 0 8 = false) ∧
    (quietB (recorded 16) ∧ bitsOf (recorded 16).core.evq 23 20 ≠ 0 ∧ ¬(recorded 16).RingRoom 0) ∧
    (let s := { base with core := { core0 with evq := ring 0 }, dies := base.dies.set 0 { die0 with pfq := [rec0] } }
    quietB s ∧ (s.dieAt 0).pfq = [rec0] ∧ coreOfIndex 0 (bitsOf (s.dieAt 0).pscore 9 0) = 0 ∧ s.RingRoom 0 ∧ s.core.iris = .running ∧ s.core.recq = [] ∧ s.completesBelow 0 8 = false) ∧
    ((∀ k, ∀ y ∈ (base.coreAt k).ctxs, y.noted = false) ∧ ∀ y ∈ base.dies.toList, ∀ v ∈ y.saved, v.ctx.noted = false) ∧
    (quietB (parked [] .running) ∧ (parked [] .running).core.Whole ∧ (parked [] .running).recordWaits 0 1 = false ∧
      (∃ x ∈ (parked [] .running).core.ctxs, x.num = (5 : Word).extractLsb' 0 2 ∧ x.st = .park) ∧
      (parked [pageFaultRecord 0x200000000 0 0 1 0] .running).recordWaits 0 1 = true ∧ (parked [] .halted).core.iris ≠ .running) := by
  refine ⟨⟨by decide +kernel, by decide, by unfold State.RingRoom; decide +kernel, by decide +kernel⟩,
    ⟨by decide +kernel, by decide +kernel, by unfold State.RingRoom; decide +kernel⟩,
    ⟨by decide +kernel, rfl, by decide +kernel, by unfold State.RingRoom; decide +kernel, by decide, by decide, by decide +kernel⟩, ⟨?_, by decide +kernel⟩,
    by unfold Core.Whole; decide +kernel⟩
  intro k y hy
  by_cases h : k = 0
  · subst h; revert y; decide +kernel
  · have hk : base.coreAt k = Core.reset := by simp [State.coreAt, base, State.reset, findD, Ne.symm h]
    rw [hk] at hy
    revert y
    decide +kernel
/-- A `kick` at the head of core 0's queue to pipe 0, LEN 128, and the notice it sends. -/
def kick0 (st : WordState) : EWord := eword (.kickPipe 0 0 3 (.imm 128) (.imm 0 0 7)) [0x1000, 128, 7] st
@[inherit_doc kick0] def notice0 : Notice := ⟨0x1000, 0, 0, 7, 128, 1, some 1, none, 0, 0, none⟩
def kicked (st : WordState) (n : Nat) : State :=
  { queued base 7 [kick0 st] with clusters := [(0, { Cluster.reset with kick := List.replicate n notice0 })] }
/-- At time 0 no time of sending lies before it, whatever the transit. -/
theorem kick_notice : (kicked .queued 7).noticeOf 0 (kick0 .queued) = some notice0 ∧ (kicked .started 7).noticeOf 0 (kick0 .started) = some notice0 := by
  have h : ∀ st, (kicked st 7).time - Config.transit (kicked st 7).fv = 0 := fun _ => Nat.zero_sub _
  simp only [State.noticeOf, h]
  decide +kernel
theorem test_hyp_NoticesAndRecords_kick :
    (quietB (kicked .queued 7) ∧ (kicked .queued 7).headWord 0 7 = some (kick0 .queued) ∧
      (kicked .queued 7).noticeOf 0 (kick0 .queued) = some notice0 ∧ (kicked .queued 7).Linked (dieOf 0) (dieOf notice0.rcv.toNat) ∧
      (kicked .queued 7).core.iris ≠ .halted ∧ (kicked .queued 7).storesLeft 0 (kick0 .queued) = true ∧ (kicked .queued 7).unacked 0 false = false ∧
      ((kicked .queued 7).clusterAt 0).kick.length < 8) ∧
    (quietB (kicked .queued 8) ∧ 8 ≤ ((kicked .queued 8).clusterAt 0).kick.length) ∧
    (quietB (kicked .started 7) ∧ (kicked .started 7).headWord 0 7 = some (kick0 .started) ∧
      (kicked .started 7).noticeOf 0 (kick0 .started) = some notice0 ∧ ((kicked .started 7).clusterAt 0).kick.length < 8) := by
  refine ⟨⟨by decide +kernel, by decide +kernel, kick_notice.1, ?_⟩, by decide +kernel, by decide +kernel, by decide +kernel, kick_notice.2, by decide +kernel⟩
  unfold State.Linked
  decide +kernel
/-- Core 0 sends to itself through its pipe; the receive ring has two units. The pull has not started, or has reserved unit 15. -/
def pulling (u : Option Nat) : State :=
  let s := kicked .sent 0
  { s with core := { s.core with rings := [(1, ⟨15, 2⟩)] }, clusters := [(0, { Cluster.reset with kick := [{ notice0 with unit := u }] })] }
theorem test_hyp_NoticesAndRecords_pull :
    (∀ u, u = none ∨ u = some 15 → quietB (pulling u) ∧ ((pulling u).clusterAt 0).kick = [{ notice0 with unit := u }] ∧ notice0.pipe = some 1 ∧
      (pulling u).headWord 0 7 = some (kick0 .sent) ∧ (kick0 .sent).seq = notice0.seq ∧ (∀ p, p < 4 → (pulling u).headWord (clusterCore 0 p) 4 = none) ∧
      0 < ((pulling u).pipeArea 0 1).2) ∧
    ((pulling none).core.iris = .running ∧ (128 + 63) / 64 ≤ (findD (⟨0, 0⟩ : Ring) 1 (pulling none).core.rings).free) ∧
    (let s := pulling (some 15)
    15 < (s.pipeArea 0 1).2 ∧ (kick0 .sent).pos ≤ 128 ∧ addr54 notice0.src + 128 ≤ s.tcmbOf 0 ∧ s.tcmbOf 0 ≤ 0x20000 ∧ 128 ≤ 64 * (s.pipeArea 0 1).2 ∧
      64 * ((s.pipeArea 0 1).1 + (s.pipeArea 0 1).2) ≤ 0x80000 ∧ s.flips = [] ∧ s.poison = [] ∧ s.tripFailed 0 0 = false ∧ s.tripWaits 0 0 = false) ∧
    (let s := { kicked .sent 0 with acks := [⟨0, 1, 7, 128, 0, 0⟩], core := { (kicked .sent 0).core with evq := ring 0 } }
    quietB s ∧ s.recordHere 0 (BitVec.ofNat 64 (4 * 2 ^ 56 + 2 ^ 44 * 0 + 1)) = false ∧ s.visible 0 1 = true ∧ s.Linked 0 0 ∧ s.core.image.isSome = true ∧
      s.core.iris = .running ∧ s.core.recq = [] ∧ s.RingRoom 0 ∧ s.completesBelow 0 8 = false ∧ s.headWord 0 7 = some (kick0 .sent) ∧ (kick0 .sent).seq = 1) := by
  refine ⟨?_, by decide +kernel, by decide +kernel, ?_⟩
  · rintro u (rfl | rfl) <;> decide +kernel
  · unfold State.Linked State.RingRoom
    decide +kernel

/-- A TCB in a task queue. -/
def qtask0 : QTask := ⟨tcb0, none, 0, 0, none⟩
/-- Core 0 without a RUN context, and its queue or another core's deque. -/
def idle0 : Core := { core0 with ctx := Ctx.reset 0 }
@[inherit_doc idle0] def seeking (q : List QTask) : State := { base with core := { idle0 with taskq := q } }
@[inherit_doc idle0] def thief : State := bytes { seeking [] with others := [(1, core0)] } (tcmLoc 1 0x1E008) (leBytes 8 2)
theorem seeks_of {s : State} {c : Nat}
    (h : ((s.coreAt c).ctxs.map (·.num)).Nodup ∧ (∀ n : CtxNum, ∃ x ∈ (s.coreAt c).ctxs, x.num = n) ∧ (s.coreAt c).looks = true ∧
      (s.coreAt c).image.isSome = true ∧ (s.coreAt c).pendUp = none ∧ (s.coreAt c).preempt = false ∧
      (∀ x ∈ (s.coreAt c).ctxs, x.st ≠ .wake ∧ ¬(x.st = .done ∧ x.restartMark = true)) ∧ (∀ v ∈ (s.dieAt (dieOf c)).saved, v.core ≠ c) ∧
      ∀ r ∈ s.decs, r.core ≠ c) :
    s.Seeks c := by
  obtain ⟨a, b, c, d, e, f, g, i, j⟩ := h
  exact ⟨⟨a, b⟩, c, d, e, f, g, i, j⟩
theorem test_hyp_SchedulingSteps_select :
    (quietB (seeking [qtask0]) ∧ (seeking [qtask0]).Seeks 0 ∧ (seeking [qtask0]).core.freeCtx = some 0 ∧ (seeking [qtask0]).QueueRoom 0) ∧
    (let s := bytes (seeking []) (tcmLoc 0 0x1E008) (leBytes 8 1)
    quietB s ∧ s.Seeks 0 ∧ (s.dieAt 0).ordered = [] ∧ s.dequeOk 0 = true ∧ ∃ r, s.dequePop 0 = some r) ∧
    (quietB thief ∧ thief.Seeks 0 ∧ thief.core.freeCtx = some 0 ∧ thief.dequePop 0 = none ∧ 1 ∈ thief.liveCores ∧ clusterOf 1 = clusterOf 0 ∧
      thief.sameImage 0 1 = true ∧ (∀ w ∈ thief.liveCores, w ≠ 0 → clusterOf w = clusterOf 0 → thief.sameImage 0 w = true → w = 1) ∧
      thief.dequeOk 1 = true ∧ thief.dequeTop 1 ≠ thief.dequeBottom 1) :=
  ⟨⟨by decide +kernel, seeks_of (by decide +kernel), by decide +kernel, by unfold State.QueueRoom; decide +kernel⟩,
    ⟨by decide +kernel, seeks_of (by decide +kernel), by decide, by decide +kernel, some_of (by decide +kernel)⟩,
    ⟨by decide +kernel, seeks_of (by decide +kernel), by decide +kernel⟩⟩
/-- A pre-empted core with a parked context, and a context store of one slot. -/
def yielding : State := { base with
  core := { core0 with ctx := { ctx0 with st := .park }, preempt := true }, dies := base.dies.set 0 { die0 with hcsb := 0x100000, hcsn := 1 } }
/-- A retirement's decrement of a joined TCB in the mapped page. -/
def decs0 (pred : Nat) (joined : Bool) : State :=
  let s := joining (tcbFor 4 0 pred)
  { s with decs := [⟨0, 0, 1, 0, 0, [.target 0x100010000], false⟩], joined := if joined then [0x10000] else [] }
theorem test_hyp_SchedulingSteps_tasks :
    (quietB yielding ∧ (yielding.core.ctxs.map (·.num)).Nodup ∧ (∀ n : CtxNum, ∃ x ∈ yielding.core.ctxs, x.num = n) ∧ yielding.core.yields = true ∧
      yielding.core.oldestParked = some 0 ∧ yielding.freeSlot 0 = some 0 ∧ yielding.slotAddr 0 0 + 3072 ≤ 2 ^ 52) ∧
    (quietB (decs0 2 false) ∧ (decs0 2 false).unacked 0 false = false ∧ (∀ e ∈ (decs0 2 false).core.sb, e.task ≠ 1) ∧
      (0x100010000 : Word).toNat % 128 = 0 ∧ okB ((decs0 2 false).hardAddr 0 0 .task 0x100010000 .tcbWrite 0).2 0x10000 = true ∧ (decs0 2 false).flips = [] ∧
      isPhys (0x10000 + 127) = true ∧ (decs0 2 false).hardWaits 0 0x10000 0 = false ∧ (decs0 2 false).poison = [] ∧
      1 < (tcbOf ((spanOf 0x10000 128).map (decs0 2 false).byte)).pred) ∧
    (quietB (decs0 1 true) ∧ okB ((decs0 1 true).hardAddr 0 0 .task 0x100010000 .tcbWrite 0).2 0x10000 = true ∧
      (tcbOf ((spanOf 0x10000 128).map (decs0 1 true).byte)).pred = 1 ∧ (decs0 1 true).joined.contains 0x10000 = true ∧
      (decs0 1 true).QueueTakes 0) ∧
    (let m : Msg := ⟨1, 0, 0, 0, 0, tcb0⟩
    let s := { base with net := [m] }
    quietB s ∧ (∀ e ∈ s.net.take 0, ¬(e.src = m.src ∧ e.dst = m.dst)) ∧ s.linkFailed 0 0 = false ∧ s.linkWaits 0 0 = false ∧
      s.core.image.map (·.gang) = some m.gang ∧ s.core.iris = .running ∧ s.QueueRoom 0 ∧
      s.core.taskq.length + s.core.inbox.length + (s.net.filter (·.dst = 0)).length ≤ 64) ∧
    (let s := { base with net := [⟨1, 0, 0, 0, 0, tcb0⟩], core := { core0 with iris := .halted } }
    quietB s ∧ s.core.iris ≠ .running) := by
  unfold State.QueueRoom State.QueueTakes
  decide +kernel
/-- A context that waits for the lock of line 7 at slice 3, which another task may hold. -/
def locking (l : List Lock) : State := { base with
  core := { core0 with ctx := { ctx0 with tcb := tcb0.set 2 0x0800000000000000, lockWait := [(3, 7)] }
                       rest := [{ Ctx.reset 1 with st := .park, task := 9, tcb := tcb0.set 1 4 }, Ctx.reset 2, Ctx.reset 3] }
  dies := base.dies.set 0 { die0 with locks := l } }
/-- An ordered task in context 0 of core 0, DONE or RUN, and one queued; every context of the core is taken. -/
def doneOrdered (st : CtxState) (q : List OrdTask) : State := { base with
  core := { core0 with ctx := { ctx0 with st := st, tcb := tcb0.set 2 0x1000000000000000 }
                       rest := [{ Ctx.reset 1 with st := .park }, { Ctx.reset 2 with st := .park }, { Ctx.reset 3 with st := .park }] }
  dies := base.dies.set 0 { die0 with cfront := 5, ordered := q } }
theorem test_hyp_SchedulingSteps_ordered :
    (quietB (locking []) ∧ (locking []).core.ctx.st = .run ∧ (locking []).core.ctx.lockWait = [(3, 7)] ∧
      (∀ k ∈ ((locking []).dieAt 0).locks, k.line ≠ 7) ∧ (((locking []).dieAt 0).locks.filter fun k => k.slice = 3).length < 256 ∧
      ∀ r ∈ (locking []).reds, r.loc / 128 ≠ 7) ∧
    (quietB (locking [⟨7, 3, 9⟩]) ∧ ((locking [⟨7, 3, 9⟩]).dieAt 0).locks.find? (fun k => decide (k.line = 7)) = some ⟨7, 3, 9⟩ ∧
      ∃ p, (locking [⟨7, 3, 9⟩]).findTask 9 = some p) ∧
    (((locking [⟨7, 3, 9⟩]).findTask 9).map fun p => (locking [⟨7, 3, 9⟩]).core.ctx.tcb.older p.2.tcb) = some false ∧
    (quietB { base with time := 64 } ∧ (base.dieAt 0).frontAt < 64 / 64 ∧ { base with time := 64 }.uncommitted 0 = []) ∧
    (quietB { doneOrdered .done [] with time := 64 } ∧ { doneOrdered .done [] with time := 64 }.uncommitted 0 ≠ []) ∧
    (let s := doneOrdered .done []
    quietB s ∧ (s.core.ctxs.map (·.num)).Nodup ∧ (∀ n : CtxNum, ∃ x ∈ s.core.ctxs, x.num = n) ∧ (s.core.getCtx 0).st = .done ∧
      (s.core.getCtx 0).restartMark = false ∧ (s.core.getCtx 0).cls = 2 ∧ (s.core.getCtx 0).outbox = [] ∧ (∀ e ∈ s.core.sb, e.task ≠ (s.core.getCtx 0).task) ∧
      (∀ q ∈ s.uncommitted 0, q.1.older (s.core.getCtx 0).tcb = false) ∧ (s.dieAt 0).cfront = (s.core.getCtx 0).tcb.word 1) ∧
    (let o : OrdTask := ⟨0, 0, (tcb0.set 2 0x1000000000000000).set 1 4, 0⟩
    let s := doneOrdered .run [o]
    quietB s ∧ (s.dieAt 0).ordered = [o] ∧ o.restarts = 0 ∧ 0 ∈ s.liveCores ∧ s.good 0 = true ∧ s.core.iris = .running ∧ s.core.image.map (·.launch) = some o.launch ∧
      s.core.freeCtx = none ∧ (s.core.ctxs.map (·.num)).Nodup ∧
      (∀ n : CtxNum, ∃ x ∈ s.core.ctxs, x.num = n) ∧ s.core.ctx.cls = 2 ∧ s.core.ctx.st = .run ∧
      (∀ v ∈ s.liveCores, v ≠ 0 → (s.coreAt v).image.map (·.launch) ≠ some o.launch) ∧ (∀ y ∈ s.core.rest, y.cls ≠ 2) ∧ s.core.sb = [] ∧
      (∀ v ∈ s.liveCores, dieOf v = 0 → ∀ y ∈ (s.coreAt v).ctxs, ¬(y.st = .done ∧ y.restartMark = true)) ∧
      ∀ q ∈ s.uncommitted 0, q.1.older o.tcb = false) ∧
    (let s := base.updCtx fun x => { x with budget := 0 }
    quietB s ∧ s.core.ctx.budget = 0 ∧ s.core.ctx.mode = .task ∧ s.core.ctx.upcallCode = false ∧ s.core.ctx.st = .run ∧ s.core.iris = .running ∧
      s.core.waiting = false ∧ s.core.blocked true = false ∧ s.core.ctx.grace = false ∧ pcMask s.core.ctx.tvec ≠ 0 ∧
      s.core.ctx.pc ≠ pcMask s.core.ctx.tvec) ∧
    quietB (base.updCtx fun x => { x with budget := 0, grace := true }) := by
  refine ⟨by decide +kernel, ⟨by decide +kernel, by decide +kernel, some_of (by decide +kernel)⟩, by decide +kernel, by decide +kernel, by decide +kernel,
    by decide +kernel, by decide +kernel, by decide +kernel, by decide +kernel⟩
/-- Core 0's queue 5 holds one gather word. -/
def gat0 (st : WordState) : EWord := eword (.gaGat 0 true 0 3 4 5 (.imm 1)) [0x1000, 0x100000000, 0x2000, 1] st
def rel0 (u : BitVec 13) : EWord := eword (.cpPullRelease 0 false ⟨false, 1⟩ u) [] .queued
def clr0 : EWord := eword (.miClrKey 0 false 3) [7] .queued
theorem test_hyp_EngineSteps_start :
    (let s := queued base 5 [gat0 .queued]
    quietB s ∧ (gat0 .queued).st = .queued ∧ (s.coreAt (clusterCore 0 0)).iris ≠ .halted ∧ s.storesLeft 0 (gat0 .queued) = true ∧
      s.headWord (clusterCore 0 0) 5 = some (gat0 .queued) ∧ (∀ j : Fin 4, j ≠ 0 → s.headWord (clusterCore 0 j) 5 = none) ∧
      isGlobal (addr54 ((gat0 .queued).ops.getD 2 0)) = false) ∧
    (let s := queued base 4 [rel0 16]
    quietB s ∧ s.headWord 0 4 = some (rel0 16) ∧ (∀ j : Fin 4, j ≠ 0 → s.headWord (clusterCore 0 j) 4 = none) ∧ (s.clusterAt 0).kick = [] ∧
      (findD (⟨0, 0⟩ : Ring) 1 s.core.rings).free + 16 ≤ (s.pipeArea 0 1).2) ∧
    (let s := queued base 4 [rel0 17]
    quietB s ∧ (s.pipeArea 0 1).2 < (findD (⟨0, 0⟩ : Ring) 1 s.core.rings).free + 17) ∧
    (let s := queued base 6 [clr0]
    quietB s ∧ s.headWord 0 6 = some clr0 ∧ (∀ j : Fin 4, j ≠ 0 → s.headWord (clusterCore 0 j) 6 = none) ∧ (s.clusterAt (clusterOf 0)).mirror = none) := by
  decide +kernel
/-- Paired words at the E queue of core 0 and the W queue of core 1, and what they hold. -/
def mma0 (k : BitVec 16) (st : WordState) : EWord := eword (.prMma .east 0 .a false false 0 3 (.imm 2) 0 0 k 0x12 0x12) [0x1000, 2] st
@[inherit_doc mma0] def mma1 (st : WordState) : EWord := eword (.prMma .west 0 .b false false 0 3 (.imm 2) 0 0 8 0x12 0x12) [0x1000, 2] st
def paired (a b : EWord) : State := { queued base 1 [a] with others := [(1, { core0 with queues := core0.queues.set 3 [b] })] }
/-- Both operands of the next K-step are read. -/
def stepsB (s : State) (a b : EWord) : Bool :=
  match mmaWord a.word, mmaWord b.word with
  | some x, some y =>
    let l := x.stepLen
    let n := min l (x.k - l * a.pos)
    match fetch (a.eng 0 1 4) a x 0 0 (l * a.pos) n s with
    | .ok _ s1 => (match fetch (b.eng 1 3 4) b y 0 1 (l * a.pos) n s1 with | .ok _ s2 => s2.flips.isEmpty && s2.poison.isEmpty | .error .. => false)
    | .error .. => false
  | _, _ => false
theorem steps_of {s : State} {a b : EWord} (h : stepsB s a b = true) :
    ∃ x y as bs s1 s2, mmaWord a.word = some x ∧ mmaWord b.word = some y ∧
      fetch (a.eng 0 1 4) a x 0 0 (x.stepLen * a.pos) (min x.stepLen (x.k - x.stepLen * a.pos)) s = .ok as s1 ∧
      fetch (b.eng 1 3 4) b y 0 1 (x.stepLen * a.pos) (min x.stepLen (x.k - x.stepLen * a.pos)) s1 = .ok bs s2 ∧ s2.flips = [] ∧ s2.poison = [] := by
  unfold stepsB at h
  split at h
  · next x y hx hy =>
      simp only at h
      split at h
      · next as s1 h1 =>
          split at h
          · next bs s2 h2 => simp only [Bool.and_eq_true, List.isEmpty_iff] at h; exact ⟨x, y, as, bs, s1, s2, hx, hy, h1, h2, h⟩
          · simp at h
      · simp at h
  · simp at h
theorem test_hyp_EngineSteps_prism :
    -- words that agree, and words that do not, by K
    (prismEnds 0 = some ((0, .east), (1, .west)) ∧ quietB (paired (mma0 8 .queued) (mma1 .queued)) ∧
      (paired (mma0 8 .queued) (mma1 .queued)).headWord 0 1 = some (mma0 8 .queued) ∧
      (paired (mma0 8 .queued) (mma1 .queued)).headWord 1 3 = some (mma1 .queued) ∧
      (paired (mma0 8 .queued) (mma1 .queued)).core.iris ≠ .halted ∧ ((paired (mma0 8 .queued) (mma1 .queued)).coreAt 1).iris ≠ .halted ∧
      (mma0 8 .queued).gang = (mma1 .queued).gang ∧ Role.a ≠ Role.b ∧ (9 : BitVec 16) ≠ 8) ∧
    (let w := eword (.prAcz .east 0 true false false) [] .queued
    let s := queued base 1 [w]
    quietB s ∧ neighbour 0 .east = some 1 ∧ s.headWord 0 1 = some w ∧ s.core.iris ≠ .halted ∧ s.storesLeft 0 w = true ∧
      s.headWord 1 (endCode (oppositeEnd .east)) = none) ∧
    (quietB (paired (mma0 8 .started) (mma1 .started)) ∧ (paired (mma0 8 .started) (mma1 .started)).storesLeft 0 (mma0 8 .started) = true ∧
      (paired (mma0 8 .started) (mma1 .started)).storesLeft 1 (mma1 .started) = true ∧
      stepsB (paired (mma0 8 .started) (mma1 .started)) (mma0 8 .started) (mma1 .started) = true) := by decide +kernel
theorem test_hyp_EngineSteps_ends :
    (let s := { queued base 5 [gat0 (.finished 3)] with core := { (queued base 5 [gat0 (.finished 3)]).core with evq := ring 15 } }
    quietB s ∧ s.headWord 0 (queueCode .ga) = some (gat0 (.finished 3)) ∧ kindOf (gat0 (.finished 3)).word ≠ 4 ∧ s.visible 0 2 = true ∧
      (gat0 (.finished 3)).paired = false ∧ evnOf (gat0 (.finished 3)).word = true ∧ s.completesBelow 0 5 = false ∧ bitsOf s.core.evq 23 20 ≠ 0 ∧
      (bitsOf s.core.evq 47 32 + 2 ^ 16 - bitsOf s.core.evq 63 48) % 2 ^ 16 ≠ 2 ^ bitsOf s.core.evq 23 20) ∧
    (let w := eword (.miClrAll 0 false) [] (.finished 0)
    let s := queued base 6 [w]
    quietB s ∧ s.headWord 0 (queueCode .mi) = some w ∧ s.visible 0 (kindOf w.word) = true ∧ evnOf w.word = false) ∧
    (let w := eword (.miClrAll 0 false) [] (.held 0x045 0 1 0 false)
    let s := queued base 6 [w]
    quietB s ∧ s.core.unreported = [(6, w)] ∧ w.ctxn = s.core.ctx.num ∧ s.core.ctx.st = .run ∧ s.core.ctx.reporting = false ∧ s.core.iris = .running ∧
      s.core.waiting = false ∧ s.core.blocked true = false ∧ pcMask s.core.ctx.tvec ≠ 0 ∧ s.core.ctx.pc ≠ pcMask s.core.ctx.tvec ∧
      s.headWord 0 (queueCode .mi) = some w ∧ queueCode .mi ≠ 7 ∧ w.paired = false) ∧
    -- a null index in TCM
    (let s := bytes (queued base 5 [gat0 .started]) (tcmLoc 0 0x1000) [0xFF, 0xFF, 0xFF, 0xFF]
    quietB s ∧ s.headWord (clusterCore 0 0) 5 = some (gat0 .started) ∧ (∀ j : Fin 4, j ≠ 0 → s.headWord (clusterCore 0 j) 5 = none) ∧
      (gat0 .started).wrote < 1 ∧ (gat0 .started).pos < 1 ∧ (gat0 .started).read = [] ∧ addr54 0x1000 % 4 = 0 ∧
      addr54 0x1000 + 4 ≤ s.tcmbOf 0 ∧ s.tcmbOf 0 ≤ 0x20000 ∧ s.flips = [] ∧ s.poison = [] ∧
      (spanOf (tcmLoc 0 0x1000) 4).map s.byte = [0xFF, 0xFF, 0xFF, 0xFF]) ∧
    -- its result, settled
    (let w := { gat0 .started with pos := 1, out := [List.replicate (gatSize 0) 7] }
    let s := queued base 5 [w]
    quietB s ∧ s.headWord 0 5 = some w ∧ 1 ≤ w.pos ∧ w.out[w.wrote]? = some (List.replicate (gatSize 0) 7) ∧ addr54 0x2000 % gatSize 0 = 0 ∧
      addr54 0x2000 + gatSize 0 ≤ s.tcmbOf 0) := by decide +kernel
/-- A `mi.qry` whose window waits for its answer. -/
def answered : EWord := { eword (.miQry 1 .absmax false 7 3 (.imm 1) 4 (.imm 1) 5) [] (.finished 1) with seq := 1 }
theorem test_hyp_EngineSteps_answer :
    let s := queued (base.updCtx fun x => { x with win := [⟨1, .mirror 7 1, false, false⟩] }) 6 [answered]
    quietB s ∧ s.headWord 0 (queueCode .mi) = some answered ∧ s.visible 0 (kindOf answered.word) = true ∧ answered.paired = false ∧
      (s.core.ctxs.map (·.num)).Nodup ∧ (∀ n : CtxNum, ∃ x ∈ s.core.ctxs, x.num = n) ∧
      ((s.coreAt 0).getCtx answered.ctxn).win[0]? = some ⟨1, .mirror 7 answered.seq.toNat, false, false⟩ := by decide +kernel
/-- A gather word that has read its last entry reads no other ahead. -/
theorem test_hyp_EngineSteps_ahead : aheadEntry { gat0 .started with read := [(0, 0xFFFFFFFF)] } 1 0 = none := by
  unfold aheadEntry
  cases h : Config.listAhead 0 with
  | none => rfl
  | some i => simp only [Option.filter_some_eq_none, Bool.and_eq_true, decide_eq_true_eq, Bool.not_eq_eq_eq_not, Bool.not_true]; cases i <;> simp

/-- An effect answers a value. -/
def actB {α : Type} [DecidableEq α] (r : EStateM.Result Stop State α) (v : α) : Bool := match r with | .ok x _ => x == v | .error .. => false
theorem act_of {α : Type} [DecidableEq α] {r : EStateM.Result Stop State α} {v : α} (h : actB r v = true) : ∃ u, r = .ok v u := by
  cases r <;> simp_all [actB]
/-- An effect meets a fault, of a queue's code. -/
def excB {α : Type} (r : EStateM.Result Stop State α) (v : Nat) : Bool := match r with | .error (.exc e) _ => e.entryCode == v | _ => false
theorem exc_of {α : Type} {r : EStateM.Result Stop State α} {v : Nat} (h : excB r v = true) : ∃ c u, r = .error (.exc c) u ∧ c.entryCode = v := by
  unfold excB at h
  split at h <;> simp_all
/-- Queue 0 of die 0, with LOGN 4 and its ring at 0x20000; page tables and a pin map 0x1_0001_0000 to 0x10000. -/
def cq0 : CmdQueue := { CmdQueue.reset with en := true, logn := 4, ring := 0x20000, wcnt := 1 }
@[inherit_doc cq0] def disp (x : CmdQueue) (e : Option CqEntry) : State := { base with
  mem := placeTables [], dies := base.dies.set 0 { die0 with actb := 0x1000, pins := [globalPin], slots := #v[e, none, none, none] }
  cqs := (Vector.replicate 64 CmdQueue.reset).set 0 x }
/-- A started entry of a type, with its words 1 to 3. -/
def entry (ty : Nat) (a v w3 : Word) : CqEntry := ⟨0, 0, #v[BitVec.ofNat 64 ty, a, v, w3, 0, 0, 0, 0], 0, 0, 0, 0, none, [], none, false, 0, false, false⟩
theorem test_hyp_CommandQueueSteps_queue :
    (quietB (disp cq0 none) ∧ (disp cq0 none).qrbHeld = false ∧ (16#32 - ((disp cq0 none).cq 0).rcnt).toNat ≤ 2 ^ ((disp cq0 none).cq 0).logn ∧
      2 ^ ((disp cq0 none).cq 0).logn < (17#32 - ((disp cq0 none).cq 0).rcnt).toNat) ∧
    -- a write of EN: from 0 with LOGN 12, with LOGN 13, and from 1 to 0
    (((disp CmdQueue.reset none).cq 0).en = false ∧ bitsOf 0x8C00000000000000 59 56 = 12 ∧ bitsOf 0x8D00000000000000 59 56 = 13 ∧
      (0x8D00000000000000 : Word).getLsbD 63 = true ∧ ((disp cq0 none).cq 0).en = true ∧ (0 : Word).getLsbD 63 = false) ∧
    (let s := { disp { cq0 with since := some 0, epri := 6 } none with agei := Vector.replicate 7 1, time := 850 }
    quietB s ∧ s.queueReady 0 = true ∧ (s.cq 0).since = some 0 ∧ (s.cq 0).epri < 7 ∧ 0 < 850 * (s.agei.toList.getD (s.cq 0).epri 0).toNat ∧
      0 + 850 * (s.agei.toList.getD (s.cq 0).epri 0).toNat ≤ s.time) ∧
    (let s := disp cq0 none
    let z := s.agedQueues
    (z.dieAt 0).rdy.getLsbD 19 = true ∧ (z.dieAt 0).resetting = none ∧ (z.dieAt 0).slots.toList.getD 0 none = none ∧ (z.cq 0).en = true ∧
      (z.cq 0).hdie = 0 ∧ (∀ p, p < 64 → (z.cq p).startAt = some s.time → (z.cq p).hdie ≠ 0) ∧ z.headEntry 0 = some (Vector.replicate 8 0) ∧
      z.queueReady 0 = true ∧ (∀ p, p < 64 → p ≠ 0 → (z.cq p).en = true → (z.cq p).hdie = 0 → z.queueReady p = false) ∧
      s.flips = [] ∧ poisonedAny s.poison (spanOf (z.cq 0).headAt 64) = false) := by decide +kernel
/-- What its head reads: a NOP, an unknown type, and a launch record at a home that is not ready. -/
theorem test_hyp_CommandQueueSteps_heads :
    (∃ u, entryCheck 0 (Vector.replicate 8 0) (disp cq0 none).agedQueues = .ok (none, []) u) ∧
    (∃ c u, entryCheck 0 (entry 6 0 0 0).words (disp cq0 none).agedQueues = .error (.exc c) u ∧ c.entryCode = 0x001) ∧
    ∃ c u, entryCheck 0 (entry 1 0x100010000 0 0).words ({ disp cq0 none with
      dies := (disp cq0 none).dies.set 0 { die0 with pins := [globalPin], rdy := 0 } } : State).agedQueues = .error (.exc c) u ∧ c.entryCode = 0x081 :=
  ⟨act_of (by decide +kernel), exc_of (by decide +kernel), exc_of (by decide +kernel)⟩
theorem test_hyp_CommandQueueSteps_entries :
    (quietB (disp cq0 (some (entry 0 0 0 0))) ∧ ((disp cq0 (some (entry 0 0 0 0))).dieAt 0).slots.toList.getD 0 none = some (entry 0 0 0 0) ∧
      entryType (entry 0 0 0 0).words = 0) ∧
    -- a LAUNCH whose record is misaligned
    (let e := entry 1 0x100010001 0 0
    quietB (disp cq0 (some e)) ∧ entryType e.words = 1 ∧ e.launch = none ∧ e.queue < 64) ∧
    -- SIGNAL, write and add, of the mapped page
    (let e := entry 3 0x100010008 7 0
    let s := disp cq0 (some e)
    quietB s ∧ entryType e.words = 3 ∧ (∀ f ∈ s.started e.queue, f.idx = e.idx ∨ (f.idx - e.idx).toNat < 2 ^ 31) ∧ addr54 e.words[1] % 8 = 0 ∧
      s.poison = [] ∧ s.flips = [] ∧ s.dispWaits 0 0x10008 = false ∧ (∀ r ∈ s.reds, r.loc / 128 ≠ 0x10008 / 128) ∧
      okB (s.hardAddr 0 (bitsOf e.words[3] 15 8) .system (BitVec.ofNat 64 (addr54 e.words[1])) .store 0).2 0x10008 = true) ∧
    (let e := entry 3 0x100010008 7 1
    let s := disp cq0 (some e)
    quietB s ∧ (e.words[3]).getLsbD 0 = true ∧
      okB (s.hardAddr 0 (bitsOf e.words[3] 15 8) .system (BitVec.ofNat 64 (addr54 e.words[1])) .atomic 0).2 0x10008 = true) ∧
    -- WAIT that is satisfied, and one that is not
    (let e := entry 4 0x100010008 0 0
    let s := disp cq0 (some e)
    quietB s ∧ entryType e.words = 4 ∧ addr54 e.words[1] % 8 = 0 ∧ s.dispWaits 0 0x10008 = false ∧ s.flips = [] ∧ s.poison = [] ∧ s.reds = [] ∧ okB (s.hardAddr 0 0 .system (BitVec.ofNat 64 (addr54 e.words[1])) .load 0).2 0x10008 = true ∧
      (e.words[2]).toNat ≤ (BitVec.ofNat 64 (natOfBytes ((spanOf 0x10008 8).map s.byte))).toNat) ∧
    (let e := entry 4 0x100010008 1 0
    let s := disp cq0 (some e)
    quietB s ∧ (BitVec.ofNat 64 (natOfBytes ((spanOf 0x10008 8).map s.byte))).toNat < (e.words[2]).toNat) ∧
    -- QBARRIER, first and behind another
    (let e := entry 5 0 0 0
    quietB (disp cq0 (some e)) ∧ entryType e.words = 5 ∧ ∀ f ∈ (disp cq0 (some e)).started 0, f.idx = e.idx ∨ (f.idx - e.idx).toNat < 2 ^ 31) ∧
    (let e := { entry 5 0 0 0 with idx := 1 }
    let s := (disp cq0 (some e)).updDie 0 fun d => { d with slots := d.slots.set 1 (some (entry 0 0 0 0)) }
    quietB s ∧ ∃ f ∈ s.started 0, ¬(f.idx = e.idx ∨ (f.idx - e.idx).toNat < 2 ^ 31)) ∧
    -- completion
    (let e := { entry 0 0 0 0 with finished := true }
    quietB (disp cq0 (some e)) ∧ e.queue < 64 ∧ e.finished = true ∧ entryType e.words ≠ 1 ∧ entryType e.words ≠ 2) ∧
    (let e := { entry 2 0 0 0 with finished := true }
    quietB (disp cq0 (some e)) ∧ e.finished = true ∧ entryType e.words = 2 ∧ (disp cq0 (some e)).visible 0 1 = true) ∧
    (let e := { entry 1 0 0 0 with launch := some 7 }
    quietB (disp cq0 (some e)) ∧ e.launch = some 7 ∧ ∀ g ∈ (disp cq0 (some e)).gangs, g.2.launch ≠ 7) := by decide +kernel
/-- A COPY entry: one element of four bytes within the mapped page; its lines are to be taken, or have been. -/
def copy0 (begun : Bool) : CqEntry :=
  { entry 2 0x100010000 0 0 with desc := [0x100010100, 0x100010200, 0x0100000000000000, 0, 0, 1] ++ List.replicate 10 0, begun := begun }
@[inherit_doc copy0] def copying (begun : Bool) : State :=
  disp cq0 (some (copy0 begun))
/-- The conditions of an engine's access: of a local one, or of one that a pin maps. -/
def engB (s : State) (g : Eng) (va : Word) (n : Nat) (acc : Acc) (l : Nat) : Bool :=
  decide (addr54 va % n = 0) && s.flips.isEmpty && s.poison.isEmpty &&
    (!isGlobal (addr54 va) && g.loc && s.localLoc g.core (addr54 va) n g.peer == some l ||
      isGlobal (addr54 va) && match s.pinOf g.die g.actx (addr54 va) with
        | some p => !p.doomed && decide (7 ≤ p.leaf.size ∧ p.leaf.pa % 128 = 0) && p.leaf.grants g.mode acc && l == p.leaf.at (addr54 va) && isPhys l &&
            (regionOf l == .nearSram || regionOf l == .gddr) && paNode l == s.node && paDie l == g.die && s.homeError g.die l va acc.code == none &&
            (s.dieAt g.die).locks.isEmpty && ((s.dieAt g.die).eo.all fun e => e.1 != l / 128 || e.2 == (g.core, g.cls)) && s.reds.isEmpty && (s.dieAt g.die).uses.isEmpty
        | none => false)
theorem eng_of {s : State} {g : Eng} {va : Word} {n : Nat} {acc : Acc} {l : Nat} (h : engB s g va n acc l = true) : s.EngMeets g va n acc l := by
  simp only [engB, Bool.and_eq_true, Bool.or_eq_true, Bool.not_eq_true', beq_iff_eq, List.isEmpty_iff, decide_eq_true_eq] at h
  obtain ⟨⟨⟨h1, h2⟩, h3⟩, h | ⟨h4, h⟩⟩ := h
  · exact ⟨h1, ⟨h2, h3⟩, .inl ⟨h.1.1, h.1.2, h.2⟩⟩
  · split at h
    · next p hp =>
        simp only [Bool.and_eq_true, Bool.or_eq_true, Bool.not_eq_true', beq_iff_eq, bne_iff_ne, List.isEmpty_iff, decide_eq_true_eq, List.all_eq_true] at h
        obtain ⟨⟨⟨⟨⟨⟨⟨⟨⟨⟨⟨⟨a1, a2⟩, a3⟩, a4⟩, a5⟩, a6⟩, a7⟩, a8⟩, a9⟩, b1⟩, b2⟩, b3⟩, b4⟩ := h
        exact ⟨h1, ⟨h2, h3⟩, .inr ⟨h4, p, hp, a1, a2.1, a2.2, a3, a4, a5, a6, a7, a8, a9, b1, fun e he q => (b2 e he).resolve_left (· q), by simp [b3], by simp [b4]⟩⟩
    · simp at h
/-- A descriptor of one element. -/
def oneB (d : Desc) : Bool :=
  decide (descDims d = 0 ∧ descSize d 0 = 1) && ([dword d 0, dword d 1].all fun x => !blockScaled (ptrCode x) && !coded (ptrCode x)) &&
    decide (8 ≤ sideBits d (dword d 0) (dword d 1) ∧ 8 ≤ sideBits d (dword d 1) (dword d 0))
theorem one_of {d : Desc} (h : oneB d = true) : OneElement d := by
  simp only [oneB, Bool.and_eq_true, List.all_eq_true, Bool.not_eq_true', decide_eq_true_eq] at h
  exact ⟨h.1.1, h.1.2, h.2⟩
theorem test_hyp_CommandQueueSteps_copy :
    (quietB (copying false) ∧ entryType (copy0 false).words = 2 ∧ (copy0 false).begun = false ∧
      ∃ u, (copying false).ownLines 0 8 (bitsOf (copy0 false).words[2] 7 0) (copyLines (copy0 false).desc 0) = some u) ∧
    let g : Eng := { core := 0, actx := bitsOf (copy0 true).words[2] 7 0, mode := .system, kind := 1, cls := 8, loc := false, peer := false }
    quietB (copying true) ∧ (copy0 true).begun = true ∧ (copy0 true).pos = 0 ∧ OneElement (copy0 true).desc ∧
      sideBits (copy0 true).desc 0x100010100 0x100010200 / 8 = 4 ∧ (copying true).EngMeets g 0x100010100 4 .load 0x10100 ∧
      (copying true).EngMeets g 0x100010200 4 .store 0x10200 :=
  ⟨⟨by decide +kernel, by decide, rfl, some_of (by decide +kernel)⟩, by decide +kernel, rfl, rfl, one_of (by decide +kernel), by decide +kernel,
    eng_of (by decide +kernel), eng_of (by decide +kernel)⟩


/-- A LAUNCH entry of one kernel of one tile, whose header declares registers and contexts only; its record and its code lie in the mapped page. -/
def code0 : List Word := [0x4B56594C00010000, 0x0000008100000080, BitVec.ofNat 64 (2 ^ 58 * 32 + 2 ^ 52 * 32 + 2 ^ 48 * 8 + 2 ^ 45 * 4), 0, 0, 1] ++ List.replicate 10 0
@[inherit_doc code0] def kernel1 : Kernel :=
  ⟨0x100010100, [], Vector.ofFn fun i => code0.getD i.val 0, [(0, 0, 0)], 0, 0, Vector.ofFn fun i => (List.replicate 8 0).getD i.val 0, 0, 0⟩
@[inherit_doc code0] def record0 : LaunchRecord := { actx := 0, kernels := [kernel1], pipes := [], roots := [0] }
@[inherit_doc code0] def launch1 : CqEntry := { entry 1 0x100010000 0 0 with record := some record0 }
@[inherit_doc code0] def launching : State :=
  bytes (disp cq0 (some launch1)) 0x10000 ((List.replicate 8 0 ++ [0x100010100, 0, 0, 0, 0, 0, 0, 0] ++ List.replicate 16 0 ++ code0).flatMap fun w : Word => leBytes 8 w.toNat)
theorem test_hyp_CommandQueueSteps_record : ∃ u, readLaunch 0 launch1.words launching = .ok record0 u := act_of (by decide +kernel)
theorem test_hyp_CommandQueueSteps_launch :
    quietB launching ∧ (launching.dieAt 0).slots.toList.getD 0 none = some launch1 ∧ entryType launch1.words = 1 ∧ launch1.record = some record0 ∧
      launch1.launch = none ∧ launching.earlierLaunch 0 0 = false ∧ (launching.freeGangIds 1).length = record0.roots.eraseDups.length := by decide +kernel


/-! ### The engines' effects (R199 to R231, R262 to R273) -/

/-- An area of memory meets an engine. -/
def areaB (s : State) (g : Eng) (va : Word) (n l : Nat) : Bool :=
  (List.range n).all fun j => [1, 2, 4, 8].all fun w => decide ((addr54 va + j) % w ≠ 0 ∨ n < j + w) ||
    engB s g (addA va (w64 j)) w .load (l + j) && engB s g (addA va (w64 j)) w .store (l + j)
theorem area_of {s : State} {g : Eng} {va : Word} {n l : Nat} (h : areaB s g va n l = true) : s.EngArea g va n l := by
  intro acc ha j w hw hm hj
  have hr : j ∈ List.range n := by
    simp only [List.mem_cons, List.not_mem_nil, or_false] at hw
    exact List.mem_range.mpr (by omega)
  have h1 := List.all_eq_true.mp (List.all_eq_true.mp h j hr) w hw
  simp only [Bool.or_eq_true, decide_eq_true_eq, Bool.and_eq_true] at h1
  rcases h1 with h1 | ⟨h1, h2⟩
  · omega
  · rcases ha with rfl | rfl
    · exact eng_of h1
    · exact eng_of h2
/-- A gather, an update and a probe whose one entry has been read, and a bucket of the probe's key 7 with a KEY. -/
def gat1 : EWord := { gat0 .started with read := [(0, 1)] }
@[inherit_doc gat1] def upd1 : EWord := { eword (.gaUpd 0 false .add .i32 3 4 5 (.imm 1)) [0x1000, 0x100000000, 0x2000, 1] .started with read := [(0, 1)] }
@[inherit_doc gat1] def prb1 (tl : BitVec 5) : EWord :=
  { eword (.gaPrb 0 false tl 3 4 5 (.imm 1)) [0x1000, 0x100000000, 0x2000, 1] .started with read := [(0, 7)] }
@[inherit_doc gat1] def bucket (k : Word) : State :=
  bytes (queued base 5 [prb1 4]) (16 * ((7 * 0x9E3779B97F4A7C15 % 2 ^ 64 / 2 ^ (64 - 4) + 0) % 2 ^ 4)) (leBytes 8 k.toNat)
theorem ahead_none {w : EWord} {x : Word} (h : w.pos = 0) (hr : w.read = [(0, x)]) (f : Nat) : aheadEntry w 1 f = none := by
  unfold aheadEntry
  cases Config.listAhead f with
  | none => rfl
  | some i => simp only [h, hr, Option.filter_some_eq_none, Bool.and_eq_true, decide_eq_true_eq, Bool.not_eq_eq_eq_not, Bool.not_true]; cases i <;> simp
theorem test_hyp_EngineSteps_gather :
    (let s := queued base 5 [gat1]
    quietB s ∧ s.headWord 0 5 = some gat1 ∧ (∀ j : Fin 4, j ≠ 0 → s.headWord (clusterCore 0 j) 5 = none) ∧ gat1.wrote < 1 ∧ gat1.pos < 1 ∧
      (1 : Word).toNat < 2 ^ 32 - 1 ∧ aheadEntry gat1 1 s.fv = none ∧
      s.EngMeets (tableEng (gat1.eng 0 5 2) 2) (addA 0x100000000 (w64 (1 * gatSize 0))) (gatSize 0) .load 4) ∧
    (let s := queued base 5 [upd1]
    quietB s ∧ s.headWord 0 5 = some upd1 ∧ aheadEntry upd1 1 s.fv = none ∧
      s.EngMeets (upd1.eng 0 5 2) (addA 0x2000 (w64 (0 * gaTySize .i32))) (gaTySize .i32) .load (tcmLoc 0 0x2000) ∧
      s.EngMeets (tableEng (upd1.eng 0 5 2) 5) (addA 0x100000000 (w64 (1 * gaTySize .i32))) (gaTySize .i32) .atomic 4) ∧
    (∀ k : Word, k = 7 ∨ k = BitVec.allOnes 64 ∨ k = 9 → let s := bucket k
      let at_ := ((7 : Word).toNat * 0x9E3779B97F4A7C15 % 2 ^ 64 / 2 ^ (64 - (4 : BitVec 5).toNat) + (prb1 4).probe) % 2 ^ (4 : BitVec 5).toNat
      quietB s ∧ s.headWord 0 5 = some (prb1 4) ∧ aheadEntry (prb1 4) 1 s.fv = none ∧ (prb1 4).wrote < 1 ∧ (prb1 4).probe + 1 < 2 ^ (4 : BitVec 5).toNat ∧
        s.EngMeets (tableEng ((prb1 4).eng 0 5 2) 2) (addA 0x100000000 (w64 (16 * at_))) 16 .load (16 * at_) ∧
        BitVec.ofNat 64 (natOfBytes (s.bytes (16 * at_) 8)) = k) :=
  ⟨⟨by decide +kernel, by decide +kernel, by decide +kernel, by decide, by decide, by decide, ahead_none rfl rfl _, eng_of (by decide +kernel)⟩,
    ⟨by decide +kernel, by decide +kernel, ahead_none rfl rfl _, eng_of (by decide +kernel), eng_of (by decide +kernel)⟩,
    by
      rintro k (rfl | rfl | rfl) <;>
        exact ⟨by decide +kernel, by decide +kernel, ahead_none rfl rfl _, by decide, by decide, eng_of (by decide +kernel), by decide +kernel⟩⟩
/-- A `cp.nd` whose descriptor of one four-byte element lies in TCM; one with a reserved bit set. -/
def desc0 (w2 : Word) : Desc := [0x2000, 0x2100, w2, 0, 0, 1] ++ List.replicate 10 0
@[inherit_doc desc0] def cp0 (st : WordState) (d : Desc) : EWord := { eword (.cpNd 0 false 3) [0x1000] st with desc := d }
@[inherit_doc desc0] def described (st : WordState) (d e : Desc) : State :=
  bytes (queued base 4 [cp0 st d]) (tcmLoc 0 0x1000) (e.flatMap fun w => leBytes 8 w.toNat)
theorem test_hyp_EngineSteps_copy :
    (∀ w2, w2 = 0x0100000000000000 ∨ w2 = 1 → let s := described .queued [] (desc0 w2)
      quietB s ∧ s.headWord 0 4 = some (cp0 .queued []) ∧ (∀ j : Fin 4, j ≠ 0 → s.headWord (clusterCore 0 j) 4 = none) ∧ (s.clusterAt 0).kick = [] ∧
        s.storesLeft 0 (cp0 .queued []) = true ∧ s.core.iris ≠ .halted ∧ s.EngMeets ((cp0 .queued []).eng 0 4 1) 0x1000 128 .load (tcmLoc 0 0x1000) ∧
        (tcbOf (s.bytes (tcmLoc 0 0x1000) 128)).toList = desc0 w2) ∧
    descBad (desc0 1) = some 2 ∧ descBad (desc0 0x0100000000000000) = none ∧
    ((described .queued [] (desc0 0x0100000000000000)).ownLines 0 4 0 (copyLines (desc0 0x0100000000000000) 0)).isSome = true ∧
    (let d := desc0 0x0100000000000000
    let w := cp0 .started d
    let s := described .started d []
    quietB s ∧ s.headWord 0 4 = some w ∧ w.pos = 0 ∧ OneElement d ∧ sideBits d (dword d 0) (dword d 1) / 8 = 4 ∧
      s.EngMeets (w.eng 0 4 1) (dword d 0) 4 .load (tcmLoc 0 0x2000) ∧ s.EngMeets (w.eng 0 4 1) (dword d 1) 4 .store (tcmLoc 0 0x2100)) :=
  ⟨by
    rintro w (rfl | rfl) <;>
      exact ⟨by decide +kernel, by decide +kernel, by decide +kernel, by decide, by decide +kernel, by decide, eng_of (by decide +kernel), by decide +kernel⟩,
    by decide +kernel, by decide +kernel, by decide +kernel, by decide +kernel, by decide +kernel, rfl, one_of (by decide +kernel), by decide +kernel,
    eng_of (by decide +kernel), eng_of (by decide +kernel)⟩
/-- A single-end word at the E end of core 0, whose Prism is its gang's. -/
def ended (w : EWord) : State := { queued base 1 [w] with prisms := [(0, { Prism.reset with gang := some 0 })] }
@[inherit_doc ended] def mdl0 : EWord := eword (.prMdl .east 0 false 3 8 16) [0x1000] .queued
@[inherit_doc ended] def out0 (add clr : Bool) : EWord :=
  eword (.prOut .east 0 false false add clr false .rne .tcm 3 (.imm 4) 0x11 0 0 0 (.imm 0)) [0x1000, 4, 0] .queued
@[inherit_doc ended] def scb0 : EWord := eword (.prScb .east 0 false 3 4 5) [0x1000, 0x2000] .queued
theorem test_hyp_EngineSteps_single :
    (∀ w, w ∈ [mdl0, out0 false true, out0 true false, scb0] → let s := ended w
      quietB s ∧ neighbour 0 .east = some 1 ∧ s.headWord 0 1 = some w ∧ w.st = .queued ∧ s.core.iris ≠ .halted ∧ s.storesLeft 0 w = true ∧
        s.headWord 1 (endCode (oppositeEnd .east)) = none ∧ w.pos = 0 ∧ (s.prismAt (prismOf 0 .east)).gang = some w.gang ∧ s.flips = [] ∧ s.poison = [] ∧
        8 ≤ outBits (0x11 : BitVec 6).toNat ∧ bitsOf ((out0 true false).ops.getD 2 0) 11 0 = 0 ∧ s.core.image.map (·.gang) = some w.gang ∧
        addr54 0x1000 + outBits (0x11 : BitVec 6).toNat / 8 ≤ s.tcmbOf 0) ∧
    (ended mdl0).EngArea { mdl0.eng 0 1 4 with peer := false } 0x1000 8 (tcmLoc 0 0x1000) :=
  ⟨by decide +kernel, area_of (by decide +kernel)⟩
/-- A Mirror of one slot with its store at 0x1000 of near SRAM, and the slot's header of key 7. -/
def mir0 : MirrorCfg := ⟨0x100001000, 1, 1, 1, 0, .task⟩
@[inherit_doc mir0] def mcfg0 : EWord := eword (.miCfg 0 false 3 0 0 0) [0x100001000] .queued
@[inherit_doc mir0] def mqry0 (n : Word) : EWord := eword (.miQry 0 .absmax false 7 3 (.imm 1) 4 (.imm 1) 5) [7, 1, 0x4400000000001000, n, 0x2000] .queued
@[inherit_doc mir0] def mput0 (step : Word) : EWord := eword (.miPut 0 false 3 (.imm 0) 4 (.imm 4)) [7, step, 0x1000, 4] .queued
@[inherit_doc mir0] def mkey0 (key : Word) : EWord := eword (.miClrKey 0 false 3) [key] .queued
@[inherit_doc mir0] def mall0 : EWord := eword (.miClrAll 0 false) [] .queued
@[inherit_doc mir0] def mirrored (w : EWord) : State :=
  bytes { queued base 6 [w] with clusters := [(0, { Cluster.reset with mirror := some mir0 })] } 0x1100
    ((Slot.words ⟨true, true, 0x11, 0, 7, 0, 1, 4⟩).flatMap fun x => leBytes 8 x.toNat)
theorem test_hyp_EngineSteps_mirror_words :
    (∀ w, w ∈ [mcfg0, mqry0 1, mqry0 2, mput0 0, mput0 1, mkey0 7, mkey0 8, mall0] → let s := mirrored w
      quietB s ∧ s.headWord 0 6 = some w ∧ (∀ j : Fin 4, j ≠ 0 → s.headWord (clusterCore 0 j) 6 = none) ∧ w.st = .queued ∧ s.core.iris ≠ .halted ∧
        s.storesLeft 0 w = true ∧ w.pos = 0 ∧ w.plan = none ∧ (s.clusterAt (clusterOf 0)).mirror = some mir0 ∧
        slotOf (BitVec.ofNat 64 (natOfBytes (s.bytes 0x1100 8))) (BitVec.ofNat 64 (natOfBytes (s.bytes 0x1108 8)))
          (BitVec.ofNat 64 (natOfBytes (s.bytes 0x1110 8))) = ⟨true, true, 0x11, 0, 7, 0, 1, 4⟩) ∧
    (addr54 mir0.base % 8 = 0 ∧ addr54 (mcfg0.ops.getD 0 0) % 4096 = 0 ∧ mir0.slotSize = 192 ∧ 0 < mir0.nslot) ∧
    -- the query of one element hits, that of two does not
    (∀ n : Word, n = 1 ∨ n = 2 → ptrCode 0x4400000000001000 = 0x11 ∧ elemBytes 0x11 n.toNat ≤ 64 * mir0.isz ∧ 8 * elemBytes 0x11 n.toNat = n.toNat * mirrorBits 0x11 ∧
      addr54 0x4400000000001000 % max 1 (mirrorBits 0x11 / 8) = 0) ∧
    (let vals := fun (l : Nat) => (List.range 1).map fun i => mirrorVal 0x11 (natOfBytes ((mirrored (mqry0 1)).bytes (l + i * 4) 4))
    bitsOf (mqry0 1).mirrun 7 0 = 0 ∧ metricHolds .absmax (bitsOf (mqry0 1).mirth 31 0) (vals (tcmLoc 0 0x1000)) (vals (0x1100 + 64)) = true) ∧
    ((∀ w, w ∈ [mqry0 1, mput0 0] → (mirrored w).EngArea { w.eng 0 6 3 with peer := false } (w.ops.getD 2 0) 4 (tcmLoc 0 0x1000)) ∧
      (mirrored (mqry0 2)).EngArea { (mqry0 2).eng 0 6 3 with peer := false } 0x4400000000001000 8 (tcmLoc 0 0x1000) ∧
      (mirrored (mqry0 1)).EngArea { (mqry0 1).eng 0 6 3 with peer := false } 0x2000 4 (tcmLoc 0 0x2000) ∧ isGlobal (addr54 0x2000) = false) := by
  refine ⟨by decide +kernel, by decide +kernel, ?_, by decide +kernel, ?_, area_of (by decide +kernel), area_of (by decide +kernel), by decide⟩
  · rintro n (rfl | rfl) <;> decide +kernel
  · intro w hw
    simp only [List.mem_cons, List.not_mem_nil, or_false] at hw
    rcases hw with rfl | rfl <;> exact area_of (by decide +kernel)
/-- The store of the Mirror meets it, whichever word is queued. -/
theorem test_hyp_EngineSteps_mirror_store :
    (mirrored mcfg0).EngArea (mir0.eng 0) mir0.base (256 + mir0.nslot * mir0.slotSize) 0x1000 := area_of (by decide +kernel)

/-- Gang 0 waits for its clusters, or holds them without work. -/
def gang0 (ph : GangPhase) (img : Bool) : State := { base with
  core := { Core.reset with image := if img then some image0 else none }, gangs := [(0, ⟨0, ph, []⟩)] }
/-- A launch of higher priority waits for the cluster that gang 0 holds. -/
def contended : State := { base with
  launches := [(0, launch0), (1, { launch0 with bpri := 1, kernels := [{ kernel0 with gang := 1 }] })]
  gangs := [(0, ⟨0, .placed, []⟩), (1, ⟨1, .waiting, []⟩)], clusters := [(0, { Cluster.reset with claim := some 0 })] }
theorem test_hyp_GangAndPowerSteps_gangs :
    (let s := gang0 .waiting false
    quietB s ∧ s.launch? 0 = some launch0 ∧ s.claimants = [⟨0, [0], false⟩] ∧ (∀ k ∈ s.needs ⟨0, [0], false⟩, s.clusterFree [0] k = true) ∧
      s.powerFits ([0].flatMap (s.unitsOf launch0)) = true ∧ s.squaresReady ([0].flatMap launch0.coresOf) = true ∧
      s.prismsClear launch0 [0] = true ∧ (launch0.kernels.flatMap fun k => k.place.map (·.1)).Nodup ∧
      (∀ k ∈ launch0.kernels, bitsOf (k.hdr.toList.getD 6 0) 51 36 < 64) ∧
      (∀ c ∈ launch0.kernels.flatMap fun k => k.place.map (·.1), (s.coreAt c).taskq = []) ∧
      ∀ k ∈ launch0.kernels, bitsOf (k.hdr.toList.getD 3 0) 63 32 ≤ 0x1E000) ∧
    (let s := gang0 .placed true
    quietB s ∧ s.gang? 0 = some ⟨0, .placed, []⟩ ∧ s.decs = [] ∧ s.net = [] ∧ (∀ c ∈ s.liveCores, c ∈ s.boundCores 0) ∧ (∀ y ∈ s.dies.toList, y.saved = [] ∧ y.ordered = []) ∧
      ∀ c ∈ s.boundCores 0, (∀ z ∈ (s.coreAt c).ctxs, z.st = .free) ∧ (s.coreAt c).taskq = [] ∧ (s.coreAt c).inbox = [] ∧
        s.dequeTop c = s.dequeBottom c ∧ ∀ q ∈ (s.coreAt c).queues.toList, q = []) ∧
    (quietB contended ∧ (contended.launch? 1).map (·.bpri) = some 1 ∧ contended.claimants.filter (fun a => a.launch = 1) = [⟨1, [1], false⟩] ∧
      contended.needs ⟨1, [1], false⟩ ≠ [] ∧ (∀ k ∈ contended.needs ⟨1, [1], false⟩, (contended.clusterAt k).claim = some 0) ∧
      contended.priority 0 < 1 ∧ 0 ∈ contended.boundCores 0 ∧ contended.core.image.map (·.gang) = some 0 ∧ contended.core.preempt = false) := by
  decide +kernel
/-- Two movable TCBs wait at core 0, none at core 1. -/
def unbalanced (fctl : Word) : State := { base with
  core := { core0 with taskq := [⟨tcbFor 1 0 0, none, 0, 0, none⟩, ⟨tcbFor 1 0 0, none, 0, 0, none⟩] }, others := [(1, core0)]
  dies := base.dies.set 0 { die0 with fctl := fctl }, time := 1024 }
theorem test_hyp_GangAndPowerSteps_power :
    (let s := { base with time := 850 }
    quietB s ∧ (s.dieAt 0).powAt.toList.getD 3 0 < s.time / 850 ∧ (s.dieAt 0).thermAt.toList.getD 3 0 < s.time / 850) ∧
    (quietB (unbalanced 0) ∧ ((unbalanced 0).dieAt 0).focusAt < (unbalanced 0).time / 1024 ∧ ((unbalanced 0).dieAt 0).fctl.getLsbD 63 = false) ∧
    (let s := unbalanced 0x8000000000000001
    quietB s ∧ (s.dieAt 0).fctl.getLsbD 63 = true ∧ 0 ∈ s.liveCores ∧ 1 ∈ s.liveCores ∧ s.sameImage 0 1 = true ∧
      (∀ v ∈ s.liveCores, dieOf v = 0 → (s.coreAt v).image.isSome = true → v = 0 ∨ v = 1) ∧ inScope (bitsOf (s.dieAt 0).fctl 9 8) 0 1 = true ∧
      ((s.coreAt 0).taskq.length - (s.coreAt 1).taskq.length) / 2 = 1 ∧ bitsOf (s.dieAt 0).fctl 7 0 = 1 ∧
      (∀ q ∈ (s.coreAt 0).taskq, q.movable = true) ∧ dieOf 0 = 0 ∧ dieOf 1 = 0 ∧
      (s.coreAt 0).taskq.length ≤ 64 ∧ (s.coreAt 1).taskq.length + 1 ≤ 64 ∧ (∀ q ∈ (s.coreAt 0).taskq ++ (s.coreAt 1).taskq, q.slot = none) ∧
      (∀ q ∈ (s.coreAt 1).taskq, q.since ≠ s.time)) := by decide +kernel
/-- A signal on its way to core 0, whose contexts are all FREE or not, and which runs or is halted. -/
def signalled (op : Nat) (busy : Bool) (st : IrisState) : State := { base with
  signals := [⟨0, op, 3, 5, 9⟩], core := { core0 with ctx := if busy then ctx0 else Ctx.reset 0, iris := st } }
def window3 : State := { base with
  clusters := [(0, { Cluster.reset with facet := Cluster.reset.facet.set 2 ⟨0xB000000000040003, #v[0, 0], 7, 0, Vector.replicate 8 0, 3, 0⟩ })] }
theorem test_hyp_DebugSteps :
    (∀ op, op < 3 → (base.signalWaits ⟨0, op, 3, 5, 9⟩ = false ∧ base.linkFailed (dieOf 5) (dieOf 0) = false)) ∧
    ((signalled 0 true .running).signals = [⟨0, 0, 3, 5, 9⟩] ∧ (signalled 0 true .running).core.iris = .running ∧
      ∃ y ∈ (signalled 0 true .running).core.ctxs, y.st = .run) ∧
    (∀ y ∈ (signalled 0 false .running).core.ctxs, y.st ≠ .run) ∧ (signalled 0 true .halted).core.iris ≠ .running ∧
    ((signalled 1 true .halted).signals = [⟨0, 1, 3, 5, 9⟩] ∧ (signalled 1 true .halted).core.sb = [] ∧
      (signalled 1 true .halted).core.haltAt ≠ some (signalled 1 true .halted).time ∧ (signalled 1 true .halted).core.notices = [] ∧
      (signalled 1 true .halted).core.taskq = [] ∧ (signalled 1 true .halted).core.inbox = []) ∧
    (let s := { signalled 1 true .halted with core := { (signalled 1 true .halted).core with haltAt := some 0 } }
    s.signals = [⟨0, 1, 3, 5, 9⟩] ∧ s.core.haltAt = some s.time) ∧
    ((signalled 2 true .running).signals = [⟨0, 2, 3, 5, 9⟩] ∧ (signalled 2 true .running).core.iris = .running) ∧
    (signalled 2 true .stopping).core.iris ≠ .running ∧
    5 ≤ bitsOf 0x5000000000000000 62 60 ∧ (bitsOf 0x3000000000000000 62 60 = 3 ∧ bitsOf 0x3000000000000000 31 16 = 0) ∧
    ¬(5 ≤ bitsOf 0xB000000000040003 62 60 ∨ bitsOf 0xB000000000040003 62 60 = 3 ∧ bitsOf 0xB000000000040003 31 16 = 0) ∧
    (let f := (window3.clusterAt 0).facet.toList.getD 2 ⟨0, #v[0, 0], 0, 0, Vector.replicate 8 0, 0, 0⟩
    f.cfg.getLsbD 63 = true ∧ bitsOf f.cfg 62 60 = 3 ∧ f.left = 0) := by decide +kernel
/-- The flash holds no image: neither status is 0. -/
theorem test_hyp_PlatformSteps_boot : quietB State.reset ∧ State.reset.booted = false ∧ State.reset.imageStatus 0 ≠ 0 ∧ State.reset.imageStatus 1 ≠ 0 := by
  refine ⟨by decide +kernel, rfl, ?_, ?_⟩
  · cases h : Config.flashReads 0 <;> simp only [State.imageStatus, h] <;> decide +kernel
  · cases h : Config.flashReads 1 <;> simp only [State.imageStatus, h] <;> decide +kernel
theorem test_hyp_PlatformSteps_links :
    (let s := { base with dies := base.dies.set 0 { die0 with rdy := 0 } }
    quietB s ∧ s.released = true ∧ (s.dieAt 0).resetting = none ∧ (s.dieAt 0).rdy = 0 ∧ (dieAcross 0 (23 - 22)).isSome = true ∧
      ((s.dieAt 0).lnkst.toList.getD (23 - 22) 0).getLsbD 63 = false) ∧
    (quietB base ∧ (base.dieAt 0).rdy.getLsbD 5 = true ∧ (base.dieAt 0).rdy.getLsbD (23 - 1) = true) ∧
    (let w : WriteThrough := ⟨0, plainBytes (2 ^ 40) [1], 0x100000000, ⟨0, 0, 1, 0, 0, []⟩, [], [], false, 0, 8⟩
    let s := { base with time := 4096, wts := [w, { w with sent := 1 }] }
    quietB s ∧ w.die = 0 ∧ w.held = false ∧ w.sent + 4096 ≤ s.time ∧ ∃ b ∈ w.bytes, paNode b.loc ≠ s.node) ∧
    (let r : PendingRed := { red0 false with loc := 2 ^ 40, tries := 8 }
    let s := { base with time := 4096, reds := [r, { r with sent := 1 }] }
    quietB s ∧ r.die = 0 ∧ r.held = false ∧ r.sent + 4096 ≤ s.time ∧ paNode r.loc ≠ s.node) ∧
    (let s := { base with time := 0x4000 }
    quietB s ∧ (s.dieAt 0).scrub.getLsbD 63 = true ∧ (s.dieAt 0).scrubTime + max 64 (bitsOf (s.dieAt 0).scrub 31 0) ≤ s.time ∧ s.flips = [] ∧
      128 * (2 ^ 33 * s.node + 2 ^ 31 * 0) + 2 ^ 38 ≤ 2 ^ 52 ∧ (s.dieAt 0).scrubAt < 2 ^ 24) ∧
    (quietB { base with time := 0x4000, flips := [(96, true)] } ∧ 96 = 2 ^ 40 * base.node + 2 ^ 38 * 0 + 128 * (base.dieAt 0).scrubAt + 32 * 3) := by
  decide +kernel
/-- The scrubber of die 0 has swept near SRAM; slice data are dirty in line 2, or nowhere. -/
def sweeping (l : List (Nat × Byte)) (f : List (Nat × Bool)) : State := { base with
  time := 0x4000, dirty := l, flips := f, dies := base.dies.set 0 { die0 with scrubAt := 2 ^ 24 + 1 } }
theorem test_hyp_PlatformSteps_sweep :
    (∀ f, f = [] ∨ f = [(128 * 2 + 32 * 3, true)] → (sweeping [(0x105, 1)] f).Quiet) ∧ quietB (sweeping [] []) ∧ 2 ^ 24 ≤ ((sweeping [] []).dieAt 0).scrubAt ∧
    (let s := sweeping [(0x105, 1)] []
    (∃ c ∈ s.dirty, c.1 / 128 = 2) ∧ paDie (128 * 2) = 0 ∧ paNode (128 * 2) = s.node ∧ 2 ^ 33 * s.node + 2 ^ 31 * 0 + ((s.dieAt 0).scrubAt - 2 ^ 24) ≤ 2 ∧
      ∀ c ∈ s.dirty, 2 ≤ c.1 / 128) ∧
    (∀ c ∈ (sweeping [] []).dirty, False) := by
  refine ⟨?_, by decide +kernel, by decide, by decide +kernel, by decide⟩
  rintro f (rfl | rfl) <;> exact ⟨by decide +kernel, by decide, by simp [sweeping], by decide +kernel⟩
theorem test_hyp_PlatformSteps_rest :
    (quietB { base with image := some 0, mgmt := 7 } ∧ (some 0 : Option Nat).isSome = true ∧ (7 : Word).getLsbD 2 = true) ∧
    (quietB base ∧ base.image = none ∧ base.released = true) ∧
    ((base.core.ctxs.map (·.num)).Nodup ∧ (∀ n : CtxNum, ∃ x ∈ base.core.ctxs, x.num = n) ∧ memoryLoc 0x1000 = true ∧ (3 : SReg) ≠ 0) ∧
    ((base.dieAt (paDie 0x80)).closed = false ∧ paNode 0x80 = base.node ∧ base.homeReady (paDie 0x80) 0x80 = true ∧ regionOf 0x80 = .nearSram ∧ base.heldAtHome 0x80 0 = false ∧
      base.engineOwned (paDie 0x80) 0x80 = false ∧ base.reds = [] ∧ base.flips = [] ∧ base.poison = [] ∧
      wifortPa (.read 0x80 1) = 0x80 ∧ wifortPa (.write 0x80 [1, 2]) = 0x80 ∧ 0x80 % 128 + [(1 : Byte), 2].length ≤ 128 ∧
      wifortPa (.atomic 0x80 .add .w64 1 0) = 0x80 ∧ 0x80 % memBytes .w64 = 0) := by decide +kernel
/-- A warm reset of die 0 in one of its steps. -/
def resetting (n : Nat) : State := { base with dies := base.dies.set 0 { die0 with resetting := some n, wrst := 0x4000000000000000 } }
theorem test_hyp_PlatformSteps_reset :
    quietB (resetting 0) ∧ ((resetting 0).dieAt 0).resetting = some 0 ∧ 0 ∈ (resetting 0).boundCores 0 ∧
    -- the first step goes on, or waits for a halt that is under way or a core that is stopping
    (∀ s, s ∈ [{ resetting 1 with signals := [⟨0, 0, 3, 5, 9⟩] }, { resetting 1 with core := { core0 with iris := .stopping } }] →
      let s := s.updDie 0 fun d => { d with resetGangs := [0] }
      quietB s ∧ (s.dieAt 0).resetting = some 1 ∧ 0 ∈ (s.dieAt 0).resetGangs ∧ 0 ∈ s.boundCores 0 ∧
        ((∃ h ∈ s.signals, h.core = 0) ∨ s.core.iris = .stopping)) ∧
    (∀ o ∈ ((resetting 5).dieAt 0).slots.toList, o = none) ∧
    quietB (resetting 4) ∧ ((resetting 4).dieAt 0).resetting = some 4 ∧ quietB (resetting 5) ∧ ((resetting 5).dieAt 0).resetting = some 5 ∧ ((resetting 5).others.map (·.1)).Nodup ∧ (resetting 5).image = none ∧
    quietB (resetting 6) ∧ ((resetting 6).dieAt 0).resetting = some 6 := by decide +kernel
theorem test_hyp_PlatformSteps_ready :
    (resetting 6).allReady 0 = true ∧
    (let s := (resetting 6).updDie 0 fun d => { d with rdy := 0 }
    quietB s ∧ (s.dieAt 0).resetting = some 6 ∧ s.allReady 0 = false) := by
  refine ⟨?_, by decide +kernel, by decide, ?_⟩
  · have h : ∀ i, i < 64 → ((resetting 6).dieAt 0).rdy.getLsbD i = true := by decide +kernel
    simp only [State.allReady, List.all_eq_true, List.mem_range]
    exact fun i hi => by simp [h i hi]
  · simp only [State.allReady, List.all_eq_false, List.mem_range]
    exact ⟨19, by decide, by decide +kernel⟩

end Sys2Proof.Tests
end

section
/-!
PROOFS. The decoder reads an instruction from its own words (O1, O2).
-/
namespace Sys2Proof.Laws.RoundTrip

/-- Every instruction is read from its own words: the lemmas of the family RoundTrip, one for each constructor. -/
theorem decode_encode : ∀ i : Instr, Statement i
  | .add .. => add _ _ _ | .sub .. => sub _ _ _ | .mul .. => mul _ _ _ | .mulh .. => mulh _ _ _ | .mulhn .. => mulhn _ _ _
  | .div .. => div _ _ _ _ | .divn .. => divn _ _ _ _ | .rem .. => rem _ _ _ _ | .remn .. => remn _ _ _ _ | .and .. => and _ _ _
  | .or .. => or _ _ _ | .xor .. => xor _ _ _ | .sll .. => sll _ _ _ | .srl .. => srl _ _ _ | .sra .. => sra _ _ _ | .rol .. => rol _ _ _
  | .ror .. => ror _ _ _ | .clz .. => clz _ _ | .ctz .. => ctz _ _ | .pop .. => pop _ _ | .min .. => min _ _ _ | .max .. => max _ _ _
  | .minn .. => minn _ _ _ | .maxn .. => maxn _ _ _ | .adda .. => adda _ _ _ | .seq .. => seq _ _ _ | .sne .. => sne _ _ _
  | .slt .. => slt _ _ _ | .sltn .. => sltn _ _ _ | .sle .. => sle _ _ _ | .slen .. => slen _ _ _ | .sel .. => sel _ _ _ _
  | .addi .. => addi _ _ _ | .andi .. => andi _ _ _ | .ori .. => ori _ _ _ | .xori .. => xori _ _ _ | .slli .. => slli _ _ _
  | .srli .. => srli _ _ _ | .srai .. => srai _ _ _ | .rori .. => rori _ _ _ | .slti .. => slti _ _ _ | .sltin .. => sltin _ _ _
  | .li .. => li _ _ | .lis16 .. => lis16 _ _ | .lis32 .. => lis32 _ _ | .lis48 .. => lis48 _ _ | .addai .. => addai _ _ _
  | .beq .. => beq _ _ _ | .bne .. => bne _ _ _ | .blt .. => blt _ _ _ | .bge .. => bge _ _ _ | .bltn .. => bltn _ _ _
  | .bgen .. => bgen _ _ _ | .b .. => b _ | .bl .. => bl _ | .br .. => br _ | .blr .. => blr _ _ | .ret => ret | .ld .. => ld _ _ _ _ _ _
  | .st .. => st _ _ _ _ _ | .ldHinted .. => ldHinted _ _ _ _ _ _ _ | .tch .. => tch _ _ _ | .pfL1 .. => pfL1 _ _ | .pfSl .. => pfSl _ _
  | .cmoCln .. => cmoCln _ _ _ _ | .cmoInv .. => cmoInv _ _ _ _ | .cmoCli .. => cmoCli _ _ _ _ | .amoSwap .. => amoSwap _ _ _ _ _ _
  | .amoCas .. => amoCas _ _ _ _ _ _ | .amoAdd .. => amoAdd _ _ _ _ _ _ | .amoAnd .. => amoAnd _ _ _ _ _ _ | .amoOr .. => amoOr _ _ _ _ _ _
  | .amoXor .. => amoXor _ _ _ _ _ _ | .amoMax .. => amoMax _ _ _ _ _ _ | .amoMin .. => amoMin _ _ _ _ _ _
  | .amoMaxn .. => amoMaxn _ _ _ _ _ _ | .amoMinn .. => amoMinn _ _ _ _ _ _ | .redAdd .. => redAdd _ _ _ | .redAnd .. => redAnd _ _ _
  | .redOr .. => redOr _ _ _ | .redXor .. => redXor _ _ _ | .redMax .. => redMax _ _ _ | .redMin .. => redMin _ _ _
  | .redMaxn .. => redMaxn _ _ _ | .redMinn .. => redMinn _ _ _ | .redFadd .. => redFadd _ _ _ | .redFmax .. => redFmax _ _ _
  | .redFmin .. => redFmin _ _ _ | .vadd .. => vadd _ _ _ _ _ | .vsub .. => vsub _ _ _ _ _ | .vmul .. => vmul _ _ _ _ _
  | .vmulh .. => vmulh _ _ _ _ _ | .vmin .. => vmin _ _ _ _ _ | .vmax .. => vmax _ _ _ _ _ | .vand .. => vand _ _ _ _ _
  | .vor .. => vor _ _ _ _ _ | .vxor .. => vxor _ _ _ _ _ | .vsll .. => vsll _ _ _ _ _ | .vsrl .. => vsrl _ _ _ _ _
  | .vsra .. => vsra _ _ _ _ _ | .vabs .. => vabs _ _ _ _ | .vneg .. => vneg _ _ _ _ | .vadds .. => vadds _ _ _ _ _
  | .vsubs .. => vsubs _ _ _ _ _ | .vclz .. => vclz _ _ _ _ | .vpop .. => vpop _ _ _ _ | .vfadd .. => vfadd _ _ _ _ _ _
  | .vfsub .. => vfsub _ _ _ _ _ _ | .vfmul .. => vfmul _ _ _ _ _ _ | .vfdiv .. => vfdiv _ _ _ _ _ _ | .vfmin .. => vfmin _ _ _ _ _ _
  | .vfmax .. => vfmax _ _ _ _ _ _ | .vfma .. => vfma _ _ _ _ _ _ | .vfms .. => vfms _ _ _ _ _ _ | .vfnma .. => vfnma _ _ _ _ _ _
  | .vfnms .. => vfnms _ _ _ _ _ _ | .vfsqrt .. => vfsqrt _ _ _ _ _ | .vfabs .. => vfabs _ _ _ _ _ | .vfneg .. => vfneg _ _ _ _ _
  | .vceq .. => vceq _ _ _ _ _ | .vcne .. => vcne _ _ _ _ _ | .vclt .. => vclt _ _ _ _ _ | .vcle .. => vcle _ _ _ _ _
  | .vcgt .. => vcgt _ _ _ _ _ | .vcge .. => vcge _ _ _ _ _ | .vcvt .. => vcvt _ _ _ _ _ _ _ | .vq .. => vq _ _ _ _ _ _
  | .vqs .. => vqs _ _ _ _ _ _ | .vsx .. => vsx _ _ _ | .vrsum .. => vrsum _ _ _ _ | .vrmin .. => vrmin _ _ _ _
  | .vrmax .. => vrmax _ _ _ _ | .vrand .. => vrand _ _ _ _ | .vror .. => vror _ _ _ _ | .vrxor .. => vrxor _ _ _ _
  | .vperm .. => vperm _ _ _ _ _ | .vbcast .. => vbcast _ _ _ _ | .vslup .. => vslup _ _ _ _ _ | .vsldn .. => vsldn _ _ _ _ _
  | .vzip .. => vzip _ _ _ _ _ | .vunzip .. => vunzip _ _ _ _ _ | .vcompr .. => vcompr _ _ _ _ | .vexpand .. => vexpand _ _ _ _
  | .mand .. => mand _ _ _ | .mor .. => mor _ _ _ | .mxor .. => mxor _ _ _ | .mandn .. => mandn _ _ _ | .mnot .. => mnot _ _
  | .mpop .. => mpop _ _ | .mfirst .. => mfirst _ _ | .mfrom .. => mfrom _ _ | .mto .. => mto _ _ | .vld .. => vld _ _ _ _ _ _
  | .vst .. => vst _ _ _ _ _ | .vgath .. => vgath _ _ _ _ _ _ | .vscat .. => vscat _ _ _ _ _ _ | .vamoAdd32 .. => vamoAdd32 _ _ _ _ _
  | .vamoAdd64 .. => vamoAdd64 _ _ _ _ _ | .vamoMax32 .. => vamoMax32 _ _ _ _ _ | .vamoMin32 .. => vamoMin32 _ _ _ _ _
  | .vamoMaxn32 .. => vamoMaxn32 _ _ _ _ _ | .vamoMinn32 .. => vamoMinn32 _ _ _ _ _ | .vamoFadd32 .. => vamoFadd32 _ _ _ _ _
  | .vamoFmax32 .. => vamoFmax32 _ _ _ _ _ | .vamoFmin32 .. => vamoFmin32 _ _ _ _ _ | .vamoSwap32 .. => vamoSwap32 _ _ _ _ _
  | .vamoSwap64 .. => vamoSwap64 _ _ _ _ _ | .spawn .. => spawn _ | .popd .. => popd _ | .tenq .. => tenq _ _ | .tend => tend
  | .join .. => join _ | .aset .. => aset _ _ _ | .msg .. => msg _ _ | .evr .. => evr _ | .ewt .. => ewt _ _ | .barArv .. => barArv _ _
  | .barWt .. => barWt _ _ | .barMax .. => barMax _ _ _ _ | .fence .. => fence _ | .fenceAcq .. => fenceAcq _ | .fenceRel .. => fenceRel _
  | .trap .. => trap _ | .rett => rett | .wfe => wfe | .fret => fret | .fres .. => fres _ | .hreq .. => hreq _ | .tmark .. => tmark _
  | .tlbi .. => tlbi _ _ | .wpaStop .. => wpaStop _ _ _ | .wpaGang .. => wpaGang _ _ _ | .wpaRec .. => wpaRec _ _ _
  | .wpaOff .. => wpaOff _ | .csrr .. => csrr _ _ | .csrw .. => csrw _ _ | .csrs .. => csrs _ _ _ | .csrc .. => csrc _ _ _
  | .prMma .. => prMma _ _ _ _ _ _ _ _ _ _ _ _ _ | .prSma .. => prSma _ _ _ _ _ _ _ _ _ _ _ _ _ _ _ _ | .prMdl .. => prMdl _ _ _ _ _ _
  | .prAcz .. => prAcz _ _ _ _ _ | .prOut .. => prOut _ _ _ _ _ _ _ _ _ _ _ _ _ _ _ _ | .prScb .. => prScb _ _ _ _ _ _
  | .cpNd .. => cpNd _ _ _ | .cpPullTake .. => cpPullTake _ _ _ _ _ | .cpPullRelease .. => cpPullRelease _ _ _ _
  | .kickPipe .. => kickPipe _ _ _ _ _ | .kickManual .. => kickManual _ _ _ _ _ | .gaGat .. => gaGat _ _ _ _ _ _ _
  | .gaUpd .. => gaUpd _ _ _ _ _ _ _ _ | .gaPrb .. => gaPrb _ _ _ _ _ _ _ | .miCfg .. => miCfg _ _ _ _ _ _
  | .miQry .. => miQry _ _ _ _ _ _ _ _ _ | .miPut .. => miPut _ _ _ _ _ _ | .miClrKey .. => miClrKey _ _ _ | .miClrAll .. => miClrAll _ _
  | .registerWrite .. => registerWrite _ _ _ | .longLatencyCompletion .. => longLatencyCompletion _ _
  | .storeBufferLeave .. => storeBufferLeave _ | .writeThroughArrival .. => writeThroughArrival _ | .reductionApply .. => reductionApply _
  | .pinWindowExpiry .. => pinWindowExpiry _ _ | .sliceRetry .. => sliceRetry _ | .heldWriteResend .. => heldWriteResend _
  | .pageFaultRecordWrite .. => pageFaultRecordWrite _ | .prnWrite .. => prnWrite _ _ | .selectNextWork .. => selectNextWork _
  | .contextSaveSlotWait .. => contextSaveSlotWait _ | .steal .. => steal _ | .predDecrement .. => predDecrement _
  | .messageArrival .. => messageArrival _ | .lockRequest .. => lockRequest _ | .commitFrontierSample .. => commitFrontierSample _
  | .orderedCommit .. => orderedCommit _ _ | .orderedContextWound .. => orderedContextWound _ | .budgetExpiry .. => budgetExpiry _
  | .engineWordStart .. => engineWordStart _ _ | .prismPairing .. => prismPairing _ | .prismSingleEndStart .. => prismSingleEndStart _ _
  | .prismStep .. => prismStep _ | .engineWordCompletion .. => engineWordCompletion _ _ | .eventRecordWrite .. => eventRecordWrite _
  | .heldWordReport .. => heldWordReport _ | .efrAbort .. => efrAbort _ _ | .sliceAgentMessage .. => sliceAgentMessage _
  | .kickNoticeArrival .. => kickNoticeArrival _ | .kickNoticeResend .. => kickNoticeResend _ | .pipePull .. => pipePull _
  | .pullAckArrival .. => pullAckArrival _ | .wcntWrite .. => wcntWrite _ _ | .queueEnableWrite .. => queueEnableWrite _ _
  | .histogramClear .. => histogramClear _ | .queueAgeing .. => queueAgeing _ | .queueEntryStart .. => queueEntryStart _
  | .cqNop .. => cqNop _ _ | .cqLaunch .. => cqLaunch _ _ | .cqCopy .. => cqCopy _ _ | .cqSignalWrite .. => cqSignalWrite _ _
  | .cqSignalAdd .. => cqSignalAdd _ _ | .cqWait .. => cqWait _ _ | .cqQbarrier .. => cqQbarrier _ _
  | .queueEntryCompletion .. => queueEntryCompletion _ _ | .gangClaim .. => gangClaim _ | .gangUnplace .. => gangUnplace _
  | .preemptionRequest .. => preemptionRequest _ | .powerWindow .. => powerWindow _ _ | .focusBalance .. => focusBalance _
  | .irisHalt .. => irisHalt _ | .irisResume .. => irisResume _ | .irisSnapshot .. => irisSnapshot _ | .fcfgWrite .. => fcfgWrite _ _ _
  | .facetWindowEnd .. => facetWindowEnd _ _ | .lensClear .. => lensClear _ | .warmReset .. => warmReset _
  | .linkRetrain .. => linkRetrain _ _ | .wifortReplay .. => wifortReplay _ | .wifortLaneFail .. => wifortLaneFail _ _
  | .scrubTick .. => scrubTick _ | .thermalWindow .. => thermalWindow _ _ | .thermalShutdown => thermalShutdown
  | .powerOnBoot => powerOnBoot | .functionReady .. => functionReady _ | .attestationRequest .. => attestationRequest _
  | .softError .. => softError _ | .functionFail .. => functionFail _ | .wifortRequest .. => wifortRequest _
/-- Words are read as the instruction that they encode. -/
theorem decodeWords_of_encode {al : Bool} {ws : List W32} {i : Instr} (h : encode i = ws) (hw : i.wf = true) (hn : ws.length ≠ 0)
    (ha : al = true ∨ ws.length = 1) : decodeWords al ws = .ok i := by
  subst h
  rw [← List.append_nil (encode i)]
  exact decode_encode i hw (decide_eq_true hn) al [] ha

end Sys2Proof.Laws.RoundTrip

open Sys2Proof Sys2Proof.Laws.RoundTrip

/-- Settles O1, by the round trip of each constructor. -/
theorem decodeEncode : Obligations.DecodeEncode := decode_encode

/-- Settles O2: each word written out is the encoding of its instruction. -/
theorem decodeSpecWords : Obligations.DecodeSpecWords := by
  refine ⟨?_, ?_, ?_, ?_, ?_, ?_, ?_, ?_, decodeWords_of_encode rfl rfl (by decide) (.inl rfl)⟩
  all_goals exact decodeWords_of_encode rfl rfl (by decide) (.inr rfl)
end

section
/-!
PROOFS. A word is its layout's fields put together (03_encoding.md R50 to R54): the converse of the fields read back in Laws/Encode.lean.
-/
namespace Sys2Proof

theorem ofBool_getLsbD {n : Nat} (x : BitVec n) (i : Nat) : BitVec.ofBool (x.getLsbD i) = x.extractLsb' i 1 := by
  ext j hj
  obtain rfl : j = 0 := by omega
  simp

theorem rWord_fields (w : W32) : rWord (wMaj w) (wD w) (wA w) (wB w) (wX w) (wFn w) = w := by
  simp only [rWord, wMaj, wD, wA, wB, wX, wFn, BitVec.extractLsb'_append_extractLsb'_eq_extractLsb']
  exact BitVec.extractLsb'_eq_self
theorem iWord_fields (w : W32) : iWord (wMaj w) (wD w) (wA w) (wImm w) = w := by
  simp only [iWord, wMaj, wD, wA, wImm, BitVec.extractLsb'_append_extractLsb'_eq_extractLsb']
  exact BitVec.extractLsb'_eq_self
theorem bWord_fields {w : W32} (h : wMaj w = 0x16#6) : bWord (wL w) (wOff25 w) = w := by
  rw [bWord, ← h]
  simp only [wMaj, wL, wOff25, ofBool_getLsbD, BitVec.extractLsb'_append_extractLsb'_eq_extractLsb']
  exact BitVec.extractLsb'_eq_self
theorem mWord_fields (w : W32) : mWord (wMaj w) (wD w) (wA w) (wLaM w) (wSw w) (wSz w) (wFn w) = w := by
  simp only [mWord, wMaj, wD, wA, wLaM, wSw, wSz, wFn, BitVec.extractLsb'_append_extractLsb'_eq_extractLsb']
  exact BitVec.extractLsb'_eq_self
theorem hWord_fields (w : W32) : hWord (wMaj w) (wD w) (wA w) (wLaM w) (wK w) (wDead w) (wSzH w) (wOff4 w) = w := by
  simp only [hWord, wMaj, wD, wA, wLaM, wK, wDead, wSzH, wOff4, ofBool_getLsbD, BitVec.extractLsb'_append_extractLsb'_eq_extractLsb']
  exact BitVec.extractLsb'_eq_self
theorem gWord_fields {w : W32} (h : wBit0 w = 0#1) :
    gWord (wMaj w) (wD w) (wA w) (wB w) (wLaG w) (wG63 w) (w.getLsbD 2) (w.getLsbD 1) = w := by
  rw [gWord, ← h]
  simp only [wMaj, wD, wA, wB, wLaG, wG63, wBit0, ofBool_getLsbD, BitVec.extractLsb'_append_extractLsb'_eq_extractLsb']
  exact BitVec.extractLsb'_eq_self
theorem vWord35_fields (w : W32) : vWord35 (wMaj w) (wD w) (wA w) (wB w) (wMk w) (wT3 w) (wFn5 w) = w := by
  simp only [vWord35, wMaj, wD, wA, wB, wMk, wT3, wFn5, BitVec.extractLsb'_append_extractLsb'_eq_extractLsb']
  exact BitVec.extractLsb'_eq_self
theorem vWord233_fields (w : W32) : vWord233 (wMaj w) (wD w) (wA w) (wB w) (wMk w) (wFt w) (wRm w) (wFn3 w) = w := by
  simp only [vWord233, wMaj, wD, wA, wB, wMk, wFt, wRm, wFn3, BitVec.extractLsb'_append_extractLsb'_eq_extractLsb']
  exact BitVec.extractLsb'_eq_self
theorem vWord44_fields (w : W32) : vWord44 (wMaj w) (wD w) (wA w) (wB w) (wMk w) (wT4 w) (wFn4 w) = w := by
  simp only [vWord44, wMaj, wD, wA, wB, wMk, wT4, wFn4, BitVec.extractLsb'_append_extractLsb'_eq_extractLsb']
  exact BitVec.extractLsb'_eq_self
theorem vWord431_fields {w : W32} (h : wBit0 w = 0#1) : vWord431 (wMaj w) (wD w) (wA w) (wB w) (wMk w) (wT4 w) (wG31 w) = w := by
  rw [vWord431, ← h]
  simp only [wMaj, wD, wA, wB, wMk, wT4, wG31, wBit0, BitVec.extractLsb'_append_extractLsb'_eq_extractLsb']
  exact BitVec.extractLsb'_eq_self
theorem vWord332_fields (w : W32) : vWord332 (wMaj w) (wD w) (wA w) (wB w) (wMk w) (wT3 w) (wG42 w) (wQf w) = w := by
  simp only [vWord332, wMaj, wD, wA, wB, wMk, wT3, wG42, wQf, BitVec.extractLsb'_append_extractLsb'_eq_extractLsb']
  exact BitVec.extractLsb'_eq_self
theorem vWord422_fields (w : W32) :
    vWord422 (wMaj w) (wD w) (wA w) (wB w) (wMk w) (wT4 w) (w.extractLsb' 2 2) (wQf w) = w := by
  simp only [vWord422, wMaj, wD, wA, wB, wMk, wT4, wQf, BitVec.extractLsb'_append_extractLsb'_eq_extractLsb']
  exact BitVec.extractLsb'_eq_self

/-! A layout gives the word `w` exactly when its fields are those of `w`. The fields a decoder matches on are compared as numbers. -/

theorem rWord_eq_iff {w : W32} {m : BitVec 6} {d a b x : BitVec 5} {fn : BitVec 6} : rWord m d a b x fn = w ↔
    (wMaj w).toNat = m.toNat ∧ wD w = d ∧ wA w = a ∧ wB w = b ∧ wX w = x ∧ (wFn w).toNat = fn.toNat := by
  constructor
  · rintro rfl; simp
  · rintro ⟨hm, rfl, rfl, rfl, rfl, hf⟩
    rw [← BitVec.eq_of_toNat_eq hm, ← BitVec.eq_of_toNat_eq hf, rWord_fields]
theorem iWord_eq_iff {w : W32} {m : BitVec 6} {d a : BitVec 5} {i : BitVec 16} : iWord m d a i = w ↔
    (wMaj w).toNat = m.toNat ∧ wD w = d ∧ wA w = a ∧ wImm w = i := by
  constructor
  · rintro rfl; simp
  · rintro ⟨hm, rfl, rfl, rfl⟩
    rw [← BitVec.eq_of_toNat_eq hm, iWord_fields]
theorem bWord_eq_iff {w : W32} {l : Bool} {o : BitVec 25} : bWord l o = w ↔ (wMaj w).toNat = 0x16 ∧ wL w = l ∧ wOff25 w = o := by
  constructor
  · rintro rfl; simp
  · rintro ⟨hm, rfl, rfl⟩
    exact bWord_fields (BitVec.eq_of_toNat_eq hm)
theorem mWord_eq_iff {w : W32} {m : BitVec 6} {d a : BitVec 5} {la : BitVec 4} {sw sz : BitVec 3} {o : BitVec 6} : mWord m d a la sw sz o = w ↔
    (wMaj w).toNat = m.toNat ∧ wD w = d ∧ wA w = a ∧ wLaM w = la ∧ wSw w = sw ∧ (wSz w).toNat = sz.toNat ∧ wFn w = o := by
  constructor
  · rintro rfl; simp
  · rintro ⟨hm, rfl, rfl, rfl, rfl, hz, rfl⟩
    rw [← BitVec.eq_of_toNat_eq hm, ← BitVec.eq_of_toNat_eq hz, mWord_fields]
theorem hWord_eq_iff {w : W32} {m : BitVec 6} {d a : BitVec 5} {la k : BitVec 4} {e : Bool} {sz : BitVec 3} {o : BitVec 4} :
    hWord m d a la k e sz o = w ↔
    (wMaj w).toNat = m.toNat ∧ wD w = d ∧ wA w = a ∧ wLaM w = la ∧ wK w = k ∧ wDead w = e ∧ wSzH w = sz ∧ wOff4 w = o := by
  constructor
  · rintro rfl; simp
  · rintro ⟨hm, rfl, rfl, rfl, rfl, rfl, rfl, rfl⟩
    rw [← BitVec.eq_of_toNat_eq hm, hWord_fields]
theorem gWord_eq_iff {w : W32} {m : BitVec 6} {d a b : BitVec 5} {la fn : BitVec 4} {sz sc : Bool} : gWord m d a b la fn sz sc = w ↔
    (wMaj w).toNat = m.toNat ∧ wD w = d ∧ wA w = a ∧ wB w = b ∧ wLaG w = la ∧ (wG63 w).toNat = fn.toNat ∧
      wBit2 w = BitVec.ofBool sz ∧ wBit1 w = BitVec.ofBool sc ∧ wBit0 w = 0 := by
  constructor
  · rintro rfl; simp
  · rintro ⟨hm, rfl, rfl, rfl, rfl, hf, hz, hc, h0⟩
    rw [wBit2, ← ofBool_getLsbD, BitVec.ofBool_eq_iff_eq] at hz
    rw [wBit1, ← ofBool_getLsbD, BitVec.ofBool_eq_iff_eq] at hc
    rw [← BitVec.eq_of_toNat_eq hm, ← BitVec.eq_of_toNat_eq hf, ← hz, ← hc, gWord_fields h0]
section
variable {w : W32} {m : BitVec 6} {d a b : BitVec 5} {k : BitVec 3}
theorem vWord35_eq_iff {t : BitVec 3} {fn : BitVec 5} : vWord35 m d a b k t fn = w ↔
    (wMaj w).toNat = m.toNat ∧ wD w = d ∧ wA w = a ∧ wB w = b ∧ wMk w = k ∧ wT3 w = t ∧ (wFn5 w).toNat = fn.toNat := by
  constructor
  · rintro rfl; simp
  · rintro ⟨hm, rfl, rfl, rfl, rfl, rfl, hf⟩
    rw [← BitVec.eq_of_toNat_eq hm, ← BitVec.eq_of_toNat_eq hf, vWord35_fields]
theorem vWord233_eq_iff {t : BitVec 2} {r fn : BitVec 3} : vWord233 m d a b k t r fn = w ↔
    (wMaj w).toNat = m.toNat ∧ wD w = d ∧ wA w = a ∧ wB w = b ∧ wMk w = k ∧ wFt w = t ∧ wRm w = r ∧ (wFn3 w).toNat = fn.toNat := by
  constructor
  · rintro rfl; simp
  · rintro ⟨hm, rfl, rfl, rfl, rfl, rfl, rfl, hf⟩
    rw [← BitVec.eq_of_toNat_eq hm, ← BitVec.eq_of_toNat_eq hf, vWord233_fields]
theorem vWord44_eq_iff {t fn : BitVec 4} : vWord44 m d a b k t fn = w ↔
    (wMaj w).toNat = m.toNat ∧ wD w = d ∧ wA w = a ∧ wB w = b ∧ wMk w = k ∧ wT4 w = t ∧ (wFn4 w).toNat = fn.toNat := by
  constructor
  · rintro rfl; simp
  · rintro ⟨hm, rfl, rfl, rfl, rfl, rfl, hf⟩
    rw [← BitVec.eq_of_toNat_eq hm, ← BitVec.eq_of_toNat_eq hf, vWord44_fields]
theorem vWord431_eq_iff {t : BitVec 4} {r : BitVec 3} : vWord431 m d a b k t r = w ↔
    (wMaj w).toNat = m.toNat ∧ wD w = d ∧ wA w = a ∧ wB w = b ∧ wMk w = k ∧ wT4 w = t ∧ wG31 w = r ∧ wBit0 w = 0 := by
  constructor
  · rintro rfl
    have hb : wB (vWord431 m d a b k t r) = b := by
      unfold wB vWord431; ext i hi
      simp only [BitVec.getLsbD_append, ← BitVec.getLsbD_eq_getElem, BitVec.getLsbD_extractLsb']
      grind
    simp [hb]
  · rintro ⟨hm, rfl, rfl, rfl, rfl, rfl, rfl, h0⟩
    rw [← BitVec.eq_of_toNat_eq hm, vWord431_fields h0]
theorem vWord332_eq_iff {q r : BitVec 3} {f : BitVec 2} : vWord332 m d a b k q r f = w ↔
    (wMaj w).toNat = m.toNat ∧ wD w = d ∧ wA w = a ∧ wB w = b ∧ wMk w = k ∧ wT3 w = q ∧ wG42 w = r ∧ (wQf w).toNat = f.toNat := by
  constructor
  · rintro rfl; simp
  · rintro ⟨hm, rfl, rfl, rfl, rfl, rfl, rfl, hf⟩
    rw [← BitVec.eq_of_toNat_eq hm, ← BitVec.eq_of_toNat_eq hf, vWord332_fields]
theorem vWord422_eq_iff {la : BitVec 4} {e f : BitVec 2} : vWord422 m d a b k la e f = w ↔
    (wMaj w).toNat = m.toNat ∧ wD w = d ∧ wA w = a ∧ wB w = b ∧ wMk w = k ∧ wT4 w = la ∧ w.extractLsb' 2 2 = e ∧ (wQf w).toNat = f.toNat := by
  constructor
  · rintro rfl
    have he : (vWord422 m d a b k la e f).extractLsb' 2 2 = e := by
      unfold vWord422; ext i hi
      simp only [BitVec.getLsbD_append, ← BitVec.getLsbD_eq_getElem, BitVec.getLsbD_extractLsb']
      grind
    simp [he]
  · rintro ⟨hm, rfl, rfl, rfl, rfl, rfl, rfl, hf⟩
    rw [← BitVec.eq_of_toNat_eq hm, ← BitVec.eq_of_toNat_eq hf, vWord422_fields]
end

end Sys2Proof
end

section
/-!
PROOFS. The codes of operand names, and the fields that hold more than one thing, put together from what the decoder reads.
-/
namespace Sys2Proof

/-! ### Codes -/

theorem MemType.code_ofCode {c : BitVec 3} {z : MemType} (h : MemType.ofCode c = some z) : z.code = c := by revert c z; decide
theorem Level.code_ofCode {c : BitVec 2} {v : Level} (h : Level.ofCode c = some v) : BitVec.ofBool v.code.1 ++ BitVec.ofBool v.code.2 = c := by
  revert c v; decide
theorem QuantTy.code_ofCode {c : BitVec 3} {q : QuantTy} (h : QuantTy.ofCode c = some q) : q.code = c := by revert c q; decide
theorem ElemSize.code_ofCode {c : BitVec 3} {e : ElemSize} (h : ElemSize.ofCode c = some e) : e.code = c := by revert c e; decide
theorem Rm.code_ofCode {c : BitVec 3} {r : Rm} (h : Rm.ofCode c = some r) : r.code = c := by revert c r; decide
theorem QueueId.code_ofCode {c : BitVec 4} {q : QueueId} (h : QueueId.ofCode c = some q) : q.code4 = c := by revert c q; decide
theorem Dk.code_ofCode {c : BitVec 3} {k : Dk} (h : Dk.ofCode c = some k) : k.code = c := by revert c k; decide
theorem GaTy.code_ofCode {c : BitVec 3} {t : GaTy} (h : GaTy.ofCode c = some t) : t.code = c := by revert c t; decide
theorem MiMode.code_ofCode {c : BitVec 2} {m : MiMode} (h : MiMode.ofCode c = some m) : m.code = c := by revert c m; decide
@[simp] theorem MemW.bit_ofBit (b : BitVec 1) : BitVec.ofBool (MemW.ofBit b).bit = b := by revert b; decide
@[simp] theorem AScope.bit_ofBit (b : BitVec 1) : BitVec.ofBool (AScope.ofBit b).bit = b := by revert b; decide
@[simp] theorem FScope.code_ofCode (c : BitVec 2) : (FScope.ofCode c).code = c := by revert c; decide
@[simp] theorem IntTy.code_ofCode (c : BitVec 3) : (IntTy.ofCode c).code = c := by revert c; decide
@[simp] theorem FloatTy.code_ofCode (c : BitVec 2) : (FloatTy.ofCode c).code = c := by revert c; decide
@[simp] theorem ElemTy.code_ofCode (c : BitVec 4) : (ElemTy.ofCode c).code = c := by revert c; decide
@[simp] theorem Role.bit_ofBit (b : Bool) : (Role.ofBit b).bit = b := by cases b <;> rfl
@[simp] theorem GaOp.code_ofCode (c : BitVec 2) : (GaOp.ofCode c).code = c := by revert c; decide
theorem endOfClass_code4 {c : BitVec 4} (h : c.toNat < 4) : (endOfClass c).code4 = c := by revert c; decide
theorem Csr.num_ofNum {c : BitVec 12} {x : Csr} (h : Csr.ofNum c = some x) : x.num = c := by
  unfold Csr.ofNum at h
  split at h <;> cases h <;> exact BitVec.eq_of_toNat_eq (Eq.symm ‹c.toNat = _›)

/-! ### Fields that hold more than one thing -/

section
variable {w : W32}
theorem encM_wD3 (h : wDHi w = 0#2) : encM (wD3 w) = wD w := by
  rw [encM, ← h]; exact BitVec.extractLsb'_append_extractLsb'_eq_extractLsb' rfl
theorem encM_wA3 (h : wAHi w = 0#2) : encM (wA3 w) = wA w := by
  rw [encM, ← h]; exact BitVec.extractLsb'_append_extractLsb'_eq_extractLsb' rfl
theorem encM_wB3 (h : wBHi w = 0#2) : encM (wB3 w) = wB w := by
  rw [encM, ← h]; exact BitVec.extractLsb'_append_extractLsb'_eq_extractLsb' rfl
theorem encLaR_wLaR (h : wBit10 w = 0#1) : encLaR (wLaR w) = wX w := by
  rw [encLaR, ← h]; exact BitVec.extractLsb'_append_extractLsb'_eq_extractLsb' rfl
theorem encX86_wX86 (h : wX109 w = 0#2) : encX86 (wX86 w) = wX w := by
  rw [encX86, ← h]; exact BitVec.extractLsb'_append_extractLsb'_eq_extractLsb' rfl
theorem encX_wX76 {hi : BitVec 3} (h : (wX108 w).toNat = hi.toNat) : encX hi (wX76 w) = wX w := by
  rw [encX, ← BitVec.eq_of_toNat_eq h]; exact BitVec.extractLsb'_append_extractLsb'_eq_extractLsb' rfl
theorem encBar_wB : encBar (wSat w) (wT14 w) = wB w := by
  rw [encBar, wSat, ofBool_getLsbD]; exact BitVec.extractLsb'_append_extractLsb'_eq_extractLsb' rfl
theorem encSatT_wB : encSatT (wSat w) (ElemTy.ofCode (wT14 w)) = wB w := by
  rw [encSatT, ElemTy.code_ofCode]; exact encBar_wB
theorem encW_wBit2 (h : wBit3 w = 1#1) : encW (MemW.ofBit (wBit2 w)) = w.extractLsb' 2 2 := by
  rw [encW, MemW.bit_ofBit, ← h]; exact BitVec.extractLsb'_append_extractLsb'_eq_extractLsb' rfl
theorem encShift_wImm {k : BitVec 2} (h : wShHi w = 0#8) (hk : (wShSel w).toNat = k.toNat) : encShift k (wFn w) = wImm w := by
  rw [encShift, ← h, ← BitVec.eq_of_toNat_eq hk]
  simp only [wShHi, wShSel, wFn, BitVec.extractLsb'_append_extractLsb'_eq_extractLsb']
  rfl
theorem encTrapHi_wTrap : encTrapHi (wTrap w) = wB w := by
  ext i hi
  simp only [encTrapHi, wTrap, wB, ← BitVec.getLsbD_eq_getElem, BitVec.getLsbD_extractLsb']; grind
theorem encTrapLo_wTrap : encTrapLo (wTrap w) = wX w := by
  ext i hi
  simp only [encTrapLo, wTrap, wX, ← BitVec.getLsbD_eq_getElem, BitVec.getLsbD_extractLsb']; grind
theorem wTrap_eq_zero (h : wTrap w = 0#10) : wB w = 0#5 ∧ wX w = 0#5 := by
  rw [← encTrapHi_wTrap, ← encTrapLo_wTrap, h]; exact ⟨rfl, rfl⟩
theorem encCsr_wImm {op : BitVec 4} {c : Csr} (h : Csr.ofNum (wCsr w) = some c) (ho : (wCsrOp w).toNat = op.toNat) : encCsr op c = wImm w := by
  rw [encCsr, Csr.num_ofNum h, ← BitVec.eq_of_toNat_eq ho]; exact BitVec.extractLsb'_append_extractLsb'_eq_extractLsb' rfl
theorem Level.bits_of_wG21 {v : Level} (h : Level.ofCode (wG21 w) = some v) :
    wBit2 w = BitVec.ofBool v.code.1 ∧ wBit1 w = BitVec.ofBool v.code.2 := by
  have hg : wBit2 w ++ wBit1 w = BitVec.ofBool v.code.1 ++ BitVec.ofBool v.code.2 :=
    (BitVec.extractLsb'_append_extractLsb'_eq_extractLsb' rfl).trans (Level.code_ofCode h).symm
  constructor
  · simpa only [BitVec.extractLsb'_append_eq_left] using congrArg (BitVec.extractLsb' 1 1) hg
  · simpa only [BitVec.extractLsb'_append_eq_right] using congrArg (BitVec.extractLsb' 0 1) hg
end

end Sys2Proof
end

section
/-!
PROOFS. What the decoders of the 32-bit families read is spelt by the word (R57 to R64), one lemma for each family. In every branch that answers an
instruction, the fields that its layout takes are those of the word: the decoder put them there, or checked that they are zero or the code it matched.
-/
namespace Sys2Proof

/-- Whatever instruction a decoder answers is well-formed, and `ws` are the words that encode it. -/
def Spells (ws : List W32) (x : Dec) : Prop := ∀ i, x = .ok i → i.wf = true ∧ encode i = ws

@[simp] theorem spells_ok (ws : List W32) (i : Instr) : Spells ws (.ok i) ↔ i.wf = true ∧ encode i = ws :=
  ⟨fun h => h i rfl, fun h j hj => by cases hj; exact h⟩
@[simp] theorem spells_error (ws : List W32) (e : DecodeError) : Spells ws (.error e) := fun i h => by cases h
@[simp] theorem spells_badField (ws : List W32) : Spells ws badField := spells_error ws _
@[simp] theorem spells_badCode (ws : List W32) : Spells ws badCode := spells_error ws _
@[simp] theorem spells_ite (ws : List W32) (c : Prop) [Decidable c] (x y : Dec) :
    Spells ws (if c then x else y) ↔ (c → Spells ws x) ∧ (¬c → Spells ws y) := by
  by_cases h : c <;> simp [h]

theorem spells_guard {ws : List W32} {c : Prop} [Decidable c] {x y : Dec} (hx : Spells ws x) (hy : ¬c → Spells ws y) :
    Spells ws (if c then x else y) := by
  rw [spells_ite]; exact ⟨fun _ => hx, hy⟩

section
variable {w : W32}
theorem decAlu_spells (hm : (wMaj w).toNat = 0x00) : Spells [w] (decAlu w) := by
  unfold decAlu
  split <;> simp +contextual [Instr.wf, encode, rWord_eq_iff, encLaR_wLaR, *]
theorem decShift_spells (hm : (wMaj w).toNat = 0x06) : Spells [w] (decShift w) := by
  refine spells_guard (spells_badField _) fun h => ?_
  rw [Decidable.not_not] at h
  split
  case h_4 h0 h1 h2 =>
    have h3 : ∀ c : BitVec 2, (c.toNat = 0 → False) → (c.toNat = 1 → False) → (c.toNat = 2 → False) → c.toNat = (3#2).toNat := by decide
    simp [Instr.wf, encode, iWord_eq_iff, encShift_wImm h (h3 _ h0 h1 h2), hm]
  all_goals simp [Instr.wf, encode, iWord_eq_iff, encShift_wImm h, *]
theorem decBranchReg_spells (hm : (wMaj w).toNat = 0x17) : Spells [w] (decBranchReg w) := by
  refine spells_guard (spells_badField _) fun h => ?_
  rw [Decidable.not_not] at h
  split
  · simp_all [Instr.wf, encode, iWord_eq_iff]
  split <;> simp_all [Instr.wf, encode, iWord_eq_iff]
theorem decLd_spells (hm : (wMaj w).toNat = 0x18) : Spells [w] (decLd w) := by
  unfold decLd
  split
  · next z hz => simp [Instr.wf, encode, mWord_eq_iff, MemType.code_ofCode hz, hm]
  · exact spells_badCode _
theorem decSt_spells (hm : (wMaj w).toNat = 0x19) : Spells [w] (decSt w) := by
  refine spells_guard (spells_badField _) fun h => ?_
  rw [Decidable.not_not] at h
  split
  · next z hz => simp [Instr.wf, encode, mWord_eq_iff, MemType.code_ofCode hz, hm, h]
  · exact spells_badCode _
theorem decLdHinted_spells (hm : (wMaj w).toNat = 0x1A) : Spells [w] (decLdHinted w) := by
  unfold decLdHinted
  split
  · next z hz => simp [Instr.wf, encode, hWord_eq_iff, MemType.code_ofCode hz, hm]
  · exact spells_badCode _
theorem decTch_spells (hm : (wMaj w).toNat = 0x1B) : Spells [w] (decTch w) := by
  refine spells_guard (spells_badField _) fun h => ?_
  simp only [not_or, Decidable.not_not] at h
  split <;> simp +contextual [Instr.wf, encode, mWord_eq_iff, *]
theorem decCmo_spells (hm : (wMaj w).toNat = 0x1C) : Spells [w] (decCmo w) := by
  refine spells_guard (spells_badField _) fun h => ?_
  simp only [not_or, Decidable.not_not] at h
  split
  · exact spells_badCode _
  next v hv =>
    split <;> simp [Instr.wf, encode, gWord_eq_iff, Level.bits_of_wG21 hv, *]
theorem decAmo_spells (hm : (wMaj w).toNat = 0x1D) : Spells [w] (decAmo w) := by
  refine spells_guard (spells_badField _) fun h => ?_
  rw [Decidable.not_not] at h
  split <;> simp [Instr.wf, encode, gWord_eq_iff, *]
theorem decRed_spells (hm : (wMaj w).toNat = 0x1E) : Spells [w] (decRed w) := by
  refine spells_guard (spells_badField _) fun h => ?_
  simp only [not_or, Decidable.not_not] at h
  split <;> simp [Instr.wf, encode, gWord_eq_iff, *]
theorem decVInt_spells (hm : (wMaj w).toNat = 0x20) : Spells [w] (decVInt w) := by
  unfold decVInt
  split <;> simp +contextual [Instr.wf, encode, vWord35_eq_iff, *]
theorem decVFp_spells (hm : (wMaj w).toNat = 0x21) : Spells [w] (decVFp w) := by
  unfold decVFp
  split
  · exact spells_badCode _
  · exact spells_badCode _
  next r hne hr =>
    have hne' : r ≠ .rna := hne
    split <;> simp [Instr.wf, encode, vWord233_eq_iff, Rm.code_ofCode hr, *]
theorem decVFma_spells (hm : (wMaj w).toNat = 0x22) : Spells [w] (decVFma w) := by
  unfold decVFma
  split
  · exact spells_badCode _
  · exact spells_badCode _
  next r hne hr =>
    have hne' : r ≠ .rna := hne
    split <;> simp +contextual [Instr.wf, encode, vWord233_eq_iff, Rm.code_ofCode hr, *]
theorem decVCmp_spells (hm : (wMaj w).toNat = 0x23) : Spells [w] (decVCmp w) := by
  refine spells_guard (spells_badField _) fun h => spells_guard (spells_badCode _) fun ht => ?_
  rw [Decidable.not_not] at h
  split <;> simp [Instr.wf, encode, vWord44_eq_iff, encM_wD3 h, *]
theorem decVcvt_spells (hm : (wMaj w).toNat = 0x24) : Spells [w] (decVcvt w) := by
  refine spells_guard (spells_badField _) fun h => ?_
  rw [Decidable.not_not] at h
  split
  · exact spells_badCode _
  · exact spells_badCode _
  next r hne hr =>
    have hne' : r ≠ .rna := hne
    refine spells_guard (spells_badCode _) fun hs => ?_
    rw [spells_ok]
    constructor
    · rw [← Bool.and_eq_true] at hs
      simp [Instr.wf, hne', eq_false_of_ne_true hs, -Bool.not_and]
    · simp [encode, vWord431_eq_iff, encSatT_wB, Rm.code_ofCode hr, h, hm]
theorem decVq_spells (hm : (wMaj w).toNat = 0x25) : Spells [w] (decVq w) := by
  unfold decVq
  split
  · split
    · next q r hq hr => simp [Instr.wf, encode, vWord332_eq_iff, QuantTy.code_ofCode hq, Rm.code_ofCode hr, *]
    · exact spells_badCode _
  · split
    · next q r hq hr => simp [Instr.wf, encode, vWord332_eq_iff, QuantTy.code_ofCode hq, Rm.code_ofCode hr, *]
    · exact spells_badCode _
  · simp +contextual [Instr.wf, encode, vWord332_eq_iff, *]
  · exact spells_badCode _
theorem decVRed_spells (hm : (wMaj w).toNat = 0x26) : Spells [w] (decVRed w) := by
  refine spells_guard (spells_badField _) fun h => spells_guard (spells_badCode _) fun ht => ?_
  rw [Decidable.not_not] at h
  split <;> simp [Instr.wf, encode, vWord44_eq_iff, *]
theorem decVPerm_spells (hm : (wMaj w).toNat = 0x27) : Spells [w] (decVPerm w) := by
  unfold decVPerm
  split
  · exact spells_badCode _
  next e he =>
    split <;> simp +contextual [Instr.wf, encode, vWord35_eq_iff, ElemSize.code_ofCode he, *]
theorem decMask_spells (hm : (wMaj w).toNat = 0x28) : Spells [w] (decMask w) := by
  refine spells_guard (spells_badField _) fun h => ?_
  simp only [not_or, Decidable.not_not] at h
  split <;> simp +contextual [Instr.wf, encode, vWord44_eq_iff, encM_wD3, encM_wA3, encM_wB3, *]
theorem decVld_spells (hm : (wMaj w).toNat = 0x29) : Spells [w] (decVld w) := by
  simp [decVld, Instr.wf, encode, vWord44_eq_iff, hm]
theorem decVst_spells (hm : (wMaj w).toNat = 0x2A) : Spells [w] (decVst w) := by
  refine spells_guard (spells_badField _) fun h => ?_
  rw [Decidable.not_not] at h
  simp [Instr.wf, encode, vWord44_eq_iff, hm, h]
theorem decVgath_spells (hm : (wMaj w).toNat = 0x2B) : Spells [w] (decVgath w) := by
  refine spells_guard (spells_badCode _) fun h => ?_
  rw [Decidable.not_not] at h
  split <;> simp [Instr.wf, encode, vWord422_eq_iff, encW_wBit2 h, *]
theorem decVamo_spells (hm : (wMaj w).toNat = 0x2C) : Spells [w] (decVamo w) := by
  unfold decVamo
  split <;> simp [Instr.wf, encode, vWord44_eq_iff, *]
theorem decTask_spells (hm : (wMaj w).toNat = 0x30) : Spells [w] (decTask w) := by
  unfold decTask
  split
  case h_9 =>
    rw [spells_ite]
    refine ⟨fun h => ?_, fun _ => spells_badField _⟩
    split
    · next q hq => simp [Instr.wf, encode, rWord_eq_iff, QueueId.code_ofCode hq, encLaR_wLaR, *]
    · exact spells_badCode _
  all_goals simp +contextual [Instr.wf, encode, rWord_eq_iff, encX86_wX86, *]
theorem decBar_spells (hm : (wMaj w).toNat = 0x31) : Spells [w] (decBar w) := by
  refine spells_guard (spells_badField _) fun h => ?_
  rw [Decidable.not_not] at h
  split <;> simp +contextual [Instr.wf, encode, rWord_eq_iff, encBar_wB, *]
theorem decFence_spells (hm : (wMaj w).toNat = 0x32) : Spells [w] (decFence w) := by
  refine spells_guard (spells_badField _) fun h => ?_
  simp only [not_or, Decidable.not_not] at h
  split <;> simp [Instr.wf, encode, rWord_eq_iff, encX_wX76, *]
theorem decSys_spells (hm : (wMaj w).toNat = 0x38) : Spells [w] (decSys w) := by
  unfold decSys
  split
  case h_9 =>
    refine spells_guard (spells_badField _) fun h => ?_
    rw [Decidable.not_not] at h
    split <;> simp +contextual [Instr.wf, encode, rWord_eq_iff, encX_wX76, *]
  all_goals simp +contextual [Instr.wf, encode, rWord_eq_iff, encTrapHi_wTrap, encTrapLo_wTrap, wTrap_eq_zero, *]
theorem decCsr_spells (hm : (wMaj w).toNat = 0x39) : Spells [w] (decCsr w) := by
  unfold decCsr
  split
  · exact spells_error _ _
  next c hc =>
    cases hro : c.readOnly <;> split <;> simp +contextual [Instr.wf, encode, iWord_eq_iff, encCsr_wImm hc, *]
end

end Sys2Proof
end

section
/-!
PROOFS. What the decoders of the engine words read is spelt by the eight words (R55, R56, R204 to R208, R221, R223, R226, R229 to R231, R270 to
R273).
-/
namespace Sys2Proof

theorem encReg_eq_iff {w : W32} {r : SReg} : encReg r = w ↔ sKind w = 2#2 ∧ sRegHi w = 0#25 ∧ sReg w = r := by
  constructor
  · rintro rfl; simp
  · rintro ⟨hk, hh, rfl⟩
    rw [encReg, ← hk, ← hh]
    simp only [sKind, sRegHi, sReg, BitVec.extractLsb'_append_extractLsb'_eq_extractLsb']
    exact BitVec.extractLsb'_eq_self
theorem encImm_eq_iff {w : W32} {v : BitVec 30} : encImm v = w ↔ sKind w = 1#2 ∧ sBody w = v := by
  constructor
  · rintro rfl; exact ⟨encImm_kind v, encImm_body v⟩
  · rintro ⟨hk, rfl⟩
    rw [encImm, ← hk]
    simp only [sKind, sBody, BitVec.extractLsb'_append_extractLsb'_eq_extractLsb']
    exact BitVec.extractLsb'_eq_self
theorem e0_eq_iff {w : W32} {c : BitVec 4} {o : BitVec 6} {l : BitVec 4} {p : BitVec 12} :
    e0 c o l p = w ↔ wMaj w = 0x3F#6 ∧ eClass w = c ∧ (eOp w).toNat = o.toNat ∧ eLa w = l ∧ w.extractLsb' 0 12 = p := by
  constructor
  · rintro rfl
    exact ⟨e0_maj .., e0_class .., congrArg BitVec.toNat (e0_op ..), e0_la .., (e0_field _ _ _ _ _ _ (by omega)).trans BitVec.extractLsb'_eq_self⟩
  · rintro ⟨hm, rfl, ho, rfl, rfl⟩
    rw [e0, ← hm, ← BitVec.eq_of_toNat_eq ho]
    simp only [wMaj, eClass, eOp, eLa, BitVec.extractLsb'_append_extractLsb'_eq_extractLsb']
    exact BitVec.extractLsb'_eq_self

theorem slotNone_ok {j : Nat} {w : W32} {u : Unit} (h : slotNone j w = .ok u) : 0#32 = w := by
  unfold slotNone at h
  split at h
  · exact Eq.symm ‹_›
  · split at h <;> cases h
theorem slotReg_ok {j : Nat} {w : W32} {r : SReg} (h : slotReg j w = .ok r) : encReg r = w := by
  unfold slotReg at h
  split at h
  · split at h
    · cases h; exact encReg_eq_iff.2 ⟨‹_›, ‹_›, rfl⟩
    · cases h
  · cases h
theorem slotReg_map_ok {α : Type} {f : SReg → α} {j : Nat} {w : W32} {x : α} (h : (slotReg j w).map f = .ok x) :
    ∃ r, x = f r ∧ encReg r = w := by
  cases hr : slotReg j w with
  | ok r =>
    rw [hr] at h; cases h
    exact ⟨r, rfl, slotReg_ok hr⟩
  | error e => rw [hr] at h; cases h
theorem slotImm_ok {j : Nat} {w : W32} {v : BitVec 30} (h : slotImm j w = .ok v) : w.extractLsb' 30 2 = 1#2 := by
  unfold slotImm at h
  split at h
  · assumption
  · cases h
theorem slotOp_ok {j : Nat} {w : W32} {x : EOp} (h : slotOp j w = .ok x) : encOp x = w := by
  unfold slotOp at h
  split at h
  · cases h; exact encImm_eq_iff.2 ⟨‹_›, rfl⟩
  · obtain ⟨r, rfl, hw⟩ := slotReg_map_ok h; exact hw
theorem slotKick_ok {w : W32} {k : KOp} (h : slotKick w = .ok k) : encKick k = w := by
  unfold slotKick at h
  split at h
  · next hk =>
    cases h
    rw [encKick, ← show sKind w = 1#2 from hk]
    simp only [sKind, BitVec.extractLsb'_append_extractLsb'_eq_extractLsb']
    exact BitVec.extractLsb'_eq_self
  · obtain ⟨r, rfl, hw⟩ := slotReg_map_ok h; exact hw
theorem need_ok {j : Nat} {y : Why} {p : Bool} {u : Unit} (h : need j y p = .ok u) : p = true := by
  unfold need at h
  split at h
  · assumption
  · split at h <;> cases h
theorem needSome_ok {α : Type} {j : Nat} {o : Option α} {x : α} (h : needSome j o = .ok x) : o = some x := by
  unfold needSome at h
  split at h
  · cases h; rfl
  · split at h <;> cases h

/-! One step of an engine word's decoder at a time: what it accepts, and what is left to read. -/

theorem spells_bind {α : Type} {ws : List W32} {a : Except DecodeError α} {f : α → Dec} (h : ∀ x, a = .ok x → Spells ws (f x)) :
    Spells ws (a >>= f) := by
  cases a with
  | ok x => exact h x rfl
  | error e => exact spells_error ws e

section
variable {ws : List W32} {j : Nat} {w : W32}
theorem spells_none {f : Unit → Dec} (h : 0#32 = w → Spells ws (f ())) : Spells ws (slotNone j w >>= f) :=
  spells_bind fun _ hw => h (slotNone_ok hw)
theorem spells_reg {f : SReg → Dec} (h : ∀ r, encReg r = w → Spells ws (f r)) : Spells ws (slotReg j w >>= f) :=
  spells_bind fun r hw => h r (slotReg_ok hw)
theorem spells_op {f : EOp → Dec} (h : ∀ x, encOp x = w → Spells ws (f x)) : Spells ws (slotOp j w >>= f) :=
  spells_bind fun x hw => h x (slotOp_ok hw)
theorem spells_kick {f : KOp → Dec} (h : ∀ x, encKick x = w → Spells ws (f x)) : Spells ws (slotKick w >>= f) :=
  spells_bind fun x hw => h x (slotKick_ok hw)
theorem spells_imm {f : BitVec 30 → Dec} (h : ∀ v, w.extractLsb' 30 2 = 1#2 → Spells ws (f v)) : Spells ws (slotImm j w >>= f) :=
  spells_bind fun v hw => h v (slotImm_ok hw)
theorem spells_need {y : Why} {p : Prop} [Decidable p] {f : Unit → Dec} (h : p → Spells ws (f ())) : Spells ws (need j y (decide p) >>= f) :=
  spells_bind fun _ hp => h (of_decide_eq_true (need_ok hp))
theorem spells_needB {y : Why} {p : Bool} {f : Unit → Dec} (h : p = true → Spells ws (f ())) : Spells ws (need j y p >>= f) :=
  spells_bind fun _ hp => h (need_ok hp)
theorem spells_needSome {α : Type} {o : Option α} {f : α → Dec} (h : ∀ x, o = some x → Spells ws (f x)) : Spells ws (needSome j o >>= f) :=
  spells_bind fun x hx => h x (needSome_ok hx)
end

theorem eBit_true {s : W32} {i : Nat} (h : eBit s i = true) : s.extractLsb' i 1 = 1#1 := by
  rw [← ofBool_getLsbD, ← eBit, h]; rfl
theorem eBit_false {s : W32} {i : Nat} (h : ¬eBit s i = true) : s.extractLsb' i 1 = 0#1 := by
  rw [← ofBool_getLsbD, ← eBit, eq_false_of_ne_true h]; rfl
/-- Slot 3 of the multiply-accumulate words: M, N and K (R204). -/
theorem mmaCounts_slot {s : W32} (hk : s.extractLsb' 30 2 = 1#2) (hz : s.extractLsb' 16 6 = 0#6) :
    1#2 ++ s.extractLsb' 26 4 ++ s.extractLsb' 22 4 ++ 0#6 ++ s.extractLsb' 0 16 = s := by
  rw [← hk, ← hz]
  simp only [BitVec.extractLsb'_append_extractLsb'_eq_extractLsb']
  exact BitVec.extractLsb'_eq_self
/-- SPEC of a word that has EVN alone. -/
theorem specEvn_spec {s : W32} (h10 : s.extractLsb' 10 2 = 0#2) (h0 : s.extractLsb' 0 9 = 0#9) : s.extractLsb' 0 12 = specEvn (eBit s 9) := by
  rw [specEvn, ← h10, ← h0]
  simp only [eBit, ofBool_getLsbD, BitVec.extractLsb'_append_extractLsb'_eq_extractLsb']

theorem words_eq {s0 s1 s2 s3 s4 s5 s6 s7 t0 t1 t2 t3 t4 t5 t6 t7 : W32} (h0 : s0 = t0) (h1 : s1 = t1) (h2 : s2 = t2) (h3 : s3 = t3)
    (h4 : s4 = t4) (h5 : s5 = t5) (h6 : s6 = t6) (h7 : s7 = t7) : [s0, s1, s2, s3, s4, s5, s6, s7] = [t0, t1, t2, t3, t4, t5, t6, t7] := by
  rw [h0, h1, h2, h3, h4, h5, h6, h7]

section
variable {s0 s1 s2 s3 s4 s5 s6 s7 : W32}
theorem decCopy_spells (hm : wMaj s0 = 0x3F#6) (hc : eClass s0 = 4#4) :
    Spells [s0, s1, s2, s3, s4, s5, s6, s7] (decCopy s0 s1 s2 s3 s4 s5 s6 s7) := by
  unfold decCopy
  split
  · next ho =>
    refine spells_need fun ⟨h10, h0⟩ => spells_reg fun desc e1 => spells_none fun e2 => spells_none fun e3 => spells_none fun e4 =>
      spells_none fun e5 => spells_none fun e6 => spells_none fun e7 => (spells_ok _ _).2 ⟨rfl, ?_⟩
    exact words_eq (e0_eq_iff.2 ⟨hm, hc, ho, rfl, specEvn_spec h10 h0⟩) e1 e2 e3 e4 e5 e6 e7
  · next ho =>
    refine spells_need fun ⟨h10, h3⟩ => ?_
    rw [BitVec.ofNat_eq_ofNat] at h10 h3
    split
    · next h8 =>
      refine spells_none fun e1 => spells_imm fun _ hk => spells_need fun h13 => spells_none fun e3 => spells_none fun e4 =>
        spells_none fun e5 => spells_none fun e6 => spells_none fun e7 => (spells_ok _ _).2 ⟨rfl, ?_⟩
      rw [BitVec.ofNat_eq_ofNat] at h13
      refine words_eq (e0_eq_iff.2 ⟨hm, hc, ho, rfl, ?_⟩) e1 ?_ e3 e4 e5 e6 e7
      · rw [← h10, ← h3, ← eBit_true h8]
        simp only [eBit, ofBool_getLsbD, BitVec.extractLsb'_append_extractLsb'_eq_extractLsb']
      · rw [← hk, ← h13]
        simp only [BitVec.extractLsb'_append_extractLsb'_eq_extractLsb']
        exact BitVec.extractLsb'_eq_self
    · next h8 =>
      refine spells_reg fun dst e1 => spells_imm fun _ hk => spells_need fun h16 => spells_none fun e3 => spells_none fun e4 =>
        spells_none fun e5 => spells_none fun e6 => spells_none fun e7 => (spells_ok _ _).2 ⟨rfl, ?_⟩
      rw [BitVec.ofNat_eq_ofNat] at h16
      refine words_eq (e0_eq_iff.2 ⟨hm, hc, ho, rfl, ?_⟩) e1 ?_ e3 e4 e5 e6 e7
      · rw [← h10, ← h3, ← eBit_false h8]
        simp only [eBit, ofBool_getLsbD, BitVec.extractLsb'_append_extractLsb'_eq_extractLsb']
      · rw [← hk, ← h16]
        simp only [BitVec.extractLsb'_append_extractLsb'_eq_extractLsb']
        exact BitVec.extractLsb'_eq_self
  · exact spells_error _ _
theorem decPrism_spells (hm : wMaj s0 = 0x3F#6) (hc : (eClass s0).toNat < 4) :
    Spells [s0, s1, s2, s3, s4, s5, s6, s7] (decPrism s0 s1 s2 s3 s4 s5 s6 s7) := by
  have hc := (endOfClass_code4 hc).symm
  unfold decPrism
  split
  · next ho =>
    refine spells_need fun ⟨h7, h0⟩ => spells_reg fun p e1 => spells_op fun str e2 => spells_imm fun _ k3 => spells_need fun z3 =>
      spells_imm fun _ k4 => spells_need fun z4 => spells_needB fun hf => spells_none fun e5 => spells_none fun e6 => spells_none fun e7 =>
      (spells_ok _ _).2 ⟨hf, ?_⟩
    rw [BitVec.ofNat_eq_ofNat] at h7 h0 z4
    refine words_eq (e0_eq_iff.2 ⟨hm, hc, ho, rfl, ?_⟩) e1 e2 ?_ ?_ e5 e6 e7
    · rw [Role.bit_ofBit, ← h7, ← h0]
      simp only [eBit, ofBool_getLsbD, BitVec.extractLsb'_append_extractLsb'_eq_extractLsb']
    · exact mmaCounts_slot k3 z3
    · rw [← k4, ← z4]
      simp only [BitVec.extractLsb'_append_extractLsb'_eq_extractLsb']
      exact BitVec.extractLsb'_eq_self
  · next ho =>
    refine spells_need fun h0 => spells_reg fun p e1 => spells_op fun str e2 => spells_imm fun _ k3 => spells_need fun z3 =>
      spells_imm fun _ k4 => spells_need fun z4 => spells_needB fun hf => spells_none fun e5 => spells_none fun e6 => spells_none fun e7 =>
      (spells_ok _ _).2 ⟨hf, ?_⟩
    rw [BitVec.ofNat_eq_ofNat] at h0 z4
    refine words_eq (e0_eq_iff.2 ⟨hm, hc, ho, rfl, ?_⟩) e1 e2 ?_ ?_ e5 e6 e7
    · rw [Role.bit_ofBit, ← h0]
      simp only [eBit, ofBool_getLsbD, BitVec.extractLsb'_append_extractLsb'_eq_extractLsb']
    · exact mmaCounts_slot k3 z3
    · rw [← k4, ← z4]
      simp only [BitVec.extractLsb'_append_extractLsb'_eq_extractLsb']
      exact BitVec.extractLsb'_eq_self
  · next ho =>
    refine spells_need fun ⟨h10, h0⟩ => spells_reg fun src e1 => spells_imm fun _ k2 => spells_need fun z2 => spells_none fun e3 =>
      spells_none fun e4 => spells_none fun e5 => spells_none fun e6 => spells_none fun e7 => (spells_ok _ _).2 ⟨rfl, ?_⟩
    rw [BitVec.ofNat_eq_ofNat] at z2
    refine words_eq (e0_eq_iff.2 ⟨hm, hc, ho, rfl, specEvn_spec h10 h0⟩) e1 ?_ e3 e4 e5 e6 e7
    rw [← k2, ← z2]
    simp only [BitVec.extractLsb'_append_extractLsb'_eq_extractLsb']
    exact BitVec.extractLsb'_eq_self
  · next ho =>
    refine spells_need fun ⟨h11, h0⟩ => spells_none fun e1 => spells_none fun e2 => spells_none fun e3 =>
      spells_none fun e4 => spells_none fun e5 => spells_none fun e6 => spells_none fun e7 => (spells_ok _ _).2 ⟨rfl, ?_⟩
    rw [BitVec.ofNat_eq_ofNat] at h11 h0
    refine words_eq (e0_eq_iff.2 ⟨hm, hc, ho, rfl, ?_⟩) e1 e2 e3 e4 e5 e6 e7
    rw [← h11, ← h0]
    simp only [eBit, ofBool_getLsbD, BitVec.extractLsb'_append_extractLsb'_eq_extractLsb']
  · next ho =>
    refine spells_need fun h11 => spells_needSome fun dk hdk => spells_needSome fun rm hrm => spells_need fun hr => spells_reg fun d e1 =>
      spells_op fun dstr e2 => spells_imm fun _ k3 => spells_need fun z3 => spells_needB fun hf => spells_op fun nc e4 =>
      spells_none fun e5 => spells_none fun e6 => spells_none fun e7 => (spells_ok _ _).2 ⟨?_, ?_⟩
    · rw [Bool.and_eq_true] at hf
      simp only [Instr.wf, hr, hf, ne_eq, not_false_eq_true, decide_true, Bool.true_and]
    rw [BitVec.ofNat_eq_ofNat] at h11 z3
    refine words_eq (e0_eq_iff.2 ⟨hm, hc, ho, rfl, ?_⟩) e1 e2 ?_ e4 e5 e6 e7
    · rw [Rm.code_ofCode hrm, Dk.code_ofCode hdk, ← h11]
      simp only [eBit, ofBool_getLsbD, BitVec.extractLsb'_append_extractLsb'_eq_extractLsb']
    · rw [← k3, ← z3]
      simp only [BitVec.extractLsb'_append_extractLsb'_eq_extractLsb']
      exact BitVec.extractLsb'_eq_self
  · next ho =>
    refine spells_need fun ⟨h10, h0⟩ => spells_reg fun sb e1 => spells_reg fun db e2 => spells_imm fun _ k3 => spells_need fun z3 =>
      spells_need fun hs => spells_none fun e4 => spells_none fun e5 => spells_none fun e6 => spells_none fun e7 =>
      (spells_ok _ _).2 ⟨decide_eq_true hs, ?_⟩
    rw [BitVec.ofNat_eq_ofNat] at z3
    refine words_eq (e0_eq_iff.2 ⟨hm, hc, ho, rfl, specEvn_spec h10 h0⟩) e1 e2 ?_ e4 e5 e6 e7
    rw [← k3, ← z3]
    simp only [BitVec.extractLsb'_append_extractLsb'_eq_extractLsb']
    exact BitVec.extractLsb'_eq_self
  · exact spells_error _ _
theorem decGather_spells (hm : wMaj s0 = 0x3F#6) (hc : eClass s0 = 5#4) :
    Spells [s0, s1, s2, s3, s4, s5, s6, s7] (decGather s0 s1 s2 s3 s4 s5 s6 s7) := by
  unfold decGather
  split
  · next ho =>
    refine spells_need fun ⟨h10, h0⟩ => spells_need fun hz => spells_reg fun idx e1 => spells_reg fun base e2 => spells_reg fun dst e3 =>
      spells_op fun count e4 => spells_none fun e5 => spells_none fun e6 => spells_none fun e7 => (spells_ok _ _).2 ⟨decide_eq_true hz, ?_⟩
    rw [BitVec.ofNat_eq_ofNat] at h10 h0
    refine words_eq (e0_eq_iff.2 ⟨hm, hc, ho, rfl, ?_⟩) e1 e2 e3 e4 e5 e6 e7
    rw [← h10, ← h0]
    simp only [eBit, ofBool_getLsbD, BitVec.extractLsb'_append_extractLsb'_eq_extractLsb']
  · next ho =>
    refine spells_need fun ⟨h10, h0⟩ => spells_needSome fun t ht => spells_reg fun idx e1 => spells_reg fun base e2 => spells_reg fun dst e3 =>
      spells_op fun count e4 => spells_none fun e5 => spells_none fun e6 => spells_none fun e7 => (spells_ok _ _).2 ⟨rfl, ?_⟩
    rw [BitVec.ofNat_eq_ofNat] at h10 h0
    refine words_eq (e0_eq_iff.2 ⟨hm, hc, ho, rfl, ?_⟩) e1 e2 e3 e4 e5 e6 e7
    rw [GaOp.code_ofCode, GaTy.code_ofCode ht, ← h10, ← h0]
    simp only [eBit, ofBool_getLsbD, BitVec.extractLsb'_append_extractLsb'_eq_extractLsb']
  · next ho =>
    refine spells_need fun ⟨h10, h0⟩ => spells_needB fun hl => spells_reg fun keys e1 => spells_reg fun table e2 => spells_reg fun dst e3 =>
      spells_op fun count e4 => spells_none fun e5 => spells_none fun e6 => spells_none fun e7 => (spells_ok _ _).2 ⟨hl, ?_⟩
    rw [BitVec.ofNat_eq_ofNat] at h10 h0
    refine words_eq (e0_eq_iff.2 ⟨hm, hc, ho, rfl, ?_⟩) e1 e2 e3 e4 e5 e6 e7
    rw [← h10, ← h0]
    simp only [eBit, ofBool_getLsbD, BitVec.extractLsb'_append_extractLsb'_eq_extractLsb']
  · exact spells_error _ _
theorem decMirror_spells (hm : wMaj s0 = 0x3F#6) (hc : eClass s0 = 6#4) :
    Spells [s0, s1, s2, s3, s4, s5, s6, s7] (decMirror s0 s1 s2 s3 s4 s5 s6 s7) := by
  unfold decMirror
  split
  · next ho =>
    refine spells_need fun ⟨h10, h0⟩ => spells_reg fun base e1 => spells_imm fun _ k2 => spells_need fun z2 => spells_none fun e3 =>
      spells_none fun e4 => spells_none fun e5 => spells_none fun e6 => spells_none fun e7 => (spells_ok _ _).2 ⟨rfl, ?_⟩
    rw [BitVec.ofNat_eq_ofNat] at z2
    refine words_eq (e0_eq_iff.2 ⟨hm, hc, ho, rfl, specEvn_spec h10 h0⟩) e1 ?_ e3 e4 e5 e6 e7
    rw [← k2, ← z2]
    simp only [BitVec.extractLsb'_append_extractLsb'_eq_extractLsb']
    exact BitVec.extractLsb'_eq_self
  · next ho =>
    refine spells_needSome fun mode hmo => spells_need fun h0 => spells_reg fun key e1 => spells_op fun step e2 => spells_reg fun inp e3 =>
      spells_op fun count e4 => spells_reg fun out e5 => spells_none fun e6 => spells_none fun e7 => (spells_ok _ _).2 ⟨rfl, ?_⟩
    rw [BitVec.ofNat_eq_ofNat] at h0
    refine words_eq (e0_eq_iff.2 ⟨hm, hc, ho, rfl, ?_⟩) e1 e2 e3 e4 e5 e6 e7
    rw [MiMode.code_ofCode hmo, ← h0]
    simp only [eBit, ofBool_getLsbD, BitVec.extractLsb'_append_extractLsb'_eq_extractLsb']
  · next ho =>
    refine spells_need fun ⟨h10, h0⟩ => spells_reg fun key e1 => spells_op fun step e2 => spells_reg fun src e3 => spells_op fun len e4 =>
      spells_none fun e5 => spells_none fun e6 => spells_none fun e7 => (spells_ok _ _).2 ⟨rfl, ?_⟩
    exact words_eq (e0_eq_iff.2 ⟨hm, hc, ho, rfl, specEvn_spec h10 h0⟩) e1 e2 e3 e4 e5 e6 e7
  · next ho =>
    refine spells_need fun ⟨h10, h0⟩ => ?_
    rw [BitVec.ofNat_eq_ofNat] at h10 h0
    split
    · next h8 =>
      refine spells_none fun e1 => spells_none fun e2 => spells_none fun e3 => spells_none fun e4 => spells_none fun e5 =>
        spells_none fun e6 => spells_none fun e7 => (spells_ok _ _).2 ⟨rfl, ?_⟩
      refine words_eq (e0_eq_iff.2 ⟨hm, hc, ho, rfl, ?_⟩) e1 e2 e3 e4 e5 e6 e7
      rw [← h10, ← h0, ← eBit_true h8]
      simp only [eBit, ofBool_getLsbD, BitVec.extractLsb'_append_extractLsb'_eq_extractLsb']
    · next h8 =>
      refine spells_reg fun key e1 => spells_none fun e2 => spells_none fun e3 => spells_none fun e4 => spells_none fun e5 =>
        spells_none fun e6 => spells_none fun e7 => (spells_ok _ _).2 ⟨rfl, ?_⟩
      have h09 : s0.extractLsb' 0 9 = 0#9 := by
        rw [show (0#9 : BitVec 9) = 0#1 ++ 0#8 by rfl, ← eBit_false h8, ← h0, BitVec.extractLsb'_append_extractLsb'_eq_extractLsb']
        rfl
      exact words_eq (e0_eq_iff.2 ⟨hm, hc, ho, rfl, specEvn_spec h10 h09⟩) e1 e2 e3 e4 e5 e6 e7
  · exact spells_error _ _
theorem decKick_spells (hm : wMaj s0 = 0x3F#6) (hc : eClass s0 = 7#4) :
    Spells [s0, s1, s2, s3, s4, s5, s6, s7] (decKick s0 s1 s2 s3 s4 s5 s6 s7) := by
  unfold decKick
  split
  · next ho =>
    refine spells_need fun ⟨h9, h3⟩ => spells_reg fun src e1 => spells_op fun len e2 => spells_kick fun kt e3 => spells_none fun e4 =>
      spells_none fun e5 => spells_none fun e6 => spells_none fun e7 => ?_
    rw [BitVec.ofNat_eq_ofNat] at h9 h3
    split
    · next h8 =>
      refine (spells_ok _ _).2 ⟨rfl, words_eq (e0_eq_iff.2 ⟨hm, hc, ho, rfl, ?_⟩) e1 e2 e3 e4 e5 e6 e7⟩
      rw [show (1#4 : BitVec 4) = 0#3 ++ 1#1 by rfl, ← h9, ← h3, ← eBit_true h8]
      simp only [BitVec.extractLsb'_append_extractLsb'_eq_extractLsb']
    · next h8 =>
      refine (spells_ok _ _).2 ⟨rfl, words_eq (e0_eq_iff.2 ⟨hm, hc, ho, rfl, ?_⟩) e1 e2 e3 e4 e5 e6 e7⟩
      rw [show (0#9 : BitVec 9) = 0#3 ++ 0#1 ++ 0#5 by rfl, ← h9, ← h3, ← eBit_false h8]
      simp only [BitVec.extractLsb'_append_extractLsb'_eq_extractLsb']
  · exact spells_error _ _
theorem decodeEngine_spells (hm : wMaj s0 = 0x3F#6) :
    Spells [s0, s1, s2, s3, s4, s5, s6, s7] (decodeEngine s0 s1 s2 s3 s4 s5 s6 s7) := by
  unfold decodeEngine
  split
  case h_1 | h_2 | h_3 | h_4 => exact decPrism_spells hm (by omega)
  case h_5 hc => exact decCopy_spells hm (BitVec.eq_of_toNat_eq hc)
  case h_6 hc => exact decGather_spells hm (BitVec.eq_of_toNat_eq hc)
  case h_7 hc => exact decMirror_spells hm (BitVec.eq_of_toNat_eq hc)
  case h_8 hc => exact decKick_spells hm (BitVec.eq_of_toNat_eq hc)
  case h_9 => exact spells_error _ _
end

end Sys2Proof
end

section
/-!
PROOFS. Whatever is read is spelt by its words, and reserved words are refused (O3).
-/
namespace Sys2Proof

/-! ### The decoder as a whole -/

theorem decodeWord_spells (w : W32) : Spells [w] (decodeWord w) := by
  unfold decodeWord
  split
  case h_1 hm => exact decAlu_spells hm
  case h_6 hm => exact decShift_spells hm
  case h_21 hm => exact decBranchReg_spells hm
  case h_22 hm => exact decLd_spells hm
  case h_23 hm => exact decSt_spells hm
  case h_24 hm => exact decLdHinted_spells hm
  case h_25 hm => exact decTch_spells hm
  case h_26 hm => exact decCmo_spells hm
  case h_27 hm => exact decAmo_spells hm
  case h_28 hm => exact decRed_spells hm
  case h_29 hm => exact decVInt_spells hm
  case h_30 hm => exact decVFp_spells hm
  case h_31 hm => exact decVFma_spells hm
  case h_32 hm => exact decVCmp_spells hm
  case h_33 hm => exact decVcvt_spells hm
  case h_34 hm => exact decVq_spells hm
  case h_35 hm => exact decVRed_spells hm
  case h_36 hm => exact decVPerm_spells hm
  case h_37 hm => exact decMask_spells hm
  case h_38 hm => exact decVld_spells hm
  case h_39 hm => exact decVst_spells hm
  case h_40 hm => exact decVgath_spells hm
  case h_41 hm => exact decVamo_spells hm
  case h_42 hm => exact decTask_spells hm
  case h_43 hm => exact decBar_spells hm
  case h_44 hm => exact decFence_spells hm
  case h_45 hm => exact decSys_spells hm
  case h_46 hm => exact decCsr_spells hm
  all_goals simp +contextual [Instr.wf, encode, iWord_eq_iff, bWord_eq_iff, *]
theorem decodeWords_word {w : W32} (h : wMaj w ≠ 0x3F) (al : Bool) (rest : List W32) : decodeWords al (w :: rest) = decodeWord w := if_neg h
theorem decodeWords_engine {s0 : W32} (h : wMaj s0 = 0x3F) (s1 s2 s3 s4 s5 s6 s7 : W32) (rest : List W32) :
    decodeWords true (s0 :: s1 :: s2 :: s3 :: s4 :: s5 :: s6 :: s7 :: rest) = decodeEngine s0 s1 s2 s3 s4 s5 s6 s7 := if_pos h
theorem decodeWords_misplaced {w : W32} (h : wMaj w = 0x3F) (rest : List W32) : decodeWords false (w :: rest) = .error (.reserved .align) := if_pos h
/-- An engine word is read only where eight words stand at a multiple of 32. -/
theorem decodeWords_engine_ok {al : Bool} {w : W32} {rest : List W32} {i : Instr} (hw : wMaj w = 0x3F) (h : decodeWords al (w :: rest) = .ok i) :
    al = true ∧ ∃ s1 s2 s3 s4 s5 s6 s7 r, rest = s1 :: s2 :: s3 :: s4 :: s5 :: s6 :: s7 :: r ∧ decodeEngine w s1 s2 s3 s4 s5 s6 s7 = .ok i := by
  cases al with
  | false => rw [decodeWords_misplaced hw] at h; cases h
  | true =>
    simp only [decodeWords, hw, if_true, Bool.not_true, Bool.false_eq_true, if_false] at h
    split at h
    · exact ⟨rfl, _, _, _, _, _, _, _, _, rfl, h⟩
    · cases h
/-- Whatever the decoder reads is well-formed, and the words begin with exactly its encoding. -/
theorem encode_of_decodeWords {al : Bool} {ws : List W32} {i : Instr} (h : decodeWords al ws = .ok i) :
    i.wf = true ∧ i.encoded = true ∧ (al = true ∨ (encode i).length = 1) ∧ ∃ r, ws = encode i ++ r := by
  cases ws with
  | nil => cases h
  | cons w rest =>
    by_cases hw : wMaj w = 0x3F
    · obtain ⟨hal, s1, s2, s3, s4, s5, s6, s7, r, rfl, hd⟩ := decodeWords_engine_ok hw h
      obtain ⟨hwf, he⟩ := decodeEngine_spells hw i hd
      exact ⟨hwf, by rw [Instr.encoded, he]; rfl, .inl hal, r, by rw [he]; rfl⟩
    · rw [decodeWords_word hw] at h
      obtain ⟨hwf, he⟩ := decodeWord_spells w i h
      exact ⟨hwf, by rw [Instr.encoded, he]; rfl, .inr (by rw [he]; rfl), rest, by rw [he]; rfl⟩

/-! ### Reserved words -/

/-- The major opcodes that R57 does not allocate. -/
def unallocated : List (BitVec 6) :=
  [0x01, 0x0E, 0x0F, 0x1F, 0x2D, 0x2E, 0x2F, 0x33, 0x34, 0x35, 0x36, 0x37, 0x3A, 0x3B, 0x3C, 0x3D, 0x3E]
theorem decodeWord_unallocated {w : W32} (h : wMaj w ∈ unallocated) : decodeWord w = .error (.reserved .major) := by
  simp only [unallocated, List.mem_cons, List.not_mem_nil, or_false] at h
  rcases h with h | h | h | h | h | h | h | h | h | h | h | h | h | h | h | h | h <;> simp [decodeWord, h]
theorem decodeWord_alu {w : W32} (h : wMaj w = 0x00) : decodeWord w = decAlu w := by simp [decodeWord, h]
theorem decodeWord_task {w : W32} (h : wMaj w = 0x30) : decodeWord w = decTask w := by simp [decodeWord, h]
theorem decodeWord_sys {w : W32} (h : wMaj w = 0x38) : decodeWord w = decSys w := by simp [decodeWord, h]
theorem decAlu_reserved {w : W32} (h : 0x20 ≤ (wFn w).toNat) : decAlu w = .error (.reserved .fn) := by
  unfold decAlu
  split
  case h_33 => rfl
  all_goals omega
theorem decSys_reserved {w : W32} (h : 9 ≤ (wFn w).toNat) : decSys w = .error (.reserved .fn) := by
  unfold decSys
  split
  case h_10 => rfl
  all_goals omega
theorem decTask_evr_last {w : W32} (hf : wFn w = 7#6) (hd : wD w = 31#5) : decTask w = badCode := by
  simp [decTask, hf, hd]

end Sys2Proof

open Sys2Proof Sys2Proof.Machine

/-- Settles O3: a reserved word reaches an error of its family's decoder, and what a decoder reads is spelt by its words. -/
theorem reservedRefused : Obligations.ReservedRefused := by
  intro w al rest
  refine ⟨fun h => ?_, fun h => ⟨_, decodeWords_misplaced h rest⟩, fun h hf => ?_, fun h hf hd => ?_, fun h hf => ?_,
    fun ws i => encode_of_decodeWords⟩
  · have hw : wMaj w ≠ 0x3F := fun e => by
      rw [show w.extractLsb' 26 6 = 0x3F from e] at h
      exact absurd h (by decide)
    exact ⟨_, (decodeWords_word hw al rest).trans (decodeWord_unallocated h)⟩
  · exact ⟨_, (decodeWords_word (by rw [wMaj, h]; decide) al rest).trans ((decodeWord_alu h).trans (decAlu_reserved hf))⟩
  · exact ⟨_, (decodeWords_word (by rw [wMaj, h]; decide) al rest).trans ((decodeWord_task h).trans (decTask_evr_last hf hd))⟩
  · exact ⟨_, (decodeWords_word (by rw [wMaj, h]; decide) al rest).trans ((decodeWord_sys h).trans (decSys_reserved hf))⟩
end

section
/-!
PROOFS. Registers and results under lookahead (O10, O11; R69, R70, R74).
-/
namespace Sys2Proof.Machine

/-! ### Registers -/

theorem Ctx.writeS_sameBut (x : Ctx) (r : SReg) (v : Word) : x.SameBut (x.writeS r v) := by
  unfold Ctx.SameBut Ctx.writeS
  split <;> rfl
theorem Ctx.writeV_sameBut (x : Ctx) (r : VReg) (v : Vec) : x.SameBut (x.writeV r v) := rfl
theorem Ctx.writeM_sameBut (x : Ctx) (r : MReg) (v : Word) : x.SameBut (x.writeM r v) := by
  unfold Ctx.SameBut Ctx.writeM
  split <;> rfl

/-! ### Lookahead -/

/-- The window of a result `v` of register `d`: `k` instructions are still to issue in it, and a later write may have discarded it (R69). -/
def resultWindow (d : SReg) (v : Word) (k : Nat) (dropped : Bool) : Window := ⟨k, .s d v, dropped, false⟩

theorem resultWindow_dropS (d q : SReg) (v : Word) (k : Nat) (b : Bool) :
    (resultWindow d v k b).dropS q = resultWindow d v k (b || decide (d = q)) := by
  by_cases h : d = q <;> simp [Window.dropS, resultWindow, h]
theorem Ctx.writeS_win (x : Ctx) {r : SReg} (h : r ≠ 0) (v : Word) : (x.writeS r v).win = x.win.map (·.dropS r) := by
  simp only [Ctx.writeS, if_neg h]
theorem State.result_window {s : State} (h : s.core.ctx.win = []) (d : SReg) (v : Word) {n : La} (hn : n ≠ 0) :
    s.result n (.s d v) = s.updCtx fun x => { x with win := [resultWindow d v (n.toNat + 1) false] } := by
  simp only [State.result, if_neg hn, State.updCtx, h, List.map_nil, List.nil_append, resultWindow]
/-- Each instruction that issues leaves the window one less to wait for. -/
theorem Ctx.repeat_ageWindows {x : Ctx} {d : SReg} {v : Word} {k : Nat} {b : Bool} (h : x.win = [resultWindow d v k b]) (j : Nat) :
    Nat.repeat Ctx.ageWindows j x = { x with win := [resultWindow d v (k - j) b] } := by
  induction j with
  | zero => rw [Nat.sub_zero, ← h]; rfl
  | succ j ih => simp only [Nat.repeat, ih, Ctx.ageWindows, List.map_cons, List.map_nil, resultWindow, Nat.sub_sub]
theorem Ctx.readS_closeWindows_open {x : Ctx} {d : SReg} {v : Word} {k : Nat} {b : Bool} (h : x.win = [resultWindow d v k b]) (hk : k ≠ 0)
    (q : SReg) : (x.closeWindows false).readS q = x.readS q := by
  simp [Ctx.closeWindows, h, resultWindow, hk, Ctx.readS]
theorem Ctx.readS_closeWindows_ended {x : Ctx} {d : SReg} {v : Word} {k : Nat} {b all : Bool} (h : x.win = [resultWindow d v k b]) (hd : d ≠ 0)
    (hk : all = true ∨ k = 0) : (x.closeWindows all).readS d = if b then x.readS d else v := by
  have he : (all || decide (k = 0)) = true := by simpa using hk
  have hs : (x.settle (resultWindow d v k b)).readS d = if b then x.readS d else v := by
    cases b <;> simp only [Ctx.settle, resultWindow, if_neg hd, Ctx.readS, Vector.getElem_set_self, Bool.false_eq_true, if_false, if_true]
  rw [← hs]
  simp [Ctx.closeWindows, h, resultWindow, he, Window.awaits, Ctx.readS]

/-- A write of the register discards the result, one of another register does not. -/
theorem Ctx.readS_writeS_closeWindows {x : Ctx} {d q : SReg} {v : Word} {k : Nat} (h : x.win = [resultWindow d v k false]) (hd : d ≠ 0)
    (hq : q ≠ 0) (w : Word) : ((x.writeS q w).closeWindows true).readS d = if q = d then w else v := by
  have hwin : (x.writeS q w).win = [resultWindow d v k (decide (d = q))] := by
    rw [Ctx.writeS_win x hq, h, List.map_cons, List.map_nil, resultWindow_dropS, Bool.false_or]
  rw [Ctx.readS_closeWindows_ended hwin hd (.inl rfl), Ctx.readS_writeS]
  by_cases e : d = q
  · rw [if_pos (decide_eq_true e), if_pos ⟨e, hq⟩, if_pos e.symm]
  · rw [if_neg (by simpa using e), if_neg (Ne.symm e)]

end Sys2Proof.Machine

open Sys2Proof Sys2Proof.Machine

/-- Settles O10, by the rules of a register read after a write, which hold in every context. -/
theorem registerLaws : Obligations.RegisterLaws := by
  intro s r q a b m n x y
  have hs : CtxOnly s (s.writeS r x) ∧ s.core.ctx.SameBut (s.writeS r x).core.ctx ∧ (s.writeS r x).pc = s.pc :=
    ⟨CtxOnly.updCtx s _, Ctx.writeS_sameBut _ r x, Ctx.writeS_pc _ r x⟩
  have hv : CtxOnly s (s.writeV a y) ∧ s.core.ctx.SameBut (s.writeV a y).core.ctx ∧ (s.writeV a y).pc = s.pc :=
    ⟨CtxOnly.updCtx s _, Ctx.writeV_sameBut _ a y, Ctx.writeV_pc _ a y⟩
  have hm : CtxOnly s (s.writeM m x) ∧ s.core.ctx.SameBut (s.writeM m x).core.ctx ∧ (s.writeM m x).pc = s.pc :=
    ⟨CtxOnly.updCtx s _, Ctx.writeM_sameBut _ m x, Ctx.writeM_pc _ m x⟩
  exact ⟨⟨Ctx.readS_zero _, Ctx.readM_zero _⟩, Ctx.readS_writeS _ r q x, Ctx.readV_writeV _ a b y, Ctx.readM_writeM _ m n x,
    Ctx.readV_writeS _ r b x, Ctx.readM_writeS _ r n x, Ctx.readS_writeV _ a q y, Ctx.readM_writeV _ a n y, Ctx.readS_writeM _ m q x,
    Ctx.readV_writeM _ m b x, ⟨rfl, rfl⟩, hs, hv, hm⟩

/-- Settles O11: the result waits in one window, which ends after its instructions or with all windows, and which a later write may discard. -/
theorem lookaheadResult : Obligations.LookaheadResult := by
  intro s d q v w n hw hd hq
  refine ⟨rfl, fun hn => ?_⟩
  rw [State.result_window hw d v hn]
  refine ⟨fun _ => rfl, fun k hk => ?_, ?_, ?_, ?_⟩
  · rw [Ctx.repeat_ageWindows rfl, Ctx.readS_closeWindows_open rfl (by omega)]
    rfl
  · rw [Ctx.repeat_ageWindows rfl, Ctx.readS_closeWindows_ended rfl hd (.inr (by omega))]
    rfl
  · rw [Ctx.readS_closeWindows_ended rfl hd (.inl rfl)]
    rfl
  · exact Ctx.readS_writeS_closeWindows rfl hd hq w
end

section
/-!
PROOFS. The swizzle (O28; R71).
-/
namespace Sys2Proof.Machine

theorem testBit_field (n k i : Nat) (h : i < 5) : n.testBit (k + i) = (n / 2 ^ k % 32).testBit i := by
  rw [show (32 : Nat) = 2 ^ 5 by rfl, Nat.testBit_mod_two_pow, Nat.testBit_div_two_pow]
  simp [h, Nat.add_comm]
theorem swz_zero (a : Nat) : swz a 0 = a := if_pos rfl
/-- The swizzled address by its three parts: bits 53:7, bits 6:2 and bits 1:0. -/
theorem swz_parts (a : Nat) {m : Nat} (h : m ≠ 0) :
    swz a m / 128 = a / 128 ∧ swz a m / 4 % 32 = a / 4 % 32 ^^^ a / 2 ^ (6 + m) % 32 ∧ swz a m % 4 = a % 4 := by
  have hx : a / 4 % 32 ^^^ a / 2 ^ (6 + m) % 32 < 32 :=
    Nat.xor_lt_two_pow (n := 5) (Nat.mod_lt _ (by decide)) (Nat.mod_lt _ (by decide))
  simp only [swz, if_neg h]
  generalize a / 4 % 32 ^^^ a / 2 ^ (6 + m) % 32 = x at *
  omega

end Sys2Proof.Machine

open Sys2Proof Sys2Proof.Machine

/-- Settles O28, by the three parts of a swizzled address. -/
theorem swizzleLaw : Obligations.SwizzleLaw := by
  intro a m _ _
  refine ⟨swz_zero a, fun hm => ?_⟩
  obtain ⟨hhi, hmid, hlo⟩ := swz_parts a hm
  refine ⟨hhi, hlo, fun i hi => ?_⟩
  calc (swz a m).testBit (2 + i) = (swz a m / 4 % 32).testBit i := testBit_field _ 2 i hi
    _ = ((a / 4 % 32).testBit i ^^ (a / 2 ^ (6 + m) % 32).testBit i) := by rw [hmid, Nat.testBit_xor]
    _ = (a.testBit (2 + i) ^^ a.testBit (6 + m + i)) :=
      congr (congrArg xor (testBit_field a 2 i hi).symm) (testBit_field a (6 + m) i hi).symm
end

section
/-!
PROOFS. The checks before an instruction (O6; R66, R112, R340), and a step that issues one (O4; R67, R69).
-/
namespace Sys2Proof.Machine

/-! ### Checks before an instruction -/

theorem State.obstacle_tooHigh {s : State} {i : Instr} {r : RegName} (h : tooHigh s.core.header i = some r) :
    s.obstacle i = some { code := 0x002, detail := 64 * r.cls + r.num } := by
  simp [State.obstacle, h]
theorem State.obstacle_declared {s : State} {i : Instr} (h : tooHigh s.core.header i = none) : s.obstacle i = s.barrierCheck i := by
  simp [State.obstacle, h]
theorem State.barrierCheck_high {s : State} {i : Instr} {n : Nat} (h : barrierOf i = some n) (hn : hdrBars s.core.header ≤ n) :
    s.barrierCheck i = some { code := 0x003, detail := n } := by
  simp [State.barrierCheck, h, hn]
theorem State.barrierCheck_declared {s : State} {i : Instr} (h : ∀ n, barrierOf i = some n → n < hdrBars s.core.header) :
    s.barrierCheck i = s.privilege i := by
  unfold State.barrierCheck
  split
  · next n hb => rw [if_neg (Nat.not_le.2 (h n hb))]
  · rfl
/-- What privilege denies an instruction: `hreq` by its request (R321), another by R112. -/
theorem State.privilege_hreq (s : State) (a : SReg) : s.privilege (.hreq a) =
    if s.hreqDenied a then some { code := 0x004 } else (s.badSource (.hreq a)).map fun r => { code := 0x083, detail := r.cls, stop := true } := rfl
@[inherit_doc State.privilege_hreq]
theorem State.privilege_other {s : State} {i : Instr} (h : ∀ a, i ≠ .hreq a) : s.privilege i =
    if systemOnly i && decide (s.core.ctx.mode = Mode.task) then some { code := 0x004 }
    else (s.badSource i).map fun r => { code := 0x083, detail := r.cls, stop := true } := by
  unfold State.privilege
  split
  · next a => exact absurd rfl (h a)
  · rfl

/-! ### A step -/

theorem State.focus_me (s : State) : s.focus s.me = s := if_pos rfl
theorem thenDo_thenDo (o : Host.Outcome State Fault Refusal) (f g : State → State) : thenDo (thenDo o f) g = thenDo o fun t => g (f t) := by
  cases o <;> rfl
/-- The move that issues for the core in focus, named by the agenda or taken without one (log 1). -/
theorem moveStep_issues {s u : State} {l : List Move}
    (h : s.agenda = .issue s.me :: l ∧ u = { s with agenda := l } ∨ s.agenda = [] ∧ s.core.waiting = false ∧ u = s) (hc : u.canIssue = true) :
    moveStep s = issueStep u := by
  rcases h with ⟨ha, rfl⟩ | ⟨ha, hw, rfl⟩
  · rw [moveStep, ha]
    exact congrArg issueStep (State.focus_me { s with agenda := l })
  · simp [moveStep, ha, takeMove, idleStep, hc, hw]
theorem issueStep_issueNow {u : State} (hc : u.canIssue = true) (he : EvEnd.first u [evHeldWordReport u.me, evBudgetExpiry u.me] = .off)
    (hb : u.core.blocked false = false) : issueStep u = issueNow u := by
  simp [issueStep, hc, he, hb]
theorem nextInstr_clear {s t : State} {ws : List W32} {i : Instr} (hf : fetchInstr s = .ok ws t)
    (hd : decodeWords (t.pc.toNat % 32 = 0) ws = .ok i) (ho : t.obstacle i = none) : nextInstr s = .ok i t := by
  simp [nextInstr, decodeHere, hf, hd, ho]
theorem State.sampleFacets_uncounted {s t : State} (h : ∀ p ∈ t.clusters, p.2.counts = false) : s.sampleFacets t = t :=
  if_pos (by simpa using h)
theorem State.noteIssue_uncounted {t : State} {c : Nat} (h : (t.clusterAt (clusterOf c)).counts = false) : t.noteIssue c = t := by
  simp only [State.noteIssue, State.coreSignal, State.noteSignal, h, Bool.false_eq_true, if_false]

end Sys2Proof.Machine

open Sys2Proof Sys2Proof.Machine

/-- Settles O6: each check is met only when those before it found nothing. -/
theorem obstacleOrder : Obligations.ObstacleOrder := by
  intro s i
  refine ⟨fun r hr => State.obstacle_tooHigh hr, fun n hh hb hn => ?_, fun hh hb hi hs hm => ?_, fun a hi hh hd => ?_, fun hh hb hm hd hs => ?_⟩
  · rw [State.obstacle_declared hh, State.barrierCheck_high hb hn]
  · rw [State.obstacle_declared hh, State.barrierCheck_declared hb, State.privilege_other hi]
    simp [hs, hm]
  · subst hi
    rw [State.obstacle_declared hh, State.barrierCheck_declared (by simp [barrierOf]), State.privilege_hreq, if_pos hd]
  · rw [State.obstacle_declared hh, State.barrierCheck_declared hb]
    by_cases hi : ∃ a, i = .hreq a
    · obtain ⟨a, rfl⟩ := hi
      simp [State.privilege_hreq, hd a rfl, hs]
    · rw [State.privilege_other (fun a h => hi ⟨a, h⟩)]
      rcases hm with hm | hm <;> simp [hm, hs]

/-- Settles O4, by what a step is when the core in focus issues and no check stops its instruction. -/
theorem stepRunsDecoded : Obligations.StepRunsDecoded := by
  refine ⟨fun s u s1 l ws i hu hc he hb hf hd ho => ?_, fun t i hw => ?_, fun _ _ => State.sampleFacets_uncounted,
    fun _ _ => State.noteIssue_uncounted⟩
  · have hn : issueNow u = thenDo (exec i s1) (·.after i) := by rw [issueNow, nextInstr_clear hf hd ho]
    rw [step, stepOf, moveStep_issues hu hc, issueStep_issueNow hc he hb, hn, thenDo_thenDo]
  · exact if_neg (hw ▸ Bool.false_ne_true)
end

section
/-!
PROOFS. Scalar loads and stores that end in an exception (O32; R72, R131, R150, R335).
-/
namespace Sys2Proof.Machine

theorem Act.bind_error {α β : Type} {a : Act α} {f : α → Act β} {s t : State} {e : Stop} (h : a s = .error e t) : (a >>= f) s = .error e t := by
  rw [Act.bind_apply, h]
theorem Act.bind_ok {α β : Type} {a : Act α} {f : α → Act β} {s t : State} {x : α} (h : a s = .ok x t) : (a >>= f) s = f x t := by
  rw [Act.bind_apply, h]

theorem addr54_lt (p : Word) : addr54 p < 2 ^ 54 := (p.extractLsb' 0 54).isLt
theorem addr54_ofNat {a : Nat} (h : a < 2 ^ 54) : addr54 (BitVec.ofNat 64 a) = a := by
  simp only [addr54, BitVec.extractLsb'_toNat, BitVec.toNat_ofNat, Nat.shiftRight_zero]
  omega

/-- The address of a scalar access: a register and an offset in units of the access (R53). -/
def State.scalarVa (s : State) (a : SReg) (z : MemType) (o : BitVec 6) : Word := addA (s.readS a) (sext o * w64 (memSize z))

theorem scalarAddr_unswizzlable {p : Word} {m : Nat} (hm : m ≠ 0) (h : ¬(0x100000 ≤ addr54 p ∧ addr54 p < 0x180000)) (n : Nat) (acc : Acc)
    (s : State) : scalarAddr p m n acc s = .error (.exc { code := 0x008, addr := p, acc := acc.code, detail := m }) s := by
  have hc : m ≠ 0 ∧ (!decide (0x100000 ≤ addr54 p ∧ addr54 p < 0x180000)) = true := ⟨hm, by rw [decide_eq_false h]; rfl⟩
  simp only [scalarAddr, if_pos hc, Act.bind_apply, Act.raise_apply, Bool.false_eq_true, if_false]
theorem scalarAddr_misaligned {p : Word} {n : Nat} (h : addr54 p % n ≠ 0) (acc : Acc) (s : State) :
    scalarAddr p 0 n acc s = .error (.exc { code := 0x006, addr := p, acc := acc.code }) s := by
  simp [scalarAddr, h, Act.raise_apply]
theorem scalarAddr_aligned {p : Word} {n : Nat} (h : addr54 p % n = 0) (acc : Acc) (s : State) :
    ∃ x, scalarAddr p 0 n acc s = .ok (BitVec.ofNat 64 (addr54 p), x) s := by
  have ha : (if n = 8 then addr54 p / 8 * 8 else addr54 p) = addr54 p := by
    split
    · next h8 => subst h8; omega
    · rfl
  simp [scalarAddr, h, swz, ha, w64]

theorem execLd_address {s : State} {d a : SReg} {l : La} {w : BitVec 3} {z : MemType} {o : BitVec 6} {e : Exc} (hb : s.core.blocked true = false)
    (h : scalarAddr (s.scalarVa a z o) w.toNat (memSize z) .load s = .error (.exc e) s) : exec (.ld d a l w z o) s = .next (s.takeExc e) :=
  finish_exc (Act.bind_error h) hb
theorem execSt_address {s : State} {d a : SReg} {w : BitVec 3} {z : MemType} {o : BitVec 6} {e : Exc} (hb : s.core.blocked true = false)
    (h : scalarAddr (s.scalarVa a z o) w.toNat (memSize z) .store s = .error (.exc e) s) : exec (.st d a w z o) s = .next (s.takeExc e) :=
  finish_exc (Act.bind_error h) hb
/-- An exception of the access itself at an aligned address, which is not swizzled. -/
theorem execLd_access {s : State} {d a : SReg} {l : La} {z : MemType} {o : BitVec 6} {e : Exc} (hb : s.core.blocked true = false)
    (h : addr54 (s.scalarVa a z o) % memSize z = 0)
    (hl : loadBytes (BitVec.ofNat 64 (addr54 (s.scalarVa a z o))) (memSize z) .load (memSize z = 8) none s = .error (.exc e) s) :
    exec (.ld d a l 0 z o) s = .next (s.takeExc e) := by
  obtain ⟨_, hx⟩ := scalarAddr_aligned h .load s
  exact finish_exc ((Act.bind_ok hx).trans (Act.bind_error hl)) hb
@[inherit_doc execLd_access]
theorem execSt_access {s : State} {d a : SReg} {z : MemType} {o : BitVec 6} {e : Exc} (hb : s.core.blocked true = false)
    (h : addr54 (s.scalarVa a z o) % memSize z = 0)
    (hl : ∀ n, storeTarget (BitVec.ofNat 64 (addr54 (s.scalarVa a z o))) n .store (memSize z = 8) none s = .error (.exc e) s) :
    exec (.st d a 0 z o) s = .next (s.takeExc e) := by
  obtain ⟨_, hx⟩ := scalarAddr_aligned h .store s
  exact finish_exc ((Act.bind_ok hx).trans (Act.bind_error (Act.bind_error (hl _)))) hb

theorem loadBytes_outside {s : State} {va : Word} {n : Nat} (hg : isGlobal (addr54 va) = false)
    (hw : s.localLoc s.me.toNat (addr54 va) n false = none) (acc : Acc) (ctl : Bool) (hint : Option (Nat × Bool)) :
    loadBytes va n acc ctl hint s = .error (.exc { code := 0x007, addr := va, acc := acc.code }) s := by
  simp [loadBytes, hg, hw, Act.raise_apply]
theorem globalAddr_absent {s : State} {d actx : Nat} {va : Word} {acc : Acc} {t : Nat} (ha : acc ≠ .fetch)
    (ht : translate d actx va acc t s = .ok .absent s) (hp : s.pinEnded d actx (addr54 va) = false) (m : Mode) (ctl : Bool) :
    globalAddr d actx m va acc ctl t s = .error (.exc { code := 0x009, addr := va, acc := acc.code }) s := by
  simp [globalAddr, ht, ha, hp, Act.raise_apply]
theorem globalAddr_denied {s : State} {va : Word} {l : Leaf} {acc : Acc} (h : s.Pinned va l) (hg : l.grants s.core.ctx.mode acc = false)
    (hm : regionOf (l.at (addr54 va)) = .nearSram ∨ regionOf (l.at (addr54 va)) = .gddr) (ctl : Bool) (t : Nat) :
    globalAddr s.myDie s.actx s.core.ctx.mode va acc ctl t s = .error (.exc { code := 0x00A, addr := va, acc := acc.code }) s := by
  have hc : regionOf (l.at (addr54 va)) ≠ .control := by rcases hm with h | h <;> simp [h]
  simp [globalAddr, translate_pinned h, hc, hg, Act.raise_apply]
/-- A load that misses the L1D, or does not look there since it asks for a lock (R243), ends as its translation does. -/
theorem loadBytes_untranslated {s : State} {va : Word} {n : Nat} {acc : Acc} {ctl : Bool} {e : Stop} (hg : isGlobal (addr54 va) = true)
    (hc : s.l1Find s.me.toNat false s.actx (addr54 va) = none)
    (h : globalAddr s.myDie s.actx s.core.ctx.mode va acc ctl s.core.ctx.task s = .error e s) (hint : Option (Nat × Bool)) :
    loadBytes va n acc ctl hint s = .error e s := by
  simp only [loadBytes, Act.bind_apply, Act.get_apply, hg, if_true]
  split
  · simp only [Act.bind_apply, l1Lookup_cold hc, h]
  · simp only [Act.bind_apply, Act.pure_apply, h]
theorem storeTarget_untranslated {s : State} {va : Word} {acc : Acc} {ctl : Bool} {e : Stop} (hg : isGlobal (addr54 va) = true)
    (h : globalAddr s.myDie s.actx s.core.ctx.mode va acc ctl s.core.ctx.task s = .error e s) (n : Nat) (lane : Option Nat) :
    storeTarget va n acc ctl lane s = .error e s := by
  simp only [storeTarget, Act.bind_apply, Act.get_apply, hg, if_true, h]

end Sys2Proof.Machine

open Sys2Proof Sys2Proof.Machine

/-- Settles O32, by the exception of the address, of the local windows or of the translation, which ends the access. -/
theorem accessFaults : Obligations.AccessFaults := by
  intro s d a l w z o hb
  refine ⟨fun hw h => ?_, ?_, ?_, ?_, ?_⟩
  · have hm : w.toNat ≠ 0 := fun h0 => hw (BitVec.eq_of_toNat_eq h0)
    exact ⟨execLd_address hb (scalarAddr_unswizzlable hm h _ .load s), execSt_address hb (scalarAddr_unswizzlable hm h _ .store s)⟩
  · rintro rfl h
    exact ⟨execLd_address hb (scalarAddr_misaligned h .load s), execSt_address hb (scalarAddr_misaligned h .store s)⟩
  · rintro rfl h hg hw
    exact execLd_access hb h (loadBytes_outside hg hw .load _ none)
  · rintro rfl h hg hc ht hp
    exact execLd_access hb h (loadBytes_untranslated hg hc (globalAddr_absent (by decide) ht hp _ _) none)
  · rintro f rfl h hg hp hd hm
    exact execSt_access hb h fun n => storeTarget_untranslated hg (globalAddr_denied hp hd hm _ _) n none
end

section
/-!
PROOFS. Words and bytes: a word, or a TCB, put into bytes reads back, and so do bytes that the hardware keeps in a local memory (R4, R82).
-/
namespace Sys2Proof.Machine

/-! ### Bytes of numbers, words and TCBs -/

@[simp] theorem leBytes_length (n v : Nat) : (leBytes n v).length = n := by
  induction n generalizing v with
  | zero => rfl
  | succ n ih => exact congrArg (· + 1) (ih (v / 256))
theorem natOfBytes_leBytes (n v : Nat) : natOfBytes (leBytes n v) = v % 256 ^ n := by
  induction n generalizing v with
  | zero => exact (Nat.mod_one v).symm
  | succ n ih =>
    rw [Nat.pow_succ', Nat.mod_mul, ← ih (v / 256)]
    exact congrArg (· + _) (BitVec.toNat_ofNat v 8)
theorem w64_natOfBytes_leBytes (x : Word) : w64 (natOfBytes (leBytes 8 x.toNat)) = x := by
  have h : x.toNat % 256 ^ 8 = x.toNat := Nat.mod_eq_of_lt x.isLt
  rw [natOfBytes_leBytes, h, w64, BitVec.ofNat_toNat, BitVec.setWidth_eq]
/-- One chunk of a list that is put together from chunks of `n`. -/
theorem take_drop_flatMap {α β : Type} {f : α → List β} {n : Nat} (hf : ∀ a, (f a).length = n) {l : List α} {i : Nat} (hi : i < l.length) :
    ((l.flatMap f).drop (n * i)).take n = f l[i] := by
  induction l generalizing i with
  | nil => exact absurd hi (Nat.not_lt_zero i)
  | cons a l ih =>
    cases i with
    | zero => simp [← hf a]
    | succ i =>
      have hd : n * (i + 1) = (f a).length + n * i := by rw [hf, Nat.mul_succ, Nat.add_comm]
      rw [List.flatMap_cons, hd, List.drop_length_add_append]
      exact ih (Nat.lt_of_succ_lt_succ hi)
theorem length_flatMap_chunks {α β : Type} {f : α → List β} {n : Nat} (hf : ∀ a, (f a).length = n) (l : List α) :
    (l.flatMap f).length = n * l.length := by
  induction l with
  | nil => rfl
  | cons a l ih => rw [List.flatMap_cons, List.length_append, hf, ih, List.length_cons, Nat.mul_succ, Nat.add_comm]
@[simp] theorem Tcb.bytes_length (t : Tcb) : t.bytes.length = 128 := by
  rw [Tcb.bytes, length_flatMap_chunks fun w : Word => leBytes_length 8 w.toNat, Vector.length_toList]
theorem tcbOf_bytes (t : Tcb) : tcbOf t.bytes = t := by
  refine Vector.ext fun i hi => ?_
  have hl : i < t.toList.length := by simpa using hi
  rw [tcbOf, Vector.getElem_ofFn, Tcb.bytes, take_drop_flatMap (fun w => leBytes_length 8 w.toNat) hl, w64_natOfBytes_leBytes]
  exact Vector.getElem_toList hl

/-! ### Bytes at consecutive locations -/

theorem mem_spanOf {a n k : Nat} : k ∈ spanOf a n ↔ a ≤ k ∧ k < a + n := by
  simp only [spanOf, List.mem_map, List.mem_range]
  exact ⟨fun ⟨j, _, _⟩ => by omega, fun _ => ⟨k - a, by omega, by omega⟩⟩
theorem spanOf_succ (a n : Nat) : spanOf a (n + 1) = a :: spanOf (a + 1) n := by
  simp [spanOf, List.range_succ_eq_map, Function.comp_def, Nat.add_assoc, Nat.add_comm 1]
theorem plainBytes_cons (l : Nat) (b : Byte) (bs : List Byte) : plainBytes l (b :: bs) = ⟨l, b, 0xFF⟩ :: plainBytes (l + 1) bs := by
  rw [plainBytes, List.length_cons, spanOf_succ]; rfl
theorem map_spanOf_congr {α : Type} {f g : Nat → α} {a n : Nat} (h : ∀ k, a ≤ k → k < a + n → f k = g k) : (spanOf a n).map f = (spanOf a n).map g :=
  List.map_congr_left fun _ hk => h _ (mem_spanOf.1 hk).1 (mem_spanOf.1 hk).2

/-- Memory after plain bytes have been written one by one. -/
theorem Cells.read_foldl_write (bs : List Byte) {m : Cells} (h : Memory.wf m = true) (l k : Nat) :
    Cells.read ((plainBytes l bs).foldl (fun m b => m.write b.loc b.val) m) k = if l ≤ k then bs.getD (k - l) (m.read k) else m.read k := by
  induction bs generalizing m l with
  | nil => simp [plainBytes, spanOf]
  | cons b bs ih =>
    rw [plainBytes_cons, List.foldl_cons, ih (Cells.write_wf h l b), Cells.read_write h]
    rcases Nat.lt_trichotomy k l with hk | rfl | hk
    · simp [show ¬l ≤ k by omega, show ¬l + 1 ≤ k by omega, show k ≠ l by omega]
    · rw [if_neg (Nat.not_succ_le_self k), if_pos rfl, if_pos (Nat.le_refl k), Nat.sub_self]; rfl
    · obtain ⟨j, rfl⟩ := Nat.exists_eq_add_of_lt hk
      simp [show l + 1 ≤ l + j + 1 by omega, show l ≤ l + j + 1 by omega, show l + j + 1 - (l + 1) = j by omega, show l + j + 1 - l = j + 1 by omega,
        show l + j + 1 ≠ l by omega]

/-! ### Bytes that the hardware keeps in a local memory -/

section
variable {s : State} {l : Nat} {bs : List Byte} (h : s.Canonical)
include h
theorem State.poke_canonical (l : Nat) (bs : List Byte) : (s.poke l bs).Canonical := Cells.foldl_write_wf SbByte.loc SbByte.val _ h
/-- Other locations keep what they hold. -/
theorem State.poke_read_other {k : Nat} (hk : k < l ∨ l + bs.length ≤ k) : (s.poke l bs).mem.read k = s.mem.read k := by
  rw [State.poke, Cells.read_foldl_write bs h]
  split
  · rw [List.getD_eq_getElem?_getD, List.getElem?_eq_none (by omega), Option.getD_none]
  · rfl
theorem State.poke_read_span (l : Nat) (bs : List Byte) : (spanOf l bs.length).map (s.poke l bs).mem.read = bs := by
  refine List.ext_getElem (by simp [spanOf]) fun i _ hi => ?_
  simp [spanOf, State.poke, Cells.read_foldl_write bs h, hi]
theorem State.poke_span_apart {a n : Nat} (hd : a + n ≤ l ∨ l + bs.length ≤ a) :
    (spanOf a n).map (s.poke l bs).mem.read = (spanOf a n).map s.mem.read :=
  map_spanOf_congr fun _ _ _ => State.poke_read_other h (by omega)
/-- As seen at their home points too (R139). -/
theorem State.poke_byte_other {k : Nat} (hk : k < l ∨ l + bs.length ≤ k) : (s.poke l bs).byte k = s.byte k := by
  have hm := State.poke_read_other h hk
  simp only [State.byte, State.homeByte, hm]
  rfl
end

end Sys2Proof.Machine
end

section
/-!
PROOFS. The deque of a core (O47; R99 to R101).
-/
namespace Sys2Proof.Machine

/-! ### Differences of counters -/

theorem word_sub_add_one (x y : Word) : x - (y + 1) = x - y - 1 := by bv_omega
theorem word_sub_one_sub (x y : Word) : x - 1 - y = x - y - 1 := by bv_omega
theorem word_add_one_sub (x y : Word) : x + 1 - y - 1 = x - y := by bv_omega

/-! ### Counters and slots -/

section
variable {s : State} {c : Nat} (h : s.Canonical)
include h
theorem State.dequeWord_setDeque (c off : Nat) (x : Word) : (s.setDeque c off x).dequeWord c off = x := by
  have hs := State.poke_read_span h (tcmLoc c off) (leBytes 8 x.toNat)
  rw [leBytes_length] at hs
  rw [State.dequeWord, State.setDeque, hs, w64_natOfBytes_leBytes]
theorem State.dequeWord_poke {off l : Nat} {bs : List Byte} (hd : tcmLoc c off + 8 ≤ l ∨ l + bs.length ≤ tcmLoc c off) :
    (s.poke l bs).dequeWord c off = s.dequeWord c off := by
  rw [State.dequeWord, State.poke_span_apart h hd, State.dequeWord]
theorem State.dequeTcb_poke {i : Word} {l : Nat} {bs : List Byte} (hd : dequeSlot c i + 128 ≤ l ∨ l + bs.length ≤ dequeSlot c i) :
    (s.poke l bs).dequeTcb c i = s.dequeTcb c i := by
  rw [State.dequeTcb, State.poke_span_apart h hd, State.dequeTcb]
theorem State.dequeTcb_poke_slot (c : Nat) (i : Word) (t : Tcb) : (s.poke (dequeSlot c i) t.bytes).dequeTcb c i = t := by
  have hs := State.poke_read_span h (dequeSlot c i) t.bytes
  rw [Tcb.bytes_length] at hs
  rw [State.dequeTcb, hs, tcbOf_bytes]
theorem State.setDeque_canonical (c off : Nat) (x : Word) : (s.setDeque c off x).Canonical := State.poke_canonical h _ _
/-- One counter written, the other and the slots stay. -/
theorem State.setDeque_top (c : Nat) (x : Word) :
    (s.setDeque c 0x1E000 x).dequeTop c = x ∧ (s.setDeque c 0x1E000 x).dequeBottom c = s.dequeBottom c :=
  ⟨State.dequeWord_setDeque h c _ x, State.dequeWord_poke h (.inr (by simp [tcmLoc]))⟩
@[inherit_doc State.setDeque_top] theorem State.setDeque_bottom (c : Nat) (x : Word) :
    (s.setDeque c 0x1E008 x).dequeBottom c = x ∧ (s.setDeque c 0x1E008 x).dequeTop c = s.dequeTop c :=
  ⟨State.dequeWord_setDeque h c _ x, State.dequeWord_poke h (.inl (by simp [tcmLoc]))⟩
@[inherit_doc State.setDeque_top] theorem State.setDeque_bottom_tcb (c : Nat) (x i : Word) :
    (s.setDeque c 0x1E008 x).dequeTcb c i = s.dequeTcb c i :=
  State.dequeTcb_poke h (.inr (by simp [dequeSlot, tcmLoc]; omega))

/-! ### A push (R100, R255) -/

theorem State.dequePush_canonical (c : Nat) (t : Tcb) : (s.dequePush c t).Canonical := State.setDeque_canonical (State.poke_canonical h _ _) _ _ _
theorem State.dequePush_top (c : Nat) (t : Tcb) : (s.dequePush c t).dequeTop c = s.dequeTop c := by
  rw [State.dequePush, (State.setDeque_bottom (State.poke_canonical h _ _) c _).2]
  exact State.dequeWord_poke h (.inl (by simp [dequeSlot, tcmLoc]; omega))
theorem State.dequePush_bottom (c : Nat) (t : Tcb) : (s.dequePush c t).dequeBottom c = s.dequeBottom c + 1 :=
  (State.setDeque_bottom (State.poke_canonical h _ _) c _).1
theorem State.dequePush_tcb_bottom (c : Nat) (t : Tcb) : (s.dequePush c t).dequeTcb c (s.dequeBottom c) = t := by
  rw [State.dequePush, State.setDeque_bottom_tcb (State.poke_canonical h _ _), State.dequeTcb_poke_slot h]
/-- A TCB whose slot is not that of BOTTOM stays. -/
theorem State.dequePush_tcb_other {i : Word} (hi : i.toNat % 63 ≠ (s.dequeBottom c).toNat % 63) (t : Tcb) :
    (s.dequePush c t).dequeTcb c i = s.dequeTcb c i := by
  rw [State.dequePush, State.setDeque_bottom_tcb (State.poke_canonical h _ _)]
  exact State.dequeTcb_poke h (by simp only [dequeSlot, tcmLoc, Tcb.bytes_length]; omega)
theorem State.dequePush_byte_other {k : Nat} (t : Tcb) (hs : ¬(dequeSlot c (s.dequeBottom c) ≤ k ∧ k < dequeSlot c (s.dequeBottom c) + 128))
    (hb : ¬(tcmLoc c 0x1E008 ≤ k ∧ k < tcmLoc c 0x1E010)) : (s.dequePush c t).byte k = s.byte k := by
  have hb' : k < tcmLoc c 0x1E008 ∨ tcmLoc c 0x1E008 + 8 ≤ k := by simp only [tcmLoc] at hb ⊢; omega
  rw [State.dequePush, State.setDeque, State.poke_byte_other (State.poke_canonical h _ _) (by rw [leBytes_length]; exact hb'),
    State.poke_byte_other h (by rw [Tcb.bytes_length]; omega)]

/-! ### The owner's pop and a steal (R100, R101) -/

/-- The owner takes the bottom TCB, and the deque is one shorter, whichever counter moves. -/
theorem State.dequePop_some (hne : s.dequeTop c ≠ s.dequeBottom c) : ∃ v, s.dequePop c = some (s.dequeTcb c (s.dequeBottom c - 1), v) ∧
    v.dequeBottom c - v.dequeTop c = s.dequeBottom c - s.dequeTop c - 1 := by
  by_cases h1 : s.dequeBottom c - s.dequeTop c = 1
  · refine ⟨s.setDeque c 0x1E000 (s.dequeTop c + 1), by rw [State.dequePop, if_neg hne, if_pos h1], ?_⟩
    obtain ⟨ht, hb⟩ := State.setDeque_top h c (s.dequeTop c + 1)
    rw [ht, hb, word_sub_add_one]
  · refine ⟨s.setDeque c 0x1E008 (s.dequeBottom c - 1), by rw [State.dequePop, if_neg hne, if_neg h1], ?_⟩
    obtain ⟨hb, ht⟩ := State.setDeque_bottom h c (s.dequeBottom c - 1)
    rw [ht, hb, word_sub_one_sub]
omit h in
theorem State.dequePop_eq_none_iff : s.dequePop c = none ↔ s.dequeTop c = s.dequeBottom c := by
  by_cases he : s.dequeTop c = s.dequeBottom c
  · simp [State.dequePop, he]
  · by_cases h1 : s.dequeBottom c - s.dequeTop c = 1#64 <;> simp [State.dequePop, he, h1]
/-- A thief takes the top TCB, and TOP moves. -/
theorem State.dequeSteal_some (hok : s.dequeOk c = true) (hne : s.dequeTop c ≠ s.dequeBottom c) :
    ∃ v, s.dequeSteal c = some (s.dequeTcb c (s.dequeTop c), v) ∧ v.dequeTop c = s.dequeTop c + 1 ∧ v.dequeBottom c = s.dequeBottom c :=
  ⟨s.setDeque c 0x1E000 (s.dequeTop c + 1), by simp [State.dequeSteal, hok, hne], State.setDeque_top h c _⟩
end

/-! ### The length -/

theorem State.dequeLen_eq_zero_iff {s : State} {c : Nat} : s.dequeLen c = 0 ↔ s.dequeTop c = s.dequeBottom c := by
  rw [State.dequeLen, ← BitVec.toInt_zero (w := 64), BitVec.toInt_inj]
  constructor <;> intro e <;> bv_omega
/-- Counters that have not passed the largest `i64` differ by the length. -/
theorem State.dequeLen_of_le {s : State} {c : Nat} (hle : (s.dequeTop c).toNat ≤ (s.dequeBottom c).toNat) (hb : (s.dequeBottom c).toNat < 2 ^ 63) :
    s.dequeLen c = (s.dequeBottom c).toNat - (s.dequeTop c).toNat := by
  have hn : (s.dequeBottom c - s.dequeTop c).toNat = (s.dequeBottom c).toNat - (s.dequeTop c).toNat := BitVec.toNat_sub_of_le hle
  rw [State.dequeLen, BitVec.toInt_eq_toNat_of_lt (by rw [hn]; omega), hn, Int.ofNat_sub hle]
/-- One less than a positive `i64`. -/
theorem toInt_sub_one {x : Word} (h : 0 < x.toInt) : (x - 1).toInt = x.toInt - 1 := by
  have hx := BitVec.toInt_lt (x := x)
  rw [BitVec.toInt_sub, show (1 : Word).toInt = 1 from rfl, Int.bmod_eq_of_le (by omega) (by omega)]
/-- A deque of fewer than 63 TCBs has none in slot BOTTOM. -/
theorem State.slot_ne_bottom {s : State} {c : Nat} {i : Word} (hb : (s.dequeBottom c).toNat < 2 ^ 63) (hl : s.dequeLen c < 63)
    (hi : (s.dequeTop c).toNat ≤ i.toNat) (hib : i.toNat < (s.dequeBottom c).toNat) : i.toNat % 63 ≠ (s.dequeBottom c).toNat % 63 := by
  have hlen := State.dequeLen_of_le (by omega) hb
  omega
theorem ne_add_one_of_le {t b : Word} (hle : t.toNat ≤ b.toNat) (hb : b.toNat < 2 ^ 63) : t ≠ b + 1 := by bv_omega

end Sys2Proof.Machine

open Sys2Proof Sys2Proof.Machine

/-- Settles O47, by what a push, a pop and a steal read and write of the counters and slots; of the TCBs pushed before, fewer than 63, none lies
in slot BOTTOM. -/
theorem dequeLaws : Obligations.DequeLaws := by
  intro s c t hc _ hle hlt hok b u
  have ht : u.dequeTop c = s.dequeTop c := State.dequePush_top hc c t
  have hb : u.dequeBottom c = b + 1 := State.dequePush_bottom hc c t
  have htcb : u.dequeTcb c b = t := State.dequePush_tcb_bottom hc c t
  refine ⟨fun h63 => ⟨⟨ht, hb, htcb⟩, fun i hi hib => State.dequePush_tcb_other hc (State.slot_ne_bottom hlt h63 hi hib) t, fun k => State.dequePush_byte_other hc t, ?_⟩,
    State.dequeLen_eq_zero_iff.trans State.dequePop_eq_none_iff.symm, fun hpos => ?_⟩
  · have hne : u.dequeTop c ≠ u.dequeBottom c := by rw [ht, hb]; exact ne_add_one_of_le hle hlt
    obtain ⟨v, hv, hl⟩ := State.dequePop_some (State.dequePush_canonical hc c t) hne
    rw [hb, BitVec.add_sub_cancel, htcb] at hv
    refine ⟨v, hv, ?_⟩
    rw [State.dequeLen, hl, hb, ht, State.dequeLen, word_add_one_sub]
  · have hne : s.dequeTop c ≠ s.dequeBottom c := fun e => Int.ne_of_gt hpos (State.dequeLen_eq_zero_iff.2 e)
    obtain ⟨v, hv, hvt, hvb⟩ := State.dequeSteal_some hc hok hne
    refine ⟨v, hv, hvt, hvb, ?_⟩
    rw [State.dequeLen, hvt, hvb, word_sub_add_one]
    exact toInt_sub_one hpos
end

section
/-!
PROOFS. What happens around tasks, against its statement (O55; R243, R279).
-/
namespace Sys2Proof.Machine

/-- A task of core 0 waits for the lock of line 7 at slice 3. Line 7 is free: an activation of core 1 has committed, and a write that it made before
to a line homed on die 1 is still on its way (R279). -/
def State.lockAfterCommit : State :=
  let w : WriteThrough := ⟨0, plainBytes (2 ^ 38) [1], 0, ⟨0, 1, 4, 0, 0, []⟩, [], [7], false, 0, 0⟩
  { State.reset with
    core := { Core.reset with ctx := { Ctx.reset 0 with st := .run, task := 5, lockWait := [(3, 7)] } }
    wts := [w] }

theorem State.lockAfterCommit_quiet : State.lockAfterCommit.Quiet where
  canonical := rfl
  physical := nofun
  sorted := .nil
  unwatched := by decide
/-- The request is served, and what the commit had in its order enters that of core 0 (R279). -/
theorem State.lockAfterCommit_lockRequest : Reaches (exec (.lockRequest 0) State.lockAfterCommit) fun t =>
    t.wts.map (·.seen) = [[0]] := ⟨_, rfl, rfl⟩

end Sys2Proof.Machine

open Sys2Proof Sys2Proof.Machine

/-- Refutes O55: a line is locked that a commit has freed, whose earlier write-through is still under way (R279). The core's order takes
in that write-through, so more than the lock and the L1D copies of the line changes. -/
theorem not_schedulingSteps : ¬ Obligations.SchedulingSteps := by
  unfold Obligations.SchedulingSteps
  intro h
  obtain ⟨_, _, _, _, hlock, _⟩ := h State.lockAfterCommit State.lockAfterCommit_quiet
  obtain ⟨hfree, _⟩ := hlock 0 3 7 rfl rfl
  have hnext := hfree nofun (by decide) nofun
  obtain ⟨t, ht, hseen⟩ := State.lockAfterCommit_lockRequest
  rw [hnext] at ht
  cases ht
  exact absurd hseen (by decide)
end
